-- ==== Sys2Proof/Word.lean ====
section
/-!
DEFINITION. The plain words of the BN-812's formats (spec/11, R196): bytes, station positions and numbers
read from bytes most significant first.
-/
namespace Sys2Proof

/-- One byte of a frame, a cue record, the configuration record or show memory. -/
abbrev Byte := BitVec 8

/-- A station's position on the Basin Link, 0..31 (R190). -/
abbrev Position := Fin 32

/-- A jet channel or pump, 0..7. -/
abbrev Channel := Fin 8

/-- The two voices of the audio unit (R92). -/
inductive VoiceId where
  | a
  | b
  deriving DecidableEq, Repr

/-- A number stored most significant byte first (R196). -/
def beNat (bs : List Byte) : Nat := bs.foldl (fun n b => n * 256 + b.toNat) 0

/-- The `k` bytes of `n`, most significant first (R196). -/
def beBytes : Nat → Nat → List Byte
  | 0, _ => []
  | k + 1, n => BitVec.ofNat 8 (n / 256 ^ k) :: beBytes k n

end Sys2Proof
end

