-- ==== Sys2Proof/Syntax.lean ====
section
/-!
DEFINITION. The commands of the BN-812: one constructor for every row of spec/opcode_table.json. The manual gives the
part no register window (spec/00): a command is a frame accepted from the Basin Link, an event of a clock, a timer, the
memory port or the line, or a change of one of the station's own inputs.
-/
namespace Sys2Proof

/-- What the cabinet's sensors gave over the show frame that a boundary ends (R177, R178): the mean loop current in
whole microamperes, and the anemometer pulses counted. -/
structure BoundaryInput where
  loop : Nat
  pulses : Nat
  deriving DecidableEq, Repr

/-- The payload of a SEGMENT_DEFINE (R198): show id, segment byte, type byte, length, and bytes 7..10 read as one
number. -/
structure SegmentDefineFields where
  showId : Byte
  segment : Byte
  kind : Byte
  length : BitVec 32
  tail : BitVec 32
  deriving DecidableEq, Repr

/-- The payload of a PAGE_DATA (R198): show id, segment, page, chunk and the chunk's bytes. -/
structure PageDataFields where
  showId : Byte
  segment : Byte
  page : Byte
  chunk : Byte
  data : List Byte
  deriving DecidableEq, Repr

/-- The payload of a BEACON (R197). -/
structure BeaconFields where
  stamp : BitVec 48
  role : Byte
  state : Byte
  showId : Byte
  index : BitVec 16
  demand : BitVec 32
  share : BitVec 32
  wind : BitVec 16
  level : BitVec 16
  flags : Byte
  deriving DecidableEq, Repr

/-- A command. Each docstring gives the row of spec/opcode_table.json and its rule. A frame's `sender` is the position
in the low five bits of its arbitration byte (R152). -/
inductive Instr where
  /-- POWER_ON (R192): the strap pins, and the levels the stop input and feedback filters start from (R188). -/
  | powerOn (strap : Position) (stopOpen : Bool) (contacts : BitVec 8)
  /-- CONFIG_READ_COMPLETE (R191): the bytes the configuration memory answered. -/
  | configReadComplete (record : List Byte)
  /-- RESET_PIN_ASSERT (R194). -/
  | resetPinAssert
  /-- RESET_PIN_RELEASE (R194): the strap as it is read again. -/
  | resetPinRelease (strap : Position)
  /-- RESET_STATION (R194): the frame's target, and the strap as it is read again. -/
  | resetStation (sender : Position) (target : Byte) (strap : Position)
  /-- LISTEN_END (R193). -/
  | listenEnd (i : BoundaryInput)
  /-- FRAME_BOUNDARY (R1). -/
  | frameBoundary (i : BoundaryInput)
  /-- WARMUP_END (R12). -/
  | warmupEnd (i : BoundaryInput)
  /-- WAKE (R11). -/
  | wake (sender : Position)
  /-- STANDBY (R11). -/
  | standby (sender : Position)
  /-- SHOW_SELECT (R10). -/
  | showSelect (sender : Position) (showId : Byte)
  /-- GO (R14). -/
  | go (sender : Position) (showId : Byte) (t0 : BitVec 48)
  /-- T0_REACHED (R15). -/
  | t0Reached
  /-- HOLD (R16). -/
  | hold (sender : Position) (th : BitVec 48)
  /-- ENTER_HELD (R16). -/
  | enterHeld (i : BoundaryInput)
  /-- RESUME (R17). -/
  | resume (sender : Position) (tr : BitVec 48)
  /-- RESUME_BOUNDARY (R17). -/
  | resumeBoundary (i : BoundaryInput)
  /-- STOP (R18): the fade frames it carries. -/
  | stop (sender : Position) (fade : BitVec 16)
  /-- END_ACTION_DUE (R34). -/
  | endActionDue
  /-- ENDING_COMPLETE (R19). -/
  | endingComplete (i : BoundaryInput)
  /-- STOP_ASSERT (R20). -/
  | stopAssert (sender : Position)
  /-- CLEAR_HALT (R21). -/
  | clearHalt (sender : Position)
  /-- TRIGGER (R42): the trigger number and the press stamp P. -/
  | trigger (sender : Position) (number : Byte) (press : BitVec 48)
  /-- CUE_READ_COMPLETE (R28). -/
  | cueReadComplete
  /-- REST_EXPIRY (R62). -/
  | restExpiry (p : Channel) (i : BoundaryInput)
  /-- SOFT_START_END (R63). -/
  | softStartEnd (p : Channel) (i : BoundaryInput)
  /-- MINIMUM_RUN_END (R64). -/
  | minimumRunEnd (p : Channel) (i : BoundaryInput)
  /-- FEEDBACK_ABSENCE_LOCK (R70). -/
  | feedbackAbsenceLock (p : Channel) (i : BoundaryInput)
  /-- STOPPING_DRIVE_ZERO (R65). -/
  | stoppingDriveZero (p : Channel) (i : BoundaryInput)
  /-- SPACING_TIMER_EXPIRY (R69). -/
  | spacingTimerExpiry
  /-- START_CLAIM (R67): the peer's channel and allowance. -/
  | startClaim (sender : Position) (channel : Byte) (allowance : BitVec 16)
  /-- CLAIM_GONE_OUT (R68). -/
  | claimGoneOut
  /-- DEFINITION_ANSWER (R95). -/
  | definitionAnswer
  /-- CONTENT_END (R97). -/
  | contentEnd (v : VoiceId)
  /-- OUTPUT_PAIR (R102): one tick of the local oscillator. -/
  | outputPair
  /-- ROW_READ_COMPLETE (R110). -/
  | rowReadComplete
  /-- WALK_COMPLETE (R117). -/
  | walkComplete
  /-- MAP_REGION_ACCESS_COMPLETE (R114). -/
  | mapRegionAccessComplete
  /-- QUEUED_CHANGE_APPLY (R114). -/
  | queuedChangeApply
  /-- SEGMENT_DEFINE (R120). -/
  | segmentDefine (sender : Position) (f : SegmentDefineFields)
  /-- PAGE_DATA (R131). -/
  | pageData (sender : Position) (f : PageDataFields)
  /-- SHOW_SELECT_TAKEN (R121). -/
  | showSelectTaken
  /-- SEGMENT_DEFINE_TAKEN (R124). -/
  | segmentDefineTaken
  /-- PAGE_DATA_TAKEN (R125). -/
  | pageDataTaken
  /-- CHUNK_WRITE_COMPLETE (R126). -/
  | chunkWriteComplete
  /-- FETCH_TIMER_EXPIRY (R128). -/
  | fetchTimerExpiry
  /-- PAGE_REQUEST_QUEUE (R128). -/
  | pageRequestQueue
  /-- PAGE_REQUEST_GONE_OUT (R128). -/
  | pageRequestGoneOut
  /-- PAGE_REQUEST (R130). -/
  | pageRequest (sender : Position) (showId segment page : Byte)
  /-- SERVE_DELAY_END (R131). -/
  | serveDelayEnd
  /-- SERVE_READ_ISSUE (R132). -/
  | serveReadIssue
  /-- SERVE_READ_COMPLETE (R132). -/
  | serveReadComplete
  /-- PAGE_DATA_GONE_OUT (R132). -/
  | pageDataGoneOut
  /-- INIT_WAIT_END (R148). -/
  | initWaitEnd
  /-- INIT_PRECHARGE_END (R148). -/
  | initPrechargeEnd
  /-- INIT_REFRESH_END (R148). -/
  | initRefreshEnd
  /-- INIT_MODE_END (R148). -/
  | initModeEnd
  /-- GRANT_POINT (R140). -/
  | grantPoint
  /-- DEBT_RISE (R145). -/
  | debtRise
  /-- BANK_ACTIVATE_DONE (R139). -/
  | bankActivateDone (bank : Fin 4)
  /-- BANK_PRECHARGE_DONE (R139). -/
  | bankPrechargeDone (bank : Fin 4)
  /-- TRANSMIT_START (R153): the arbitration bytes of the other stations whose start delimiters begin in the same bit
  time on the line. -/
  | transmitStart (rivals : List Byte)
  /-- TRANSMIT_ERROR (R156). -/
  | transmitError
  /-- MUTE_END (R157). -/
  | muteEnd (i : BoundaryInput)
  /-- BEACON_GONE_OUT (R155). -/
  | beaconGoneOut
  /-- STOP_ASSERT_GONE_OUT (R154). -/
  | stopAssertGoneOut
  /-- STATUS_REPLY_GONE_OUT (R163). -/
  | statusReplyGoneOut
  /-- YIELD_IDLE_EXPIRY (R158). -/
  | yieldIdleExpiry
  /-- FRAME_DISCARDED (R159): the line levels of the frame, from the start delimiter on (true is recessive). -/
  | frameDiscarded (levels : List Bool)
  /-- STATUS_REPLY (R162): its payload. -/
  | statusReply (sender : Position) (payload : List Byte)
  /-- STATUS_QUERY_GENERAL (R22). -/
  | statusQueryGeneral (sender : Position) (target tag : Byte)
  /-- STATUS_QUERY_PUMPS (R76). -/
  | statusQueryPumps (sender : Position) (target tag : Byte)
  /-- STATUS_QUERY_FIXTURES (R91). -/
  | statusQueryFixtures (sender : Position) (target tag : Byte)
  /-- STATUS_QUERY_PEERS (R176). -/
  | statusQueryPeers (sender : Position) (target tag : Byte)
  /-- STATUS_QUERY_MEMORY (R136). -/
  | statusQueryMemory (sender : Position) (target tag : Byte)
  /-- STATUS_QUERY_FAULTS (R189). -/
  | statusQueryFaults (sender : Position) (target tag : Byte)
  /-- BEACON (R167): its payload, and the ticks of the local oscillator from the first edge of its start delimiter to
  its acceptance (R160), used when no earlier command recorded the start of the reception. -/
  | beacon (sender : Position) (f : BeaconFields) (elapsed : Nat)
  /-- LEVEL_READING_VALID (R177). -/
  | levelReadingValid (i : BoundaryInput)
  /-- WIND_READING_VALID (R178). -/
  | windReadingValid (i : BoundaryInput)
  /-- CUTOUT_END (R181). -/
  | cutoutEnd (i : BoundaryInput)
  /-- STOP_INPUT_ACTIVE (R183). -/
  | stopInputActive
  /-- STOP_INPUT_INACTIVE (R183). -/
  | stopInputInactive
  /-- FEEDBACK_CHANGE (R184): the pump, and whether its filtered feedback is now present. -/
  | feedbackChange (p : Channel) (present : Bool)
  /-- CLEAR_FAULTS (R187). -/
  | clearFaults (sender : Position) (target : Byte)
  /-- STATUS_QUERY_UNKNOWN_SELECTOR (R163). -/
  | statusQueryUnknownSelector (sender : Position) (target selector tag : Byte)
  deriving DecidableEq, Repr

end Sys2Proof
end

