-- ==== Sys2Proof/Machine/Arith.lean ====
section
/-!
DEFINITION. The integer arithmetic of the manual (spec/00, "Arithmetic"): integer square root, clamping, decibel factors,
and sums over the fixed files.
-/
namespace Sys2Proof.Machine

/-- The bits of an integer square root from bit `k - 1` down, given the bits above. -/
def isqrtBits : Nat → Nat → Nat → Nat
  | 0, r, _ => r
  | k + 1, r, n => isqrtBits k (if (r + 2 ^ k) * (r + 2 ^ k) ≤ n then r + 2 ^ k else r) n

/-- isqrt(x): the largest integer whose square does not exceed x (for x below 2^64). -/
def isqrt (n : Nat) : Nat := isqrtBits 32 0 n

/-- `x` brought to the nearest end of `lo..hi` when it lies outside. -/
def clamp (lo hi x : Nat) : Nat := max lo (min hi x)

/-- A signed value brought to the nearest end of `-m..m`. -/
def clampInt (m : Nat) (x : Int) : Int := max (-(m : Int)) (min (m : Int) x)

/-- ceil(x / y). -/
def ceilDiv (x y : Nat) : Nat := (x + y - 1) / y

/-- The bits from bit `k - 1` down of the largest n with (2n - 1)^200 × 10^g ≤ 65536^200. -/
def dbBits : Nat → Nat → Nat → Nat
  | 0, r, _ => r
  | k + 1, r, g =>
    dbBits k (if (2 * (r + 2 ^ k) - 1) ^ 200 * 10 ^ g ≤ 65536 ^ 200 then r + 2 ^ k else r) g

/-- round(32768 × 10^(-g/200)), the factor of `g` tenths of a decibel of attenuation (R78, R99, R102). It is the
largest n with n - 1/2 ≤ 32768 × 10^(-g/200), which is the comparison of `dbBits` raised to the power 200. -/
def dbFactor (g : Nat) : Nat := dbBits 16 0 g

/-- The largest `f ≤ n` that qualifies, given that 0 does. -/
def largestUpTo (p : Nat → Bool) : Nat → Nat
  | 0 => 0
  | n + 1 => if p (n + 1) then n + 1 else largestUpTo p n

/-- The sum of `f` over the list. -/
def sumBy {α : Type} (f : α → Nat) (l : List α) : Nat := l.foldl (fun n x => n + f x) 0

/-- Insertion into an ascending list, before the first greater element. -/
def insertInt (x : Int) : List Int → List Int
  | [] => [x]
  | y :: ys => if x < y then x :: y :: ys else y :: insertInt x ys

/-- Ascending order, equal values kept. -/
def sortInt (l : List Int) : List Int := l.foldr insertInt []

/-- The lower median: the value at index floor((n - 1) / 2) of the values in ascending order (R4, R9). -/
def lowerMedian (l : List Int) : Option Int := (sortInt l)[(l.length - 1) / 2]?

/-- x >> 15 for a signed value: floor(x / 2^15). -/
def shr15 (x : Int) : Int := x / 32768

/-- Saturation to a signed 16-bit sample. -/
def sat16 (x : Int) : Int := max (-32768) (min 32767 x)

/-- `s + (t - s) × j / n`, the division truncating toward zero (R81, R99). -/
def lerp (s t j n : Nat) : Nat := ((s : Int) + (((t : Int) - s) * j).tdiv n).toNat

/-- A counter of two bytes that saturates at 65,535. -/
def satInc (n : Nat) : Nat := min 65535 (n + 1)

/-- The number of set bits among the lowest `k`. -/
def popCount {w : Nat} (b : BitVec w) (k : Nat) : Nat :=
  (List.range k).foldl (fun n i => if b.getLsbD i then n + 1 else n) 0

end Sys2Proof.Machine
end

