-- ==== Sys2Proof/Machine/Memory.lean ====
section
/-!
DEFINITION. Sparse tables in canonical form: lists of (key, value) pairs with the keys strictly rising, and show memory
as one of them (spec/07, R137), in which no entry holds what an unlisted address reads as.
-/
namespace Sys2Proof.Machine

/-- The value held for `k`. -/
def Table.get? {α : Type} (t : List (Nat × α)) (k : Nat) : Option α :=
  match t with
  | [] => none
  | (k', v) :: rest => if k' = k then some v else if k < k' then none else Table.get? rest k

/-- `t` with `v` held for `k`. -/
def Table.put {α : Type} (t : List (Nat × α)) (k : Nat) (v : α) : List (Nat × α) :=
  match t with
  | [] => [(k, v)]
  | (k', v') :: rest =>
    if k < k' then (k, v) :: (k', v') :: rest
    else if k = k' then (k, v) :: rest
    else (k', v') :: Table.put rest k v

/-- `t` with nothing held for `k`. -/
def Table.drop {α : Type} (t : List (Nat × α)) (k : Nat) : List (Nat × α) :=
  match t with
  | [] => []
  | (k', v') :: rest =>
    if k < k' then (k', v') :: rest
    else if k = k' then rest
    else (k', v') :: Table.drop rest k

/-- The keys strictly rise, and lie above `lo` when one is given. -/
def Table.risesFrom {α : Type} (lo : Option Nat) (t : List (Nat × α)) : Bool :=
  match t with
  | [] => true
  | (k, _) :: rest =>
    (match lo with
      | none => true
      | some l => decide (l < k)) && Table.risesFrom (some k) rest

/-- What a byte of show memory that nothing has written reads as. The manual gives the SDRAM no contents after
power-on. DESIGN CHOICE, unsafe (notes/assumptions/2.md). -/
def Memory.unlisted : Byte := 0

/-- The canonical form: addresses strictly rising, and no entry equal to what an unlisted address reads as. -/
def Memory.wf (m : List Host.Cell) : Bool :=
  Table.risesFrom none m && m.all (fun c => c.2 != Memory.unlisted)

/-- The byte at address `a`. -/
def Memory.read (m : List Host.Cell) (a : Nat) : Byte := (Table.get? m a).getD Memory.unlisted

/-- `m` with byte `b` at address `a`, in canonical form. -/
def Memory.write (m : List Host.Cell) (a : Nat) (b : Byte) : List Host.Cell :=
  if b = Memory.unlisted then Table.drop m a else Table.put m a b

/-- The `n` bytes from address `a` on. -/
def Memory.readRange (m : List Host.Cell) (a n : Nat) : List Byte :=
  (List.range n).map (fun i => Memory.read m (a + i))

/-- The bytes `bs` written from address `a` on, each under the byte mask (none is not written, R137). -/
def Memory.writeRange (m : List Host.Cell) (a : Nat) (bs : List (Option Byte)) : List Host.Cell :=
  match bs with
  | [] => m
  | none :: rest => Memory.writeRange m (a + 1) rest
  | some b :: rest => Memory.writeRange (Memory.write m a b) (a + 1) rest

/-- The lowest page from `n` on that the ascending list does not name (R119). -/
def lowestNotIn (n : Nat) : List Nat → Nat
  | [] => n
  | t :: ts => if t = n then lowestNotIn (n + 1) ts else n

/-- Insertion into a strictly ascending list. -/
def insertNat (x : Nat) : List Nat → List Nat
  | [] => [x]
  | y :: ys => if x < y then x :: y :: ys else if x = y then y :: ys else y :: insertNat x ys

end Sys2Proof.Machine
end

