-- ==== Sys2Proof/Config.lean ====
section
/-!
DEFINITION. What the configuration record fixes for a station (the parameter entries of spec/01 to spec/10, their
defaults included), and the values the manual leaves open.
-/
namespace Sys2Proof

/-- The bit rate of the Basin Link (R151). -/
inductive LinkRate where
  | r500k
  | r1M
  deriving DecidableEq, Repr

/-- The parameters of one pump (spec/03, "Pump parameters"), as taken by R50. -/
structure PumpParams where
  /-- a pump is wired to the jet channel -/
  present : Bool := false
  /-- Hmax, cm -/
  hmax : Nat := 1000
  /-- d_min -/
  dmin : Nat := 1024
  /-- P_rated, W -/
  prated : Nat := 0
  /-- the start allowance A, W -/
  allowance : Nat := 0
  /-- latency, ms -/
  latency : Nat := 300
  /-- soft-start frames -/
  soft : Nat := 100
  /-- minimum run, s -/
  minRun : Nat := 10
  /-- rest time, s -/
  rest : Nat := 30
  /-- ramp up, drive per frame -/
  rampUp : Nat := 64
  /-- ramp down, drive per frame -/
  rampDown : Nat := 128
  deriving DecidableEq, Repr

/-- The parameters of one fixture (spec/04, "Fixture parameters"), as taken by R78. -/
structure FixtureParams where
  present : Bool := false
  submerged : Bool := true
  /-- cover level, cm -/
  cover : Nat := 50
  /-- floor, output units -/
  floor : Nat := 0
  /-- trim, tenths of a decibel -/
  trim : Nat := 0
  /-- halt level, a colour value -/
  halt : Nat := 0
  deriving DecidableEq, Repr

/-- Every parameter of a station as the blocks take it (R191). The field defaults are those of the entries, used
when the record is invalid; the ring index's default is the strap position and is set where the record is taken. -/
structure Params where
  autoWake : Bool := false
  levelFitted : Bool := false
  windFitted : Bool := false
  linkRate : LinkRate := .r500k
  linkDelay : Nat := 12
  slew : Nat := 8
  endFade : Nat := 100
  /-- horizon, s -/
  horizon : Nat := 5
  ringIndex : Nat := 0
  /-- F, W -/
  feedLimit : Nat := 0
  /-- S, ms -/
  spacing : Nat := 1500
  /-- W0, 0.1 m/s -/
  w0 : Nat := 50
  /-- s, per-mille of height for each 0.1 m/s above W0 -/
  slope : Nat := 10
  /-- H_cut, cm -/
  hcut : Nat := 300
  /-- W_cut, 0.1 m/s -/
  wcut : Nat := 120
  windHyst : Nat := 20
  fallbackWind : Nat := 150
  windFactor : Nat := 100
  levelZero : Nat := 0
  levelSpan : Nat := 400
  dryRun : Nat := 30
  reArm : Nat := 45
  masterTrim : Nat := 0
  lookAhead : Nat := 6
  /-- fetch timeout, ms -/
  fetchTimeout : Nat := 1000
  /-- serve step, ms -/
  serveStep : Nat := 2
  pumps : Vector PumpParams 8 := Vector.replicate 8 {}
  fixtures : Vector FixtureParams 12 := Vector.replicate 12 {}
  deriving DecidableEq, Repr

/-- Free value: the page named by the detail of an AUDIO_UNDERRUN counted while the content's channel count is
pending. R98 gives the detail as "the segment and page b div 4", and the block b cannot be formed before the type is
known (R97), so the manual states no page: nothing constrains it. Arguments: the segment and the position. -/
opaque Config.pendingUnderrunPage : Nat → Nat → Nat

end Sys2Proof
end

