-- ==== Sys2Proof/Machine/State.lean ====
section
/-!
DEFINITION. The state of a BN-812 as plain data: one structure for each of the ten blocks of spec/00 ("Block
overview"), one for the start-up record, and the queue of waiting commands. Every field cites the rule that names it.
Times are basin times in ticks unless a comment says otherwise.
-/
namespace Sys2Proof.Machine

/-! ## Timebase unit (TBU), spec/01 -/

/-- The station show states, in the order of their beacon codes (R197). -/
inductive ShowState where
  | standby
  | warmup
  | idle
  | armed
  | running
  | held
  | ending
  | halted
  deriving DecidableEq, Repr

/-- The armed record (R14). -/
structure ArmedRecord where
  showId : Nat
  t0 : Nat
  deriving DecidableEq, Repr

/-- The hold record (R16, R17): Th, the hold boundary and Tr, each when present. -/
structure HoldRecord where
  th : Option Nat := none
  boundary : Option Nat := none
  tr : Option Nat := none
  deriving DecidableEq, Repr

/-- The last STOP_ASSERT heard (R20): the frame number at its arrival, and the boundaries marked since, which R21
counts. -/
structure StopHeard where
  frame : Nat
  boundaries : Nat
  deriving DecidableEq, Repr

/-- The timebase unit's state (R9). -/
structure Tbu where
  /-- basin time, a 48-bit count (R1) -/
  basinTime : Nat := 0
  /-- the frame number held (R1) -/
  frameNo : Nat := 0
  /-- last correction (R5) -/
  lastCorrection : Int := 0
  /-- last median (R4) -/
  lastMedian : Int := 0
  /-- the correction applied in the present tick, 0 from the next one on: a beacon whose reception has ended by then is
  sampled on the scale before it (R169). The model's own field. -/
  shift : Int := 0
  /-- station show state -/
  state : ShowState := .standby
  /-- OUT_OF_STEP (R7) -/
  outOfStep : Bool := false
  armed : Option ArmedRecord := none
  /-- segment base (R15) -/
  segBase : Option Nat := none
  hold : HoldRecord := {}
  /-- last taken stamps of GO, HOLD and RESUME (R10) -/
  lastGo : Option Nat := none
  lastHold : Option Nat := none
  lastResume : Option Nat := none
  lastStop : Option StopHeard := none
  /-- the TBU's position-conflict record (R13) -/
  conflict : Bool := false
  /-- boundaries counted in WARMUP (R12) -/
  warmup : Nat := 0
  deriving DecidableEq, Repr

/-! ## Cue engine (CE), spec/02 -/

/-- The read states, in the order of their table. -/
inductive ReadState where
  | none
  | reading
  | waiting
  | scanning
  | ended
  deriving DecidableEq, Repr

/-- A read position: the content segment of the list and an offset in it (R23). -/
structure ReadPos where
  segment : Nat
  offset : Nat
  deriving DecidableEq, Repr

/-- The cue buffer: one 256-byte block of the list (R28). -/
structure CueBuffer where
  segment : Nat
  offset : Nat
  bytes : List Byte
  deriving DecidableEq, Repr

/-- How far a fetch of a block has come. -/
inductive FetchStage where
  | lookup
  | read
  deriving DecidableEq, Repr

/-- The one lookup or cue read in flight (R28): the block it was issued for, and whether its read position has been
dropped since (R46). -/
structure CueFetch where
  segment : Nat
  offset : Nat
  stage : FetchStage
  live : Bool
  deriving DecidableEq, Repr

/-- What a LIGHT action carries (R32). `fixtures` is its fixture mask. `channels` are those of its channel mask in each of
these fixtures, as dimming channels 4 f + c of fixture f, that the action still holds in its slate (R39). -/
structure LightDeed where
  fixtures : BitVec 12
  channels : BitVec 48
  r : Nat
  g : Nat
  b : Nat
  w : Nat
  fade : Nat
  follow : Option Nat
  cueFrame : Nat
  deriving DecidableEq, Repr

/-- The kinds of action and their fields (R30 to R34). -/
inductive Deed where
  | jet (jet height ramp : Nat)
  | light (d : LightDeed)
  | prime (v : VoiceId) (segment start : Nat)
  | start (v : VoiceId) (segment start gain ts : Nat)
  | gain (v : VoiceId) (gain ramp : Nat)
  | stopVoice (v : VoiceId) (fade : Nat)
  | endShow
  deriving DecidableEq, Repr

/-- An action: its deed, dispatch time, list order and show segment index. -/
structure Action where
  deed : Deed
  dispatch : Nat
  order : Nat
  index : Nat
  deriving DecidableEq, Repr

/-- The slates of one frame, one for each consumer (R38 to R40). -/
structure Slate where
  jets : List Action := []
  lights : List Action := []
  voices : List Action := []
  deriving DecidableEq, Repr

/-- The waiting record (R42). -/
structure WaitingRecord where
  number : Nat
  rearm : Nat
  interruptible : Bool
  deriving DecidableEq, Repr

/-- The running record (R42). -/
structure RunningRecord where
  index : Nat
  interruptible : Bool
  rearmEnd : Nat
  deriving DecidableEq, Repr

/-- A cut scan (R43): the trigger's number and press stamp, the return point, whether the scan stands just after an
END_SEGMENT, and the show segments it has passed into. -/
structure ScanRecord where
  number : Nat
  press : Nat
  returnPos : ReadPos
  returnState : ReadState
  returnClosed : Option Nat
  afterEnd : Bool
  passed : Nat
  deriving DecidableEq, Repr

/-- The cue engine's state (R47). -/
structure Ce where
  readState : ReadState := .none
  pos : Option ReadPos := none
  buffer : Option CueBuffer := none
  fetch : Option CueFetch := none
  /-- a lookup was answered WAIT, and is repeated at the next marked boundary (R29) -/
  pageWait : Bool := false
  /-- the pending queue, by dispatch time and list order (R35) -/
  queue : List Action := []
  slateEven : Slate := {}
  slateOdd : Slate := {}
  /-- show segment index -/
  index : Nat := 0
  lastCue : Nat := 0
  /-- after an END_SEGMENT taken at this time, until the next record is read (R26) -/
  closed : Option Nat := none
  waiting : Option WaitingRecord := none
  running : Option RunningRecord := none
  lastTrigger : Option Nat := none
  scan : Option ScanRecord := none
  /-- the list order of the next action produced -/
  nextOrder : Nat := 0
  deriving DecidableEq, Repr

/-! ## Hydraulics unit (HU), spec/03 -/

/-- The pump states, in the order of their tables. -/
inductive PumpState where
  | off
  | resting
  | claiming
  | starting
  | running
  | stopping
  | locked
  deriving DecidableEq, Repr

/-- An arrival record (R74). -/
inductive Arrival where
  | pending
  | set (time height : Nat)
  | void
  deriving DecidableEq, Repr

/-- A pump record (spec/03, "Pump records and configuration"). -/
structure Pump where
  state : PumpState := .off
  /-- lock cause FEEDBACK is held -/
  lockFeedback : Bool := false
  /-- lock cause DRY is held -/
  lockDry : Bool := false
  lockPending : Bool := false
  /-- height Hc, cm -/
  height : Nat := 0
  /-- ramp override -/
  override : Option Nat := none
  /-- requested drive d -/
  requested : Nat := 0
  /-- committed target t -/
  committed : Nat := 0
  /-- actual drive a: the value presented at the drive reference output (R60) -/
  actual : Nat := 0
  softCount : Nat := 0
  runCount : Nat := 0
  restCount : Nat := 0
  absence : Nat := 0
  arrival : Arrival := .void
  deriving DecidableEq, Repr

/-- The hydraulics unit's state (R75). A_s and the committed draw are figures of the pump records (`Hu.startAllowance`,
`Hu.committedDraw` in Machine/Hydraulics.lean). -/
structure Hu where
  pumps : Vector Pump 8 := Vector.replicate 8 {}
  /-- demand D (R55) -/
  demand : Nat := 0
  /-- ΣD (R56) -/
  total : Nat := 0
  /-- feed share (R56) -/
  share : Nat := 0
  /-- scale factor f (R58) -/
  scale : Nat := 1024
  /-- the claim slot's holder (R66) -/
  claimHolder : Option Channel := none
  /-- ticks of the local oscillator left on the spacing timer; 0 when expired (R69) -/
  spacing : Nat := 72000
  deriving DecidableEq, Repr

/-! ## Light unit (LU), spec/04 -/

/-- A channel record (R77). -/
structure LightChannel where
  level : Nat := 0
  target : Nat := 0
  start : Nat := 0
  fade : Nat := 0
  elapsed : Nat := 0
  /-- the value presented at the dimming output -/
  output : Nat := 0
  deriving DecidableEq, Repr

/-- A follow entry (R84): for each colour of the fixture the target of the channel, when covered. -/
structure FollowEntry where
  targets : Vector (Option Nat) 4
  fade : Nat
  jet : Nat
  limit : Nat
  deriving DecidableEq, Repr

/-- The light unit's state (R90). -/
structure Lu where
  channels : Vector LightChannel 48 := Vector.replicate 48 {}
  /-- trim factors (R78) -/
  trimFactor : Vector Nat 12 := Vector.replicate 12 32768
  /-- cover state: true is EXPOSED (R83) -/
  exposed : Vector Bool 12 := Vector.replicate 12 false
  /-- the follow list, at most one entry for each fixture (R84) -/
  follow : Vector (Option FollowEntry) 12 := Vector.replicate 12 none
  /-- the effective level as last compared (R91) -/
  level : Nat := 0
  /-- the frame number of the hold boundary (R87) -/
  holdFrame : Option Nat := none
  deriving DecidableEq, Repr

/-! ## Content types shared by the audio unit and the content map -/

/-- Segment types, in the order of their codes (R198). -/
inductive SegType where
  | cue
  | mono
  | stereo
  deriving DecidableEq, Repr

/-! ## Audio unit (AU), spec/05 -/

/-- The voice states, in the order of R92. -/
inductive VoiceState where
  | idle
  | priming
  | playing
  | fading
  | paused
  deriving DecidableEq, Repr

/-- A prime record (R92): its type is none while the definition request `request` is unanswered. -/
structure PrimeRecord where
  segment : Nat
  start : Nat
  kind : Option SegType := none
  count : Nat := 0
  request : Nat := 0
  deriving DecidableEq, Repr

/-- A voice's content (R92): the prime record it came from, its start time, and whether it has ended (R97). -/
structure Content where
  item : PrimeRecord
  ts : Nat
  ended : Bool := false
  deriving DecidableEq, Repr

/-- The pause envelope (R104): steady at 32768, or falling or rising, with the ticks since its boundary. -/
inductive Envelope where
  | steady
  | falling (i : Nat)
  | rising (i : Nat)
  deriving DecidableEq, Repr

/-- A voice record (R92). -/
structure Voice where
  state : VoiceState := .idle
  content : Option Content := none
  /-- current factor G -/
  gain : Nat := 32768
  rampStart : Nat := 32768
  rampTarget : Nat := 32768
  rampFrames : Nat := 0
  rampElapsed : Nat := 0
  /-- resume state: true is FADING, false PLAYING; present in PAUSED -/
  resumeFading : Option Bool := none
  envelope : Envelope := .steady
  /-- the voice goes to IDLE when its pause tail ends (R105) -/
  dropAtTail : Bool := false
  prime : Option PrimeRecord := none
  underrun : Bool := false
  deriving DecidableEq, Repr

/-- The correction frame (R93): the boundary's basin time before the correction, the correction, and the ticks
presented in it. -/
structure CorrectionFrame where
  base : Nat
  c : Int
  i : Nat
  deriving DecidableEq, Repr

/-- The states of an audio cache slot (R107). -/
inductive SlotState where
  | empty
  | filling
  | valid
  deriving DecidableEq, Repr

/-- A cache slot (R107): its state, its tag (segment, block) and the bytes of its row, in FILLING those handed so far
(R138). -/
structure Slot where
  state : SlotState := .empty
  tag : Option (Nat × Nat) := none
  data : List Byte := []
  deriving DecidableEq, Repr

/-- The fill in flight (R109): its block and type, the slot once its row read is requested, and whether its segment
has been freed meanwhile (R110). -/
structure AudioFill where
  segment : Nat
  block : Nat
  kind : SegType
  slot : Option (Fin 32)
  freed : Bool
  deriving DecidableEq, Repr

/-- A definition request not yet answered (R94). -/
structure DefRequest where
  id : Nat
  voice : VoiceId
  segment : Nat
  deriving DecidableEq, Repr

/-- The audio unit's state (R111). -/
structure Au where
  a : Voice := {}
  b : Voice := {}
  correction : Option CorrectionFrame := none
  /-- ticks presented since the last marked boundary (R93) -/
  frameTick : Nat := 0
  slots : Vector Slot 32 := Vector.replicate 32 {}
  fill : Option AudioFill := none
  /-- the blocks passed over since the last marked boundary (R109) -/
  passed : List (Nat × Nat) := []
  /-- the frame number of the hold boundary (R104) -/
  holdFrame : Option Nat := none
  /-- master trim factor (R102) -/
  trimFactor : Nat := 32768
  requests : List DefRequest := []
  nextRequest : Nat := 1
  /-- the pair presented at the I2S output, left and right (R102) -/
  out : Int × Int := (0, 0)
  deriving DecidableEq, Repr

/-! ## Content map (CM), spec/06 -/

/-- A DEFINED directory entry (R113). -/
structure DirEntry where
  showId : Nat
  kind : SegType
  length : Nat
  owner : Nat
  deriving DecidableEq, Repr

/-- The states of a page table entry, in the order of R113. -/
inductive PageState where
  | absent
  | filling
  | present
  | unavailable
  deriving DecidableEq, Repr

/-- A page table entry that is not ABSENT, with its physical page in FILLING and PRESENT (R113). -/
structure Pte where
  state : PageState
  phys : Nat
  deriving DecidableEq, Repr

/-- A map cache entry (R116). -/
structure CacheEntry where
  segment : Nat
  page : Nat
  phys : Nat
  kind : SegType
  house : Bool
  deriving DecidableEq, Repr

/-- A fill record (R125, R128). -/
structure Fill where
  id : Nat
  segment : Nat
  page : Nat
  phys : Nat
  /-- the received set -/
  received : BitVec 256
  /-- the source: true is FETCH, false LOAD -/
  fetch : Bool
  attempts : Nat
  owed : Bool
  queued : Bool
  /-- last-chunk time -/
  last : Nat
  /-- ticks of the local oscillator left on the fetch timer; none when it does not run (R128) -/
  timer : Option Nat
  /-- the moment at which the request became owed (R128): the count of the local oscillator's ticks -/
  owedAt : Nat
  deriving DecidableEq, Repr

/-- The states of a serve record with their fields (R130 to R132): the delay left in ticks of the local oscillator, or
the page's physical page once its lookup is answered, the next read (256 is done) and the read in flight. -/
inductive ServeStage where
  | delay (left : Nat)
  | sending (phys : Option Nat) (next : Nat) (inFlight : Bool)
  deriving DecidableEq, Repr

/-- A serve record. -/
structure Serve where
  id : Nat
  segment : Nat
  page : Nat
  requester : Nat
  stage : ServeStage
  deriving DecidableEq, Repr

/-- A frame in the content intake (R120). -/
inductive ContentFrame where
  | select (showId : Nat)
  | define (f : SegmentDefineFields)
  | data (f : PageDataFields)
  deriving DecidableEq, Repr

/-- A table write (R114): the aligned 64-byte block of the map region, and its bytes under the byte mask. `init` marks
the 32 writes of the power-on initialisation (R135). -/
structure TableWrite where
  block : Nat
  bytes : List (Option Byte)
  init : Bool
  deriving DecidableEq, Repr

/-- Who asked a lookup. -/
inductive Asker where
  | cue
  | audio
  | serve (id : Nat)
  deriving DecidableEq, Repr

/-- A walk (R117): the page it looks for, the lookups it carries, whether it is stale, and whether its first read has
completed. -/
structure Walk where
  segment : Nat
  page : Nat
  askers : List Asker
  stale : Bool
  second : Bool
  deriving DecidableEq, Repr

/-- An entry of the map-region queue (R114). -/
inductive MapEntry where
  | write (w : TableWrite)
  | walk (w : Walk)
  deriving DecidableEq, Repr

/-- A change that waits for room in the map-region queue (R114), named by its fill record. -/
inductive Change where
  | present (fill : Nat)
  | unavailable (fill : Nat)
  deriving DecidableEq, Repr

/-- The power-on initialisation of the map region (R135): not begun, or the writes of it not yet completed. -/
inductive MapInit where
  | waiting
  | left (n : Nat)
  deriving DecidableEq, Repr

/-- The content map's state (R135). The directory lists the DEFINED entries by segment, the page tables the entries
that are not ABSENT by 64 × segment + page, both in ascending order. The free page set is held as its complement:
`taken` lists the pages of 4..8191 that it does not hold, in ascending order (R119). -/
structure Cm where
  dir : List (Nat × DirEntry) := []
  pages : List (Nat × Pte) := []
  taken : List Nat := []
  /-- current show (R121) -/
  showId : Nat := 0
  storeFull : Bool := false
  /-- the map cache, most recently used first (R116) -/
  cache : List CacheEntry := []
  fills : List Fill := []
  serves : List Serve := []
  intake : List ContentFrame := []
  /-- the fill record whose chunk write holds the intake (R120, R126) -/
  chunk : Option Nat := none
  mapQ : List MapEntry := []
  /-- the head of the map-region queue stands with the memory controller -/
  mapIssued : Bool := false
  waiting : List Change := []
  init : MapInit := .waiting
  /-- the number given to the next fill or serve record -/
  nextId : Nat := 1
  deriving DecidableEq, Repr

/-! ## Link interface unit (LIU), spec/08 -/

/-- A START_CLAIM in the CLAIM slot (R66). -/
structure ClaimFrame where
  channel : Channel
  allowance : Nat
  deriving DecidableEq, Repr

/-- A reply in the REPLY queue (R163): its tag, selector code, snapshot and the index of its next part. -/
structure Reply where
  tag : Byte
  selector : Nat
  snapshot : List Byte
  next : Nat
  deriving DecidableEq, Repr

/-- A PAGE_REQUEST in the FETCH queue (R128). -/
structure PageRequestOut where
  fill : Nat
  showId : Nat
  segment : Nat
  page : Nat
  deriving DecidableEq, Repr

/-- A PAGE_DATA in the CONTENT queue (R132). -/
structure PageDataOut where
  serve : Nat
  showId : Nat
  segment : Nat
  page : Nat
  chunk : Nat
  data : List Byte
  deriving DecidableEq, Repr

/-- The frame on the wire, by the slot or queue it came from (R153). A beacon in transmission has left its slot. -/
inductive TxSource where
  | halt
  | time (b : BeaconFields)
  | claim
  | query
  | fetch
  | content
  deriving DecidableEq, Repr

/-- The frame this station has begun (R153): its source and its bytes as they go out (R152). -/
structure Tx where
  source : TxSource
  arb : Byte
  kind : Byte
  payload : List Byte
  deriving DecidableEq, Repr

/-- The link interface unit's state (R164). -/
structure Liu where
  /-- the HALT slot holds a STOP_ASSERT -/
  halt : Bool := false
  beacon : Option BeaconFields := none
  claim : Option ClaimFrame := none
  replies : List Reply := []
  fetchQ : List PageRequestOut := []
  contentQ : List PageDataOut := []
  tx : Option Tx := none
  /-- consecutive-failure count (R156) -/
  fails : Nat := 0
  /-- mute count; the LIU is in MUTE while it is above 0 (R157) -/
  mute : Nat := 0
  mutedSince : Bool := false
  /-- yield count (R158) -/
  yieldCount : Nat := 0
  /-- receive-error count (R159) -/
  rxErrors : Nat := 0
  /-- conflict record (R161) -/
  conflict : Bool := false
  /-- the start-of-frame stamp of the frame being received (R160) -/
  rxStamp : Option Int := none
  deriving DecidableEq, Repr

/-! ## Peer table (PT), spec/09 -/

/-- A peer record that is not ABSENT (R166). -/
structure Peer where
  /-- FRESH, or else SILENT -/
  fresh : Bool
  age : Nat
  role : Nat
  stamp : Nat
  arrival : Nat
  /-- offset sample (R3) -/
  sample : Option Int
  state : Nat
  showId : Nat
  index : Nat
  demand : Nat
  share : Nat
  wind : Option Nat
  level : Option Nat
  /-- OUT_OF_STEP, fault present, stop input active, store full, link muted: bits 0..4 as carried (R197) -/
  flags : BitVec 5
  deriving DecidableEq, Repr

/-- The peer table's state (R175). The record of own position stays absent. -/
structure Pt where
  peers : Vector (Option Peer) 32 := Vector.replicate 32 none
  /-- effective wind and its source (R171) -/
  wind : Nat := 150
  windSource : Option Nat := none
  /-- effective level and its source (R172) -/
  level : Nat := 0
  levelSource : Option Nat := none
  deriving DecidableEq, Repr

/-! ## Show memory controller (SMC), spec/07 -/

/-- The controller states, in the order of R148. -/
inductive CtlState where
  | initWait
  | initPrecharge
  | initRefresh
  | initMode
  | ready
  deriving DecidableEq, Repr

/-- The bank states, in the order of R139. -/
inductive BankState where
  | idle
  | activating
  | open
  | precharging
  deriving DecidableEq, Repr

/-- A bank record (R139). Moments are counts of the memory clock. -/
structure Bank where
  state : BankState := .idle
  row : Option Nat := none
  lastActivate : Option Nat := none
  /-- the moment at which ACTIVATING or PRECHARGING ends -/
  due : Nat := 0
  deriving DecidableEq, Repr

/-- The request kinds of R138, in the order of R137. -/
inductive ReqKind where
  | rowRead
  | read256
  | write64
  | read16
  deriving DecidableEq, Repr

/-- A request record (R138): for a write its data under the byte mask, for a read the bytes returned so far. `id` is
the requester's number for it. -/
structure Request where
  kind : ReqKind
  bank : Fin 4
  row : Nat
  col : Nat
  data : List (Option Byte) := []
  done : Nat := 0
  got : List Byte := []
  id : Nat := 0
  deriving DecidableEq, Repr

/-- The request classes in the order of R138. -/
inductive ReqClass where
  | audio
  | walk
  | cue
  | content
  | serve
  deriving DecidableEq, Repr

/-- An operation on the port (R140). -/
inductive PortOp where
  | burst (c : ReqClass)
  | refresh (forced : Bool)
  deriving DecidableEq, Repr

/-- The operation in progress: `issued` once its burst or refresh itself has been issued, and then the moment it
ends, in memory clocks. Of a refresh not yet issued `due` is the moment its precharge of all banks ends, and 0 while that
precharge waits for a bank still PRECHARGING (R144). -/
structure Port where
  op : PortOp
  issued : Bool
  due : Nat
  deriving DecidableEq, Repr

/-- A completion reported to its requester (R138) and not yet acted on. -/
structure Report where
  cls : ReqClass
  id : Nat
  bytes : List Byte
  deriving DecidableEq, Repr

/-- The show memory controller's state (R148), and the contents of show memory. -/
structure Smc where
  ctl : CtlState := .initWait
  /-- the initial refreshes ended (R148) -/
  initCount : Nat := 0
  banks : Vector Bank 4 := Vector.replicate 4 {}
  /-- refresh debt (R145) -/
  debt : Nat := 0
  /-- the memory clock at the entry to READY, and the debt rises since -/
  readyAt : Nat := 0
  rises : Nat := 0
  /-- forced and opportunistic refresh counts (R150) -/
  forced : Nat := 0
  opportunistic : Nat := 0
  audio : Option Request := none
  walk : Option Request := none
  cue : Option Request := none
  content : Option Request := none
  serve : List Request := []
  port : Option Port := none
  /-- the memory clock, 10 ns counts since power-on -/
  clock : Nat := 0
  reports : List Report := []
  /-- show memory: address 16,384 × physical page + byte, in canonical form (`Memory.wf`) -/
  mem : List Host.Cell := []
  deriving DecidableEq, Repr

/-! ## Basin input unit (BIU), spec/10 -/

/-- The wind states, in the order of R180. -/
inductive WindState where
  | calm
  | derate
  | cutout
  deriving DecidableEq, Repr

/-- The level states. -/
inductive LevelState where
  | normal
  | dry
  deriving DecidableEq, Repr

/-- The 14 fault kinds, in the order of R186. -/
inductive FaultKind where
  | configInvalid
  | positionConflict
  | linkMuted
  | pumpNoFeedback
  | dryRunLockout
  | windSourceLost
  | levelSourceLost
  | pageUnavailable
  | storeFull
  | mapFault
  | typeMismatch
  | cueLate
  | audioUnderrun
  | cueMalformed
  deriving DecidableEq, Repr

/-- A fault detail (R185). -/
inductive FaultDetail where
  | channel (n : Nat)
  | segment (n : Nat)
  | page (segment page : Nat)
  | showNo (n : Nat)
  deriving DecidableEq, Repr

/-- A fault record (R185). -/
structure FaultRecord where
  kind : FaultKind
  first : Nat
  count : Nat
  detail : Option FaultDetail
  deriving DecidableEq, Repr

/-- The basin input unit's state (R188). -/
structure Biu where
  /-- the loop's last mean current, microamperes -/
  loopMean : Nat := 0
  /-- consecutive sound boundaries counted toward validity, 0..10 (R177) -/
  levelCount : Nat := 0
  levelValid : Bool := false
  level : Nat := 0
  /-- the pulse counts of the last 50 frames, oldest first (R178) -/
  windWindow : List Nat := []
  windValid : Bool := false
  wind : Nat := 0
  /-- the effective readings last handed on by the peer table (R174) -/
  effWind : Nat := 150
  effLevel : Nat := 0
  windState : WindState := .cutout
  quiet : Nat := 0
  levelState : LevelState := .dry
  /-- the filtered stop input (R183) -/
  stopActive : Bool := false
  /-- the filtered running feedback of each pump (R184) -/
  feedback : Vector Bool 8 := Vector.replicate 8 false
  /-- the fault list, oldest first (R185) -/
  faults : List FaultRecord := []
  deriving DecidableEq, Repr

/-! ## Start-up, spec/11 -/

/-- Where the station stands between its supply's rise and service (R192, R194): without supply, held by the reset
pin, reading strap and configuration, waiting for the memory controller, listening, or up. -/
inductive Phase where
  | off
  | pinHeld
  | reading
  | memory
  | listening
  | up
  deriving DecidableEq, Repr

/-- The causes of a reset, in the order of R195. -/
inductive ResetCause where
  | powerOn
  | resetPin
  | resetStation
  deriving DecidableEq, Repr

/-- The start-up record (R190 to R195). -/
structure StartUp where
  phase : Phase := .off
  /-- the sequence in progress began with power-on, and not with a warm reset -/
  cold : Bool := true
  position : Position := 0
  params : Params := {}
  /-- the configuration record was read valid -/
  valid : Bool := false
  /-- its check word as read -/
  checkWord : Nat := 0
  cause : ResetCause := .powerOn
  /-- boundaries of the listen marked so far -/
  listen : Nat := 0
  /-- the configuration has been read since power-on (R102) -/
  configured : Bool := false
  /-- ticks of the local oscillator since power-on, uncorrected (R69, R128) -/
  oscTicks : Nat := 0
  deriving DecidableEq, Repr

/-! ## The whole station -/

/-- The state of the station, and the commands that wait, first in first out. -/
structure State where
  tbu : Tbu := {}
  ce : Ce := {}
  hu : Hu := {}
  lu : Lu := {}
  au : Au := {}
  cm : Cm := {}
  liu : Liu := {}
  pt : Pt := {}
  smc : Smc := {}
  biu : Biu := {}
  st : StartUp := {}
  pending : List Instr := []
  deriving DecidableEq, Repr

/-- The reasons a step can stop with a fault. -/
inductive Fault where
  /-- A burst would be transferred at a row the SDRAM does not have (R137: 4 banks of 8192 rows). Raised by GRANT_POINT.
  Safe: no request of the station names such a row in a run, and the model stops where the manual says nothing is. -/
  | outsideShowMemory
  deriving DecidableEq, Repr

/-- The reasons a command has no meaning. -/
inductive Refusal where
  /-- The command named has no meaning in this model. Raised by no command: every row is modelled. Safe: the model
  stops. -/
  | notModelled (mnemonic : String)
  deriving DecidableEq, Repr

/-- The station before its supply rises: every register at its value after power-on (R9, R47, R75, R90, R111, R135,
R148, R164, R175, R188) under the default parameters, in phase `off`, no command waiting. POWER_ON begins the sequence
of R192 from it. Values the manual does not give are named in notes/assumptions/1.md. -/
def State.reset : State := {}

end Sys2Proof.Machine
end

