-- ==== Sys2Proof/Machine/Ops.lean ====
section
/-!
DEFINITION. The named reads and updates of the state that every block's rules are written in.
-/
namespace Sys2Proof.Machine

/-! ## One update for each block -/

/-- The state with its timebase unit changed by `g`. -/
def State.onTbu (s : State) (g : Tbu → Tbu) : State := { s with tbu := g s.tbu }

/-- The state with its cue engine changed by `g`. -/
def State.onCe (s : State) (g : Ce → Ce) : State := { s with ce := g s.ce }

/-- The state with its hydraulics unit changed by `g`. -/
def State.onHu (s : State) (g : Hu → Hu) : State := { s with hu := g s.hu }

/-- The state with its light unit changed by `g`. -/
def State.onLu (s : State) (g : Lu → Lu) : State := { s with lu := g s.lu }

/-- The state with its audio unit changed by `g`. -/
def State.onAu (s : State) (g : Au → Au) : State := { s with au := g s.au }

/-- The state with its content map changed by `g`. -/
def State.onCm (s : State) (g : Cm → Cm) : State := { s with cm := g s.cm }

/-- The state with its link interface unit changed by `g`. -/
def State.onLiu (s : State) (g : Liu → Liu) : State := { s with liu := g s.liu }

/-- The state with its peer table changed by `g`. -/
def State.onPt (s : State) (g : Pt → Pt) : State := { s with pt := g s.pt }

/-- The state with its show memory controller changed by `g`. -/
def State.onSmc (s : State) (g : Smc → Smc) : State := { s with smc := g s.smc }

/-- The state with its basin input unit changed by `g`. -/
def State.onBiu (s : State) (g : Biu → Biu) : State := { s with biu := g s.biu }

/-- The state with its start-up record changed by `g`. -/
def State.onSt (s : State) (g : StartUp → StartUp) : State := { s with st := g s.st }

/-! ## Where the station stands -/

/-- The blocks have taken their reset values and run (R192): from the end of the configuration read on. -/
def State.live (s : State) : Bool :=
  match s.st.phase with
  | .memory | .listening | .up => true
  | _ => false

/-- The station has its supply. -/
def State.powered (s : State) : Bool := s.st.phase != .off

/-- The start-up listen, or the wait for the memory controller before it, is still to end (R192, R194). -/
def State.startingUp (s : State) : Bool := s.st.phase != .up

/-- The station's own position (R190). -/
def State.own (s : State) : Position := s.st.position

/-- The parameters as taken at the last reset (R191). -/
def State.params (s : State) : Params := s.st.params

/-- The show-bearing states: ARMED, RUNNING, HELD and ENDING (spec/00). -/
def ShowState.bearing : ShowState → Bool
  | .armed | .running | .held | .ending => true
  | _ => false

/-- A boundary of frame `k` is an own beacon boundary (R2). -/
def State.ownBeaconFrame (s : State) (k : Nat) : Bool := k % 5 == s.own.val % 5

/-- The range of basin time: a 48-bit count (R1). -/
def basinRange : Nat := 2 ^ 48

/-! ## Records of the fixed files -/

/-- The record of pump `n`. -/
def Hu.pump (h : Hu) (n : Channel) : Pump := h.pumps[n]

/-- Pump `n`'s record changed by `g`. -/
def Hu.onPump (h : Hu) (n : Channel) (g : Pump → Pump) : Hu :=
  { h with pumps := h.pumps.set n (g h.pumps[n]) }

/-- Every pump's record changed by `g`. -/
def Hu.mapPumps (h : Hu) (g : Channel → Pump → Pump) : Hu :=
  { h with pumps := Vector.ofFn fun n => g n h.pumps[n] }

/-- Every dimming channel's record changed by `g`, given its fixture and its colour (R77: channel 4 f + c). -/
def Lu.mapChannels (l : Lu) (g : Fin 12 → Fin 4 → LightChannel → LightChannel) : Lu :=
  { l with channels := Vector.ofFn (fun n => g ⟨n.val / 4, by omega⟩ ⟨n.val % 4, by omega⟩ l.channels[n]) }

/-- The voice record of `v`. -/
def Au.voice (a : Au) : VoiceId → Voice
  | .a => a.a
  | .b => a.b

/-- Voice `v`'s record changed by `g`. -/
def Au.onVoice (a : Au) (v : VoiceId) (g : Voice → Voice) : Au :=
  match v with
  | .a => { a with a := g a.a }
  | .b => { a with b := g a.b }

/-- Both voices' records changed by `g`. -/
def Au.onVoices (a : Au) (g : Voice → Voice) : Au := { a with a := g a.a, b := g a.b }

/-- The slate of frame `k`: one for even and one for odd frame numbers (spec/02, "Staging"). -/
def Ce.slate (c : Ce) (k : Nat) : Slate := if k % 2 = 0 then c.slateEven else c.slateOdd

/-- The slate of frame `k` replaced. -/
def Ce.setSlate (c : Ce) (k : Nat) (x : Slate) : Ce :=
  if k % 2 = 0 then { c with slateEven := x } else { c with slateOdd := x }

/-! ## The inputs as they are reported -/

/-- The running feedback reported of pump `n` (R184): the filtered contact of a present pump, absent for any other. -/
def State.feedbackOf (s : State) (n : Channel) : Bool := s.params.pumps[n].present && s.biu.feedback[n]

/-! ## The outputs as they stand -/

/-- The drive presented at the reference output of jet `n` (R60). -/
def State.driveOutput (s : State) (n : Channel) : Nat := (s.hu.pump n).actual

/-- The value presented at dimming output `n` (R77). -/
def State.dimmingOutput (s : State) (n : Fin 48) : Nat := s.lu.channels[n].output

/-- The pair presented at the I2S output (R102). -/
def State.audioOutput (s : State) : Int × Int := s.au.out

/-- The number of a segment's pages: ceil(length / 16,384) (spec/06). -/
def pagesOf (length : Nat) : Nat := ceilDiv length 16384

end Sys2Proof.Machine
end

