-- ==== Sys2Proof/Machine/Flags.lean ====
section
/-!
DEFINITION. The fault list (spec/10, R185 to R187) and the flags that are read from other state.
-/
namespace Sys2Proof.Machine

/-- A raise of kind `k` with detail `d` at basin time `now` taken into the list (R185). -/
def raiseIn (fs : List FaultRecord) (now : Nat) (k : FaultKind) (d : Option FaultDetail) : List FaultRecord :=
  if fs.any (fun r => r.kind == k) then
    fs.map fun r =>
      if r.kind = k then { r with count := satInc r.count, detail := d.or r.detail } else r
  else fs ++ [{ kind := k, first := now, count := 1, detail := d }]

/-- The BIU's list after a raise at the present basin time. -/
def State.raise (s : State) (k : FaultKind) (d : Option FaultDetail := none) : State :=
  s.onBiu fun b => { b with faults := raiseIn b.faults s.tbu.basinTime k d }

/-- A pump holds the lock cause FEEDBACK (R186). -/
def Hu.feedbackLocked (h : Hu) : Bool := h.pumps.toList.any fun p => p.state == .locked && p.lockFeedback

/-- A page table entry is UNAVAILABLE (R129). -/
def Cm.anyUnavailable (c : Cm) : Bool := c.pages.any fun e => e.2.state == .unavailable

/-- The lasting condition of a fault kind is present (R186). -/
def State.conditionPresent (s : State) : FaultKind → Bool
  | .configInvalid => s.st.configured && !s.st.valid
  | .positionConflict => s.liu.conflict
  | .linkMuted => s.liu.mute != 0
  | .pumpNoFeedback => s.hu.feedbackLocked
  | .dryRunLockout => s.biu.levelState == .dry
  | .windSourceLost => s.pt.windSource.isNone
  | .levelSourceLost => s.pt.levelSource.isNone
  | .pageUnavailable => s.cm.anyUnavailable
  | .storeFull => s.cm.storeFull
  | .mapFault | .typeMismatch | .cueLate | .audioUnderrun | .cueMalformed => false

/-- Every record whose condition is not present leaves the list (R187, step 2). -/
def State.dropEndedFaults (s : State) : State :=
  s.onBiu fun b => { b with faults := b.faults.filter fun r => s.conditionPresent r.kind }

/-- The beacon's fault-present flag (R187). -/
def State.faultPresent (s : State) : Bool := !s.biu.faults.isEmpty

end Sys2Proof.Machine
end

