-- ==== Sys2Proof/Machine/Audio.lean ====
section
/-!
DEFINITION. The audio unit: voices, gain, audio time, the mixer, and the wanted blocks of the cache (spec/05, R92 to
R111). The fills themselves need the content map and stand in Machine/AudioFill.lean.
-/
namespace Sys2Proof.Machine

/-! ## Voice transitions -/

/-- The voice leaves its content: PRIMING when it holds a prime record, IDLE otherwise (R92, R97, R100). Its factor and its
target stay, and its ramp frames and elapsed count become 0: the model's choice (notes/assumptions/46.md). -/
def Voice.leave (v : Voice) : Voice :=
  { v with state := if v.prime.isSome then .priming else .idle, content := none, rampFrames := 0,
           rampElapsed := 0, resumeFading := none, envelope := .steady, dropAtTail := false }

/-- The voice to IDLE at once, its prime record cleared and its envelope ended (R106). -/
def Voice.silence (v : Voice) : Voice := ({ v with prime := none } : Voice).leave

/-- A ramp of `n` frames from the current factor to `target` (R99). -/
def Voice.rampTo (target n : Nat) (v : Voice) : Voice :=
  if n = 0 then { v with gain := target, rampStart := v.gain, rampTarget := target, rampFrames := 0, rampElapsed := 0 }
  else { v with rampStart := v.gain, rampTarget := target, rampFrames := n, rampElapsed := 0 }

/-- A ramp is in progress (R99). -/
def Voice.ramping (v : Voice) : Bool := decide (v.rampElapsed < v.rampFrames)

/-- The factor after the ramp's next step. -/
def Voice.nextGain (v : Voice) : Nat :=
  if v.ramping then lerp v.rampStart v.rampTarget (v.rampElapsed + 1) v.rampFrames else v.gain

/-- One step of a ramp in progress (R99). -/
def Voice.stepRamp (v : Voice) : Voice :=
  if v.ramping then { v with gain := v.nextGain, rampElapsed := v.rampElapsed + 1 } else v

/-- The voice fades to 0 over `n` frames and then leaves its content; at once for n = 0 (R100, R105). -/
def Voice.fadeOut (n : Nat) (v : Voice) : Voice :=
  if n = 0 then v.leave else { v.rampTo 0 n with state := .fading }

/-- The voice is fading, or paused from a fade. -/
def Voice.inFade (v : Voice) : Bool := v.state == .fading || (v.state == .paused && v.resumeFading == some true)

/-- Step 2 of the pass for one voice (R101): a ramp step unless the boundary is handed as HELD; a fade that has ended
and content that has ended leave; the underrun mark clears. A voice paused from FADING, whose frozen fade takes its last
step at step 2 of the resume pass (R104), leaves there and does not return to FADING at step 4: the model's choice
(notes/assumptions/49.md). The frozen ramp of a PAUSED voice whose tail runs on in ENDING or HALTED (R105) takes its steps
there, since R101 exempts the state HELD alone: the model's choice (notes/assumptions/62.md). -/
def Voice.passStep (held : Bool) (v : Voice) : Voice :=
  let v := if held then v else v.stepRamp
  let v := if (v.inFade && !v.ramping) || (v.content.any (·.ended)) then v.leave else v
  { v with underrun := false }

/-- HELD entered (R104). -/
def Voice.pause (v : Voice) : Voice :=
  match v.state with
  | .playing => { v with state := .paused, resumeFading := some false, envelope := .falling 0 }
  | .fading => { v with state := .paused, resumeFading := some true, envelope := .falling 0 }
  | _ => v

/-- The resume boundary, `d` ticks after the hold boundary (R104). -/
def Voice.unpause (d : Nat) (v : Voice) : Voice :=
  if v.state = .paused then
    { v with state := if v.resumeFading = some true then .fading else .playing, resumeFading := none,
             envelope := .rising 0, content := v.content.map fun c => { c with ts := c.ts + d } }
  else v

/-- The pause tail is still to end. -/
def Envelope.inTail : Envelope → Bool
  | .falling i => decide (i < 960)
  | _ => false

/-- ENDING or HALTED entered with a fade of `n` frames (R105). That a fade begun at a marked boundary steps in its pass too is
the model's choice (notes/assumptions/67.md). -/
def Voice.endShow (n : Nat) (v : Voice) : Voice :=
  let v := { v with prime := none }
  match v.state with
  | .playing | .fading => v.fadeOut n
  | .paused => if v.envelope.inTail then { v with dropAtTail := true } else v.leave
  | .priming | .idle => v.leave

/-! ## Actions of the slate (R94, R96, R99, R100) -/

/-- A definition request for segment `g` on behalf of voice `v` (R94). -/
def Au.ask (a : Au) (v : VoiceId) (g : Nat) : Au :=
  { a with requests := a.requests ++ [{ id := a.nextRequest, voice := v, segment := g }],
           nextRequest := a.nextRequest + 1 }

/-- PRIME (R94). -/
def Au.doPrime (a : Au) (v : VoiceId) (g s : Nat) : Au :=
  let rec_ : PrimeRecord := { segment := g, start := s, request := a.nextRequest }
  (a.ask v g).onVoice v fun x =>
    { x with prime := some rec_, state := if x.state = .idle then .priming else x.state }

/-- START (R96): the prime record that names the segment and start sample becomes the content, or a new one does. A rise of
the pause envelope that is unfinished when the START is taken ends at once, with E 32768: the model's choice
(notes/assumptions/59.md). Without a ramp (R96) the ramp's start factor is the START's factor, and its frames and elapsed
frames are 0: the model's choice (notes/assumptions/74.md). -/
def Au.doStart (a : Au) (v : VoiceId) (g s gain ts : Nat) : Au :=
  let held := (a.voice v).prime.filter fun p => p.segment == g && p.start == s
  let item : PrimeRecord := held.getD { segment := g, start := s, request := a.nextRequest }
  let a := if held.isSome then a else a.ask v g
  let f := dbFactor gain
  a.onVoice v fun x =>
    { x with state := .playing, content := some { item := item, ts := ts }, prime := none,
             gain := f, rampStart := f, rampTarget := f, rampFrames := 0, rampElapsed := 0,
             resumeFading := none, envelope := .steady, dropAtTail := false }

/-- GAIN (R99): on a PLAYING voice alone. -/
def Voice.doGain (gain n : Nat) (v : Voice) : Voice := if v.state = .playing then v.rampTo (dbFactor gain) n else v

/-- STOP_VOICE (R100). -/
def Voice.doStop (n : Nat) (v : Voice) : Voice :=
  match v.state with
  | .playing | .fading => v.fadeOut n
  | .priming => ({ v with prime := none } : Voice).leave
  | .idle | .paused => v

/-- One voice action of the slate (R101, step 3). -/
def Au.act (x : Action) (a : Au) : Au :=
  match x.deed with
  | .prime v g s => a.doPrime v g s
  | .start v g s gain ts => a.doStart v g s gain ts
  | .gain v g n => a.onVoice v (Voice.doGain g n)
  | .stopVoice v n => a.onVoice v (Voice.doStop n)
  | _ => a

/-! ## The pass about its slate (R101) -/

/-- Steps 1 and 2 of the pass at a boundary of basin time `now`, handed with `handed` and correction `c` (R101). -/
def Au.stepsAndEnds (now : Nat) (c : Int) (handed : ShowState) (a : Au) : Au :=
  let a : Au := { a with frameTick := 0 }
  let a : Au :=
    if c = 0 then a
    else if c.natAbs ≤ 48 then { a with correction := some { base := now, c := c, i := 0 } }
    else { a.onVoices Voice.silence with correction := none }
  a.onVoices (Voice.passStep (handed = .held))

/-- Step 4 of the pass at the boundary of frame `k` (R101, R104). The recorded hold frame goes at the resume boundary and
stays when HELD is left otherwise: the model's choice (notes/assumptions/56.md). A resume frame below the hold frame moves no
start time: the model's choice (notes/assumptions/71.md). -/
def Au.holdAndResume (k : Nat) (entered resumed : Bool) (a : Au) : Au :=
  let a : Au := if entered then { a.onVoices Voice.pause with holdFrame := some k } else a
  if resumed then
    { a.onVoices (Voice.unpause ((k - a.holdFrame.getD k) * 960)) with holdFrame := none }
  else a

/-! ## Audio time and position (R92, R93) -/

/-- Audio time τ at the current tick. -/
def Au.tau (a : Au) (basinTime : Nat) : Nat :=
  match a.correction with
  | some f => f.base + ((f.i : Int) * (960 + f.c) / 960).toNat
  | none => basinTime

/-- The position s + (τ - Ts) (R92), which lies before s while τ is before Ts. -/
def Content.position (c : Content) (tau : Nat) : Int := (c.item.start : Int) + ((tau : Int) - c.ts)

/-- The sample the content has come to: its position, and s while τ is before Ts (R97, R108). -/
def Content.reached (c : Content) (tau : Nat) : Nat := c.item.start + (tau - c.ts)

/-- The channel count of a type (R92). -/
def channelCount : SegType → Nat
  | .stereo => 2
  | _ => 1

/-- The sample count of a segment (R92). -/
def sampleCount (k : SegType) (length : Nat) : Nat := length / (2 * channelCount k)

/-- The block that holds sample `p` (R97). -/
def blockOf (k : SegType) (p : Nat) : Nat := p * 2 * channelCount k / 4096

/-- The content has ended at position `p` (R97). -/
def Content.endedAt (c : Content) (p : Nat) : Bool := c.item.kind.isSome && decide (c.item.count ≤ p)

/-! ## The cache (R107) -/

/-- The home slot of block `b` of segment `g`. -/
def homeSlot (g b : Nat) : Fin 32 := ⟨(b + 5 * g) % 32, Nat.mod_lt _ (by decide)⟩

/-- Its alternate slot. -/
def altSlot (g b : Nat) : Fin 32 := ⟨(b + 5 * g + 16) % 32, Nat.mod_lt _ (by decide)⟩

/-- The slot in which a block is found. -/
def Au.find? (a : Au) (g b : Nat) : Option (Fin 32) :=
  let here (i : Fin 32) : Bool := a.slots[i].state == .valid && a.slots[i].tag == some (g, b)
  if here (homeSlot g b) then some (homeSlot g b)
  else if here (altSlot g b) then some (altSlot g b)
  else none

/-- The signed 16-bit value at byte `i` of a row (R97; most significant byte first, R196). -/
def sampleAt (row : List Byte) (i : Nat) : Int := (row.getD i 0 ++ row.getD (i + 1) 0 : BitVec 16).toInt

/-- The left and right samples at position `p` of a found block. -/
def samplePair (k : SegType) (row : List Byte) (p : Nat) : Int × Int :=
  match k with
  | .stereo => (sampleAt row (4 * p % 4096), sampleAt row (4 * p % 4096 + 2))
  | _ => (sampleAt row (2 * p % 4096), sampleAt row (2 * p % 4096))

/-! ## The mixer (R99, R102, R104) -/

/-- The pause envelope E. -/
def Envelope.factor : Envelope → Nat
  | .steady => 32768
  | .falling i => 32768 - 32768 * min i 960 / 960
  | .rising i => 32768 * min i 960 / 960

/-- The factor at output sample `i` of the frame (R99). The frozen ramp of a PAUSED voice whose tail runs on in ENDING or
HALTED (R104, R105) is interpolated as any other, since R99 exempts the state HELD alone: the model's choice
(notes/assumptions/62.md). -/
def Voice.factorAt (held : Bool) (i : Nat) (v : Voice) : Nat :=
  lerp v.gain (if held then v.gain else v.nextGain) (min i 960) 960

/-- The voice's state lets it sound (R92). -/
def Voice.maySound (v : Voice) : Bool :=
  match v.state with
  | .playing | .fading => true
  | .paused => v.envelope.factor != 0
  | _ => false

/-- The content that sounds at audio time τ, with its position, which is not before s (R92). Content of pending type sounds as one whose
blocks are all missing (R96). -/
def Voice.sounding (tau : Nat) (v : Voice) : Option (Content × Nat) :=
  match v.content with
  | some c =>
    let p := c.reached tau
    if v.maySound && decide (c.ts ≤ tau) && !c.endedAt p then some (c, p) else none
  | none => none

/-- What a voice gives at one tick: its output values, or the detail of an underrun (R97, R98). -/
inductive Sounding where
  | silent
  | pair (l r : Int)
  | missing (d : FaultDetail)

/-- The voice's sample pair before gain. -/
def Au.voiceSample (a : Au) (tau : Nat) (v : Voice) : Sounding :=
  match v.sounding tau with
  | none => .silent
  | some (c, p) =>
    match c.item.kind with
    | none => .missing (.page c.item.segment (Config.pendingUnderrunPage c.item.segment p))
    | some k =>
      match a.find? c.item.segment (blockOf k p) with
      | none => .missing (.page c.item.segment (blockOf k p / 4))
      | some i => let x := samplePair k a.slots[i].data p; .pair x.1 x.2

/-- A voice's output values (R99, R104). -/
def Au.voiceOut (a : Au) (held : Bool) (tau : Nat) (v : Voice) : Int × Int :=
  match a.voiceSample tau v with
  | .pair l r =>
    let f : Int := v.factorAt held a.frameTick
    let e : Int := v.envelope.factor
    (shr15 (shr15 (l * f) * e), shr15 (shr15 (r * f) * e))
  | _ => (0, 0)

/-- One output of the mixer (R102): sum, saturation, ducking, master trim. -/
def mixOne (oos : Bool) (trimFactor : Nat) (x y : Int) : Int :=
  let m := sat16 (x + y)
  let m := if oos then shr15 (m * 3277) else m
  shr15 (m * trimFactor)

/-- The output pair of the current tick (R102). -/
def Au.mix (a : Au) (oos held : Bool) (tau : Nat) : Int × Int :=
  let x := a.voiceOut held tau a.a
  let y := a.voiceOut held tau a.b
  (mixOne oos a.trimFactor x.1 y.1, mixOne oos a.trimFactor x.2 y.2)

/-- The underrun of a voice at this tick, when it is the first in the frame (R98). -/
def Au.newUnderrun (a : Au) (tau : Nat) (v : Voice) : Option FaultDetail :=
  match a.voiceSample tau v with
  | .missing d => if v.underrun then none else some d
  | _ => none

/-- The envelope after a tick (R104). -/
def Envelope.tick : Envelope → Envelope
  | .steady => .steady
  | .falling i => .falling (i + 1)
  | .rising i => if 959 ≤ i then .steady else .rising (i + 1)

/-- The voice's position moves with audio time: it plays or fades, or its pause tail is still to end (R104). -/
def Voice.advancing (v : Voice) : Bool := v.state != .paused || v.envelope.inTail

/-- Content whose position has reached the sample count has ended, and so has content whose start sample lies there
already (R97). -/
def Content.markEnd (tau : Nat) (c : Content) : Content :=
  if c.endedAt (c.reached tau) then { c with ended := true } else c

/-- The mark of ended content at audio time τ. -/
def Voice.markEnd (tau : Nat) (v : Voice) : Voice :=
  if v.advancing then { v with content := v.content.map (Content.markEnd tau) } else v

/-- A voice after the tick of audio time τ: underrun mark, content end, envelope, and the end of a tail that drops the
voice (R105). -/
def Voice.tick (tau : Nat) (under : Bool) (v : Voice) : Voice :=
  let v := { v.markEnd tau with underrun := v.underrun || under, envelope := v.envelope.tick }
  if v.dropAtTail && !v.envelope.inTail then v.leave else v

/-- The correction frame after a tick: it ends with its 960th (R93). -/
def CorrectionFrame.tick (f : CorrectionFrame) : Option CorrectionFrame :=
  if 959 ≤ f.i then none else some { f with i := f.i + 1 }

/-- The unit after a tick whose pair was `out`. -/
def Au.tick (a : Au) (tau : Nat) (out : Int × Int) : Au :=
  { a with
    a := a.a.tick tau (a.newUnderrun tau a.a).isSome
    b := a.b.tick tau (a.newUnderrun tau a.b).isSome
    correction := a.correction.bind CorrectionFrame.tick
    frameTick := a.frameTick + 1
    out := out }

/-! ## The wanted blocks (R108) -/

/-- A wanted block: its distance, its voice, whether for a prime record, and the block with its type. -/
structure Want where
  dist : Nat
  voice : VoiceId
  segment : Nat
  block : Nat
  kind : SegType
  deriving DecidableEq, Repr

/-- The number of blocks of a record's segment (R108). -/
def PrimeRecord.blocks (r : PrimeRecord) (k : SegType) : Nat := ceilDiv (r.count * 2 * channelCount k) 4096

/-- The block at distance `d` from a record's position `p`, when it is wanted. -/
def PrimeRecord.want (r : PrimeRecord) (v : VoiceId) (p d : Nat) : List Want :=
  match r.kind with
  | none => []
  | some k =>
    let b := blockOf k p + d
    if b < r.blocks k then [{ dist := d, voice := v, segment := r.segment, block := b, kind := k }] else []

/-- The sample a voice's look-ahead starts from: at the hold boundary for a PAUSED voice (R108). Audio time at the hold
boundary is taken as its basin time, also where it falls in an unfinished correction frame, in which τ lies up to 3 below:
the model's choice (notes/assumptions/47.md). -/
def Au.wantFrom (a : Au) (tau : Nat) (v : Voice) (c : Content) : Nat :=
  c.reached (if v.state = .paused then (a.holdFrame.map (· * 960)).getD tau else tau)

/-- What a voice wants at distance `d`: content before prime record. -/
def Au.wantsAt (a : Au) (tau d : Nat) (id : VoiceId) : List Want :=
  let v := a.voice id
  (match v.content with
    | some c => c.item.want id (a.wantFrom tau v c) d
    | none => [])
  ++ (match v.prime with
    | some r => r.want id r.start d
    | none => [])

/-- The wanted blocks in issue order (R108), a block wanted twice standing at each of its places. -/
def Au.wants (a : Au) (lookAhead tau : Nat) : List Want :=
  (List.range (lookAhead + 1)).flatMap fun d =>
    if d % 2 = 0 then a.wantsAt tau d .a ++ a.wantsAt tau d .b
    else a.wantsAt tau d .b ++ a.wantsAt tau d .a

/-- A slot qualifies for a fill (R109). -/
def Au.qualifies (a : Au) (ws : List Want) (i : Fin 32) : Bool :=
  match a.slots[i].state with
  | .filling => false
  | .empty => true
  | .valid => !ws.any fun w => a.slots[i].tag == some (w.segment, w.block)

/-- The placement test for block `b` of segment `g` (R109). -/
def Au.place (a : Au) (ws : List Want) (g b : Nat) : Option (Fin 32) :=
  if a.qualifies ws (homeSlot g b) then some (homeSlot g b)
  else if a.qualifies ws (altSlot g b) then some (altSlot g b)
  else none

/-- The first block in issue order that is not found, has not been passed over, and passes the placement test; the
blocks that fail the test are passed over (R109). -/
def Au.nextFill (a : Au) (ws : List Want) : List Want → Au × Option Want
  | [] => (a, none)
  | w :: rest =>
    if (a.find? w.segment w.block).isSome || a.passed.contains (w.segment, w.block) then a.nextFill ws rest
    else if (a.place ws w.segment w.block).isSome then (a, some w)
    else { a with passed := (w.segment, w.block) :: a.passed }.nextFill ws rest

/-! ## Segments freed (R110) and reset (R111) -/

/-- The voice's content or prime record names segment `g`. -/
def Voice.freed (g : Nat) (v : Voice) : Voice :=
  let v := { v with prime := v.prime.filter fun p => p.segment != g }
  if v.content.any fun c => c.item.segment == g then v.leave
  else if v.state = .priming ∧ v.prime.isNone then { v with state := .idle }
  else v

/-- The content map reports segment `g` as one whose pages it has freed (R110). A slot being filled stays locked, and
its fill completes to EMPTY. -/
def Au.segmentFreed (a : Au) (g : Nat) : Au :=
  { a.onVoices (Voice.freed g) with
    slots := Vector.ofFn (fun i =>
      let x := a.slots[i]
      if x.state = .valid ∧ x.tag.any (fun t => t.1 == g) then {} else x)
    fill := a.fill.map fun f => if f.segment = g then { f with freed := true } else f }

/-- Both voices are IDLE (R19). -/
def Au.idle (a : Au) : Bool := a.a.state == .idle && a.b.state == .idle

/-- The unit's values after a reset (R103, R111); request numbers run on. -/
def Au.afterReset (P : Params) (a : Au) : Au :=
  { trimFactor := dbFactor P.masterTrim, nextRequest := a.nextRequest, out := a.out }

end Sys2Proof.Machine
end

