-- ==== Sys2Proof/Machine/Operands.lean ====
section
/-!
DEFINITION. The operand formats of the manual: frames on the line (R151, R152, R159, R196), the BEACON and CONTENT
payloads (R197, R198), and the cue record (R24, R200).
-/
namespace Sys2Proof.Machine

/-! ## Frame classes and kinds -/

/-- The range of payload lengths of a kind of a class; none where the class has no such kind (R152, R196). -/
def kindLength (cls kind : Nat) : Option (Nat × Nat) :=
  match cls, kind with
  | 0, 0 => some (0, 0)
  | 1, 0 => some (24, 24)
  | 2, 0 => some (3, 3)
  | 3, 0 => some (1, 1)
  | 3, 1 => some (7, 7)
  | 3, 2 => some (6, 6)
  | 3, 3 => some (6, 6)
  | 3, 4 => some (2, 2)
  | 3, 5 => some (7, 7)
  | 3, 6 => some (0, 0)
  | 3, 7 => some (0, 0)
  | 3, 8 => some (0, 0)
  | 3, 9 => some (1, 1)
  | 3, 10 => some (1, 1)
  | 4, 0 => some (3, 3)
  | 4, 1 => some (5, 80)
  | 5, 0 => some (3, 3)
  | 6, 0 => some (11, 11)
  | 6, 1 => some (68, 68)
  | _, _ => none

/-- The arbitration byte: class in bits 7..5, sender position in bits 4..0 (R152). -/
def arbByte (cls : Nat) (own : Position) : Byte := BitVec.ofNat 8 (32 * cls + own.val)

/-! ## The line: CRC, stuffing and the receive check. Levels: true is recessive (1), false dominant (0). -/

/-- The bits of a byte, most significant first. -/
def byteBits (b : Byte) : List Bool :=
  [b.getLsbD 7, b.getLsbD 6, b.getLsbD 5, b.getLsbD 4, b.getLsbD 3, b.getLsbD 2, b.getLsbD 1, b.getLsbD 0]

/-- One bit into the CRC: generator x^16 + x^12 + x^5 + 1 (R152). -/
def crcStep (c : BitVec 16) (b : Bool) : BitVec 16 :=
  if c.msb != b then (c <<< 1) ^^^ 0x1021#16 else c <<< 1

/-- The CRC of the unstuffed bits, from an initial value of all ones (R152). -/
def crc16 (bits : List Bool) : BitVec 16 := bits.foldl crcStep 0xFFFF#16

/-- The bits of the CRC, most significant first. -/
def crcBits (c : BitVec 16) : List Bool := (List.range 16).map fun i => c.getLsbD (15 - i)

/-- After five consecutive equal bits one bit of the opposite level is inserted (R151); `run` bits of level `last` have
just been sent. -/
def stuff (run : Nat) (last : Bool) : List Bool → List Bool
  | [] => []
  | b :: bs =>
    if b = last ∧ run + 1 = 5 then b :: (!b) :: stuff 1 (!b) bs
    else b :: stuff (if b = last then run + 1 else 1) b bs

/-- A frame as it stands on the line: start delimiter, stuffed bytes and CRC, end delimiter (R152). -/
def frameLevels (arb kind : Byte) (payload : List Byte) : List Bool :=
  let body := (arb :: kind :: BitVec.ofNat 8 payload.length :: payload).flatMap byteBits
  stuff 0 true (false :: body ++ crcBits (crc16 body)) ++ List.replicate 6 true

/-- What reading bits off the line comes to. -/
inductive BitRead where
  /-- the bits read, the run of equal levels they end in, and the levels that follow -/
  | ok (bits : List Bool) (run : Nat) (last : Bool) (rest : List Bool)
  | violation
  | short

/-- `n` bits read, the stuff bits removed; a sixth equal level is a stuff violation (R151). -/
def readBits (n run : Nat) (last : Bool) (ls : List Bool) : BitRead :=
  match ls with
  | [] => if n = 0 then .ok [] run last [] else .short
  | b :: bs =>
    if n = 0 then .ok [] run last (b :: bs)
    else if run = 5 then if b = last then .violation else readBits n 1 b bs
    else
      match readBits (n - 1) (if b = last then run + 1 else 1) b bs with
      | .ok got r l rest => .ok (b :: got) r l rest
      | x => x

/-- The number spelt by bits, most significant first. -/
def bitsNat (bs : List Bool) : Nat := bs.foldl (fun n b => 2 * n + b.toNat) 0

/-- The cases of R159 in which a frame is discarded. -/
inductive Discard where
  | stuffViolation
  | noClass
  | noKind
  | badLength
  | badCrc
  | badEnd
  deriving DecidableEq, Repr

/-- What the checks of R159 make of the levels heard: accepted, discarded, or not yet at an end. -/
inductive Verdict where
  | accepted
  | discarded (why : Discard)
  | unfinished
  deriving DecidableEq, Repr

/-- The end delimiter: six recessive bits (R151). -/
def checkEnd (ls : List Bool) : Verdict :=
  if (ls.take 6).any (fun b => !b) then .discarded .badEnd
  else if ls.length < 6 then .unfinished else .accepted

/-- The bit that ends the stuffed part when it closes with five equal levels. -/
def checkTail (run : Nat) (last : Bool) (ls : List Bool) : Verdict :=
  if run = 5 then
    match ls with
    | [] => .unfinished
    | b :: bs => if b = last then .discarded .stuffViolation else checkEnd bs
  else checkEnd ls

/-- The CRC, computed over the bits read so far (R152). -/
def checkCrc (body : List Bool) (run : Nat) (last : Bool) (ls : List Bool) : Verdict :=
  match readBits 16 run last ls with
  | .violation => .discarded .stuffViolation
  | .short => .unfinished
  | .ok bits r l rest => if bits = crcBits (crc16 body) then checkTail r l rest else .discarded .badCrc

/-- The length byte against the kind's length, then the payload (R159). -/
def checkLength (cls kind : Nat) (head : List Bool) (run : Nat) (last : Bool) (ls : List Bool) : Verdict :=
  match kindLength cls kind with
  | none => .discarded .noKind
  | some (lo, hi) =>
    match readBits 8 run last ls with
    | .violation => .discarded .stuffViolation
    | .short => .unfinished
    | .ok bits r l rest =>
      let n := bitsNat bits
      if n < lo ∨ hi < n then .discarded .badLength
      else
        match readBits (8 * n) r l rest with
        | .violation => .discarded .stuffViolation
        | .short => .unfinished
        | .ok payload r l rest => checkCrc (head ++ bits ++ payload) r l rest

/-- The kind byte (R159). -/
def checkKind (cls : Nat) (arb : List Bool) (run : Nat) (last : Bool) (ls : List Bool) : Verdict :=
  match readBits 8 run last ls with
  | .violation => .discarded .stuffViolation
  | .short => .unfinished
  | .ok bits r l rest => checkLength cls (bitsNat bits) (arb ++ bits) r l rest

/-- The checks of R159 on the levels from a start delimiter on. -/
def checkFrame (ls : List Bool) : Verdict :=
  match ls with
  | [] => .unfinished
  | true :: _ => .unfinished
  | false :: rest =>
    match readBits 8 1 false rest with
    | .violation => .discarded .stuffViolation
    | .short => .unfinished
    | .ok arb r l rest =>
      if bitsNat (arb.take 3) = 7 then .discarded .noClass else checkKind (bitsNat (arb.take 3)) arb r l rest

/-! ## Payloads -/

end Sys2Proof.Machine

namespace Sys2Proof

/-- The 24 bytes of a BEACON (R197). -/
def BeaconFields.bytes (b : BeaconFields) : List Byte :=
  beBytes 6 b.stamp.toNat ++ [b.role, b.state, b.showId] ++ beBytes 2 b.index.toNat ++ beBytes 4 b.demand.toNat
    ++ beBytes 4 b.share.toNat ++ beBytes 2 b.wind.toNat ++ beBytes 2 b.level.toNat ++ [b.flags]

/-- The 11 bytes of a SEGMENT_DEFINE (R198). -/
def SegmentDefineFields.bytes (f : SegmentDefineFields) : List Byte :=
  [f.showId, f.segment, f.kind] ++ beBytes 4 f.length.toNat ++ beBytes 4 f.tail.toNat

/-- The bytes of a PAGE_DATA (R198). -/
def PageDataFields.bytes (f : PageDataFields) : List Byte := [f.showId, f.segment, f.page, f.chunk] ++ f.data

/-- The wind a beacon carries; absent when its present bit is clear (R197). -/
def BeaconFields.windOf (b : BeaconFields) : Option Nat := if b.flags.getLsbD 5 then some b.wind.toNat else none

/-- The level a beacon carries. -/
def BeaconFields.levelOf (b : BeaconFields) : Option Nat := if b.flags.getLsbD 6 then some b.level.toNat else none

/-- Reserved bits of a SEGMENT_DEFINE are set (R198): bit 7 of the segment byte, bits 7..2 of the type byte, and for
CUE every bit of bytes 7..10 but bits 4..0 of byte 10. -/
def SegmentDefineFields.reservedSet (f : SegmentDefineFields) : Bool :=
  f.segment.getLsbD 7 || decide (4 ≤ f.kind.toNat) || (f.kind.toNat == 0 && decide (32 ≤ f.tail.toNat))

/-- The owner position of a CUE definition. -/
def SegmentDefineFields.owner (f : SegmentDefineFields) : Nat := f.tail.toNat % 32

end Sys2Proof

namespace Sys2Proof.Machine

/-- The type a SEGMENT_DEFINE names (R198). -/
def segTypeOf (code : Nat) : Option SegType :=
  match code with
  | 0 => some .cue
  | 1 => some .mono
  | 2 => some .stereo
  | _ => none

/-! ## The cue record -/

/-- Byte `i` of a record. -/
def recByte (r : List Byte) (i : Nat) : Nat := (r.getD i 0).toNat

/-- The two bytes from byte `i`. -/
def recWord (r : List Byte) (i : Nat) : Nat := 256 * recByte r i + recByte r (i + 1)

/-- A well-formed cue record's content, its fields clamped as R24 gives. -/
inductive Cue where
  | jet (mask : Nat) (height ramp : Nat) (atCommand : Bool)
  | sweep (first last : Nat) (reversed : Bool) (height step : Nat) (basin : Bool)
  | light (mask chans r g b w fade : Nat) (follow : Option Nat)
  | audioStart (v : VoiceId) (segment start gain : Nat)
  | audioGain (v : VoiceId) (gain ramp : Nat)
  | audioStop (v : VoiceId) (fade : Nat)
  | waitTrigger (number rearm : Nat) (interruptible : Bool)
  | endSegment
  | endShow
  deriving DecidableEq, Repr

/-- The kind code of a record (R200). -/
def cueKind (r : List Byte) : Nat := recByte r 4

/-- The time of a record. -/
def cueTime (r : List Byte) : Nat := beNat (r.take 4)

/-- The flag bits a kind defines (R200). -/
def cueFlagMask (kind : Nat) : Nat :=
  match kind with
  | 1 | 2 | 7 => 1
  | 3 => 3
  | _ => 0

/-- The number of targets a kind's mask may name (R24): jets 0..7, fixtures 0..11, none for the other kinds. -/
def cueTargets (kind : Nat) : Nat :=
  match kind with
  | 1 => 8
  | 3 => 12
  | _ => 0

/-- A voice of its code (R200). -/
def voiceOf (code : Nat) : Option VoiceId :=
  match code with
  | 0 => some .a
  | 1 => some .b
  | _ => none

/-- The parameters of a kind, or none where one lies outside its encoding (R24, R200). -/
def cueBody (r : List Byte) (kind flags mask : Nat) : Option Cue :=
  match kind with
  | 1 => some (.jet mask (min 4095 (recWord r 8)) (recWord r 10) (flags % 2 = 1))
  | 2 =>
    if recByte r 8 ≤ recByte r 9 ∧ recByte r 9 ≤ 7 ∧ recByte r 10 ≤ 1 then
      some (.sweep (recByte r 8) (recByte r 9) (recByte r 10 = 1) (min 4095 (recWord r 11)) (recWord r 13)
        (flags % 2 = 1))
    else none
  | 3 =>
    if recByte r 12 ≤ 15 ∧ (flags / 2 = 1 → recByte r 15 ≤ 7) then
      some (.light mask (recByte r 12) (recByte r 8) (recByte r 9) (recByte r 10) (recByte r 11)
        (if flags % 2 = 1 then min 3000 (recWord r 13) else 0)
        (if flags / 2 = 1 then some (recByte r 15) else none))
    else none
  | 4 =>
    match voiceOf (recByte r 8) with
    | some v =>
      if recByte r 9 ≤ 127 then
        some (.audioStart v (recByte r 9) (beNat ((r.drop 10).take 4)) (min 800 (recWord r 14)))
      else none
    | none => none
  | 5 => (voiceOf (recByte r 8)).map fun v => .audioGain v (min 800 (recWord r 9)) (min 3000 (recWord r 11))
  | 6 => (voiceOf (recByte r 8)).map fun v => .audioStop v (min 3000 (recWord r 9))
  | 7 => some (.waitTrigger (recByte r 8) (recWord r 9) (flags % 2 = 1))
  | 8 => some .endSegment
  | 9 => some .endShow
  | _ => none

/-- The form check of R24 on a 16-byte record: none is malformed. -/
def decodeCue (r : List Byte) : Option Cue :=
  let kind := cueKind r
  let flags := recByte r 5
  let mask := recWord r 6
  if kind < 1 ∨ 9 < kind then none
  else if flags ≠ flags &&& cueFlagMask kind then none
  else if 2 ^ cueTargets kind ≤ mask then none
  else cueBody r kind flags mask

end Sys2Proof.Machine
end

