-- ==== Sys2Proof/Machine/Link.lean ====
section
/-!
DEFINITION. The link interface unit: slots and queues, the choice of a frame, withdrawal, transmit errors, MUTE and the
burst yield (spec/08, R153 to R158).
-/
namespace Sys2Proof.Machine

/-! ## Withdrawal (R155) -/

/-- The frame on the wire came from the CLAIM slot. -/
def Liu.claimBegun (l : Liu) : Bool := l.tx.any fun t => t.source == .claim

/-- The frame on the wire is the head of the FETCH queue. -/
def Liu.fetchBegun (l : Liu) : Bool := l.tx.any fun t => t.source == .fetch

/-- The frame on the wire is the head of the CONTENT queue. -/
def Liu.contentBegun (l : Liu) : Bool := l.tx.any fun t => t.source == .content

/-- The frame on the wire is a part of the reply at the head of the REPLY queue. -/
def Liu.queryBegun (l : Liu) : Bool := l.tx.any fun t => t.source == .query

/-- The claim is withdrawn; a claim already begun is not reached. -/
def Liu.withdrawClaim (l : Liu) : Liu := if l.claimBegun then l else { l with claim := none }

/-- The entries of a queue that fail `p` removed; a head already begun stays. -/
def withdrawFrom {α : Type} (begun : Bool) (p : α → Bool) (q : List α) : List α :=
  if begun then q.take 1 ++ (q.drop 1).filter p else q.filter p

/-- The PAGE_REQUEST of fill record `id` is withdrawn. -/
def Liu.withdrawFetch (l : Liu) (id : Nat) : Liu :=
  { l with fetchQ := withdrawFrom l.fetchBegun (fun f => f.fill != id) l.fetchQ }

/-- The PAGE_DATA frames of serve record `id` are withdrawn. -/
def Liu.withdrawContent (l : Liu) (id : Nat) : Liu :=
  { l with contentQ := withdrawFrom l.contentBegun (fun f => f.serve != id) l.contentQ }

/-! ## Slots and queues (R154) -/

/-- A STOP_ASSERT offered to the HALT slot; one already there is not added to. -/
def Liu.offerStop (l : Liu) : Liu := { l with halt := true }

/-- A reply's part count: ceil(snapshot length / 76) (R163). -/
def Reply.parts (r : Reply) : Nat := ceilDiv r.snapshot.length 76

/-- The payload of the reply's next part (R163, R196). -/
def Reply.part (r : Reply) : List Byte :=
  [r.tag, BitVec.ofNat 8 r.selector, BitVec.ofNat 8 r.next, BitVec.ofNat 8 r.parts]
    ++ (r.snapshot.drop (76 * r.next)).take 76

/-- The payload of a PAGE_REQUEST (R196). -/
def PageRequestOut.bytes (p : PageRequestOut) : List Byte :=
  [BitVec.ofNat 8 p.showId, BitVec.ofNat 8 p.segment, BitVec.ofNat 8 p.page]

/-- The payload of a PAGE_DATA (R198). -/
def PageDataOut.bytes (p : PageDataOut) : List Byte :=
  [BitVec.ofNat 8 p.showId, BitVec.ofNat 8 p.segment, BitVec.ofNat 8 p.page, BitVec.ofNat 8 p.chunk] ++ p.data

/-- The payload of a START_CLAIM (R196). -/
def ClaimFrame.bytes (c : ClaimFrame) : List Byte := BitVec.ofNat 8 c.channel.val :: beBytes 2 c.allowance

/-- The frame the LIU would send at a start delimiter: of the eligible frames the one of the lowest class value, and
within a queue the head (R153, R154). `up` is false during the start-up listen. -/
def Liu.choose (l : Liu) (up : Bool) (own : Position) : Option Tx :=
  let free := up && l.mute == 0 && !l.conflict
  if up && l.halt then some { source := .halt, arb := arbByte 0 own, kind := 0, payload := [] }
  else if !free then none
  else
    match l.beacon, l.claim, l.replies, l.fetchQ, l.contentQ with
    | some b, _, _, _, _ => some { source := .time b, arb := arbByte 1 own, kind := 0, payload := b.bytes }
    | none, some c, _, _, _ => some { source := .claim, arb := arbByte 2 own, kind := 0, payload := c.bytes }
    | none, none, r :: _, _, _ => some { source := .query, arb := arbByte 4 own, kind := 1, payload := r.part }
    | none, none, [], f :: _, _ => some { source := .fetch, arb := arbByte 5 own, kind := 0, payload := f.bytes }
    | none, none, [], [], p :: _ =>
      if l.yieldCount < 4 then some { source := .content, arb := arbByte 6 own, kind := 1, payload := p.bytes }
      else none
    | none, none, [], [], [] => none

/-- A frame begun (R153): a beacon leaves its slot and carries own basin time at its start delimiter (R160). -/
def Liu.begin (l : Liu) (t : Tx) (now : Nat) : Liu :=
  match t.source with
  | .time b =>
    let b : BeaconFields := { b with stamp := BitVec.ofNat 48 now }
    { l with beacon := none, tx := some { t with source := .time b, payload := b.bytes } }
  | _ => { l with tx := some t }

/-- A start delimiter on the line (R153): this station's chosen frame contends with the rivals' arbitration bytes on
the wired AND, the lowest value going through. A station with no eligible frame, or one that loses, receives; the
start-of-frame stamp is own basin time (R160). -/
def Liu.start (l : Liu) (up : Bool) (own : Position) (now : Nat) (rivals : List Byte) : Liu :=
  match l.choose up own with
  | none => if rivals.isEmpty then l else { l with rxStamp := some (now : Int) }
  | some t =>
    if rivals.any fun b => decide (b.toNat < t.arb.toNat) then { l with rxStamp := some (now : Int) }
    else l.begin t now

/-! ## Outcomes of a transmission -/

/-- A frame of this station has gone out without error (R155, R156). -/
def Liu.wentOut (l : Liu) : Liu := { l with tx := none, fails := 0 }

/-- The aborted frame returns to its place (R154, R155): a beacon only when no newer one stands in its slot, and a
claim only when its pump still holds the claim slot (R66). -/
def Liu.returnFrame (l : Liu) (claimHeld : Bool) : Liu :=
  match l.tx with
  | some { source := .time b, .. } => { l with tx := none, beacon := l.beacon.or (some b) }
  | some { source := .claim, .. } => { l with tx := none, claim := if claimHeld then l.claim else none }
  | _ => { l with tx := none }

/-- The consecutive-failure count after an aborted transmission (R156), and whether MUTE is entered (R157). -/
def Liu.countFailure (l : Liu) : Liu × Bool :=
  if l.mute ≠ 0 then (l, false)
  else if 8 ≤ l.fails + 1 then ({ l with fails := 0, mute := 50, mutedSince := true }, true)
  else ({ l with fails := l.fails + 1 }, false)

/-- A marked boundary in MUTE (R157). -/
def Liu.boundary (l : Liu) : Liu := { l with mute := l.mute - 1 }

/-- The receive-error count rises by 1, saturating (R159). -/
def Liu.countRxError (l : Liu) : Liu := { l with rxErrors := satInc l.rxErrors }

/-- The end of a frame of another station: the yield count returns to 0 (R158) and its reception is over. -/
def Liu.frameHeard (l : Liu) : Liu := { l with yieldCount := 0, rxStamp := none }

/-- The frame this station transmits is aborted and discarded, and the one it receives is discarded (R164, R194). -/
def Liu.abandonLine (l : Liu) : Liu := { l with tx := none, rxStamp := none }

end Sys2Proof.Machine
end

