-- ==== Sys2Proof/Machine/Smc.lean ====
section
/-!
DEFINITION. The show memory controller: requests, banks, the arbiter and refresh (spec/07, R137 to R149). Every
function here is of the controller's own state. Moments are counts of the 100 MHz memory clock (R141).
-/
namespace Sys2Proof.Machine

/-! ## Addresses and requests -/

/-- A place in show memory: bank, row and byte column (R137). -/
structure Place where
  bank : Fin 4
  row : Nat
  col : Nat
  deriving DecidableEq, Repr

/-- Byte `y` of physical page `p` lies in bank p mod 4, row 4 × (p div 4) + (y div 4096), column y mod 4096 (R137). -/
def placeOf (p y : Nat) : Place :=
  { bank := ⟨p % 4, Nat.mod_lt _ (by decide)⟩, row := 4 * (p / 4) + y / 4096, col := y % 4096 }

/-- The address of column `col` of row `row` of bank `bank`: 16,384 × page + byte, the inverse of `placeOf`. -/
def addressOf (bank : Fin 4) (row col : Nat) : Nat :=
  16384 * (4 * (row / 4) + bank.val) + 4096 * (row % 4) + col

/-- The burst count of a request kind (R137). -/
def ReqKind.bursts : ReqKind → Nat
  | .rowRead => 128
  | .read256 => 8
  | .write64 => 2
  | .read16 => 1

/-- A request of kind `k` at a place. -/
def Request.at (k : ReqKind) (p : Place) (id : Nat := 0) (data : List (Option Byte) := []) : Request :=
  { kind := k, bank := p.bank, row := p.row, col := p.col, data := data, id := id }

/-- The column at which the next burst of a request starts: bursts are of 32 bytes, aligned (R137). -/
def Request.burstCol (r : Request) : Nat := 32 * (r.col / 32) + 32 * r.done

/-- The request that the class's slot presents to the arbiter; of two serve reads the one that arrived first (R140). -/
def Smc.slot (m : Smc) : ReqClass → Option Request
  | .audio => m.audio
  | .walk => m.walk
  | .cue => m.cue
  | .content => m.content
  | .serve => m.serve.head?

/-- That request replaced, or its slot freed. -/
def Smc.setSlot (m : Smc) (c : ReqClass) (r : Option Request) : Smc :=
  match c with
  | .audio => { m with audio := r }
  | .walk => { m with walk := r }
  | .cue => { m with cue := r }
  | .content => { m with content := r }
  | .serve => { m with serve := r.toList ++ m.serve.drop 1 }

/-- The class has a free slot (R138: one each, two for serve reads) and no completion of it still waits to be acted
on. -/
def Smc.classFree (m : Smc) (c : ReqClass) : Bool :=
  (match c with
    | .serve => decide (m.serve.length < 2)
    | c => (m.slot c).isNone && !(m.reports.any fun r => r.cls == c))

/-! ## Banks -/

def Smc.onBank (m : Smc) (b : Fin 4) (g : Bank → Bank) : Smc :=
  { m with banks := m.banks.set b (g m.banks[b]) }

/-- An activate for row `r` at clock `t`; the row may be accessed 2 clocks later (R139). -/
def Bank.activate (t r : Nat) (b : Bank) : Bank :=
  { b with state := .activating, row := some r, lastActivate := some t, due := t + 2 }

/-- A precharge at clock `t`; the bank is IDLE 2 clocks later (R139). -/
def Bank.precharge (t : Nat) (b : Bank) : Bank :=
  { b with state := .precharging, row := none, due := t + 2 }

/-- Every bank is IDLE. -/
def Smc.allIdle (m : Smc) : Bool := m.banks.toList.all fun b => b.state == .idle

/-! ## Operations on the port -/

/-- The duration of a burst: 110 ns for a read, 80 ns for a write (R141). -/
def ReqKind.burstClocks : ReqKind → Nat
  | .write64 => 8
  | _ => 11

/-- The commands a grant to class `c` issues, by the state of the request's bank (R141), and the burst itself when
its row is open. -/
def Smc.startBurst (m : Smc) (c : ReqClass) (r : Request) : Smc :=
  let b := m.banks[r.bank]
  let held : Smc := { m with port := some { op := .burst c, issued := false, due := m.clock } }
  match b.state with
  | .open =>
    if b.row = some r.row then
      { m with port := some { op := .burst c, issued := true, due := m.clock + r.kind.burstClocks } }
    else held.onBank r.bank (Bank.precharge m.clock)
  | .idle => held.onBank r.bank (Bank.activate m.clock r.row)
  | .activating | .precharging => held

/-- The refresh itself, 60 ns (R141). -/
def Smc.issueRefresh (m : Smc) (forced : Bool) (at_ : Nat) : Smc :=
  { m with port := some { op := .refresh forced, issued := true, due := at_ + 6 } }

/-- Some bank is still PRECHARGING. -/
def Smc.anyPrecharging (m : Smc) : Bool := m.banks.toList.any fun b => b.state == .precharging

/-- A refresh has the port: a bank still PRECHARGING is waited for, then all banks are precharged, and the refresh
follows when every bank is IDLE (R141, R144). -/
def Smc.startRefresh (m : Smc) (forced : Bool) : Smc :=
  if m.anyPrecharging then { m with port := some { op := .refresh forced, issued := false, due := 0 } }
  else if m.allIdle then m.issueRefresh forced (m.clock + 2)
  else
    { m with
      banks := Vector.ofFn (fun i =>
        let b := m.banks[i]
        if b.state == .open then b.precharge m.clock else b)
      port := some { op := .refresh forced, issued := false, due := m.clock + 2 } }

/-- The classes in the order of R140. -/
def grantOrder : List ReqClass := [.audio, .walk, .cue, .content, .serve]

/-- The first class with a waiting request. -/
def Smc.firstWaiting (m : Smc) : Option (ReqClass × Request) :=
  grantOrder.findSome? fun c => (m.slot c).map fun r => (c, r)

/-- A grant point: the port is given as R140 orders. -/
def Smc.grant (m : Smc) : Smc :=
  if 8 ≤ m.debt then m.startRefresh true
  else
    match m.firstWaiting with
    | some (c, r) => m.startBurst c r
    | none => if 0 < m.debt then m.startRefresh false else { m with port := none }

/-- A grant point at an idle port of a READY controller (R140, R148). -/
def Smc.grantIfIdle (m : Smc) : Smc :=
  if m.ctl = .ready ∧ m.port.isNone then m.grant else m

/-- A request arrives in its class's slot (R138). -/
def Smc.arrive (m : Smc) (c : ReqClass) (r : Request) : Smc :=
  (match c with
    | .audio => { m with audio := some r }
    | .walk => { m with walk := some r }
    | .cue => { m with cue := some r }
    | .content => { m with content := some r }
    | .serve => { m with serve := m.serve ++ [r] }).grantIfIdle

/-! ## The ends of operations -/

/-- The bytes a completed read delivers: a 16-byte read delivers its half of the burst (R137). -/
def Request.delivered (r : Request) : List Byte :=
  match r.kind with
  | .read16 => (r.got.drop (r.col % 32)).take 16
  | _ => r.got

/-- One burst of `r` transferred: 32 bytes written under the mask, or read (R141). -/
def Smc.transfer (m : Smc) (r : Request) : Smc × Request :=
  let a := addressOf r.bank r.row r.burstCol
  match r.kind with
  | .write64 =>
    ({ m with mem := Memory.writeRange m.mem a ((r.data.drop (32 * r.done)).take 32) },
      { r with done := r.done + 1 })
  | _ => (m, { r with done := r.done + 1, got := r.got ++ Memory.readRange m.mem a 32 })

/-- The end of a burst of class `c` (R138, R142): the request keeps its slot until its last burst, whose end is
reported; a row read's last burst closes its bank. -/
def Smc.endBurst (m : Smc) (c : ReqClass) : Smc :=
  match m.slot c with
  | none => m
  | some r =>
    let (m, r) := m.transfer r
    if r.done < r.kind.bursts then m.setSlot c (some r)
    else
      let m := m.setSlot c none
      let m := { m with reports := m.reports ++ [{ cls := c, id := r.id, bytes := r.delivered }] }
      if r.kind = .rowRead then m.onBank r.bank (Bank.precharge m.clock) else m

/-- The end of a refresh (R145, R150): the debt falls by 1 and the count of its kind rises. -/
def Smc.endRefresh (m : Smc) (forced : Bool) : Smc :=
  if forced then { m with debt := m.debt - 1, forced := satInc m.forced }
  else { m with debt := m.debt - 1, opportunistic := satInc m.opportunistic }

/-- The operation on the port ends, and the port is given anew (R140). -/
def Smc.endOperation (m : Smc) : Smc :=
  match m.port with
  | none => m.grantIfIdle
  | some p =>
    if p.issued then
      let m := { m with clock := max m.clock p.due, port := none }
      (match p.op with
        | .burst c => m.endBurst c
        | .refresh f => m.endRefresh f).grant
    else m

/-- The row of the burst that is being transferred, when there is one. -/
def Smc.burstRow (m : Smc) : Option Nat :=
  match m.port with
  | some { op := .burst c, issued := true, .. } => (m.slot c).map (·.row)
  | _ => none

/-- 20 ns after the activate of bank `b` (R139): the bank becomes OPEN, and the burst that waits for it is issued. -/
def Smc.activateDone (m : Smc) (b : Fin 4) : Smc :=
  if m.banks[b].state = .activating then
    let m := { m with clock := max m.clock m.banks[b].due }
    let m := m.onBank b fun k => { k with state := .open }
    match m.port with
    | some { op := .burst c, issued := false, .. } =>
      match m.slot c with
      | some r => if r.bank = b then m.startBurst c r else m
      | none => m
    | _ => m
  else m

/-- 20 ns after the precharge of bank `b` (R139): the bank becomes IDLE, and the operation that waits for it goes
on. -/
def Smc.prechargeDone (m : Smc) (b : Fin 4) : Smc :=
  if m.banks[b].state = .precharging then
    let m := { m with clock := max m.clock m.banks[b].due }
    let m := m.onBank b fun k => { k with state := .idle, row := none }
    match m.port with
    | some { op := .burst c, issued := false, .. } =>
      match m.slot c with
      | some r => if r.bank = b then m.startBurst c r else m
      | none => m
    | some { op := .refresh f, issued := false, due := d } =>
      if m.anyPrecharging then m
      else if d = 0 then m.startRefresh f
      else if m.allIdle then m.issueRefresh f m.clock
      else m
    | _ => m
  else m

/-! ## Refresh debt and initialisation -/

/-- The memory clock of the `n`-th debt rise after READY: every 7.8125 µs, 3125/4 clocks (R145). -/
def Smc.riseMoment (m : Smc) (n : Nat) : Nat := m.readyAt + ceilDiv (n * 3125) 4

/-- A debt rise (R145); at an idle port it is a grant point. The debt stands in 0..8. -/
def Smc.debtRise (m : Smc) : Smc :=
  if m.ctl = .ready then
    { m with clock := max m.clock (m.riseMoment (m.rises + 1)), rises := m.rises + 1,
             debt := min 8 (m.debt + 1) }.grantIfIdle
  else m

/-- 200 µs after the memory clock began (R148). -/
def Smc.initWaitEnd (m : Smc) : Smc :=
  if m.ctl = .initWait then { m with clock := max m.clock 20000, ctl := .initPrecharge } else m

/-- The initial precharge ends (R148): all banks IDLE. -/
def Smc.initPrechargeEnd (m : Smc) : Smc :=
  if m.ctl = .initPrecharge then
    { m with clock := m.clock + 2, ctl := .initRefresh, initCount := 0,
             banks := Vector.ofFn (fun i => { m.banks[i] with state := .idle, row := none }) }
  else m

/-- An initial refresh ends; after the 8th the mode is loaded (R148). -/
def Smc.initRefreshEnd (m : Smc) : Smc :=
  if m.ctl = .initRefresh then
    { m with clock := m.clock + 6, initCount := m.initCount + 1,
             ctl := if 8 ≤ m.initCount + 1 then .initMode else .initRefresh }
  else m

/-- The mode load ends (R148): READY, debt 0, rises counted from here, and the first grant point. -/
def Smc.initModeEnd (m : Smc) : Smc :=
  if m.ctl = .initMode then
    { m with clock := m.clock + 2, ctl := .ready, debt := 0, rises := 0, readyAt := m.clock + 2,
             port := none }.grant
  else m

/-- The memory clock after `n` ticks of the local oscillator since power-on: 100 MHz against 48,000 ticks a second
(R141, spec/00), never behind a moment already reached. -/
def Smc.tick (m : Smc) (n : Nat) : Smc := { m with clock := max m.clock (n * 6250 / 3) }

/-! ## Completions -/

/-- The first completion of class `c` not yet acted on. -/
def Smc.reportOf (m : Smc) (c : ReqClass) : Option Report := m.reports.find? fun r => r.cls == c

/-- That completion acted on. -/
def Smc.dropReport (m : Smc) (c : ReqClass) : Smc :=
  { m with reports := m.reports.eraseP fun r => r.cls == c }

end Sys2Proof.Machine
end

