-- ==== Sys2Proof/Machine/ContentMap.lean ====
section
/-!
DEFINITION. The content map: directory, page tables and their writes to the map region, the free page set, the map
cache, lookups and walks, and the release of segments (spec/06, R113 to R127).
-/
namespace Sys2Proof.Machine

/-! ## Directory, page tables, shows -/

/-- The key of page `q` of segment `g`. -/
def pageKey (g q : Nat) : Nat := 64 * g + q

/-- The directory entry of a segment; none is UNDEFINED. -/
def Cm.entry (c : Cm) (g : Nat) : Option DirEntry := Table.get? c.dir g

/-- The state of a page table entry (R113). -/
def Cm.pageState (c : Cm) (g q : Nat) : PageState := ((Table.get? c.pages (pageKey g q)).map (·.state)).getD .absent

/-- Segments 120..127 are the house program. -/
def isHouse (g : Nat) : Bool := decide (120 ≤ g)

/-- The show id frames for a segment carry: the current show, or 0 for a house segment (R128). -/
def Cm.showOf (c : Cm) (g : Nat) : Nat := if isHouse g then 0 else c.showId

/-- A frame's show id matches for segment `g` (R125). -/
def Cm.showMatches (c : Cm) (showId g : Nat) : Bool :=
  if isHouse g then showId == 0 else showId == c.showId && c.showId != 0

/-- A segment's entry or pages change: its walks become stale (R117). -/
def Cm.touch (c : Cm) (g : Nat) : Cm :=
  { c with mapQ := c.mapQ.map fun e =>
      match e with
      | .walk w => if w.segment = g then .walk { w with stale := true } else .walk w
      | .write w => .write w }

/-- The entry of page `q` of segment `g` takes state `st` with physical page `p`; ABSENT removes it. -/
def Cm.setPage (c : Cm) (g q : Nat) (st : PageState) (p : Nat) : Cm :=
  ({ c with pages :=
      if st = .absent then Table.drop c.pages (pageKey g q)
      else Table.put c.pages (pageKey g q) { state := st, phys := p } } : Cm).touch g

/-! ## The map region (R114). The layout of the fields within an entry is the model's (notes/assumptions/8.md). -/

def PageState.code : PageState → Nat
  | .absent => 0
  | .filling => 1
  | .present => 2
  | .unavailable => 3

def SegType.code : SegType → Nat
  | .cue => 0
  | .mono => 1
  | .stereo => 2

/-- The 16 bytes of a directory entry. -/
def dirBytes : Option DirEntry → List Byte
  | none => List.replicate 16 0
  | some e =>
    [1, BitVec.ofNat 8 e.showId, BitVec.ofNat 8 e.kind.code, BitVec.ofNat 8 e.owner] ++ beBytes 4 e.length
      ++ List.replicate 8 0

/-- The 4 bytes of a page table entry. -/
def pteBytes : Option Pte → List Byte
  | none => List.replicate 4 0
  | some e =>
    [BitVec.ofNat 8 e.state.code, 0] ++ beBytes 2 (if e.state = .filling ∨ e.state = .present then e.phys else 0)

/-- The physical page a page table entry's bytes name. -/
def ptePhys (bs : List Byte) : Nat := beNat ((bs.drop 2).take 2)

/-- The write of the directory entries of the segments `gs` that lie in block `k`, four entries to a block. -/
def Cm.dirWrite (c : Cm) (gs : List Nat) (init : Bool) (k : Nat) : TableWrite :=
  { block := k
    bytes := [0, 1, 2, 3].flatMap fun i =>
      if gs.contains (4 * k + i) then (dirBytes (c.entry (4 * k + i))).map some else List.replicate 16 none
    init := init }

/-- The write of the page table entries with the keys `ks` that lie in block 32 + `k`, sixteen to a block. -/
def Cm.pteWrite (c : Cm) (ks : List Nat) (k : Nat) : TableWrite :=
  { block := 32 + k
    bytes := (List.range 16).flatMap fun i =>
      if ks.contains (16 * k + i) then (pteBytes (Table.get? c.pages (16 * k + i))).map some
      else List.replicate 4 none
    init := false }

/-- The blocks that `xs` fall in, `n` to a block, each once and ascending. -/
def blocksOf (n : Nat) (xs : List Nat) : List Nat := xs.foldr (fun x l => insertNat (x / n) l) []

/-- The table writes of a change to the directory entries of `gs` and the page table entries of `ks`: one for each
block touched, with the entries as they now stand (R114). -/
def Cm.queueWrites (c : Cm) (gs ks : List Nat) : Cm :=
  { c with mapQ := c.mapQ ++ (blocksOf 4 gs).map (fun k => .write (c.dirWrite gs false k))
      ++ (blocksOf 16 ks).map (fun k => .write (c.pteWrite ks k)) }

/-- The table writes that stand in the map-region queue. -/
def Cm.tableWrites (c : Cm) : Nat :=
  sumBy (fun e : MapEntry =>
    match e with
    | .write _ => 1
    | .walk _ => 0) c.mapQ

/-- The place of map region byte `x` (R114). -/
def mapPlace (x : Nat) : Place := placeOf (x / 16384) (x % 16384)

/-- The request of an entry of the map-region queue: a table write, or the read a walk has come to (R114, R117). -/
def MapEntry.request : MapEntry → Request
  | .write w => Request.at .write64 (mapPlace (64 * w.block)) 0 w.bytes
  | .walk w =>
    if w.second then Request.at .read16 (mapPlace (16 * ((2048 + 4 * pageKey w.segment w.page) / 16)))
    else Request.at .read16 (mapPlace (16 * w.segment))

/-- The head of the map-region queue is issued when its class's slot is free and no head stands there (R114). -/
def State.issueMap (s : State) : State :=
  match s.cm.mapQ with
  | e :: _ =>
    if !s.cm.mapIssued && s.smc.classFree .walk then
      (s.onSmc fun m => m.arrive .walk e.request).onCm fun c => { c with mapIssued := true }
    else s
  | [] => s

/-- The head of the map-region queue is done, and the next is issued. -/
def State.popMap (s : State) : State := (s.onCm fun c => { c with mapQ := c.mapQ.drop 1, mapIssued := false }).issueMap

/-! ## The free page set (R119) -/

/-- The lowest page of the free page set. -/
def Cm.lowestFree (c : Cm) : Option Nat :=
  let p := lowestNotIn 4 c.taken
  if p ≤ 8191 then some p else none

/-- The number of pages in the free page set. -/
def Cm.freeCount (c : Cm) : Nat := 8188 - c.taken.length

/-- Page `p` leaves the set. -/
def Cm.take (c : Cm) (p : Nat) : Cm := { c with taken := insertNat p c.taken }

/-- Page `p` returns to the set, and the store-full flag clears. -/
def Cm.giveBack (c : Cm) (p : Nat) : Cm := { c with taken := c.taken.erase p, storeFull := false }

/-- An allocation for page `q` of segment `g` found the set empty (R119). -/
def State.raiseStoreFull (s : State) (g q : Nat) : State :=
  (s.raise .storeFull (some (.page g q))).onCm fun c => { c with storeFull := true }

/-! ## Fill records -/

/-- Ticks of a fetch timer started now (R128). -/
def State.fetchTicks (s : State) : Nat := s.params.fetchTimeout * 48

/-- The fill record of a page. -/
def Cm.fillOf (c : Cm) (g q : Nat) : Option Fill := c.fills.find? fun f => f.segment == g && f.page == q

/-- The fill record of number `id`. -/
def Cm.fillById (c : Cm) (id : Nat) : Option Fill := c.fills.find? fun f => f.id == id

/-- The record of number `id` changed. -/
def Cm.onFill (c : Cm) (id : Nat) (g : Fill → Fill) : Cm :=
  { c with fills := c.fills.map fun f => if f.id = id then g f else f }

/-- The fetch timer started at basin time `now` for `t` ticks; it does not run while the request is owed (R128). -/
def Fill.startTimer (now t : Nat) (f : Fill) : Fill :=
  if f.owed then f else { f with timer := some t, last := now }

/-- A fill opened for page `q` of segment `g` on physical page `p`: the entry becomes FILLING, the table write is
queued, and the record is taken (R125, R127). -/
def State.openFill (s : State) (g q p : Nat) (fetch : Bool) : State :=
  let id := s.cm.nextId
  let f : Fill :=
    { id := id, segment := g, page := q, phys := p, received := 0, fetch := fetch, attempts := 0, owed := fetch,
      queued := false, last := s.tbu.basinTime, timer := if fetch then none else some s.fetchTicks,
      owedAt := s.st.oscTicks }
  (s.onCm fun c =>
    let c := (c.take p).setPage g q .filling p
    { c.queueWrites [] [pageKey g q] with fills := c.fills ++ [f], nextId := id + 1 }).issueMap

/-- A request is owed from the moment `now` on (R128). -/
def Cm.owe (c : Cm) (now id : Nat) : Cm :=
  c.onFill id fun f => { f with fetch := true, owed := true, timer := none, owedAt := now }

/-- The request of `f` goes before that of `b`: owed earlier, or at one moment of a lower segment and page (R128). -/
def Fill.owedBefore (f b : Fill) : Bool :=
  decide (f.owedAt < b.owedAt) ||
    (f.owedAt == b.owedAt && decide (pageKey f.segment f.page < pageKey b.segment b.page))

/-- The record whose PAGE_REQUEST takes the next place: the one owed first, of those owed at one moment the lowest
segment and page (R128). -/
def Cm.nextOwed (c : Cm) : Option Fill :=
  c.fills.foldl (fun best f =>
    if f.owed && !f.queued then
      match best with
      | none => some f
      | some b => if f.owedBefore b then some f else best
    else best) none

/-- An owed PAGE_REQUEST takes a free place in the FETCH queue (R128). -/
def State.queueRequest (s : State) : State :=
  if s.liu.fetchQ.length < 2 then
    match s.cm.nextOwed with
    | some f =>
      (s.onCm fun c => c.onFill f.id fun f => { f with queued := true }).onLiu fun l =>
        { l with fetchQ := l.fetchQ ++
          [{ fill := f.id, showId := s.cm.showOf f.segment, segment := f.segment, page := f.page }] }
    | none => s
  else s

/-- The owed PAGE_REQUESTs take the free places of the FETCH queue, which has two (R128, R154). -/
def State.queueRequests (s : State) : State := s.queueRequest.queueRequest

/-- A fill record is freed, and its PAGE_REQUEST withdrawn (R128). -/
def State.freeFill (s : State) (id : Nat) : State :=
  (s.onCm fun c => { c with fills := c.fills.filter fun f => f.id != id }).onLiu fun l => l.withdrawFetch id

/-! ## Serve records -/

/-- A serve record is dropped, and its PAGE_DATA frames withdrawn (R122, R133). -/
def State.dropServe (s : State) (id : Nat) : State :=
  (s.onCm fun c => { c with serves := c.serves.filter fun r => r.id != id }).onLiu fun l => l.withdrawContent id

/-! ## Release of segments (R122) -/

/-- Steps 1 to 4 and 6 of a release, and the directory entry UNDEFINED. -/
def State.releaseOne (s : State) (g : Nat) : State :=
  let mine := s.cm.pages.filter fun e => e.1 / 64 == g
  let s := s.onCm fun c => mine.foldl (fun c e =>
    match e.2.state with
    | .filling | .present => c.giveBack e.2.phys
    | _ => c) c
  let s := s.onCm fun c => { c with pages := c.pages.filter fun e => e.1 / 64 != g }
  let s := (s.cm.fills.filter fun f => f.segment == g).foldl (fun s f => s.freeFill f.id) s
  let s := (s.cm.serves.filter fun r => r.segment == g).foldl (fun s r => s.dropServe r.id) s
  let s := s.onCm fun c =>
    ({ c with cache := c.cache.filter fun e => e.segment != g, dir := Table.drop c.dir g } : Cm).touch g
  s.onAu fun a => a.segmentFreed g

/-- The release of the segments `gs` as one change: one table write for each directory block (R122). -/
def State.release (s : State) (gs : List Nat) : State :=
  ((gs.foldl State.releaseOne s).onCm fun c => c.queueWrites gs []).issueMap

/-! ## Lookups (R115 to R117, R127) -/

/-- The answers of a lookup. `walking` is a miss that a walk answers later. -/
inductive Answer where
  | address (phys : Nat)
  | walking
  | wait
  | unavailable
  | endOf
  | mapFault
  | typeMismatch
  deriving DecidableEq, Repr

/-- The map cache entry of a page. -/
def Cm.cached (c : Cm) (g q : Nat) : Option CacheEntry := c.cache.find? fun e => e.segment == g && e.page == q

/-- That entry becomes the most recently used (R116). -/
def Cm.useEntry (c : Cm) (e : CacheEntry) : Cm :=
  { c with cache := e :: c.cache.filter fun x => !(x.segment == e.segment && x.page == e.page) }

/-- A walk's entry installed, the least recently used removed when the cache holds 16; an entry the page has gained
meanwhile becomes the most recently used instead (R116). -/
def Cm.install (c : Cm) (e : CacheEntry) : Cm :=
  match c.cached e.segment e.page with
  | some x => c.useEntry x
  | none => { c with cache := e :: c.cache.take 15 }

/-- The asker joins the walk for the page, or a new walk is queued (R117). -/
def Cm.addWalk (c : Cm) (a : Asker) (g q : Nat) : Cm :=
  let isOurs : MapEntry → Bool := fun e =>
    match e with
    | .walk w => w.segment == g && w.page == q
    | .write _ => false
  if c.mapQ.any isOurs then
    { c with mapQ := c.mapQ.map fun e =>
        match e with
        | .walk w => if isOurs (.walk w) then .walk { w with askers := w.askers ++ [a] } else .walk w
        | .write w => .write w }
  else
    { c with mapQ := c.mapQ ++
        [.walk { segment := g, page := q, askers := [a], stale := false, second := false }] }

/-- The start of a fetch for an ABSENT page (R127): it needs a free fill record, a place in the map-region queue and a
free page. Its request is owed; it takes its place in the FETCH queue when the lookups of the moment have been made, so
that those owed at one moment stand in their order (`State.queueRequests`, R128). -/
def State.startFetch (s : State) (g q : Nat) : State :=
  if 8 ≤ s.cm.fills.length ∨ 64 ≤ s.cm.tableWrites then s
  else
    match s.cm.lowestFree with
    | none => s.raiseStoreFull g q
    | some p => s.openFill g q p true

/-- A lookup of offset `off` of segment `g` expecting type `k` (R115). -/
def State.lookup (s : State) (who : Asker) (g off : Nat) (k : SegType) : State × Answer :=
  match s.cm.entry g with
  | none => (s, .mapFault)
  | some e =>
    if e.kind ≠ k then (s, .typeMismatch)
    else if e.length ≤ off then (s, .endOf)
    else
      let q := off / 16384
      match s.cm.pageState g q with
      | .present =>
        match s.cm.cached g q with
        | some x => (s.onCm fun c => c.useEntry x, .address x.phys)
        | none => ((s.onCm fun c => c.addWalk who g q).issueMap, .walking)
      | .absent => (s.startFetch g q, .wait)
      | .filling => (s, .wait)
      | .unavailable => (s, .unavailable)

/-- The cue list a GO plays: the lowest segment that is DEFINED with type CUE and own position, of 0..119 for a show
and of 120..127 for the house program (R23, R118). -/
def Cm.resolve (c : Cm) (showId own : Nat) : Option Nat :=
  (c.dir.find? fun e =>
    e.2.kind == .cue && e.2.owner == own && (if showId = 0 then isHouse e.1 else !isHouse e.1)).map (·.1)

/-! ## Changes that may wait for room (R114) -/

/-- A change made to the on-chip copy, with its table write: a complete page becomes PRESENT (R126), a fill given up
becomes UNAVAILABLE and raises PAGE_UNAVAILABLE (R129). Where the change has waited for room (R114), the fault is raised as it
is made and not at the timer's expiry: the model's choice (notes/assumptions/69.md). A change whose fill record is gone has
no effect. -/
def State.applyChange (s : State) (x : Change) : State :=
  match x with
  | .present id =>
    match s.cm.fillById id with
    | some f =>
      ((s.onCm fun c =>
        (c.setPage f.segment f.page .present f.phys).queueWrites [] [pageKey f.segment f.page]).freeFill id).issueMap
    | none => s
  | .unavailable id =>
    match s.cm.fillById id with
    | some f =>
      (((s.onCm fun c =>
        ((c.setPage f.segment f.page .unavailable 0).giveBack f.phys).queueWrites []
          [pageKey f.segment f.page]).freeFill id).raise .pageUnavailable (some (.page f.segment f.page))).issueMap
    | none => s

/-- A change is made at once when no change waits and its table write has a place, and waits otherwise. -/
def State.makeChange (s : State) (x : Change) : State :=
  if s.cm.waiting.isEmpty ∧ s.cm.tableWrites < 64 then s.applyChange x
  else s.onCm fun c => { c with waiting := c.waiting ++ [x] }

/-! ## Reset and initialisation (R135) -/

/-- The power-on initialisation of the map region: UNDEFINED into all 128 directory entries, as 32 table writes, once
the controller is READY. -/
def State.initMap (s : State) : State :=
  if s.cm.init = .waiting ∧ s.smc.ctl = .ready then
    (s.onCm fun c =>
      { c with
        mapQ := c.mapQ ++ (List.range 32).map (fun k => .write (c.dirWrite (List.range 128) true k))
        init := .left 32 }).issueMap
  else s

/-- The values after a warm reset (R135). A walk that stands with the controller completes without effect. The table
writes of the FILLING entries join the queue whatever it holds, so that up to 72 can stand there: the model's choice
(notes/assumptions/50.md). -/
def Cm.afterWarm (c : Cm) : Cm :=
  let filling := c.pages.filter fun e => e.2.state == .filling
  let c := filling.foldl (fun (c : Cm) (e : Nat × Pte) => (c.giveBack e.2.phys).setPage (e.1 / 64) (e.1 % 64) .absent 0) c
  let keepHead : List MapEntry :=
    if c.mapIssued then
      (c.mapQ.take 1).map fun e =>
        match e with
        | .walk w => .walk { w with askers := [], stale := true }
        | .write w => .write w
    else []
  let rest := if c.mapIssued then c.mapQ.drop 1 else c.mapQ
  let isWrite : MapEntry → Bool := fun e =>
    match e with
    | .write _ => true
    | .walk _ => false
  { c with mapQ := keepHead ++ rest.filter isWrite, cache := [], fills := [], serves := [], intake := [],
           chunk := none, waiting := [], storeFull := false }.queueWrites [] (filling.map fun e : Nat × Pte => e.1)

end Sys2Proof.Machine
end

