-- ==== Sys2Proof/Machine/Hydraulics.lean ====
section
/-!
DEFINITION. The hydraulics unit: height to drive, power and share, the pump state machine, start claims and arrival
records (spec/03, R50 to R76).
-/
namespace Sys2Proof.Machine

/-- The jet channels in ascending order. -/
def allChannels : List Channel := [0, 1, 2, 3, 4, 5, 6, 7]

/-! ## Height to drive (R52 to R55) -/

/-- Stages 1 and 2: the derated height H2 of a height, in a wind state and an effective wind (R52). -/
def deratedHeight (P : Params) (pp : PumpParams) (ws : WindState) (w h : Nat) : Nat :=
  let h1 := min h pp.hmax
  let before :=
    match ws with
    | .cutout => min h1 P.hcut
    | .derate => h1 * (1000 - min 1000 ((w - P.w0) * P.slope)) / 1000
    | .calm => h1
  max before (min h1 P.hcut)

/-- Stage 3: the requested drive for H2 (R53). -/
def driveFor (pp : PumpParams) (h2 : Nat) : Nat :=
  if h2 = 0 then 0
  else if pp.hmax ≤ h2 then 4096
  else max (isqrt (h2 * 2 ^ 24 / pp.hmax)) pp.dmin

/-- The rise time of a height in ms (R54). -/
def riseMs (h2 : Nat) : Nat := isqrt (h2 * 2039)

/-- Stage 4: the lead of a derated height, in ticks (R54). -/
def leadTicks (pp : PumpParams) (h2 : Nat) : Nat := (pp.latency + riseMs h2) * 48

/-- The height a drive settles at: floor(Hmax × x² / 2^24) (R53, R60). -/
def heightAt (pp : PumpParams) (x : Nat) : Nat := pp.hmax * (x * x) / 2 ^ 24

/-- Stage 5: the power of a pump at drive x (R55). -/
def power (pp : PumpParams) (x : Nat) : Nat := pp.prated * x ^ 3 / 2 ^ 36

/-- The drive stages 5 to 8 use: the requested drive, or d_min for a RUNNING pump held for its minimum run (R55). -/
def Pump.stageDrive (pp : PumpParams) (p : Pump) : Nat :=
  if p.state = .running ∧ p.requested = 0 then pp.dmin else p.requested

/-! ## Pump transitions -/

/-- STOPPING entered from RUNNING or STARTING, or by an abort or shed: no arrival is expected (R74). -/
def Pump.stop (p : Pump) (lock : Bool := false) : Pump :=
  { p with state := .stopping, lockPending := lock, committed := 0, arrival := .void }

/-- LOCKED with cause FEEDBACK, the drive at 0 in one step (R63, R70). -/
def Pump.lockOnFeedback (p : Pump) : Pump :=
  { p with state := .locked, lockFeedback := true, lockPending := false, actual := 0, committed := 0,
           arrival := .void }

/-- RESTING entered: the rest count is the rest time × 50 (R62). -/
def Pump.rest (pp : PumpParams) (p : Pump) : Pump :=
  { p with state := .resting, restCount := pp.rest * 50, actual := 0, committed := 0 }

/-- CLAIMING entered: the arrival record becomes PENDING (R61, R62). -/
def Pump.claim (p : Pump) : Pump := { p with state := .claiming, restCount := 0, actual := 0, arrival := .pending }

/-- STARTING entered when the claim has gone out (R68). -/
def Pump.begin (p : Pump) : Pump := { p with state := .starting, softCount := 0, actual := 0 }

/-- A zero target in RUNNING stops the pump once its minimum run has passed (R64). -/
def Pump.answerZero (pp : PumpParams) (p : Pump) : Pump :=
  if p.requested = 0 ∧ pp.minRun * 50 ≤ p.runCount then p.stop else p

/-- The end of soft start with feedback present: RUNNING at d_min (R63). -/
def Pump.run (pp : PumpParams) (p : Pump) : Pump :=
  { p with state := .running, actual := pp.dmin, runCount := 0, absence := 0, committed := 0, arrival := .pending }

/-- Step 3 of a pass for one present pump (R61 to R65, R70), `fb` its feedback. A RUNNING pump whose 25th absence falls at
the pass at which a zero target finds its minimum run passed locks: the model's choice (notes/assumptions/43.md). A pump
that enters RUNNING with a zero target and a minimum run of 0 stops in the same step 3, before the stages of the pass: the
model's choice (notes/assumptions/54.md). -/
def Pump.event (pp : PumpParams) (fb : Bool) (p : Pump) : Pump :=
  match p.state with
  | .off => if p.requested = 0 then p else p.claim
  | .resting =>
    if 1 < p.restCount then { p with restCount := p.restCount - 1 }
    else if p.requested = 0 then { p with state := .off, restCount := 0 }
    else p.claim
  | .claiming => if p.requested = 0 then { p with state := .off, arrival := .void } else p
  | .starting =>
    if p.softCount < pp.soft then { p with softCount := p.softCount + 1 }
    else if fb then (p.run pp).answerZero pp
    else p.lockOnFeedback
  | .running =>
    let p := { p with runCount := min (pp.minRun * 50) (p.runCount + 1),
                      absence := if fb then 0 else p.absence + 1 }
    if 25 ≤ p.absence then p.lockOnFeedback else p.answerZero pp
  | .stopping | .locked => p

/-- Stage 9 for one pump (R60, R65). -/
def Pump.ramp (pp : PumpParams) (p : Pump) : Pump :=
  match p.state with
  | .running =>
    { p with actual :=
        if p.actual < p.committed then min p.committed (p.actual + p.override.getD pp.rampUp)
        else max p.committed (p.actual - p.override.getD pp.rampDown) }
  | .starting => { p with actual := min pp.dmin (p.actual + ceilDiv pp.dmin pp.soft) }
  | .stopping =>
    let p := { p with actual := p.actual - pp.rampDown }
    if p.actual = 0 then
      if p.lockPending then { p with state := .locked, lockDry := true, lockPending := false } else p.rest pp
    else p
  | .off | .resting | .claiming | .locked => { p with actual := 0 }

/-- Step 8 for one pump: a PENDING record whose pump has reached its committed target is SET (R74). -/
def Pump.arrive (pp : PumpParams) (now : Nat) (p : Pump) : Pump :=
  if p.state = .running ∧ p.arrival = .pending ∧ p.actual = p.committed then
    let h := heightAt pp p.committed
    { p with arrival := .set (now + isqrt (h * 2039) * 48) h }
  else p

/-- The level state has become DRY (R72). A pump locked out of RESTING keeps the rest count it had left: the model's choice
(notes/assumptions/44.md). -/
def Pump.dry (p : Pump) : Pump :=
  match p.state with
  | .running | .starting => p.stop true
  | .stopping => { p with lockPending := true }
  | .off | .resting => { p with state := .locked, lockDry := true, actual := 0 }
  | .claiming => { p with state := .locked, lockDry := true, actual := 0, arrival := .void }
  | .locked => { p with lockDry := true }

/-- A LOCKED pump with no cause left rests (R71). -/
def Pump.unlockIfFree (pp : PumpParams) (p : Pump) : Pump :=
  if p.state = .locked ∧ !p.lockFeedback ∧ !p.lockDry then p.rest pp else p

/-- The level state has become NORMAL (R71). -/
def Pump.undry (pp : PumpParams) (p : Pump) : Pump :=
  ({ p with lockDry := false, lockPending := false } : Pump).unlockIfFree pp

/-- A CLEAR_FAULTS removes FEEDBACK (R71). -/
def Pump.clearFeedback (pp : PumpParams) (p : Pump) : Pump :=
  if p.state = .locked then ({ p with lockFeedback := false } : Pump).unlockIfFree pp else p

/-- HALTED or STANDBY entered (R73). -/
def Pump.halt (p : Pump) : Pump :=
  let p := { p with height := 0 }
  match p.state with
  | .running | .starting => p.stop
  | .claiming => { p with state := .off, arrival := .void }
  | _ => p

/-! ## Figures of the unit (R55 to R59, R66) -/

/-- A_s: the allowances of the pumps in STARTING (R57). -/
def Hu.startAllowance (P : Params) (h : Hu) : Nat :=
  sumBy (fun n : Channel => if (h.pump n).state = .starting then P.pumps[n].allowance else 0) allChannels

/-- The committed power of the RUNNING pumps. -/
def Hu.runningDraw (P : Params) (h : Hu) : Nat :=
  sumBy (fun n : Channel => if (h.pump n).state = .running then power P.pumps[n] (h.pump n).committed else 0)
    allChannels

/-- The committed draw (R59). -/
def Hu.committedDraw (P : Params) (h : Hu) : Nat := h.runningDraw P + h.startAllowance P

/-- A pump's part of the demand D (R55). -/
def Pump.demand (pp : PumpParams) (p : Pump) : Nat :=
  match p.state with
  | .claiming | .starting => power pp p.requested + pp.allowance
  | .running => power pp (p.stageDrive pp)
  | _ => 0

/-- D (R55). -/
def Hu.demandNow (P : Params) (h : Hu) : Nat :=
  sumBy (fun n : Channel => (h.pump n).demand P.pumps[n]) allChannels

/-- The feed share of demand `d` of a total `t` under the limit `f` (R56). -/
def feedShare (f d t : Nat) : Nat := if t ≤ f then d else f * d / t

/-- The power of the RUNNING pumps scaled by `f` / 1024 (R58). -/
def Hu.scaledPower (P : Params) (h : Hu) (f : Nat) : Nat :=
  sumBy (fun n : Channel =>
    if (h.pump n).state = .running then power P.pumps[n] ((h.pump n).stageDrive P.pumps[n] * f / 1024) else 0)
    allChannels

/-- The share test of R66 for pump `n`. -/
def Hu.shareTest (P : Params) (h : Hu) (n : Channel) : Bool :=
  decide (h.committedDraw P + P.pumps[n].allowance ≤ h.share)

/-- The spacing timer restarted with S (R69). -/
def Hu.restartSpacing (P : Params) (h : Hu) : Hu := { h with spacing := P.spacing * 48 }

/-! ## The stages of a pass (R51) -/

/-- Step 1: heights from the slate, and Hc 0 in a state other than ARMED, RUNNING or HELD. -/
def Hu.takeHeights (P : Params) (handed : ShowState) (jets : List Action) (h : Hu) : Hu :=
  let h := jets.foldl (fun (h : Hu) a =>
    match a.deed with
    | .jet j height ramp =>
      h.mapPumps fun n p =>
        if n.val = j ∧ P.pumps[n].present then
          { p with height := height, override := if ramp = 0 then none else some (min 4096 ramp) }
        else p
    | _ => h) h
  match handed with
  | .armed | .running | .held => h
  | _ => h.mapPumps fun _ p => { p with height := 0 }

/-- Step 2: the requested drives. -/
def Hu.request (P : Params) (ws : WindState) (w : Nat) (h : Hu) : Hu :=
  h.mapPumps fun n p =>
    if P.pumps[n].present then
      { p with requested := driveFor P.pumps[n] (deratedHeight P P.pumps[n] ws w p.height) }
    else p

/-- Step 3: the pump events, `fb` the feedback reported of each pump. -/
def Hu.events (P : Params) (fb : Channel → Bool) (h : Hu) : Hu :=
  h.mapPumps fun n p => if P.pumps[n].present then p.event P.pumps[n] (fb n) else p

/-- Stage 6: demand and share, given the peers' demand. -/
def Hu.takeShare (P : Params) (peers : Nat) (h : Hu) : Hu :=
  let d := h.demandNow P
  { h with demand := d, total := d + peers, share := feedShare P.feedLimit d (d + peers) }

/-- Stage 7: start aborts from the highest channel down (R57). -/
def Hu.abortStarts (P : Params) (h : Hu) : Hu :=
  allChannels.reverse.foldl (fun h n =>
    if (h.pump n).state = .starting ∧ h.share < h.startAllowance P then h.onPump n (·.stop) else h) h

/-- Stage 8: the scale factor and the committed targets (R58). -/
def Hu.scaleTargets (P : Params) (h : Hu) : Hu :=
  let f := largestUpTo (fun f => decide (h.scaledPower P f ≤ h.share - h.startAllowance P)) 1024
  { h.mapPumps (fun n p =>
      if p.state = .running then
        let t := p.stageDrive P.pumps[n] * f / 1024
        { p with committed := t, arrival := if t = p.committed then p.arrival else .pending }
      else p) with scale := f }

/-- Stage 8: shedding (R59). -/
def Hu.shed (P : Params) (h : Hu) : Hu :=
  h.mapPumps fun n p => if p.state = .running ∧ p.committed < P.pumps[n].dmin then p.stop else p

/-- Stage 9 and step 8. -/
def Hu.rampAll (P : Params) (now : Nat) (h : Hu) : Hu :=
  h.mapPumps fun n p => (p.ramp P.pumps[n]).arrive P.pumps[n] now

/-! ## The claim slot (R66) -/

/-- The claim slot is given up, and a claim not begun withdrawn. -/
def State.giveUpClaim (s : State) : State :=
  (s.onHu fun h => { h with claimHolder := none }).onLiu Liu.withdrawClaim

/-- A holder that is no longer CLAIMING or STARTING has given the slot up. -/
def State.settleClaim (s : State) : State :=
  match s.hu.claimHolder with
  | none => s
  | some n =>
    match (s.hu.pump n).state with
    | .claiming | .starting => s
    | _ => s.giveUpClaim

/-- The lowest CLAIMING pump for which the share test holds. -/
def Hu.candidate (P : Params) (h : Hu) : Option Channel :=
  allChannels.find? fun n => (h.pump n).state == .claiming && h.shareTest P n

/-- A new claim may be queued (R66): spacing expired, claim slot free, CLAIM slot empty. -/
def State.queueClaim (s : State) : State :=
  if s.hu.spacing = 0 ∧ s.hu.claimHolder.isNone ∧ s.liu.claim.isNone then
    match s.hu.candidate s.params with
    | some n =>
      (s.onHu fun h => { h with claimHolder := some n }).onLiu fun l =>
        { l with claim := some { channel := n, allowance := s.params.pumps[n].allowance } }
    | none => s
  else s

/-- A queued claim that has not begun is re-checked (R66). -/
def State.recheckClaim (s : State) : State :=
  match s.hu.claimHolder with
  | some n =>
    if (s.hu.pump n).state = .claiming ∧ s.liu.claim.isSome ∧ !s.liu.claimBegun ∧ !s.hu.shareTest s.params n then
      s.giveUpClaim
    else s
  | none => s

/-! ## The pass (R51) -/

/-- The PUMP_NO_FEEDBACK raises of step 3, in channel order. -/
def State.raiseFeedbackLocks (before : Hu) (s : State) : State :=
  allChannels.foldl (fun s n =>
    if (before.pump n).state != .locked && (s.hu.pump n).state == .locked then
      s.raise .pumpNoFeedback (some (.channel n.val))
    else s) s

/-- The demands recorded in the FRESH and SILENT records (R56, R170). -/
def Pt.demand (t : Pt) : Nat := sumBy (fun p : Option Peer => (p.map (·.demand)).getD 0) t.peers.toList

/-- The pass at a boundary whose basin time is `now`, handed with state `handed`, on the jets of its slate. -/
def State.huPass (s : State) (now : Nat) (handed : ShowState) (jets : List Action) : State :=
  let P := s.params
  let s := s.onHu fun h => (h.takeHeights P handed jets).request P s.biu.windState s.biu.effWind
  let before := s.hu
  let s := (s.onHu (Hu.events P s.feedbackOf)).raiseFeedbackLocks before
  let s := s.onHu fun h =>
    ((((h.takeShare P s.pt.demand).abortStarts P).scaleTargets P).shed P).rampAll P now
  s.settleClaim.recheckClaim.queueClaim

/-! ## Events between passes -/

/-- The lead of jet `n` for a height, in the wind held at this moment (R54). -/
def State.leadOf (s : State) (n : Channel) (height : Nat) : Nat :=
  let pp := s.params.pumps[n]
  leadTicks pp (deratedHeight s.params pp s.biu.windState s.biu.effWind height)

/-- The level state has become DRY (R72). -/
def State.huDry (s : State) : State :=
  (s.onHu fun h => h.mapPumps fun n p => if s.params.pumps[n].present then p.dry else p).settleClaim

/-- The level state has become NORMAL (R71). -/
def State.huNormal (s : State) : State :=
  s.onHu fun h => h.mapPumps fun n p => if s.params.pumps[n].present then p.undry s.params.pumps[n] else p

/-- A CLEAR_FAULTS addressed to own position (R71). -/
def State.huClearFeedback (s : State) : State :=
  s.onHu fun h => h.mapPumps fun n p => p.clearFeedback s.params.pumps[n]

/-- HALTED or STANDBY entered (R73). -/
def State.huHalt (s : State) : State := (s.onHu fun h => h.mapPumps fun _ p => p.halt).settleClaim

/-- ENDING entered, or ARMED left for IDLE (R73). -/
def State.huZeroHeights (s : State) : State := s.onHu fun h => h.mapPumps fun _ p => { p with height := 0 }

/-- A START_CLAIM of a peer (R67). -/
def State.huPeerClaim (s : State) : State :=
  let s := s.onHu (Hu.restartSpacing s.params)
  if s.liu.claim.isSome ∧ !s.liu.claimBegun then s.giveUpClaim else s

/-- The own START_CLAIM for channel `n` has gone out (R68); the frame has left its slot. -/
def State.huClaimOut (s : State) (n : Channel) : State :=
  let s := s.onHu (Hu.restartSpacing s.params)
  if s.hu.claimHolder = some n ∧ (s.hu.pump n).state = .claiming then
    if s.hu.shareTest s.params n then s.onHu fun h => h.onPump n Pump.begin
    else s.onHu fun h => { h with claimHolder := none }
  else s

/-- Every pump is OFF, RESTING or LOCKED (R19). -/
def Hu.atRest (h : Hu) : Bool :=
  h.pumps.toList.all fun p => p.state == .off || p.state == .resting || p.state == .locked

/-- The unit's values after a reset (R75). -/
def Hu.afterReset (P : Params) (cold : Bool) : Hu :=
  { pumps := Vector.ofFn (fun n : Channel =>
      if cold || !P.pumps[n].present then ({} : Pump) else ({} : Pump).rest P.pumps[n])
    spacing := P.spacing * 48 }

end Sys2Proof.Machine
end

