-- ==== Sys2Proof/Machine/Light.lean ====
section
/-!
DEFINITION. The light unit: fades, light actions, outputs, the cover interlock and the follow list (spec/04, R77 to
R91).
-/
namespace Sys2Proof.Machine

/-! ## One channel (R80 to R82) -/

/-- A fade is in progress while j is below n (R77). -/
def LightChannel.fading (c : LightChannel) : Bool := decide (c.elapsed < c.fade)

/-- A light action of `n` fade frames toward level `t` (R80): a snap for n = 0. -/
def LightChannel.apply (t n : Nat) (c : LightChannel) : LightChannel :=
  if n = 0 then { c with level := t, target := t, start := t, fade := 0, elapsed := 0 }
  else { c with start := c.level, target := t, fade := n, elapsed := 0 }

/-- One fade step (R81). -/
def LightChannel.step (c : LightChannel) : LightChannel :=
  if c.fading then
    { c with elapsed := c.elapsed + 1, level := lerp c.start c.target (c.elapsed + 1) c.fade }
  else c

/-- The output value of level `l` (R82). -/
def outputValue (fx : FixtureParams) (trimFactor : Nat) (exposed : Bool) (l : Nat) : Nat :=
  if !fx.present || exposed || l == 0 then 0
  else fx.floor + (l * trimFactor / 32768) * (65535 - fx.floor) / 65535

/-! ## Outputs and the cover interlock (R82, R83) -/

/-- Every output recomputed from its level. -/
def Lu.recompute (P : Params) (l : Lu) : Lu :=
  l.mapChannels fun f _ c => { c with output := outputValue P.fixtures[f] l.trimFactor[f] l.exposed[f] c.level }

/-- The effective level compared with the cover level of every submerged present fixture, and the outputs at once
(R83). A submerged fixture that is not present is not compared and stays COVERED: the model's choice
(notes/assumptions/58.md). -/
def Lu.interlock (P : Params) (level : Nat) (l : Lu) : Lu :=
  { l with
    level := level
    exposed := Vector.ofFn (fun f =>
      let fx := P.fixtures[f]
      if fx.present && fx.submerged then decide (level < fx.cover) else l.exposed[f]) }.recompute P

/-! ## The slate and the follow list (R79, R80, R84 to R86) -/

/-- The colour value of channel `c` in a LIGHT action. -/
def LightDeed.value (d : LightDeed) (c : Fin 4) : Nat :=
  match c with
  | 0 => d.r
  | 1 => d.g
  | 2 => d.b
  | 3 => d.w

/-- The action holds channel `c` of fixture `f`. -/
def LightDeed.covers (d : LightDeed) (f : Fin 12) (c : Fin 4) : Bool := d.channels.getLsbD (4 * f.val + c.val)

/-- A follow entry without the channels that `gone` names; none when it is left with no channels (R84). -/
def FollowEntry.without (e : FollowEntry) (gone : Fin 4 → Bool) : Option FollowEntry :=
  let e := { e with targets := Vector.ofFn (fun c => if gone c then none else e.targets[c]) }
  if e.targets.toList.all Option.isNone then none else some e

/-- Fixture `f` is in the action's fixture mask. -/
def LightDeed.names (d : LightDeed) (f : Fin 12) : Bool := d.fixtures.getLsbD f.val

/-- A LIGHT action without a follow jet, applied at once (R80), and its channels taken from the waiting entries of its
fixtures (R84). -/
def Lu.applyLight (P : Params) (d : LightDeed) (l : Lu) : Lu :=
  let l := l.mapChannels fun f c ch =>
    if P.fixtures[f].present && d.covers f c then ch.apply (d.value c * 257) d.fade else ch
  { l with follow := Vector.ofFn (fun f =>
      if d.names f then l.follow[f].bind fun e => e.without (d.covers f) else l.follow[f]) }

/-- A LIGHT action with follow jet `j` entered in the follow list (R84): one entry for each present fixture of its fixture
mask, with the channels the action holds in it, in place of the fixture's earlier entry. A fixture whose channels it has
all given up has an entry without channels (notes/assumptions/33.md). -/
def Lu.enterFollow (P : Params) (d : LightDeed) (j : Nat) (l : Lu) : Lu :=
  { l with follow := Vector.ofFn (fun f =>
      if P.fixtures[f].present && d.names f then
        some {
          targets := Vector.ofFn (fun c => if d.covers f c then some (d.value c * 257) else none)
          fade := d.fade, jet := j, limit := d.cueFrame + 100 }
      else l.follow[f]) }

/-- Step 2: the slate's actions in list order. -/
def Lu.takeSlate (P : Params) (lights : List Action) (l : Lu) : Lu :=
  lights.foldl (fun l a =>
    match a.deed with
    | .light d =>
      match d.follow with
      | none => l.applyLight P d
      | some j => l.enterFollow P d j
    | _ => l) l

/-- A follow entry is due at boundary `k` (R85). -/
def FollowEntry.due (e : FollowEntry) (k : Nat) (arrival : Arrival) : Bool :=
  decide (e.limit ≤ k) ||
    match arrival with
    | .set t _ => decide (t / 960 ≤ k)
    | .void => true
    | .pending => false

/-- The arrival record of jet `j`. -/
def Hu.arrivalOf (h : Hu) (j : Nat) : Arrival :=
  if hj : j < 8 then (h.pump ⟨j, hj⟩).arrival else .void

/-- Step 3: due entries are released as light actions and leave the list (R86). -/
def Lu.releaseFollow (h : Hu) (k : Nat) (l : Lu) : Lu :=
  let due (f : Fin 12) : Option FollowEntry := l.follow[f].filter fun e => e.due k (h.arrivalOf e.jet)
  let l' := l.mapChannels fun f c ch =>
    match due f with
    | some e =>
      match e.targets[c] with
      | some t => ch.apply t e.fade
      | none => ch
    | none => ch
  { l' with follow := Vector.ofFn (fun f => if (due f).isSome then none else l.follow[f]) }

/-- The pass at boundary `k`, handed with `handed` (R79). `resumed` holds at the resume boundary, where the limit
frames first move by the frames of the hold (R87); `entered` at the boundary at which HELD is entered. The recorded hold
frame goes at the resume boundary and stays when HELD is left otherwise: the model's choice (notes/assumptions/56.md). A
resume frame below the hold frame moves no limit frame: the model's choice (notes/assumptions/71.md). -/
def Lu.pass (P : Params) (h : Hu) (level k : Nat) (handed : ShowState) (entered resumed : Bool)
    (lights : List Action) (l : Lu) : Lu :=
  let l : Lu :=
    if resumed then
      { l with
        follow := Vector.ofFn (fun f =>
          l.follow[f].map fun e => { e with limit := e.limit + (k - l.holdFrame.getD k) })
        holdFrame := none }
    else l
  let l : Lu := if entered then { l with holdFrame := some k } else l
  let l := if handed = .held then l else l.mapChannels fun _ _ c => c.step
  let l := l.takeSlate P lights
  let l := if handed = .held then l else l.releaseFollow h k
  l.interlock P level

/-! ## The show states (R88 to R90) -/

/-- The follow list cleared without a release. -/
def Lu.clearFollow (l : Lu) : Lu := { l with follow := Vector.replicate 12 none }

/-- ENDING entered with a stop fade (R88). The outputs are recomputed at once, as R89 and R90 say of their transitions: the
model's choice (notes/assumptions/45.md). A channel at level 0 takes start, fade frames and elapsed count 0 with its target
0: the model's choice (notes/assumptions/55.md). That a stop fade begun at a marked boundary steps in its pass too is
the model's choice (notes/assumptions/67.md). -/
def Lu.stopFade (P : Params) (fade : Nat) (l : Lu) : Lu :=
  (l.clearFollow.mapChannels fun _ _ c => if c.level = 0 then c.apply 0 0 else c.apply 0 fade).recompute P

/-- HALTED entered (R89). Target and start take the halt level with the level: the model's choice
(notes/assumptions/55.md). -/
def Lu.halt (P : Params) (l : Lu) : Lu :=
  (l.clearFollow.mapChannels fun f _ c =>
    if P.fixtures[f].present then c.apply (P.fixtures[f].halt * 257) 0 else c).recompute P

/-- Every channel to level 0 with no fade, and the follow list cleared (R89, R90). R90 names start, fade length and elapsed
count as 0 too; that they are so when CLEAR_HALT ends HALTED is the model's choice (notes/assumptions/55.md). -/
def Lu.dark (P : Params) (l : Lu) : Lu :=
  (l.clearFollow.mapChannels fun _ _ c => c.apply 0 0).recompute P

/-- No channel has a fade in progress (R19). -/
def Lu.still (l : Lu) : Bool := l.channels.toList.all fun c => !c.fading

/-- The unit's values after a reset (R78, R90), the cover states set against the effective level. R90 says so of each
submerged fixture and R83 of the present ones alone; one that is not present stays COVERED: the model's choice
(notes/assumptions/58.md). -/
def Lu.afterReset (P : Params) (level : Nat) : Lu :=
  ({ trimFactor := Vector.ofFn (fun f : Fin 12 => dbFactor P.fixtures[f].trim) } : Lu).interlock P level

end Sys2Proof.Machine
end

