-- ==== Sys2Proof/Machine/Show.lean ====
section
/-!
DEFINITION. The transitions of the station show state and what every block does at them (spec/01, R11 to R21; R46, R73,
R88 to R90, R105, R106), and the position conflict (R13, R161).
-/
namespace Sys2Proof.Machine

/-- The cue engine gives up the show (R46). -/
def Ce.giveUp (c : Ce) : Ce :=
  { c with readState := .none, pos := none, buffer := none, fetch := c.fetch.map fun f => { f with live := false },
           pageWait := false, queue := [], slateEven := {}, slateOdd := {}, closed := none, waiting := none,
           running := none, scan := none }

/-- Everything of a show that the TBU holds is discarded, OUT_OF_STEP with it (R7, R13, R20). -/
def Tbu.discardShow (t : Tbu) (next : ShowState) : Tbu :=
  { t with state := next, armed := none, segBase := none, hold := {}, outOfStep := false, warmup := 0 }

/-- ENDING entered with a stop fade (R18). -/
def State.enterEnding (s : State) (fade : Nat) : State :=
  ((((s.onTbu fun t => { t with state := .ending, hold := {} }).onCe Ce.giveUp).huZeroHeights).onLu
    (Lu.stopFade s.params fade)).onAu fun a => a.onVoices (Voice.endShow fade)

/-- HALTED entered (R20). -/
def State.enterHalted (s : State) : State :=
  ((((s.onTbu fun t => t.discardShow .halted).onCe Ce.giveUp).huHalt).onLu (Lu.halt s.params)).onAu fun a =>
    a.onVoices (Voice.endShow 1)

/-- A HALT heard, or the own stop input active (R20): every state but STANDBY goes to HALTED; in HALTED nothing else
changes. -/
def State.haltRequest (s : State) : State :=
  match s.tbu.state with
  | .standby | .halted => s
  | _ => s.enterHalted

/-- STANDBY entered (R11, R13): pumps stop, lights go dark, voices go IDLE. -/
def State.enterStandby (s : State) : State :=
  (((s.onTbu fun t => t.discardShow .standby).huHalt).onLu (Lu.dark s.params)).onAu fun a =>
    a.onVoices Voice.silence

/-- ARMED left for IDLE, by a STOP or a page fault (R15, R29). -/
def State.armedToIdle (s : State) : State :=
  ((((s.onTbu fun t => t.discardShow .idle).onCe Ce.giveUp).huZeroHeights).onLu (Lu.dark s.params)).onAu fun a =>
    a.onVoices Voice.silence

/-- HALTED left for IDLE (R21, R89, R106). -/
def State.haltedToIdle (s : State) : State :=
  ((s.onTbu fun t => { t with state := .idle }).onLu (Lu.dark s.params)).onAu fun a => a.onVoices Voice.silence

/-- ENDING completed (R19). -/
def State.endingToIdle (s : State) : State := s.onTbu fun t => t.discardShow .idle

/-- The conditions of R19 hold. -/
def State.endingDone (s : State) : Bool := s.hu.atRest && s.lu.still && s.au.idle

/-- WARMUP entered (R11). -/
def State.enterWarmup (s : State) : State := s.onTbu fun t => { t with state := .warmup, warmup := 0 }

/-- A WAKE is taken in STANDBY with a valid record and no position conflict (R11). -/
def State.wakeable (s : State) : Bool := s.tbu.state == .standby && s.st.valid && !s.tbu.conflict

/-- The own position heard in another station's frame (R161, R13): the fault, the records, the REPLY queue emptied,
the serve records dropped (R133), and STANDBY with the show given up (R46). -/
def State.positionConflict (s : State) : State :=
  let s := s.raise .positionConflict
  let s := s.onLiu fun l => { l with conflict := true, replies := [] }
  let s := s.onTbu fun t => { t with conflict := true }
  let s := s.cm.serves.foldl (fun s r => s.dropServe r.id) s
  (s.enterStandby).onCe Ce.giveUp

/-- Some pending END action's dispatch time has been reached by basin time `now` (R34). -/
def Ce.endDue (c : Ce) (now : Nat) : Bool := c.queue.any fun a => a.deed == .endShow && decide (a.dispatch ≤ now)

/-- The END action takes effect in RUNNING (R34, R18). -/
def State.takeEnd (s : State) (now : Nat) : State :=
  if s.tbu.state = .running ∧ s.ce.endDue now then s.enterEnding s.params.endFade else s

/-- Basin time has reached T0 in ARMED (R15): RUNNING, and an END action already due takes effect (R34). -/
def State.takeT0 (s : State) (now : Nat) : State :=
  if s.tbu.state = .armed ∧ s.tbu.armed.any (fun r => decide (r.t0 ≤ now)) then
    (s.onTbu fun t => { t with state := .running }).takeEnd now
  else s

end Sys2Proof.Machine
end

