-- ==== Sys2Proof/Machine/Readings.lean ====
section
/-!
DEFINITION. The peer table and the basin input unit: peer records and ageing (spec/09, R166 to R170), the effective wind
and level (R171 to R174), the station's own readings, the wind and level states, and the clearing of faults (spec/10,
R177 to R187).
-/
namespace Sys2Proof.Machine

/-! ## Wind and level states (R179 to R182) -/

/-- The exit threshold of cut-out (R179). -/
def exitThreshold (P : Params) : Nat := max 1 (P.wcut - P.windHyst)

/-- The wind state of a wind by itself, as taken at reset (R188). -/
def windStateAt (P : Params) (w : Nat) : WindState :=
  if P.wcut ≤ w then .cutout else if P.w0 < w then .derate else .calm

/-- The wind state at a handed effective wind (R180). -/
def Biu.evalWind (P : Params) (w : Nat) (b : Biu) : Biu :=
  match b.windState with
  | .calm =>
    if P.wcut ≤ w then { b with windState := .cutout, quiet := 0 }
    else if P.w0 < w then { b with windState := .derate }
    else b
  | .derate =>
    if P.wcut ≤ w then { b with windState := .cutout, quiet := 0 }
    else if w ≤ P.w0 then { b with windState := .calm }
    else b
  | .cutout => if exitThreshold P ≤ w then { b with quiet := 0 } else b

/-- The quiet count at a marked boundary, and the end of cut-out (R181). -/
def Biu.stepQuiet (P : Params) (b : Biu) : Biu :=
  match b.windState with
  | .cutout =>
    if b.effWind < exitThreshold P then
      if 500 ≤ b.quiet + 1 then
        { b with quiet := 500, windState := if P.w0 < b.effWind then .derate else .calm }
      else { b with quiet := b.quiet + 1 }
    else { b with quiet := 0 }
  | _ => b

/-- The peer table hands on a changed effective wind (R174). -/
def State.handWind (s : State) (w : Nat) : State := s.onBiu fun b => { b with effWind := w }.evalWind s.params w

/-- The level state at an effective level (R182). An entry to DRY before the end of the listen is not raised yet. -/
def State.evalLevel (s : State) (l : Nat) : State :=
  match s.biu.levelState with
  | .normal =>
    if l < s.params.dryRun then
      let s := (s.onBiu fun b => { b with levelState := .dry }).huDry
      if s.startingUp then s else s.raise .dryRunLockout
    else s
  | .dry => if s.params.reArm ≤ l then (s.onBiu fun b => { b with levelState := .normal }).huNormal else s

/-- The peer table hands on a changed effective level, and the light unit compares it at once (R174, R83). -/
def State.handLevel (s : State) (l : Nat) : State :=
  ((s.onBiu fun b => { b with effLevel := l }).evalLevel l).onLu (Lu.interlock s.params l)

/-! ## Effective readings (R171 to R173) -/

/-- The own wind reading, when valid. -/
def State.ownWind (s : State) : Option Nat := if s.biu.windValid then some s.biu.wind else none

/-- The own level reading, when valid. -/
def State.ownLevel (s : State) : Option Nat := if s.biu.levelValid then some s.biu.level else none

/-- The sources of a reading with their values: own position first, then the records in ascending position. -/
def Pt.sources (t : Pt) (own : Position) (mine : Option Nat) (g : Peer → Option Nat) : List (Nat × Nat) :=
  (mine.map fun v => (own.val, v)).toList
    ++ t.peers.toList.zipIdx.filterMap fun x => (x.1.bind g).map fun v => (x.2, v)

/-- The first source whose value no other betters. -/
def bestSource (better : Nat → Nat → Bool) (l : List (Nat × Nat)) : Option (Nat × Nat) :=
  l.foldl (fun best x =>
    match best with
    | none => some x
    | some b => if better x.2 b.2 then some x else some b) none

/-- The wind source and its value: the maximum (R171). -/
def State.windBest (s : State) : Option (Nat × Nat) :=
  bestSource (fun a b => decide (b < a)) (s.pt.sources s.own s.ownWind (·.wind))

/-- The level source and its value: the minimum (R172). -/
def State.levelBest (s : State) : Option (Nat × Nat) :=
  bestSource (fun a b => decide (a < b)) (s.pt.sources s.own s.ownLevel (·.level))

/-- The effective wind recomputed (R171, R173, R174). -/
def State.recomputeWind (s : State) : State :=
  let best := s.windBest
  let w := (best.map (·.2)).getD s.params.fallbackWind
  let lost := best.isNone && s.pt.windSource.isSome && !s.startingUp
  let s' := s.onPt fun t => { t with wind := w, windSource := best.map (·.1) }
  let s' := if lost then s'.raise .windSourceLost else s'
  if w = s.pt.wind then s' else s'.handWind w

/-- The effective level recomputed (R172 to R174). Outside the listen a recomputation that loses the last source and brings
the level state to DRY raises LEVEL_SOURCE_LOST before DRY_RUN_LOCKOUT: the model's choice (notes/assumptions/30.md). -/
def State.recomputeLevel (s : State) : State :=
  let best := s.levelBest
  let l := (best.map (·.2)).getD 0
  let lost := best.isNone && s.pt.levelSource.isSome && !s.startingUp
  let s' := s.onPt fun t => { t with level := l, levelSource := best.map (·.1) }
  let s' := if lost then s'.raise .levelSourceLost else s'
  if l = s.pt.level then s' else s'.handLevel l

/-! ## Own readings (R177, R178) -/

/-- The level of a valid mean current (R177). -/
def levelOfLoop (P : Params) (i : Nat) : Nat :=
  min 4095 (P.levelZero + (clamp 4000 20000 i - 4000) * P.levelSpan / 16000)

/-- The level reading at a marked boundary, from the frame's mean current (R177). A reading that is not valid holds 0
(notes/assumptions/15.md), and the count toward validity stays at 10 while the reading is valid (notes/assumptions/66.md):
the model's choices. -/
def Biu.sampleLevel (P : Params) (i : Nat) (b : Biu) : Biu :=
  if !P.levelFitted then b
  else if i < 3600 then { b with loopMean := i, levelCount := 0, levelValid := false, level := 0 }
  else
    let n := min 10 (b.levelCount + 1)
    let valid := b.levelValid || decide (10 ≤ n)
    { b with loopMean := i, levelCount := n, levelValid := valid, level := if valid then levelOfLoop P i else 0 }

/-- The sum of the wind window's counts. -/
def Biu.pulses (b : Biu) : Nat := b.windWindow.foldl (· + ·) 0

/-- The wind reading at a marked boundary, from the frame's pulse count. A reading that is not valid holds 0. -/
def Biu.sampleWind (P : Params) (n : Nat) (b : Biu) : Biu :=
  if !P.windFitted then b
  else
    let win := b.windWindow.drop (b.windWindow.length - 49) ++ [n]
    let b := { b with windWindow := win }
    if win.length = 50 then { b with windValid := true, wind := min 65535 (b.pulses * P.windFactor / 100) }
    else { b with windValid := false, wind := 0 }

/-- Both samples of a boundary, each change reported to the peer table. -/
def State.sampleReadings (s : State) (i : BoundaryInput) : State :=
  let s1 := s.onBiu (Biu.sampleLevel s.params i.loop)
  let s1 := if s1.ownLevel = s.ownLevel then s1 else s1.recomputeLevel
  let s2 := s1.onBiu (Biu.sampleWind s.params i.pulses)
  if s2.ownWind = s1.ownWind then s2 else s2.recomputeWind

/-! ## Peer records (R166 to R168) -/

/-- The record a beacon makes (R167), its reception stamped `sof` (R160), with the offset sample of R3. -/
def peerOf (P : Params) (frame : Nat) (f : BeaconFields) (sof : Int) : Peer :=
  { fresh := true, age := 0, role := f.role.toNat, stamp := f.stamp.toNat, arrival := frame
    sample := some ((f.stamp.toNat : Int) + P.linkDelay - sof)
    state := f.state.toNat, showId := f.showId.toNat, index := f.index.toNat, demand := f.demand.toNat
    share := f.share.toNat, wind := f.windOf, level := f.levelOf, flags := f.flags.truncate 5 }

/-- A beacon of position `q` is recorded whole (R167). The effective wind is recomputed before the effective level, so that
WIND_SOURCE_LOST comes before a LEVEL_SOURCE_LOST and before a DRY_RUN_LOCKOUT of the same beacon: the model's choice
(notes/assumptions/30.md). -/
def State.recordBeacon (s : State) (q : Position) (f : BeaconFields) (sof : Int) : State :=
  let old := s.pt.peers[q]
  let p := peerOf s.params s.tbu.frameNo f sof
  let s := s.onPt fun t => { t with peers := t.peers.set q (some p) }
  let s := if old.bind (·.wind) = p.wind then s else s.recomputeWind
  if old.bind (·.level) = p.level then s else s.recomputeLevel

/-- One record aged at an own beacon boundary (R168). -/
def Peer.older (p : Peer) : Option Peer :=
  if 32 ≤ p.age + 1 then none
  else if p.age + 1 < 3 then some { p with age := p.age + 1 }
  else some { p with age := p.age + 1, fresh := false, sample := none }

/-- The records that this ageing clears. -/
def Pt.leaving (t : Pt) : List Peer := t.peers.toList.filterMap fun p => p.filter fun x => x.older.isNone

/-- Every record aged (R168). The effective wind and the effective level are each recomputed once, after all the records of
the boundary are cleared: the model's choice (notes/assumptions/65.md). -/
def State.agePeers (s : State) : State :=
  let gone := s.pt.leaving
  let s := s.onPt fun t => { t with peers := Vector.ofFn (fun i => t.peers[i].bind Peer.older) }
  let s := if gone.any (·.wind.isSome) then s.recomputeWind else s
  if gone.any (·.level.isSome) then s.recomputeLevel else s

/-- The samples the median takes: one for each FRESH record that holds one (R4). -/
def Pt.freshSamples (t : Pt) : List Int :=
  t.peers.toList.filterMap fun p => (p.filter (·.fresh)).bind (·.sample)

/-- Every stored sample (R9). -/
def Pt.storedSamples (t : Pt) : List Int := t.peers.toList.filterMap fun p => p.bind (·.sample)

/-- Every stored sample reduced by a correction (R6). -/
def Pt.reduceSamples (c : Int) (t : Pt) : Pt :=
  { t with peers := Vector.ofFn (fun i => t.peers[i].map fun p => { p with sample := p.sample.map (· - c) }) }

/-! ## The end of the listen (R193), and clearing (R187) -/

/-- Recomputations at the end of the listen, and the raises that waited for it (R173, R182). -/
def State.endOfListenReadings (s : State) : State :=
  let s := s.recomputeWind.recomputeLevel
  let s := if s.pt.windSource.isNone then s.raise .windSourceLost else s
  let s := if s.pt.levelSource.isNone then s.raise .levelSourceLost else s
  if s.biu.levelState = .dry then s.raise .dryRunLockout else s

/-- A CLEAR_FAULTS addressed to own position (R187). -/
def State.clearFaultList (s : State) : State := s.huClearFeedback.dropEndedFaults

/-! ## Reset (R175, R188) -/

/-- The peer table's values after a reset: own readings are not valid then. -/
def Pt.afterReset (P : Params) : Pt := { wind := P.fallbackWind }

/-- The basin input unit's values after a reset, before the level state is evaluated. The filters run on. -/
def Biu.afterReset (P : Params) (b : Biu) : Biu :=
  { effWind := P.fallbackWind, effLevel := 0, windState := windStateAt P P.fallbackWind, levelState := .normal,
    stopActive := b.stopActive, feedback := b.feedback }

end Sys2Proof.Machine
end

