-- ==== Sys2Proof/Machine/AudioFill.lean ====
section
/-!
DEFINITION. The fills of the audio block cache (spec/05, R109, R110), the answers to definition requests (R95), and the
whole pass of the audio unit (R101).
-/
namespace Sys2Proof.Machine

/-! ## Fills -/

/-- The wanted blocks at this moment, in issue order (R108). They are formed afresh from the present position wherever a fill
is considered or the placement test is made, between passes too, where R101 names step 5 of the pass alone: the model's
choice (notes/assumptions/61.md). -/
def State.wantsNow (s : State) : List Want := s.au.wants s.params.lookAhead (s.au.tau s.tbu.basinTime)

/-- A fill ends without a row read, its block passed over until the next marked boundary (R109). -/
def Au.passOver (a : Au) (f : AudioFill) : Au :=
  { a with fill := none, passed := (f.segment, f.block) :: a.passed }

/-- A slot becomes FILLING for the fill (R109). -/
def Au.beginFill (a : Au) (f : AudioFill) (i : Fin 32) : Au :=
  { a with fill := some { f with slot := some i },
           slots := a.slots.set i { state := .filling, tag := some (f.segment, f.block) } }

/-- The effect of the lookup's answer for a fill (R109). -/
def State.fillAnswer (s : State) (f : AudioFill) (ans : Answer) : State :=
  match ans with
  | .walking => s
  | .address phys =>
    match s.au.place s.wantsNow f.segment f.block with
    | some i =>
      (s.onAu fun a => a.beginFill f i).onSmc fun m =>
        m.arrive .audio (Request.at .rowRead (placeOf phys (4096 * (f.block % 4))))
    | none => s.onAu fun a => a.passOver f
  | .wait | .unavailable | .endOf | .mapFault | .typeMismatch => s.onAu fun a => a.passOver f

/-- The expected lookup of a fill: its block's offset, with its type (R109). -/
def State.fillLookup (s : State) (f : AudioFill) : State × Answer :=
  s.lookup .audio f.segment (f.block * 4096) f.kind

/-- Fills considered one after another until one is in flight or no wanted block is left (R109). Every round that goes
on passes one of at most 100 wanted blocks over. -/
def State.fillLoop : Nat → State → State
  | 0, s => s
  | n + 1, s =>
    if s.au.fill.isSome || !s.smc.classFree .audio then s
    else
      match s.au.nextFill s.wantsNow s.wantsNow with
      | (a, none) => s.onAu fun _ => a
      | (a, some w) =>
        let f : AudioFill := { segment := w.segment, block := w.block, kind := w.kind, slot := none, freed := false }
        let s := s.onAu fun _ => { a with fill := some f }
        let r := s.fillLookup f
        fillLoop n (r.1.fillAnswer f r.2)

/-- Fills considered as far as one event carries them (R109). -/
def State.fillSlots (s : State) : State := s.fillLoop 128

/-- A fill is considered (R109); the page requests owed from it take their places in the FETCH queue (R128). -/
def State.considerFill (s : State) : State := s.fillSlots.queueRequests

/-- A walk answers the fill's lookup (R117, R109). After an address for which the placement test finds no slot the next
block is considered at once, as after every other answer: the model's choice (notes/assumptions/48.md). -/
def State.fillWalkAnswer (s : State) (ans : Answer) : State :=
  match s.au.fill with
  | some f => (s.fillAnswer f ans).considerFill
  | none => s

/-- The words of one burst of a row read, handed into the FILLING slot of the fill as they are transferred (R138). A fill
that a warm reset has discarded has no slot. -/
def Au.takeWords (a : Au) (words : List Byte) : Au :=
  match a.fill.bind (·.slot) with
  | some i => { a with slots := a.slots.set i { a.slots[i] with data := a.slots[i].data ++ words } }
  | none => a

/-- A row read completes (R110). -/
def State.rowReadDone (s : State) (bytes : List Byte) : State :=
  match s.au.fill with
  | some f =>
    match f.slot with
    | some i =>
      (s.onAu fun a =>
        { a with
          fill := none
          slots := a.slots.set i
            (if f.freed then ({} : Slot) else { state := .valid, tag := some (f.segment, f.block), data := bytes }) }
      ).considerFill
    | none => s
  | none => s.considerFill

/-! ## Definition answers (R95) -/

/-- The fault an answer counts. -/
def definitionFault : Option DirEntry → Option FaultKind
  | none => some .mapFault
  | some e => if e.kind = .cue then some .typeMismatch else none

/-- The type and sample count an answer gives a record. -/
def PrimeRecord.define (r : PrimeRecord) : Option DirEntry → PrimeRecord
  | none => r
  | some e => { r with kind := some e.kind, count := sampleCount e.kind e.length }

/-- A voice after the answer to request `id`: applied to its prime record, or to the content the record has become, and
without effect when neither stands any more. -/
def Voice.answer (id : Nat) (e : Option DirEntry) (v : Voice) : Voice × Option FaultKind :=
  if v.prime.any (fun r => r.request == id && r.kind.isNone) then
    match definitionFault e with
    | some k => ({ v with prime := none, state := if v.state = .priming then .idle else v.state }, some k)
    | none => ({ v with prime := v.prime.map fun r => r.define e }, none)
  else if v.content.any (fun c => c.item.request == id && c.item.kind.isNone) then
    match definitionFault e with
    | some k => (v.leave, some k)
    | none => ({ v with content := v.content.map fun c => { c with item := c.item.define e } }, none)
  else (v, none)

/-- The oldest definition request is answered from the on-chip directory (R95, R118). -/
def State.answerDefinition (s : State) : State :=
  match s.au.requests with
  | [] => s
  | q :: rest =>
    let r := (s.au.voice q.voice).answer q.id (s.cm.entry q.segment)
    let s := s.onAu fun a => { a with requests := rest }.onVoice q.voice fun _ => r.1
    match r.2 with
    | some k => s.raise k (some (.segment q.segment))
    | none => s

/-! ## The pass (R101) -/

/-- Each voice wants the same set of blocks in both (R108), whatever their order. -/
def sameWants (xs ys : List Want) : Bool :=
  let among (ws : List Want) (w : Want) : Bool :=
    ws.any fun x => x.voice == w.voice && x.segment == w.segment && x.block == w.block
  xs.all (among ys) && ys.all (among xs)

/-- The action is a PRIME or a START. -/
def Action.primesOrStarts (x : Action) : Bool :=
  match x.deed with
  | .prime .. | .start .. => true
  | _ => false

/-- One voice action of the slate taken at step 3. The taking of a PRIME or START that changes the wanted sets is an event at
which a fill is considered (R109); what such a change is, notes/assumptions/60.md says. -/
def State.takeVoiceAction (s : State) (x : Action) : State :=
  let t := s.onAu (Au.act x)
  if x.primesOrStarts && !sameWants s.wantsNow t.wantsNow then t.fillSlots else t

/-- Step 3: the slate's voice actions in list order (R101). -/
def State.takeVoiceActions (s : State) (acts : List Action) : State := acts.foldl State.takeVoiceAction s

/-- Step 5: the passed-over marks are cleared and a fill is considered (R101, R109). -/
def State.lookAheadStep (s : State) : State := (s.onAu fun a => { a with passed := [] }).fillSlots

/-- The pass of the audio unit at the boundary of frame `k` and basin time `now`, its five steps in order (R101). The page
requests of the boundary are queued at the end of its passes (`State.passes`). -/
def State.auPass (s : State) (now k : Nat) (c : Int) (handed : ShowState) (entered resumed : Bool)
    (acts : List Action) : State :=
  let s := (s.onAu (Au.stepsAndEnds now c handed)).takeVoiceActions acts
  (s.onAu (Au.holdAndResume k entered resumed)).lookAheadStep

end Sys2Proof.Machine
end

