-- ==== Sys2Proof/Machine/CueEngine.lean ====
section
/-!
DEFINITION. The cue engine: the pending queue and the slates, the reading of the cue list, show segments, triggers and
cut scans (spec/02, R23 to R46).
-/
namespace Sys2Proof.Machine

/-! ## The pending queue and the slates (R35 to R40) -/

/-- Insertion after every action whose dispatch time is equal or earlier (R35). -/
def insertAction (a : Action) : List Action → List Action
  | [] => [a]
  | b :: bs => if a.dispatch < b.dispatch then a :: b :: bs else b :: insertAction a bs

/-- Insertion by list order (R40). -/
def insertByOrder (a : Action) : List Action → List Action
  | [] => [a]
  | b :: bs => if a.order < b.order then a :: b :: bs else b :: insertByOrder a bs

/-- A JET action staged for jet `j`: of two for one jet the later in list order stays (R38). -/
def stageJet (j : Nat) (a : Action) (jets : List Action) : List Action :=
  let forJ : Action → Bool := fun b =>
    match b.deed with
    | .jet j' _ _ => j' == j
    | _ => false
  if jets.any fun b => forJ b && decide (a.order < b.order) then jets
  else (jets.filter fun b => !forJ b) ++ [a]

/-- A LIGHT action's hold on the channels `ch` removed; none when it is left with no channel (R39). -/
def Action.giveUp (ch : BitVec 48) (a : Action) : Option Action :=
  match a.deed with
  | .light d =>
    let left := d.channels &&& ~~~ch
    if left = 0 then none else some { a with deed := .light { d with channels := left } }
  | _ => some a

/-- The channels a LIGHT action holds. -/
def Action.channels (a : Action) : BitVec 48 :=
  match a.deed with
  | .light d => d.channels
  | _ => 0

/-- A LIGHT action staged: each channel it covers goes to the later in list order (R39). -/
def stageLight (a : Action) (lights : List Action) : List Action :=
  let later := lights.foldl (fun ch b => if a.order < b.order then ch ||| b.channels else ch) (0 : BitVec 48)
  match a.giveUp later with
  | none => lights
  | some a => insertByOrder a (lights.filterMap fun b => if a.order < b.order then some b else b.giveUp a.channels)

/-- An action onto the slate of its consumer; none when the audio slate already holds 8 (R40). -/
def Slate.stage (x : Slate) (a : Action) : Option Slate :=
  match a.deed with
  | .jet j _ _ => some { x with jets := stageJet j a x.jets }
  | .light _ => some { x with lights := stageLight a x.lights }
  | .endShow => none
  | _ => if x.voices.length < 8 then some { x with voices := insertByOrder a x.voices } else none

/-- An action staged into the slates of frame `k + 1`, counted late when its frame is `k` or earlier (R36); none when
it cannot be staged. A late action that the audio slate has no room for is counted once, when it is staged: the model's
choice (notes/assumptions/41.md). -/
def State.stage (s : State) (k : Nat) (a : Action) : Option State :=
  match (s.ce.slate (k + 1)).stage a with
  | none => none
  | some x =>
    let s := s.onCe fun c => c.setSlate (k + 1) x
    some (if a.dispatch / 960 ≤ k then s.raise .cueLate else s)

/-- The dispatch frame of an action is `k + 1` or earlier, and it is not an END action. -/
def Action.stageable (k : Nat) (a : Action) : Bool := a.deed != .endShow && decide (a.dispatch / 960 ≤ k + 1)

/-- The staging pass at the boundary of frame `k` (R36), over the queue in its order. -/
def State.stagePass (s : State) (k : Nat) : State :=
  s.ce.queue.foldl (fun s a =>
    if a.stageable k then
      match s.stage k a with
      | some s => s.onCe fun c => { c with queue := c.queue.erase a }
      | none => s
    else s) s

/-- An action produced (R35, R37): staged at once when its frame is the next one or earlier, else queued. -/
def State.produce (s : State) (deed : Deed) (dispatch : Nat) : State :=
  let a : Action := { deed := deed, dispatch := dispatch, order := s.ce.nextOrder, index := s.ce.index }
  let s := s.onCe fun c => { c with nextOrder := c.nextOrder + 1 }
  let queued := s.onCe fun c => { c with queue := insertAction a c.queue }
  if a.stageable s.tbu.frameNo ∧ (s.tbu.state = .armed ∨ s.tbu.state = .running) then
    (s.stage s.tbu.frameNo a).getD queued
  else queued

/-! ## From cues to actions (R30 to R34) -/

/-- The segment base the TBU holds (R15). -/
def State.base (s : State) : Nat := s.tbu.segBase.getD 0

/-- A JET action for jet `n` with cue time `t`, led by its pump's lead (R30). -/
def State.ledJet (s : State) (n : Channel) (height ramp t : Nat) : Deed × Nat :=
  (.jet n.val height ramp, t - s.leadOf n height)

/-- The fixture mask of a LIGHT record (R24, R32). -/
def lightFixtures (mask : Nat) : BitVec 12 := BitVec.ofNat 12 mask

/-- The dimming channels of a fixture mask and a channel mask (R39). -/
def lightChannels (mask chans : Nat) : BitVec 48 :=
  (List.range 48).foldl (fun b n =>
    if mask.testBit (n / 4) && chans.testBit (n % 4) then b ||| (1 <<< n) else b) 0

/-- The actions of a record whose cue time is `t` ticks of basin time, in list order. -/
def State.actionsOf (s : State) (c : Cue) (t : Nat) : List (Deed × Nat) :=
  match c with
  | .jet mask height ramp atCommand =>
    (allChannels.filter fun n => mask.testBit n.val && s.params.pumps[n].present).map fun n =>
      if atCommand then (.jet n.val height ramp, t) else s.ledJet n height ramp t
  | .sweep first last reversed height step basin =>
    let jets := allChannels.filter fun n => decide (first ≤ n.val) && decide (n.val ≤ last)
    let order := if reversed then jets.reverse else jets
    let ring := if basin then s.params.ringIndex * order.length else 0
    (order.zipIdx.filter fun x => s.params.pumps[x.1].present).map fun x =>
      s.ledJet x.1 height 0 (t + (x.2 + ring) * step)
  | .light mask chans r g b w fade follow =>
    if mask = 0 ∨ chans = 0 then []
    else [(.light { fixtures := lightFixtures mask, channels := lightChannels mask chans, r := r, g := g, b := b, w := w,
                    fade := fade, follow := follow, cueFrame := t / 960 }, t)]
  | .audioStart v seg start gain => [(.prime v seg start, t - 9600), (.start v seg start gain t, t)]
  | .audioGain v gain ramp => [(.gain v gain ramp, t)]
  | .audioStop v fade => [(.stopVoice v fade, t)]
  | .endShow => [(.endShow, t)]
  | .waitTrigger .. | .endSegment => []

/-! ## Show segments (R26, R42) -/

/-- A show segment opened with base `b` (R26). -/
def State.openSegment (s : State) (b : Nat) : State :=
  (s.onCe fun c => { c with index := c.index + 1, lastCue := 0, closed := none }).onTbu fun t =>
    { t with segBase := some b }

/-- A triggered show segment opened by press stamp `p` from a WAIT_TRIGGER's fields (R42). -/
def State.openTriggered (s : State) (p : Nat) (w : WaitingRecord) : State :=
  let b := p + 3840
  (s.openSegment b).onCe fun c =>
    { c with
      running := some { index := c.index, interruptible := w.interruptible, rearmEnd := b + w.rearm * 960 }
      waiting := none
      readState := .reading }

/-! ## The end of a show on a fault (R29) -/

/-- The engine ends the show on this station. -/
def State.cueEndShow (s : State) : State :=
  match s.tbu.state with
  | .running => s.enterEnding s.params.endFade
  | .armed => s.armedToIdle
  | _ => s.onCe Ce.giveUp

/-! ## Reading (R27 to R29, R34, R43, R44) -/

/-- Whether reading goes on after a step. -/
inductive Progress where
  | more (s : State)
  | stop (s : State)

/-- The read position moved on by one record. -/
def Ce.advance (c : Ce) : Ce := { c with pos := c.pos.map fun p => { p with offset := p.offset + 16 } }

/-- The scan has failed, or is abandoned (R44): back to its return point, the buffer emptied. -/
def Ce.scanFail (c : Ce) : Ce :=
  match c.scan with
  | some x =>
    { c with readState := x.returnState, pos := some x.returnPos, closed := x.returnClosed, buffer := none,
             pageWait := false, scan := none }
  | none => c

/-- The timed show segment that follows a closed one is opened (R26). -/
def State.openTimed (s : State) : State :=
  match s.ce.closed with
  | some t => s.openSegment (s.base + t)
  | none => s

/-- The end of the list (R34): a closed show segment is followed by a timed one at once (R26), and the END action is
produced when the queue has a slot (R35). -/
def State.endOfList (s : State) : State :=
  let s := s.openTimed
  if 32 ≤ s.ce.queue.length then s
  else (s.produce .endShow (s.base + s.ce.lastCue)).onCe fun c => { c with readState := .ended }

/-- An END result, or a record whose last byte lies at or beyond the segment's length (R28, R29). -/
def State.cueEnd (s : State) : Progress :=
  if s.ce.readState = .scanning then .more (s.onCe Ce.scanFail) else .stop s.endOfList

/-- The length of a segment, 0 when it is UNDEFINED. -/
def Cm.lengthOf (c : Cm) (g : Nat) : Nat := ((c.entry g).map (·.length)).getD 0

/-- The record at position `p` of a CUE segment has its last byte at or beyond the segment's length (R28). -/
def Cm.cutOff (c : Cm) (p : ReadPos) : Bool :=
  (c.entry p.segment).any fun e => e.kind == .cue && decide (e.length < p.offset + 16)

/-- The lookup for the block of position `p` (R28). A record whose last byte lies at or beyond the length lies beyond it: its
lookup gives END by the check of the length, whatever the state of its page, and starts no fetch. -/
def State.cueLookup (s : State) (p : ReadPos) : State × Answer :=
  if s.cm.cutOff p then (s, .endOf) else s.lookup .cue p.segment (p.offset / 256 * 256) .cue

/-- The engine's response to the answer of a lookup for the block of position `p` (R28, R29). -/
def State.cueAnswer (s : State) (p : ReadPos) (a : Answer) : Progress :=
  let block := p.offset / 256 * 256
  match a with
  | .address phys =>
    if s.cm.lengthOf p.segment < p.offset + 16 then s.cueEnd
    else if s.smc.classFree .cue then
      .stop ((s.onSmc fun m => m.arrive .cue (Request.at .read256 (placeOf phys (block % 16384)))).onCe fun c =>
        { c with fetch := some { segment := p.segment, offset := block, stage := .read, live := true } })
    else .stop (s.onCe fun c => { c with pageWait := true })
  | .walking =>
    .stop (s.onCe fun c =>
      { c with fetch := some { segment := p.segment, offset := block, stage := .lookup, live := true } })
  | .wait => .stop (s.onCe fun c => { c with pageWait := true })
  | .unavailable =>
    .more ((s.raise .pageUnavailable (some (.page p.segment (p.offset / 16384)))).onCe fun c =>
      { c with pos := some { p with offset := (p.offset / 16384 + 1) * 16384 } })
  | .endOf => s.cueEnd
  | .mapFault => .stop (s.raise .mapFault (some (.segment p.segment))).cueEndShow
  | .typeMismatch => .stop (s.raise .typeMismatch (some (.segment p.segment))).cueEndShow

/-- CUE_MALFORMED counted with the record's content segment and page (R24, R25). -/
def State.countMalformed (s : State) (p : ReadPos) : State :=
  s.raise .cueMalformed (some (.page p.segment (p.offset / 16384)))

/-- A well-formed record taken at segment time `t` (R24 to R26, R30 to R34). -/
def State.takeCue (s : State) (p : ReadPos) (r : List Byte) (c : Cue) (t : Nat) : Progress :=
  let acts := s.actionsOf c (s.base + t)
  if 32 < s.ce.queue.length + acts.length then .stop s
  else
    match c with
    | .waitTrigger n rearm intr =>
      .stop (s.onCe fun c =>
        { c.advance with waiting := some { number := n, rearm := rearm, interruptible := intr }, closed := none,
                         readState := .waiting })
    | _ =>
      let s := if cueTime r < s.ce.lastCue then s.countMalformed p else s
      let s := acts.foldl (fun s a => s.produce a.1 a.2) s
      let s := s.onCe fun c => { c with lastCue := t }
      match c with
      | .endShow => .stop (s.onCe fun c => { c with readState := .ended })
      | .endSegment => .more (s.onCe fun c => { c.advance with closed := some t })
      | _ => .more (s.onCe Ce.advance)

/-- The record at the read position, in READING (R26, R27). After an END_SEGMENT any record but a WAIT_TRIGGER opens a
timed show segment and is then taken as the first of it. A malformed record, of whatever kind byte, is such a record
(notes/assumptions/19.md). -/
def State.readRecord (s : State) (p : ReadPos) (r : List Byte) : Progress :=
  let c := decodeCue r
  let opens :=
    match c with
    | some (.waitTrigger ..) => false
    | some _ | none => true
  match s.ce.closed with
  | some _ => if opens then .more s.openTimed else go c
  | none => go c
where
  /-- The horizon test, then the taking of the record. -/
  go (c : Option Cue) : Progress :=
    let t := max (cueTime r) s.ce.lastCue
    if cueKind r ≠ 7 ∧ s.tbu.basinTime + s.params.horizon * 48000 < s.base + t then .stop s
    else
      match c with
      | none => .more ((s.countMalformed p).onCe Ce.advance)
      | some c => s.takeCue p r c t

/-- The record at the read position, in SCANNING (R43, R44). The WAIT_TRIGGER or END_SHOW at which the scan stops is known
by its kind byte alone, as the records it passes are, and is not checked for form: the model's choice
(notes/assumptions/52.md). -/
def State.scanRecord (s : State) (x : ScanRecord) (r : List Byte) : Progress :=
  let entered := x.passed + (if x.afterEnd then 1 else 0)
  let pass (after : Bool) : Progress :=
    .more (s.onCe fun c => { c.advance with scan := some { x with passed := entered, afterEnd := after } })
  match cueKind r with
  | 7 =>
    if recByte r 8 = x.number then
      let s := s.onCe fun c =>
        { c.advance with
          queue := c.queue.filter fun a =>
            a.deed == .endShow || !(c.running.any fun k => k.index == a.index)
          index := c.index + x.passed
          scan := none }
      .more (s.openTriggered x.press
        { number := recByte r 8, rearm := recWord r 9, interruptible := recByte r 5 % 2 = 1 })
    else .more (s.onCe Ce.scanFail)
  | 9 => .more (s.onCe Ce.scanFail)
  | 8 => pass true
  | _ => pass false

/-- The buffer's record at a position, when the buffer holds its block (R28). -/
def Ce.recordAt (c : Ce) (p : ReadPos) : Option (List Byte) :=
  match c.buffer with
  | some b =>
    if b.segment = p.segment ∧ b.offset = p.offset / 256 * 256 then some ((b.bytes.drop (p.offset - b.offset)).take 16)
    else none
  | none => none

/-- One step of reading or scanning (R27, R28). -/
def State.cueStep (s : State) : Progress :=
  let reads := s.ce.readState = .reading ∨ s.ce.readState = .scanning
  let plays := s.tbu.state = .armed ∨ s.tbu.state = .running
  if ¬(reads ∧ plays) ∨ s.ce.pageWait then .stop s
  else
    match s.ce.pos with
    | none => .stop s
    | some p =>
      match s.ce.recordAt p with
      | some r =>
        if s.cm.lengthOf p.segment < p.offset + 16 then s.cueEnd
        else
          match s.ce.scan with
          | some x => s.scanRecord x r
          | none => s.readRecord p r
      | none =>
        if s.ce.fetch.isSome then .stop s
        else
          let (s, a) := s.cueLookup p
          s.cueAnswer p a

/-- Records taken one after another as long as the conditions hold (R27). The fuel bounds what one event can read: 16
records of a block, each perhaps after an opening, a scan's return, and 64 pages skipped. -/
def State.cueLoop : Nat → State → State
  | 0, s => s
  | n + 1, s =>
    match s.cueStep with
    | .stop s => s
    | .more s => cueLoop n s

/-- Reading resumed as far as one event carries it (R27). -/
def State.cueRead (s : State) : State := s.cueLoop 256

/-- Reading resumed at an event that can make its conditions hold (R27); the page requests owed from it take their places
in the FETCH queue (R128). -/
def State.cueRun (s : State) : State := s.cueRead.queueRequests

/-- The engine goes on from a step. -/
def Progress.run : Progress → State
  | .more s => s.cueRun
  | .stop s => s

/-! ## Events of the engine -/

/-- A GO taken (R23): the list resolved and the read state set, or the show ended for want of a list. Without a list the
show segment index stays what it was: the model's choice (notes/assumptions/53.md). -/
def State.cueGo (s : State) (showId : Nat) : State :=
  let s := s.onCe fun c => { c with lastTrigger := none }
  match s.cm.resolve showId s.own.val with
  | none => (s.raise .mapFault (some (.showNo showId))).cueEndShow
  | some g =>
    (s.onCe fun c =>
      { c with readState := .reading, pos := some { segment := g, offset := 0 }, buffer := none, pageWait := false,
               index := 0, lastCue := 0, closed := none, waiting := none, running := none, scan := none }).cueRun

/-- The engine's work at the boundary of frame `k` handed as ARMED or RUNNING (R29, R36, R27). The page requests of the
boundary are queued at the end of its passes (`State.passes`). -/
def State.cueBoundary (s : State) (k : Nat) (handed : ShowState) : State :=
  match handed with
  | .armed | .running => ((s.stagePass k).onCe fun c => { c with pageWait := false }).cueRead
  | _ => s

/-- HELD entered (R44, R45): a scan is abandoned. -/
def State.cueHold (s : State) : State := s.onCe Ce.scanFail

/-- A pending action moved by `d` at the resume boundary (R45). The start basin time of a START moves with its dispatch time,
whose frame is that of the start time (R96), and the cue frame of a LIGHT by the frames of `d`, as the limit frames of the
follow list do (R87): notes/assumptions/72.md. -/
def Action.moved (d : Nat) (a : Action) : Action :=
  { a with
    dispatch := a.dispatch + d
    deed := match a.deed with
      | .start v g p gain ts => .start v g p gain (ts + d)
      | .light x => .light { x with cueFrame := x.cueFrame + d / 960 }
      | x => x }

/-- The resume boundary (R45): the pending actions and the re-arm end move by `d`. -/
def State.cueResume (s : State) (d : Nat) : State :=
  s.onCe fun c =>
    { c with
      queue := c.queue.map (Action.moved d)
      running := c.running.map fun r => { r with rearmEnd := r.rearmEnd + d } }

/-- The fetch in flight was issued for the block of the read position, which has not been dropped since (R28). -/
def Ce.fetchWanted (c : Ce) (f : CueFetch) : Bool :=
  f.live && c.pos.any fun p => p.segment == f.segment && p.offset / 256 * 256 == f.offset

/-- A cue read completes with its bytes (R28). -/
def State.cueReadDone (s : State) (bytes : List Byte) : State :=
  match s.ce.fetch with
  | none => s
  | some f =>
    (s.onCe fun c =>
      { c with
        fetch := none
        buffer := if c.fetchWanted f then some { segment := f.segment, offset := f.offset, bytes := bytes }
                  else c.buffer }).cueRun

/-- The position whose block the fetch is for: the read position, or the block's first record when that has moved. -/
def Ce.fetchPos (c : Ce) (f : CueFetch) : ReadPos :=
  (c.pos.filter fun _ => c.fetchWanted f).getD ⟨f.segment, f.offset⟩

/-- A walk answers the engine's lookup (R117, R28). The answer is acted on at once in HELD too, in which the engine takes no
record: the model's choice (notes/assumptions/73.md). -/
def State.cueWalkAnswer (s : State) (a : Answer) : State :=
  match s.ce.fetch with
  | none => s
  | some f =>
    if a = .walking then s
    else
      let wanted := s.ce.fetchWanted f
      let s := s.onCe fun c => { c with fetch := none }
      match s.ce.pos with
      | some p => if wanted then (s.cueAnswer p a).run else s.cueRun
      | none => s

/-- A TRIGGER passed to the engine in RUNNING (R42, R43). Between an END_SEGMENT and the next record the show segment the
engine is reading is still the closed one, so that it can be cut there: the model's choice (notes/assumptions/42.md). -/
def State.cueTrigger (s : State) (number press : Nat) : State :=
  if s.ce.lastTrigger = some press then s
  else if s.ce.running.any fun r => decide (press < r.rearmEnd) then s
  else
    let taken := s.onCe fun c => { c with lastTrigger := some press }
    match s.ce.readState with
    | .waiting =>
      match s.ce.waiting with
      | some w => if w.number = number then (taken.openTriggered press w).cueRun else s
      | none => s
    | .reading | .ended =>
      match s.ce.running, s.ce.pos with
      | some r, some p =>
        if r.interruptible ∧ r.index = s.ce.index then
          (taken.onCe fun c =>
            { c with
              readState := .scanning
              scan := some { number := number, press := press, returnPos := p, returnState := c.readState,
                             returnClosed := c.closed, afterEnd := c.closed.isSome, passed := 0 } }).cueRun
        else s
      | _, _ => s
    | .scanning | .none => s

end Sys2Proof.Machine
end

