-- ==== Sys2Proof/Machine/Walks.lean ====
section
/-!
DEFINITION. The map-region queue's completions: table writes, the two reads of a walk, and the answers a walk gives
(spec/06, R114 to R117).
-/
namespace Sys2Proof.Machine

/-- A serve record's lookup is answered: an address is held for the rest of the serve (R131). -/
def State.serveAnswer (s : State) (id : Nat) (ans : Answer) : State :=
  match ans with
  | .address p =>
    s.onCm fun c =>
      { c with serves := c.serves.map fun r =>
          match r.stage with
          | .sending none n f => if r.id = id then { r with stage := .sending (some p) n f } else r
          | _ => r }
  | _ => s

/-- A serve record asks for its page's address (R131), with the type of its segment. -/
def State.serveLookup (s : State) (r : Serve) : State × Answer :=
  s.lookup (.serve r.id) r.segment (r.page * 16384) (((s.cm.entry r.segment).map (·.kind)).getD .cue)

/-- A lookup a walk carried is answered. -/
def State.answerAsker (s : State) (ans : Answer) (a : Asker) : State :=
  match a with
  | .cue => s.cueWalkAnswer ans
  | .audio => s.fillWalkAnswer ans
  | .serve id => s.serveAnswer id ans

/-- A lookup a stale walk carried is answered afresh, from its first check (R117). -/
def State.answerAfresh (s : State) (a : Asker) : State :=
  match a with
  | .cue =>
    match s.ce.fetch with
    | some f =>
      let r := s.cueLookup (s.ce.fetchPos f)
      r.1.cueWalkAnswer r.2
    | none => s
  | .audio =>
    match s.au.fill with
    | some f =>
      let r := s.fillLookup f
      r.1.fillWalkAnswer r.2
    | none => s
  | .serve id =>
    match s.cm.serves.find? fun r => r.id == id with
    | some x =>
      let r := s.serveLookup x
      r.1.serveAnswer id r.2
    | none => s

/-- The map cache entry a walk's second read gives (R116): the physical page stands in the piece read. -/
def Cm.walked (c : Cm) (w : Walk) (bytes : List Byte) : CacheEntry :=
  { segment := w.segment, page := w.page
    phys := ptePhys ((bytes.drop (4 * (pageKey w.segment w.page % 4))).take 4)
    kind := ((c.entry w.segment).map (·.kind)).getD .cue
    house := isHouse w.segment }

/-- A walk's second read completes with its bytes (R117). The page requests owed from lookups answered afresh take their
places in the FETCH queue (R128). -/
def State.walkDone (s : State) (w : Walk) (bytes : List Byte) : State :=
  let e := s.cm.walked w bytes
  let s := s.popMap
  if w.stale then (w.askers.foldl State.answerAfresh s).queueRequests
  else w.askers.foldl (fun s a => s.answerAsker (.address e.phys) a) (s.onCm fun c => c.install e)

/-- A table write or a walk's first read at the head of the map-region queue completes (R114). A walk that a warm reset
has left without lookups goes no further (R135). -/
def State.mapAccessDone (s : State) : State :=
  match s.cm.mapQ with
  | .write w :: _ =>
    (s.onCm fun c =>
      if w.init then
        { c with init := match c.init with
          | .left n => .left (n - 1)
          | .waiting => .waiting }
      else c).popMap
  | .walk w :: rest =>
    if w.askers.isEmpty then s.popMap
    else (s.onCm fun c => { c with mapQ := .walk { w with second := true } :: rest, mapIssued := false }).issueMap
  | [] => s

end Sys2Proof.Machine
end

