-- ==== Sys2Proof/Machine/Snapshot.lean ====
section
/-!
DEFINITION. The snapshots of the six selectors, laid out field by field (spec/11, R199), and the queueing of a reply
(spec/08, R163). Where R199 leaves the layout of a field open, the choice is named in notes/assumptions/20.md.
-/
namespace Sys2Proof.Machine

/-! ## Widths and presence (R199) -/

/-- A flag, a validity or a code: 1 byte. -/
def put1 (n : Nat) : List Byte := beBytes 1 n

/-- A flag. -/
def putFlag (b : Bool) : List Byte := put1 b.toNat

/-- Any other number: 4 bytes. A number above 2^32 - 1, as a sum of peers' demands can be, keeps its low 32 bits: the model's
choice (notes/assumptions/20.md). -/
def put4 (n : Nat) : List Byte := beBytes 4 n

/-- A basin time, a derived time or a frame number: 6 bytes. -/
def put6 (n : Nat) : List Byte := beBytes 6 n

/-- A signed quantity: 4 bytes in two's complement. One outside the 32-bit signed range, as an offset sample can be, keeps its
low 32 bits: the model's choice (notes/assumptions/20.md). -/
def putInt (x : Int) : List Byte := beBytes 4 (x % 4294967296).toNat

/-- The number whose 4 bytes are those of a signed quantity. -/
def twos4 (x : Int) : Nat := (x % 4294967296).toNat

/-- A sample count, not known while the type is pending (R92, R199). -/
def PrimeRecord.knownCount (r : PrimeRecord) : Option Nat := r.kind.map fun _ => r.count

/-- A field opened by a presence byte; its bytes are 0 when it holds none. -/
def putOpt (put : Nat → List Byte) (x : Option Nat) : List Byte :=
  match x with
  | some n => 1 :: put n
  | none => 0 :: put 0

/-- A list: its number of members, then the members. -/
def putList (ms : List (List Byte)) : List Byte := put1 ms.length ++ ms.flatten

/-- A duration in milliseconds of a count of ticks, rounded up. -/
def msOf (ticks : Nat) : Nat := ceilDiv ticks 48

/-! ## Codes: those of R197 and R198 where they give one, else the place in the defining table -/

/-- The station state codes of R197. -/
def ShowState.code : ShowState → Nat
  | .standby => 0
  | .warmup => 1
  | .idle => 2
  | .armed => 3
  | .running => 4
  | .held => 5
  | .ending => 6
  | .halted => 7

def ReadState.code : ReadState → Nat
  | .none => 0
  | .reading => 1
  | .waiting => 2
  | .scanning => 3
  | .ended => 4

def PumpState.code : PumpState → Nat
  | .off => 0
  | .resting => 1
  | .claiming => 2
  | .starting => 3
  | .running => 4
  | .stopping => 5
  | .locked => 6

/-- In the order of R92's table of states, for the resume state too (notes/assumptions/20.md). -/
def VoiceState.code : VoiceState → Nat
  | .idle => 0
  | .priming => 1
  | .playing => 2
  | .fading => 3
  | .paused => 4

def SlotState.code : SlotState → Nat
  | .empty => 0
  | .filling => 1
  | .valid => 2

def CtlState.code : CtlState → Nat
  | .initWait => 0
  | .initPrecharge => 1
  | .initRefresh => 2
  | .initMode => 3
  | .ready => 4

def BankState.code : BankState → Nat
  | .idle => 0
  | .activating => 1
  | .open => 2
  | .precharging => 3

def ReqKind.code : ReqKind → Nat
  | .rowRead => 0
  | .read256 => 1
  | .write64 => 2
  | .read16 => 3

def ReqClass.code : ReqClass → Nat
  | .audio => 0
  | .walk => 1
  | .cue => 2
  | .content => 3
  | .serve => 4

def WindState.code : WindState → Nat
  | .calm => 0
  | .derate => 1
  | .cutout => 2

def LevelState.code : LevelState → Nat
  | .normal => 0
  | .dry => 1

def ResetCause.code : ResetCause → Nat
  | .powerOn => 0
  | .resetPin => 1
  | .resetStation => 2

/-- In the order of R186's table. -/
def FaultKind.code : FaultKind → Nat
  | .configInvalid => 0
  | .positionConflict => 1
  | .linkMuted => 2
  | .pumpNoFeedback => 3
  | .dryRunLockout => 4
  | .windSourceLost => 5
  | .levelSourceLost => 6
  | .pageUnavailable => 7
  | .storeFull => 8
  | .mapFault => 9
  | .typeMismatch => 10
  | .cueLate => 11
  | .audioUnderrun => 12
  | .cueMalformed => 13

/-! ## GENERAL: R22, R48, R112, R165, R195 -/

/-- The timebase unit's fields (R22). -/
def Tbu.snapshot (t : Tbu) : List Byte :=
  put6 t.basinTime ++ put6 t.frameNo ++ put1 t.state.code ++ putFlag t.outOfStep ++ putInt t.lastMedian
    ++ putInt t.lastCorrection
    ++ putOpt put4 (t.armed.map (·.showId)) ++ putOpt put6 (t.armed.map (·.t0))
    ++ putOpt put6 t.segBase
    ++ putOpt put6 t.hold.th ++ putOpt put6 t.hold.boundary ++ putOpt put6 t.hold.tr
    ++ putOpt put6 t.lastGo ++ putOpt put6 t.lastHold ++ putOpt put6 t.lastResume

/-- The cue engine's fields (R48). -/
def Ce.snapshot (c : Ce) : List Byte :=
  put1 c.readState.code
    ++ putOpt put4 (c.pos.map (·.segment)) ++ putOpt put4 (c.pos.map (·.offset))
    ++ put4 c.index
    ++ put4 c.queue.length ++ putOpt put6 (c.queue.head?.map (·.dispatch))
    ++ putOpt put4 (c.waiting.map (·.number))
    ++ putOpt put4 (c.running.map (·.index)) ++ putOpt put6 (c.running.map (·.rearmEnd))
    ++ putOpt put6 c.lastTrigger

/-- One voice's fields (R112) at audio time τ. The current position is s + (τ - Ts) in PAUSED too, where it runs on while the
content waits: the model's choice (notes/assumptions/68.md). -/
def Voice.snapshot (tau : Nat) (v : Voice) : List Byte :=
  put1 v.state.code
    ++ putOpt put1 (v.resumeFading.map fun f => if f then VoiceState.fading.code else VoiceState.playing.code)
    ++ putOpt put4 (v.content.map (·.item.segment)) ++ putOpt put4 (v.content.map (·.item.start))
    ++ putOpt put6 (v.content.map (·.ts))
    ++ putOpt put4 (v.content.bind fun c => c.item.kind.map channelCount)
    ++ putOpt put4 (v.content.bind (·.item.knownCount))
    ++ putOpt put4 (v.content.map fun c => twos4 (c.position tau))
    ++ put4 v.gain ++ put4 v.rampTarget ++ put4 v.rampFrames ++ put4 v.rampElapsed
    ++ putOpt put4 (v.prime.map (·.segment)) ++ putOpt put4 (v.prime.map (·.start))
    ++ putOpt put1 (v.prime.bind fun p => p.kind.map SegType.code) ++ putOpt put4 (v.prime.bind PrimeRecord.knownCount)

/-- The number of bits a second of a link rate (R151). -/
def linkBits : LinkRate → Nat
  | .r500k => 500000
  | .r1M => 1000000

/-- A slot or queue: the number of members it holds, and whether the one at its head has begun. -/
def putQueue (n : Nat) (begun : Bool) : List Byte := put4 n ++ putFlag begun

/-- The link interface unit's fields (R165). -/
def Liu.snapshot (rate : LinkRate) (l : Liu) : List Byte :=
  put4 (linkBits rate) ++ putFlag (l.mute != 0) ++ put4 l.mute ++ put4 l.fails ++ putFlag l.mutedSince
    ++ put4 l.yieldCount ++ put4 l.rxErrors ++ putFlag l.conflict
    ++ putQueue l.halt.toNat (l.tx.any fun t => t.source == .halt)
    ++ putQueue l.beacon.toList.length false
    ++ putQueue l.claim.toList.length l.claimBegun
    ++ putQueue l.replies.length l.queryBegun
    ++ putQueue l.fetchQ.length l.fetchBegun
    ++ putQueue l.contentQ.length l.contentBegun

/-- The start-up record's fields (R195). The number of listen boundaries marked is given without a presence byte and stays at
15 once the listen is over: the model's choice (notes/assumptions/75.md). -/
def StartUp.snapshot (t : StartUp) : List Byte :=
  put4 t.position.val ++ putFlag t.valid ++ put4 t.checkWord ++ put1 t.cause.code
    ++ putFlag (t.phase == .listening) ++ put4 t.listen

/-- The GENERAL snapshot (R163). -/
def State.generalSnapshot (s : State) : List Byte :=
  let tau := s.au.tau s.tbu.basinTime
  s.tbu.snapshot ++ s.ce.snapshot ++ s.au.a.snapshot tau ++ s.au.b.snapshot tau
    ++ s.liu.snapshot s.params.linkRate ++ s.st.snapshot

/-! ## PUMPS: R76 -/

def Arrival.code : Arrival → Nat
  | .pending => 0
  | .set _ _ => 1
  | .void => 2

def Arrival.time : Arrival → Option Nat
  | .set t _ => some t
  | .pending | .void => none

def Arrival.height : Arrival → Option Nat
  | .set _ h => some h
  | .pending | .void => none

/-- One pump's fields (R76). -/
def Pump.snapshot (pp : PumpParams) (p : Pump) : List Byte :=
  putFlag pp.present
    ++ put1 p.state.code ++ put1 (p.lockFeedback.toNat + 2 * p.lockDry.toNat) ++ putFlag p.lockPending
    ++ put4 p.height ++ put4 p.requested ++ put4 p.committed ++ put4 p.actual
    ++ put4 (heightAt pp p.actual)
    ++ put4 p.softCount ++ put4 p.runCount ++ put4 p.restCount ++ put4 p.absence
    ++ put1 p.arrival.code ++ putOpt put6 p.arrival.time ++ putOpt put4 p.arrival.height

/-- Whether the holder's claim is queued (0) or in transmission (1); none when its frame has gone out. -/
def State.claimStage (s : State) : Option Nat :=
  s.hu.claimHolder.bind fun _ => s.liu.claim.map fun _ => s.liu.claimBegun.toNat

/-- The PUMPS snapshot (R76). -/
def State.pumpsSnapshot (s : State) : List Byte :=
  (allChannels.flatMap fun n => (s.hu.pump n).snapshot s.params.pumps[n])
    ++ put4 s.hu.demand ++ put4 s.hu.total ++ put4 s.hu.share ++ put4 (s.hu.startAllowance s.params)
    ++ put4 (s.hu.committedDraw s.params) ++ put4 s.hu.scale
    ++ putOpt put4 (s.hu.claimHolder.map (·.val)) ++ putOpt put1 s.claimStage
    ++ put4 (msOf s.hu.spacing)

/-! ## FIXTURES: R91 -/

/-- One channel's fields (R91). -/
def LightChannel.snapshot (c : LightChannel) : List Byte :=
  put4 c.level ++ put4 c.target ++ put4 c.start ++ put4 c.fade ++ put4 c.elapsed ++ put4 c.output

/-- The channels a follow entry covers, one bit each. -/
def FollowEntry.mask (e : FollowEntry) : Nat :=
  e.targets[0].isSome.toNat + 2 * e.targets[1].isSome.toNat + 4 * e.targets[2].isSome.toNat
    + 8 * e.targets[3].isSome.toNat

/-- A fixture's follow entry (R91). Its channels covered with their targets are one byte with a bit for each channel covered,
then the four channels' targets, each with a presence byte: the model's choice (notes/assumptions/20.md). -/
def followSnapshot (e : Option FollowEntry) : List Byte :=
  putOpt put1 (e.map (·.mask))
    ++ putOpt put4 (e.bind fun x => x.targets[0]) ++ putOpt put4 (e.bind fun x => x.targets[1])
    ++ putOpt put4 (e.bind fun x => x.targets[2]) ++ putOpt put4 (e.bind fun x => x.targets[3])
    ++ putOpt put4 (e.map (·.fade)) ++ putOpt put4 (e.map (·.jet)) ++ putOpt put6 (e.map (·.limit))

/-- One fixture's fields (R91). The cover state is COVERED 0 and EXPOSED 1, in the order in which R77 names the two
(notes/assumptions/20.md). -/
def Lu.fixtureSnapshot (P : Params) (l : Lu) (f : Fin 12) : List Byte :=
  let fx := P.fixtures[f]
  putFlag fx.present ++ putFlag fx.submerged
    ++ put4 fx.cover ++ put4 fx.floor ++ put4 fx.trim ++ put4 fx.halt
    ++ put4 l.trimFactor[f] ++ putFlag l.exposed[f]
    ++ (((l.channels.toList.drop (4 * f.val)).take 4).flatMap LightChannel.snapshot)
    ++ followSnapshot l.follow[f]

/-- The fixtures in ascending order. -/
def allFixtures : List (Fin 12) := [0, 1, 2, 3, 4, 5, 6, 7, 8, 9, 10, 11]

/-- The FIXTURES snapshot (R91). -/
def State.fixturesSnapshot (s : State) : List Byte :=
  (allFixtures.flatMap fun f => s.lu.fixtureSnapshot s.params f) ++ put4 s.lu.level

/-! ## PEERS: R176 -/

/-- The place of a peer record's state: ABSENT, FRESH, SILENT. -/
def peerStateCode (p : Option Peer) : Nat :=
  match p with
  | none => 0
  | some x => if x.fresh then 1 else 2

/-- One peer record's fields (R176). -/
def peerSnapshot (p : Option Peer) : List Byte :=
  let sample := p.bind (·.sample)
  put1 (peerStateCode p)
    ++ putOpt put4 (p.map (·.age)) ++ putOpt put1 (p.map (·.role))
    ++ putOpt put6 (p.map (·.stamp)) ++ putOpt put6 (p.map (·.arrival))
    ++ putOpt (fun _ => putInt (sample.getD 0)) (sample.map fun _ => 0)
    ++ putOpt put1 (p.map (·.state)) ++ putOpt put4 (p.map (·.showId)) ++ putOpt put4 (p.map (·.index))
    ++ putOpt put4 (p.map (·.demand)) ++ putOpt put4 (p.map (·.share))
    ++ putOpt put4 (p.bind (·.wind)) ++ putOpt put4 (p.bind (·.level))
    ++ [0, 1, 2, 3, 4].flatMap fun i => putOpt put1 (p.map fun x => (x.flags.getLsbD i).toNat)

/-- The PEERS snapshot (R176). -/
def State.peersSnapshot (s : State) : List Byte :=
  let others := s.pt.peers.toList.eraseIdx s.own.val
  let count (g : Peer → Bool) : Nat := (others.filter fun p => p.any g).length
  others.flatMap peerSnapshot
    ++ put4 (count (·.fresh)) ++ put4 (count fun p => !p.fresh) ++ put4 s.pt.freshSamples.length
    ++ put4 s.pt.demand
    ++ put4 s.biu.wind ++ putFlag s.biu.windValid ++ put4 s.biu.level ++ putFlag s.biu.levelValid
    ++ put4 s.pt.wind ++ putOpt put4 s.pt.windSource ++ put4 s.pt.level ++ putOpt put4 s.pt.levelSource

/-! ## MEMORY: R112, R136, R150 -/

/-- The audio cache's fields (R112). -/
def Au.cacheSnapshot (a : Au) : List Byte :=
  (a.slots.toList.flatMap fun x =>
      put1 x.state.code ++ putOpt put4 (x.tag.map (·.1)) ++ putOpt put4 (x.tag.map (·.2)))
    ++ putOpt put4 (a.fill.map (·.segment)) ++ putOpt put4 (a.fill.map (·.block))
    ++ putOpt put4 (a.fill.bind fun f => f.slot.map (·.val))

/-- The number of a segment's page table entries in a state other than ABSENT. -/
def Cm.pagesIn (c : Cm) (g : Nat) (st : PageState) : Nat :=
  (c.pages.filter fun e => e.1 / 64 == g && e.2.state == st).length

/-- One DEFINED segment's fields (R136). Its unused pages are pages with ABSENT entries (R113). -/
def Cm.segmentSnapshot (c : Cm) (g : Nat) (e : DirEntry) : List Byte :=
  let held := c.pagesIn g .filling + c.pagesIn g .present + c.pagesIn g .unavailable
  put1 g ++ put4 e.showId ++ put1 e.kind.code ++ put4 e.length
    ++ putOpt put4 (if e.kind = .cue then some e.owner else none)
    ++ put4 (64 - held) ++ put4 (c.pagesIn g .filling) ++ put4 (c.pagesIn g .present)
    ++ put4 (c.pagesIn g .unavailable)

/-- One fill record's fields and its received count (R136). -/
def Fill.snapshot (f : Fill) : List Byte :=
  put4 f.segment ++ put4 f.page ++ put4 f.phys ++ beBytes 32 f.received.toNat ++ putFlag f.fetch
    ++ put4 f.attempts ++ putFlag f.owed ++ putFlag f.queued ++ put6 f.last ++ put4 (popCount f.received 256)

/-- One serve record's fields (R136); a next read of 256 is "done". -/
def Serve.snapshot (r : Serve) : List Byte :=
  let ids := put4 r.segment ++ put4 r.page ++ put4 r.requester
  match r.stage with
  | .delay left => put1 0 ++ ids ++ putOpt put4 (some (msOf left)) ++ putOpt put4 none ++ putOpt put1 none
  | .sending _ next flight =>
    put1 1 ++ ids ++ putOpt put4 none ++ putOpt put4 (some next) ++ putOpt put1 (some flight.toNat)

/-- The content map's fields (R136). -/
def Cm.snapshot (c : Cm) : List Byte :=
  put4 c.showId ++ put4 c.freeCount ++ putOpt put4 c.lowestFree
    ++ putList (c.dir.map fun e => c.segmentSnapshot e.1 e.2)
    ++ putList (c.cache.map fun e =>
      put4 e.segment ++ put4 e.page ++ put4 e.phys ++ put1 e.kind.code ++ putFlag e.house)
    ++ putList (c.fills.map Fill.snapshot)
    ++ putList (c.serves.map Serve.snapshot)
    ++ put4 c.intake.length ++ put4 c.tableWrites ++ putFlag c.storeFull

/-- A bank's fields (R150). -/
def Bank.snapshot (clock : Nat) (b : Bank) : List Byte :=
  put1 b.state.code ++ putOpt put4 (if b.state = .open ∨ b.state = .activating then b.row else none)
    ++ putOpt put4 (b.lastActivate.map fun t => min 65535 (clock - t))

/-- A request slot's fields (R150). -/
def requestSnapshot (r : Option Request) : List Byte :=
  putFlag r.isSome ++ putOpt put1 (r.map (·.kind.code)) ++ putOpt put4 (r.map (·.bank.val))
    ++ putOpt put4 (r.map (·.row)) ++ putOpt put4 (r.map (·.done)) ++ putOpt put4 (r.map (·.kind.bursts))

/-- The class holding the port; 5 for a refresh. A start-up step shows as an idle port (notes/assumptions/20.md). -/
def Port.code (p : Port) : Nat :=
  match p.op with
  | .burst c => c.code
  | .refresh _ => 5

/-- The show memory controller's fields (R150). -/
def Smc.snapshot (m : Smc) : List Byte :=
  put1 m.ctl.code ++ (m.banks.toList.flatMap (Bank.snapshot m.clock)) ++ put4 m.debt ++ put4 m.forced
    ++ put4 m.opportunistic
    ++ requestSnapshot m.audio ++ requestSnapshot m.walk ++ requestSnapshot m.cue ++ requestSnapshot m.content
    ++ requestSnapshot m.serve[0]? ++ requestSnapshot m.serve[1]?
    ++ putOpt put1 (m.port.map Port.code)

/-- The MEMORY snapshot (R163). -/
def State.memorySnapshot (s : State) : List Byte := s.au.cacheSnapshot ++ s.cm.snapshot ++ s.smc.snapshot

/-! ## FAULTS: R189 -/

/-- A fault detail: its form, then two bytes (R199). -/
def detailSnapshot (d : Option FaultDetail) : List Byte :=
  match d with
  | none => [0, 0, 0]
  | some (.channel n) => put1 1 ++ put1 n ++ [0]
  | some (.segment n) => put1 2 ++ put1 n ++ [0]
  | some (.page g q) => put1 3 ++ put1 g ++ put1 q
  | some (.showNo n) => put1 4 ++ put1 n ++ [0]

/-- The FAULTS snapshot (R189). -/
def State.faultsSnapshot (s : State) : List Byte :=
  let b := s.biu
  putList (b.faults.map fun r => put1 r.kind.code ++ put6 r.first ++ put4 r.count ++ detailSnapshot r.detail)
    ++ put4 b.loopMean ++ put4 b.level ++ putFlag b.levelValid ++ put4 b.levelCount
    ++ put4 b.pulses ++ put4 b.windWindow.length ++ put4 b.wind ++ putFlag b.windValid
    ++ put4 b.effWind ++ put4 b.effLevel ++ put1 b.windState.code ++ put4 b.quiet ++ put1 b.levelState.code
    ++ putFlag b.stopActive
    ++ putList ((allChannels.filter fun n => s.params.pumps[n].present).map fun n =>
      put1 n.val ++ putFlag b.feedback[n])

/-! ## Replies (R163) -/

/-- A STATUS_QUERY of selector `sel` accepted with its target and tag: a reply composed as one snapshot and queued,
unless another position is its target, a conflict is recorded, or the REPLY queue holds 4. -/
def State.answerQuery (s : State) (target tag : Byte) (sel : Nat) (snapshot : State → List Byte) : State :=
  if target.toNat ≠ s.own.val ∨ s.liu.conflict ∨ 4 ≤ s.liu.replies.length then s
  else
    s.onLiu fun l =>
      { l with replies := l.replies ++ [{ tag := tag, selector := sel, snapshot := snapshot s, next := 0 }] }

end Sys2Proof.Machine
end

