-- ==== Sys2Proof/Machine/Boundary.lean ====
section
/-!
DEFINITION. The marked boundary: readings, correction, the transitions of the show state, the beacon, and the passes of
the blocks in their order (spec/01, R1 to R19; spec/11, R193), and the tick of the local oscillator (R1, R102).
-/
namespace Sys2Proof.Machine

/-! ## Basin time and its correction (R4 to R7) -/

/-- The median of own 0 and the FRESH samples (R4). -/
def State.median (s : State) : Int := (lowerMedian (0 :: s.pt.freshSamples)).getD 0

/-- The correction of a median in the show state held at the boundary (R5). -/
def correctionFor (P : Params) (st : ShowState) (m : Int) : Int := if st.bearing then clampInt P.slew m else m

/-- OUT_OF_STEP after the evaluation of R7. -/
def outOfStepAfter (st : ShowState) (m : Int) (held : Bool) : Bool :=
  if st.bearing then
    if 960 < m.natAbs then true else if m.natAbs ≤ 480 then false else held
  else false

/-- The correction applied: a step below 0 sets basin time to 0 (R5). -/
def appliedCorrection (basin : Nat) (c : Int) : Int := if (basin : Int) + c < 0 then -(basin : Int) else c

/-- Basin time after a correction. -/
def correctedTime (basin : Nat) (c : Int) : Nat := ((basin : Int) + appliedCorrection basin c).toNat % basinRange

/-- The timebase unit after a correction at the boundary of frame `k` (R5). -/
def Tbu.correct (k : Nat) (c : Int) (t : Tbu) : Tbu :=
  let a := appliedCorrection t.basinTime c
  let b := correctedTime t.basinTime c
  { t with basinTime := b, lastCorrection := a, shift := a, frameNo := if -960 < a ∧ a < 960 then k else b / 960 }

/-- A correction applied at the boundary of frame `k`: basin time, the stored samples and the stamp of a reception in
progress move together (R5, R6). -/
def State.correct (s : State) (k : Nat) (c : Int) : State :=
  let a := appliedCorrection s.tbu.basinTime c
  ((s.onTbu (Tbu.correct k c)).onPt (Pt.reduceSamples a)).onLiu fun l => { l with rxStamp := l.rxStamp.map (· + a) }

/-- The work of an own beacon boundary before the transitions (R2, R168): ageing, and when the station is up the
median, OUT_OF_STEP and the correction. The order of ageing and median is R169's first outcome of choice
(notes/assumptions/11.md). -/
def State.beaconBoundary (s : State) (k : Nat) : State :=
  if !s.ownBeaconFrame k then s
  else
    let st := s.tbu.state
    let s := s.agePeers
    if s.st.phase = .up then
      let m := s.median
      (s.onTbu fun t => { t with lastMedian := m, outOfStep := outOfStepAfter st m t.outOfStep }).correct k
        (correctionFor s.params st m)
    else s.onTbu fun t => { t with outOfStep := outOfStepAfter st 0 t.outOfStep }

/-- The correction applied at the boundary of frame `k`, 0 where none is (R1). `before` is the state as the boundary
was reached and `after` the state its beacon work left. -/
def correctionAt (before after : State) (k : Nat) : Int :=
  if before.ownBeaconFrame k ∧ before.st.phase = .up then after.tbu.lastCorrection else 0

/-- Work done at a boundary whose basin time, read before any correction applied there, is `bt` (R1). -/
def State.atReading (bt : Nat) (f : State → State) (s : State) : State :=
  (f (s.onTbu fun t => { t with basinTime := bt })).onTbu fun t => { t with basinTime := s.tbu.basinTime }

/-! ## The beacon (R2, R197) -/

/-- The beacon's flags. -/
def State.beaconFlags (s : State) : Nat :=
  s.tbu.outOfStep.toNat + 2 * s.faultPresent.toNat + 4 * s.biu.stopActive.toNat + 8 * s.cm.storeFull.toNat
    + 16 * s.liu.mutedSince.toNat + 32 * s.biu.windValid.toNat + 64 * s.biu.levelValid.toNat

/-- The beacon composed from the fields as they stand (R2). Its stamp is written at its start delimiter (R160). -/
def State.composeBeacon (s : State) : BeaconFields :=
  { stamp := 0, role := 0
    state := BitVec.ofNat 8 s.tbu.state.code
    showId := BitVec.ofNat 8 s.cm.showId
    index := BitVec.ofNat 16 (if s.tbu.state.bearing then min 65535 s.ce.index else 0)
    demand := BitVec.ofNat 32 s.hu.demand
    share := BitVec.ofNat 32 s.hu.share
    wind := BitVec.ofNat 16 (s.ownWind.getD 0)
    level := BitVec.ofNat 16 (s.ownLevel.getD 0)
    flags := BitVec.ofNat 8 s.beaconFlags }

/-- At an own beacon boundary of a station that is up a beacon takes the BEACON slot (R2, R154). -/
def State.placeBeacon (s : State) (k : Nat) (up : Bool) : State :=
  if up && s.ownBeaconFrame k then s.onLiu fun l => { l with beacon := some s.composeBeacon } else s

/-! ## Transitions -/

/-- The stop input active at a boundary: the report and the offer are repeated (R183). -/
def State.stopRepeat (s : State) : State :=
  if s.biu.stopActive then s.haltRequest.onLiu Liu.offerStop else s

/-- The step at the end of the listen (R9): the lower median of the stored samples, or 0 when there is none after
power-on. The step is whole also in a show-bearing state, which WAKE and GO can lead to within the listen, though R5
bounds a correction there by the slew: the model's choice (notes/assumptions/40.md). Where basin time is set to 0 the stamp
of a reception in progress moves with it, as R6 and R160 give for a correction, so that it is the one that a reception
without a recorded start comes to: the model's choice (notes/assumptions/12.md). -/
def State.listenStep (s : State) (k : Nat) : State :=
  match lowerMedian s.pt.storedSamples with
  | some m => s.correct k m
  | none =>
    if s.st.cold then
      (s.onTbu fun t => { t with basinTime := 0, frameNo := 0 }).onLiu fun l =>
        { l with rxStamp := l.rxStamp.map (· - s.tbu.basinTime) }
    else s

/-- The 15th marked boundary of a listen (R193). -/
def State.endListen (s : State) (k : Nat) : State :=
  let s := ((s.listenStep k).atReading (k * 960) State.endOfListenReadings).onSt fun t => { t with phase := .up }
  if s.params.autoWake && s.wakeable then s.enterWarmup else s

/-- A boundary marked in the listen (R9). The count stays at 15 after the listen: the model's choice
(notes/assumptions/75.md). -/
def State.countListen (s : State) (k : Nat) : State :=
  if s.st.phase = .listening then
    let s' := s.onSt fun t => { t with listen := t.listen + 1 }
    if 15 ≤ s'.st.listen then s'.endListen k else s'
  else s

/-- The correction handed on by the end of a listen: its step, when a sample gave one. -/
def listenCorrection (before after : State) : Int :=
  if before.st.phase = .listening ∧ after.st.phase = .up ∧ !before.pt.storedSamples.isEmpty then
    after.tbu.lastCorrection
  else 0

/-- A boundary counted in WARMUP; at the 8th the station goes to IDLE (R12). -/
def State.countWarmup (s : State) : State :=
  if s.tbu.state = .warmup then
    if 8 ≤ s.tbu.warmup + 1 then s.onTbu fun t => { t with state := .idle, warmup := 0 }
    else s.onTbu fun t => { t with warmup := t.warmup + 1 }
  else s

/-- The pending hold takes effect at a boundary of basin time `bt` (R16). -/
def State.takeHold (s : State) (bt : Nat) : State :=
  if s.tbu.state = .running ∧ s.tbu.hold.th.any (fun th => decide (th ≤ bt)) then
    (s.onTbu fun t => { t with state := .held, hold := { t.hold with boundary := some bt } }).cueHold
  else s

/-- The pending resume takes effect at a boundary of basin time `bt` (R17, R45): the segment base, the pending
dispatch times and the re-arm end move by Δ, and an END action then due takes effect (R34). A resume boundary below the hold
boundary, which a whole step back at the end of a listen can bring, moves nothing: the model's choice
(notes/assumptions/71.md). -/
def State.takeResume (s : State) (bt : Nat) : State :=
  if s.tbu.state = .held ∧ s.tbu.hold.tr.any (fun tr => decide (tr ≤ bt)) then
    let d := bt - s.tbu.hold.boundary.getD bt
    ((s.onTbu fun t => { t with state := .running, segBase := t.segBase.map (· + d), hold := {} }).cueResume d).takeEnd
      bt
  else s

/-- ENDING evaluated (R19). -/
def State.checkEnding (s : State) : State :=
  if s.tbu.state = .ending ∧ s.endingDone then s.endingToIdle else s

/-- The transitions of a boundary of frame `k` and basin time `bt` (R10 to R20, R193), `st` the show state held when it
was reached. Basin time may reach T0 or an END action's time before or through the correction (R15, R34). -/
def State.transitions (s : State) (k bt : Nat) (st : ShowState) : State :=
  let s := s.stopRepeat
  let s := if st = .warmup then s.countWarmup else s
  let s := s.countListen k
  let now := max bt s.tbu.basinTime
  let s := (s.takeT0 now).takeEnd now
  let s := if st = .held then s.takeResume bt else s.takeHold bt
  if st = .ending then s.checkEnding else s

/-! ## The boundary (R1) -/

/-- The frame whose boundary is the next to be marked. -/
def State.nextFrame (s : State) : Nat := s.tbu.frameNo + 1

/-- Basin time has reached the boundary of the next frame (R1). -/
def State.boundaryDue (s : State) : Bool := s.powered && decide (s.nextFrame * 960 ≤ s.tbu.basinTime)

/-- The boundary is marked: the frame number, and the count of R21. -/
def State.beginBoundary (s : State) (k : Nat) : State :=
  s.onTbu fun t =>
    { t with frameNo := k, lastStop := t.lastStop.map fun x => { x with boundaries := x.boundaries + 1 } }

/-- The basin input unit's work at the boundary, each change handed through the peer table (R177, R178, R181). -/
def State.inputsBoundary (s : State) (i : BoundaryInput) : State :=
  (s.sampleReadings i).onBiu (Biu.stepQuiet s.params)

/-- The slates of frame `k` are handed over, and emptied (R41). -/
def State.takeSlate (s : State) (k : Nat) : State := s.onCe fun c => c.setSlate k {}

/-- The passes of the blocks at the boundary of frame `k`, handed with the state `handed` and the correction `c`. The page
requests that lookups of the boundary came to owe take their places at its end (R128). -/
def State.passes (s : State) (k bt : Nat) (c : Int) (handed : ShowState) (entered resumed : Bool) : State :=
  let s := (s.onLiu Liu.boundary).cueBoundary k handed
  let x := s.ce.slate k
  let s := (s.takeSlate k).huPass bt handed x.jets
  let s := s.onLu (Lu.pass s.params s.hu s.pt.level k handed entered resumed x.lights)
  (s.auPass bt k c handed entered resumed x.voices).queueRequests

/-- The boundary of frame `k` in a station whose blocks run. The order of what falls together is named in
notes/assumptions/11.md. The passes come after the transitions, so that a stop fade that begins with a transition of the
boundary takes its first step in that boundary's pass: the model's choice (notes/assumptions/67.md). -/
def State.runBoundary (s : State) (k : Nat) (i : BoundaryInput) : State :=
  let st := s.tbu.state
  let bt := k * 960
  let s0 := (s.beginBoundary k).inputsBoundary i
  let s1 := s0.beaconBoundary k
  let s2 := s1.transitions k bt st
  let c := if s0.st.phase = .up then correctionAt s0 s1 k else listenCorrection s1 s2
  let handed := s2.tbu.state
  let s3 := s2.placeBeacon k (s0.st.phase == .up)
  s3.atReading bt fun s => s.passes k bt c handed (handed == .held && st != .held) (handed == .running && st == .held)

/-- The next boundary is marked, if basin time has reached it (R1). While the station holds at a reset point or reads
its configuration, boundaries are marked and nothing more (R192, R194). -/
def State.markBoundary (s : State) (i : BoundaryInput) : State :=
  if !s.boundaryDue then s
  else if s.live then s.runBoundary s.nextFrame i
  else s.beginBoundary s.nextFrame

/-! ## The tick (R1, R102) -/

/-- The underruns of a tick of audio time `tau` counted, voice A's first (R98). -/
def State.countUnderruns (s : State) (tau : Nat) : State :=
  let count (s : State) (d : Option FaultDetail) : State :=
    match d with
    | some d => s.raise .audioUnderrun (some d)
    | none => s
  count (count s (s.au.newUnderrun tau s.au.a)) (s.au.newUnderrun tau s.au.b)

/-- The timers that count the local oscillator (R69, R128, R130). -/
def Fill.tick (f : Fill) : Fill := { f with timer := f.timer.map (· - 1) }

/-- A serve delay one tick on. -/
def Serve.tick (r : Serve) : Serve :=
  match r.stage with
  | .delay n => { r with stage := .delay (n - 1) }
  | .sending .. => r

/-- The output pair of the current tick; 0 until the configuration has been read (R102). -/
def State.pairNow (s : State) : Int × Int :=
  if s.st.configured then
    s.au.mix s.tbu.outOfStep (s.tbu.state == .held) (s.au.tau s.tbu.basinTime)
  else (0, 0)

/-- One tick of the local oscillator: the pair of the current tick presented (R102), and basin time and every timer one
tick on. -/
def State.oscTick (s : State) : State :=
  if !s.powered then s
  else
    let tau := s.au.tau s.tbu.basinTime
    let out := s.pairNow
    let n := s.st.oscTicks + 1
    ((((((s.countUnderruns tau).onAu fun a => a.tick tau out).onTbu fun t =>
      { t with basinTime := (t.basinTime + 1) % basinRange, shift := 0 }).onHu fun h => { h with spacing := h.spacing - 1 }).onCm
        fun c => { c with fills := c.fills.map Fill.tick, serves := c.serves.map Serve.tick }).onSmc
          fun m => m.tick n).onSt fun t => { t with oscTicks := n }

end Sys2Proof.Machine
end

