-- ==== Sys2Proof/Machine/StartUp.lean ====
section
/-!
DEFINITION. The configuration record (spec/11, R191, R201, with the clamps of R8, R49, R50, R78, R103, R134, R151 and
R179), power-on, reset points and the values the blocks take when the record has been read (R192, R194).
-/
namespace Sys2Proof.Machine

/-! ## The record -/

/-- The number in `n` bytes of the record from byte `i`. -/
def field (r : List Byte) (i n : Nat) : Nat := beNat ((r.drop i).take n)

/-- Bits `lo .. lo + w - 1` of a number. -/
def bitsOf (x lo w : Nat) : Nat := x / 2 ^ lo % 2 ^ w

/-- The sum of the record's two-byte words (R191). -/
def wordSum (r : List Byte) : Nat := sumBy (fun i => recWord r (2 * i)) (List.range 128)

/-- The record as read is valid (R191). -/
def recordValid (r : List Byte) : Bool :=
  r.length == 256 && recByte r 0 == 1 && wordSum r % 65536 == 65535

/-- Pump `n`'s parameters (R201), clamped as R50 gives. -/
def pumpOf (r : List Byte) (n : Nat) : PumpParams :=
  let a := 46 + 17 * n
  let hl := field r (a + 4) 3
  let mr := field r (a + 7) 3
  let d := field r (a + 12) 5
  { present := (recByte r 3).testBit n
    prated := field r a 2
    allowance := field r (a + 2) 2
    hmax := clamp 100 4095 (bitsOf hl 12 12)
    latency := min 2000 (bitsOf hl 0 12)
    minRun := min 600 (bitsOf mr 12 12)
    rest := min 600 (bitsOf mr 0 12)
    soft := clamp 1 500 (field r (a + 10) 2)
    dmin := min 4096 (bitsOf d 26 13)
    rampUp := clamp 1 4096 (bitsOf d 13 13)
    rampDown := clamp 1 4096 (bitsOf d 0 13) }

/-- Fixture `f`'s parameters (R201), clamped as R78 gives. -/
def fixtureOf (r : List Byte) (f : Nat) : FixtureParams :=
  let a := 182 + 6 * f
  let cf := field r a 3
  let t := field r (a + 3) 2
  { present := t.testBit 15
    submerged := t.testBit 14
    cover := min 4095 (bitsOf cf 12 12)
    floor := min 4095 (bitsOf cf 0 12)
    trim := min 400 (bitsOf t 0 9)
    halt := recByte r (a + 5) }

/-- The parameters of a valid record (R201), each clamped by the rule that owns it. -/
def paramsOf (r : List Byte) : Params :=
  let dry := min 4095 (field r 34 2)
  { autoWake := (recByte r 1).testBit 0
    levelFitted := (recByte r 1).testBit 1
    windFitted := (recByte r 1).testBit 2
    linkRate := if recByte r 2 = 1 then .r1M else .r500k
    linkDelay := min 480 (field r 4 2)
    slew := min 48 (recByte r 6)
    endFade := min 500 (field r 7 2)
    horizon := clamp 1 10 (recByte r 9)
    ringIndex := min 31 (recByte r 10)
    feedLimit := min 4000000 (field r 11 4)
    spacing := min 10000 (field r 15 2)
    w0 := field r 17 2
    slope := min 100 (recByte r 19)
    hcut := min 4095 (field r 20 2)
    wcut := field r 22 2
    windHyst := field r 24 2
    fallbackWind := field r 26 2
    windFactor := field r 28 2
    levelZero := min 4095 (field r 30 2)
    levelSpan := min 4095 (field r 32 2)
    dryRun := dry
    reArm := max dry (min 4095 (field r 36 2))
    masterTrim := min 400 (field r 38 2)
    lookAhead := min 24 (recByte r 40)
    fetchTimeout := clamp 200 5000 (field r 41 2)
    serveStep := min 20 (recByte r 43)
    pumps := Vector.ofFn (fun n : Fin 8 => pumpOf r n.val)
    fixtures := Vector.ofFn (fun f : Fin 12 => fixtureOf r f.val) }

/-- The parameters in service: those of a valid record, and otherwise the defaults, the ring index that of the strap
(R191, spec/02). -/
def paramsTaken (r : List Byte) (own : Position) : Params :=
  if recordValid r then paramsOf r else { ringIndex := own.val }

/-! ## Power-on and reset points -/

/-- Power-on (R192): everything begins from nothing; the filters start from the levels held. -/
def State.powerUp (s : State) (strap : Position) (stopOpen : Bool) (contacts : BitVec 8) : State :=
  { State.reset with
    biu := { State.reset.biu with
      stopActive := stopOpen, feedback := Vector.ofFn (fun n : Channel => contacts.getLsbD n.val) }
    st := { State.reset.st with phase := .reading, position := strap }
    pending := s.pending }

/-- What stands with the memory controller for the content map at a reset point completes without effect (R149, R135): a
chunk write, walks, and the reads of serve records, which are dropped. Table writes complete in order. -/
def Cm.abandonAccesses (c : Cm) : Cm :=
  { c with
    chunk := none
    serves := []
    mapQ := c.mapQ.map fun e =>
      match e with
      | .walk w => .walk { w with askers := [], stale := true }
      | .write w => .write w }

/-- The outputs and the line at a reset point (R194), the show given up (R46), and what is in flight left without effect
(R149, R111). -/
def State.quiesce (s : State) : State :=
  (((((s.onHu fun h => h.mapPumps fun _ p => { p with actual := 0 }).onLu
    (Lu.mapChannels · fun _ _ c => { c with output := 0 })).onAu fun a =>
      { a.onVoices Voice.silence with fill := none }).onLiu fun l =>
        { l.abandonLine with contentQ := [] }).onCm Cm.abandonAccesses).onCe Ce.giveUp

/-- A reset point (R194, R195). -/
def State.resetPoint (s : State) (cause : ResetCause) (next : Phase) : State :=
  s.quiesce.onSt fun t => { t with phase := next, cold := false, cause := cause, listen := 0 }

/-! ## The end of the configuration read (R192, R194) -/

/-- The timebase unit after a reset (R9). -/
def Tbu.afterReset (cold : Bool) (t : Tbu) : Tbu :=
  { basinTime := t.basinTime, frameNo := if cold then t.frameNo else t.basinTime / 960 }

/-- The cue engine after a reset (R47). A cue read that stands with the memory controller completes without effect. -/
def Ce.afterReset (c : Ce) : Ce :=
  { fetch := (c.fetch.filter fun f => f.stage == .read).map fun f => { f with live := false } }

/-- The content map after a reset (R135). -/
def Cm.afterReset (cold : Bool) (c : Cm) : Cm := if cold then { nextId := c.nextId } else c.afterWarm

/-- Every block takes its reset values under the parameters `P` (R192, R194). -/
def State.takeResetValues (s : State) (P : Params) (valid : Bool) (check : Nat) : State :=
  let cold := s.st.cold
  { s with
    tbu := s.tbu.afterReset cold
    ce := s.ce.afterReset
    hu := Hu.afterReset P cold
    lu := Lu.afterReset P 0
    au := s.au.afterReset P
    cm := s.cm.afterReset cold
    liu := {}
    pt := Pt.afterReset P
    biu := s.biu.afterReset P
    st := { s.st with
      params := P, valid := valid, checkWord := check, listen := 0, configured := true,
      phase := if s.smc.ctl = .ready then .listening else .memory } }

/-- The configuration memory has answered `r` (R191): the record is judged, the blocks take their reset values, the
level state is evaluated (R188), the map region's work goes on (R135), and an invalid record is raised. Bytes of the check
word that the memory has not given are read as 0: the model's choice (notes/assumptions/70.md). -/
def State.takeConfig (s : State) (r : List Byte) : State :=
  let valid := recordValid r
  let s := ((s.takeResetValues (paramsTaken r s.own) valid (recWord r 254)).evalLevel 0).issueMap
  let s := if s.st.phase = .listening then s.initMap else s
  if valid then s else s.raise .configInvalid

end Sys2Proof.Machine
end

