-- ==== Sys2Proof/Machine/Boundaries.lean ====
section
/-!
DEFINITION. The commands that a marked boundary brings about (spec/01, spec/03, spec/08, spec/10, spec/11). Each names what
comes about at the boundary: when the state is one at whose next boundary it does, the boundary is marked whole (R1);
otherwise the event has not come about, and nothing changes (notes/assumptions/5.md).
-/
namespace Sys2Proof.Machine

/-- What a command's meaning answers. -/
abbrev Answered := Host.Outcome State Fault Refusal

/-- The basin time of the next boundary. -/
def State.nextBoundary (s : State) : Nat := s.nextFrame * 960

/-- The boundary is marked when the event named comes about at it. -/
def State.markWhen (s : State) (due : Bool) (i : BoundaryInput) : State :=
  if s.live && due then s.markBoundary i else s

/-- The boundary is marked when present pump `p` goes at it from one of the states `before` to one that `after` takes: an
event that the boundary's own work can bring about whole. -/
def State.markAsPumpGoes (s : State) (p : Channel) (before : List PumpState) (after : Pump → Bool) (i : BoundaryInput) :
    State :=
  let t := s.markBoundary i
  if s.live && s.params.pumps[p].present && before.contains (s.hu.pump p).state && after (t.hu.pump p) then t else s

/-- The pump has come from STOPPING at this boundary: RESTING, or LOCKED with cause DRY (R65). -/
def Pump.stopped (p : Pump) : Bool := p.state == .resting || (p.state == .locked && p.lockDry)

/-- FRAME_BOUNDARY (R1). -/
def execFrameBoundary (i : BoundaryInput) (s : State) : Answered := .next (s.markBoundary i)

/-- LISTEN_END (R193): the 15th marked boundary of a listen. -/
def execListenEnd (i : BoundaryInput) (s : State) : Answered :=
  .next (s.markWhen (s.st.phase == .listening && s.st.listen == 14) i)

/-- WARMUP_END (R12): the 8th boundary counted in WARMUP. -/
def execWarmupEnd (i : BoundaryInput) (s : State) : Answered :=
  .next (s.markWhen (s.tbu.state == .warmup && s.tbu.warmup == 7 && !s.biu.stopActive) i)

/-- ENTER_HELD (R16): the first boundary at or after Th. -/
def execEnterHeld (i : BoundaryInput) (s : State) : Answered :=
  .next (s.markWhen (s.tbu.state == .running && s.tbu.hold.th.any (fun t => decide (t ≤ s.nextBoundary))
    && !s.ce.endDue s.nextBoundary && !s.biu.stopActive) i)

/-- RESUME_BOUNDARY (R17): the first boundary at or after Tr. -/
def execResumeBoundary (i : BoundaryInput) (s : State) : Answered :=
  .next (s.markWhen (s.tbu.state == .held && s.tbu.hold.tr.any (fun t => decide (t ≤ s.nextBoundary))
    && !s.biu.stopActive) i)

/-- ENDING_COMPLETE (R19): a boundary in ENDING at which its conditions hold. -/
def execEndingComplete (i : BoundaryInput) (s : State) : Answered :=
  .next (s.markWhen (s.tbu.state == .ending && s.endingDone && !s.biu.stopActive) i)

/-- REST_EXPIRY (R62): the boundary at which the rest count of pump `p` reaches 0, which leads it to OFF or CLAIMING; a
pump unlocked at the boundary with a rest time of 0 among them. -/
def execRestExpiry (p : Channel) (i : BoundaryInput) (s : State) : Answered :=
  .next (s.markAsPumpGoes p [.resting, .locked] (fun q => q.state == .off || q.state == .claiming) i)

/-- SOFT_START_END (R63): the boundary after the one at which the soft-start count of pump `p` has reached its
limit. -/
def execSoftStartEnd (p : Channel) (i : BoundaryInput) (s : State) : Answered :=
  .next (s.markWhen (s.params.pumps[p].present && (s.hu.pump p).state == .starting
    && decide (s.params.pumps[p].soft ≤ (s.hu.pump p).softCount)) i)

/-- MINIMUM_RUN_END (R64): the boundary at which the run count of pump `p` reaches minimum run × 50. -/
def execMinimumRunEnd (p : Channel) (i : BoundaryInput) (s : State) : Answered :=
  .next (s.markWhen (s.params.pumps[p].present && (s.hu.pump p).state == .running
    && (s.hu.pump p).runCount + 1 == s.params.pumps[p].minRun * 50) i)

/-- FEEDBACK_ABSENCE_LOCK (R70): the 25th pass in a row with the feedback of RUNNING pump `p` absent. -/
def execFeedbackAbsenceLock (p : Channel) (i : BoundaryInput) (s : State) : Answered :=
  .next (s.markWhen (s.params.pumps[p].present && (s.hu.pump p).state == .running && !s.feedbackOf p
    && (s.hu.pump p).absence == 24) i)

/-- STOPPING_DRIVE_ZERO (R65): the boundary at which the drive of STOPPING pump `p` reaches 0, a pump that enters STOPPING
in the pass of that boundary (R57, R59, R64) among them. -/
def execStoppingDriveZero (p : Channel) (i : BoundaryInput) (s : State) : Answered :=
  .next (s.markAsPumpGoes p [.stopping, .starting, .running] Pump.stopped i)

/-- MUTE_END (R157): the boundary at which the mute count reaches 0. -/
def execMuteEnd (i : BoundaryInput) (s : State) : Answered := .next (s.markWhen (s.liu.mute == 1) i)

/-- LEVEL_READING_VALID (R177): the 10th consecutive boundary with sound current. -/
def execLevelReadingValid (i : BoundaryInput) (s : State) : Answered :=
  .next (s.markWhen (s.params.levelFitted && !s.biu.levelValid && s.biu.levelCount == 9
    && decide (3600 ≤ i.loop)) i)

/-- WIND_READING_VALID (R178): the boundary at which the wind window reaches 50 counts. -/
def execWindReadingValid (i : BoundaryInput) (s : State) : Answered :=
  .next (s.markWhen (s.params.windFitted && s.biu.windWindow.length == 49) i)

/-- CUTOUT_END (R181): the boundary at which the quiet count reaches 500. -/
def execCutoutEnd (i : BoundaryInput) (s : State) : Answered :=
  .next (s.markWhen (s.biu.windState == .cutout && s.biu.quiet == 499
    && decide (s.biu.effWind < exitThreshold s.params)) i)

end Sys2Proof.Machine
end

