-- ==== Sys2Proof/Machine/ClockEvents.lean ====
section
/-!
DEFINITION. The events of basin time and of the local oscillator's timers between boundaries, and those of the audio unit
(spec/01, R15; spec/02, R34; spec/03, R69; spec/05, R95, R97, R102).
-/
namespace Sys2Proof.Machine

/-- T0_REACHED (R15). -/
def execT0Reached (s : State) : Answered := .next (if s.live then s.takeT0 s.tbu.basinTime else s)

/-- END_ACTION_DUE (R34). -/
def execEndActionDue (s : State) : Answered := .next (if s.live then s.takeEnd s.tbu.basinTime else s)

/-- SPACING_TIMER_EXPIRY (R69): the claim check of R66 with the values of the latest pass. -/
def execSpacingTimerExpiry (s : State) : Answered :=
  .next (if s.live && s.hu.spacing == 0 then s.queueClaim else s)

/-- DEFINITION_ANSWER (R95). -/
def execDefinitionAnswer (s : State) : Answered := .next (if s.live then s.answerDefinition else s)

/-- CONTENT_END (R97): content whose position has reached its sample count is marked as ended. -/
def execContentEnd (v : VoiceId) (s : State) : Answered :=
  .next (s.onAu fun a => a.onVoice v (Voice.markEnd (a.tau s.tbu.basinTime)))

/-- OUTPUT_PAIR (R102): one tick of the local oscillator. -/
def execOutputPair (s : State) : Answered := .next s.oscTick

end Sys2Proof.Machine
end

