-- ==== Sys2Proof/Machine/Received.lean ====
section
/-!
DEFINITION. What the station does with an accepted frame of each kind (spec/01, R10 to R21; spec/08, R161, R162;
spec/06, R120, R130, R131, R133).
-/
namespace Sys2Proof.Machine

/-- An accepted frame of sender position `sender`: its reception ends; own position is a position conflict and the
frame is not delivered (R161); any other is delivered (R162). Before the configuration has been read no frame is
received (R192, R194). The yield count is reset first, so that the snapshot of an accepted query carries 0: the model's
choice (notes/assumptions/57.md). -/
def State.received (s : State) (sender : Position) (deliver : State → State) : State :=
  if !s.live then s
  else
    let s := s.onLiu Liu.frameHeard
    if sender = s.own then s.positionConflict else deliver s

/-- A targeted frame is ignored when its target is another position (R10, R162). -/
def State.targeted (s : State) (target : Byte) (deliver : State → State) : State :=
  if target.toNat = s.own.val then deliver s else s

/-- A frame into the content intake; one that finds it full is discarded and counted (R120). -/
def State.intoIntake (s : State) (f : ContentFrame) : State :=
  if 4 ≤ s.cm.intake.length then s.onLiu Liu.countRxError
  else s.onCm fun c => { c with intake := c.intake ++ [f] }

/-! ## Control frames (R10 to R21) -/

/-- WAKE (R11). -/
def State.hearWake (s : State) : State := if s.wakeable then s.enterWarmup else s

/-- STANDBY (R11). -/
def State.hearStandby (s : State) : State := if s.tbu.state = .idle then s.enterStandby else s

/-- SHOW_SELECT, passed on in IDLE and STANDBY (R10). -/
def State.hearShowSelect (s : State) (showId : Byte) : State :=
  match s.tbu.state with
  | .idle | .standby => s.intoIntake (.select showId.toNat)
  | _ => s

/-- A GO that R14 takes: in IDLE, no duplicate, of the current show or the house program, and not past the late
window. -/
def State.takesGo (s : State) (showId t0 : Nat) : Bool :=
  s.tbu.state == .idle && s.tbu.lastGo != some t0 && (showId == s.cm.showId || showId == 0)
    && decide (s.tbu.frameNo ≤ t0 / 960 + 100)

/-- GO (R14). -/
def State.hearGo (s : State) (showId t0 : Nat) : State :=
  if s.takesGo showId t0 then
    (s.onTbu fun t =>
      { t with
        state := if t.frameNo < t0 / 960 then .armed else .running
        armed := some { showId := showId, t0 := t0 }
        segBase := some t0
        hold := {}
        lastGo := some t0 }).cueGo showId
  else s

/-- HOLD (R16). -/
def State.hearHold (s : State) (th : Nat) : State :=
  if s.tbu.state = .running ∧ s.tbu.lastHold ≠ some th then
    s.onTbu fun t => { t with hold := { t.hold with th := some th }, lastHold := some th }
  else s

/-- RESUME (R17). -/
def State.hearResume (s : State) (tr : Nat) : State :=
  if s.tbu.state = .held ∧ s.tbu.lastResume ≠ some tr then
    s.onTbu fun t => { t with hold := { t.hold with tr := some tr }, lastResume := some tr }
  else s

/-- STOP (R15, R18): a fade above 500 is taken as 500. -/
def State.hearStop (s : State) (fade : Nat) : State :=
  match s.tbu.state with
  | .armed => s.armedToIdle
  | .running | .held => s.enterEnding (min 500 fade)
  | _ => s

/-- STOP_ASSERT (R20). -/
def State.hearStopAssert (s : State) : State :=
  (s.onTbu fun t => { t with lastStop := some { frame := t.frameNo, boundaries := 0 } }).haltRequest

/-- A CLEAR_HALT is taken (R21). -/
def State.clearable (s : State) : Bool :=
  s.tbu.state == .halted && !s.biu.stopActive && s.tbu.lastStop.all (fun x => decide (2 ≤ x.boundaries))
    && !s.tbu.conflict

/-- CLEAR_HALT (R21). -/
def State.hearClearHalt (s : State) : State := if s.clearable then s.haltedToIdle else s

/-- TRIGGER, passed on in RUNNING (R10). -/
def State.hearTrigger (s : State) (number press : Nat) : State :=
  if s.tbu.state = .running then s.cueTrigger number press else s

/-! ## Page requests and page data (R130, R131, R133) -/

/-- The distance of two positions. -/
def distance (p q : Position) : Nat := (p.val - q.val) + (q.val - p.val)

/-- A PAGE_REQUEST that R130 serves. -/
def State.serves (s : State) (showId g q : Nat) : Bool :=
  decide (g ≤ 127) && decide (q ≤ 63) && s.cm.showMatches showId g && (s.cm.entry g).isSome
    && s.cm.pageState g q == .present && !(s.cm.serves.any fun r => r.segment == g && r.page == q)
    && decide (s.cm.serves.length < 2) && !s.liu.conflict

/-- PAGE_REQUEST (R130): a serve record in DELAY. -/
def State.hearPageRequest (s : State) (sender : Position) (showId g q : Nat) : State :=
  if s.serves showId g q then
    let delay := (distance s.own sender * s.params.serveStep + 1) * 48
    s.onCm fun c =>
      { c with
        serves := c.serves ++
          [{ id := c.nextId, segment := g, page := q, requester := sender.val, stage := .delay delay }]
        nextId := c.nextId + 1 }
  else s

/-- A serve record ends at a PAGE_DATA of its page from position `sender`: in DELAY from any, in SENDING from a lower
position (R131, R133). -/
def Serve.endedBy (own sender : Position) (g q : Nat) (r : Serve) : Bool :=
  r.segment == g && r.page == q &&
    match r.stage with
    | .delay _ => true
    | .sending .. => decide (sender.val < own.val)

/-- PAGE_DATA: the serve records first, and then the intake (R131, R133, R120). -/
def State.hearPageData (s : State) (sender : Position) (f : PageDataFields) : State :=
  let ended := s.cm.serves.filter (Serve.endedBy s.own sender f.segment.toNat f.page.toNat)
  (ended.foldl (fun s r => s.dropServe r.id) s).intoIntake (.data f)

end Sys2Proof.Machine
end

