-- ==== Sys2Proof/Machine/ControlFrames.lean ====
section
/-!
DEFINITION. The frames of the Basin Link as commands: CONTROL, HALT, CLAIM, TIME, QUERY, FETCH and CONTENT frames accepted
from the line (spec/08, R162).
-/
namespace Sys2Proof.Machine

/-- RESET_STATION (R194): a frame whose target is own position is a reset point, and the strap is read again. -/
def execResetStation (sender : Position) (target : Byte) (strap : Position) (s : State) : Answered :=
  .next (s.received sender fun s => s.targeted target fun s =>
    (s.resetPoint .resetStation .reading).onSt fun t => { t with position := strap })

/-- WAKE (R11). -/
def execWake (sender : Position) (s : State) : Answered := .next (s.received sender State.hearWake)

/-- STANDBY (R11). -/
def execStandby (sender : Position) (s : State) : Answered := .next (s.received sender State.hearStandby)

/-- SHOW_SELECT (R10). -/
def execShowSelect (sender : Position) (showId : Byte) (s : State) : Answered :=
  .next (s.received sender fun s => s.hearShowSelect showId)

/-- GO (R14). -/
def execGo (sender : Position) (showId : Byte) (t0 : BitVec 48) (s : State) : Answered :=
  .next (s.received sender fun s => s.hearGo showId.toNat t0.toNat)

/-- HOLD (R16). -/
def execHold (sender : Position) (th : BitVec 48) (s : State) : Answered :=
  .next (s.received sender fun s => s.hearHold th.toNat)

/-- RESUME (R17). -/
def execResume (sender : Position) (tr : BitVec 48) (s : State) : Answered :=
  .next (s.received sender fun s => s.hearResume tr.toNat)

/-- STOP (R18). -/
def execStop (sender : Position) (fade : BitVec 16) (s : State) : Answered :=
  .next (s.received sender fun s => s.hearStop fade.toNat)

/-- STOP_ASSERT (R20). -/
def execStopAssert (sender : Position) (s : State) : Answered := .next (s.received sender State.hearStopAssert)

/-- CLEAR_HALT (R21). -/
def execClearHalt (sender : Position) (s : State) : Answered := .next (s.received sender State.hearClearHalt)

/-- TRIGGER (R42). -/
def execTrigger (sender : Position) (number : Byte) (press : BitVec 48) (s : State) : Answered :=
  .next (s.received sender fun s => s.hearTrigger number.toNat press.toNat)

/-- CLEAR_FAULTS (R187). -/
def execClearFaults (sender : Position) (target : Byte) (s : State) : Answered :=
  .next (s.received sender fun s => s.targeted target State.clearFaultList)

/-- START_CLAIM (R67). -/
def execStartClaim (sender : Position) (_channel : Byte) (_allowance : BitVec 16) (s : State) : Answered :=
  .next (s.received sender State.huPeerClaim)

/-- The start-of-frame stamp of a received frame (R160): recorded at its start delimiter, or own basin time `elapsed`
ticks ago. A reception that ends in the tick of a correction was no longer in progress at it: its stamp is on the scale
before the correction (R6, R169). One that spans the setting of basin time to 0 at the end of a listen is stamped on the new
scale whether its start was recorded or not (`State.listenStep`): the model's choice (notes/assumptions/12.md). -/
def State.frameStamp (s : State) (elapsed : Nat) : Int :=
  s.liu.rxStamp.getD ((s.tbu.basinTime : Int) - elapsed) - s.tbu.shift

/-- BEACON (R167). -/
def execBeacon (sender : Position) (f : BeaconFields) (elapsed : Nat) (s : State) : Answered :=
  .next (s.received sender fun x => x.recordBeacon sender f (s.frameStamp elapsed))

/-- SEGMENT_DEFINE (R120). -/
def execSegmentDefine (sender : Position) (f : SegmentDefineFields) (s : State) : Answered :=
  .next (s.received sender fun s => s.intoIntake (.define f))

/-- PAGE_DATA (R131). -/
def execPageData (sender : Position) (f : PageDataFields) (s : State) : Answered :=
  .next (s.received sender fun s => s.hearPageData sender f)

/-- PAGE_REQUEST (R130). -/
def execPageRequest (sender : Position) (showId segment page : Byte) (s : State) : Answered :=
  .next (s.received sender fun s => s.hearPageRequest sender showId.toNat segment.toNat page.toNat)

/-- STATUS_REPLY (R162): accepted and delivered to no block. -/
def execStatusReply (sender : Position) (_payload : List Byte) (s : State) : Answered :=
  .next (s.received sender id)

/-- STATUS_QUERY, selector GENERAL (R22). -/
def execStatusQueryGeneral (sender : Position) (target tag : Byte) (s : State) : Answered :=
  .next (s.received sender fun s => s.answerQuery target tag 0 State.generalSnapshot)

/-- STATUS_QUERY, selector PUMPS (R76). -/
def execStatusQueryPumps (sender : Position) (target tag : Byte) (s : State) : Answered :=
  .next (s.received sender fun s => s.answerQuery target tag 1 State.pumpsSnapshot)

/-- STATUS_QUERY, selector FIXTURES (R91). -/
def execStatusQueryFixtures (sender : Position) (target tag : Byte) (s : State) : Answered :=
  .next (s.received sender fun s => s.answerQuery target tag 2 State.fixturesSnapshot)

/-- STATUS_QUERY, selector PEERS (R176). -/
def execStatusQueryPeers (sender : Position) (target tag : Byte) (s : State) : Answered :=
  .next (s.received sender fun s => s.answerQuery target tag 3 State.peersSnapshot)

/-- STATUS_QUERY, selector MEMORY (R136). -/
def execStatusQueryMemory (sender : Position) (target tag : Byte) (s : State) : Answered :=
  .next (s.received sender fun s => s.answerQuery target tag 4 State.memorySnapshot)

/-- STATUS_QUERY, selector FAULTS (R189). -/
def execStatusQueryFaults (sender : Position) (target tag : Byte) (s : State) : Answered :=
  .next (s.received sender fun s => s.answerQuery target tag 5 State.faultsSnapshot)

/-- STATUS_QUERY of a selector above 5, to own position: ignored and counted (R163). -/
def execStatusQueryUnknownSelector (sender : Position) (target selector _tag : Byte) (s : State) : Answered :=
  .next (s.received sender fun s => s.targeted target fun s =>
    if 5 < selector.toNat then s.onLiu Liu.countRxError else s)

end Sys2Proof.Machine
end

