-- ==== Sys2Proof/Machine/LinkEvents.lean ====
section
/-!
DEFINITION. The link interface unit's own events: start delimiters, transmit errors, frames gone out, the burst yield and
discarded frames (spec/08, R153 to R159), with what their originators do (R68, R128, R132).
-/
namespace Sys2Proof.Machine

/-- TRANSMIT_START (R153): a start delimiter on an idle line. -/
def execTransmitStart (rivals : List Byte) (s : State) : Answered :=
  .next (if s.live && s.liu.tx.isNone then
    s.onLiu fun l => l.start (s.st.phase == .up) s.own s.tbu.basinTime rivals
  else s)

/-- The pump of the claim in the CLAIM slot still holds the claim slot (R66). -/
def State.claimHeld (s : State) : Bool := s.liu.claim.any fun c => s.hu.claimHolder == some c.channel

/-- A transmission is aborted (R156): the failure counted, the frame returned, and MUTE perhaps entered (R157). -/
def State.abortTransmission (s : State) : State :=
  let r := s.liu.countFailure
  let s' := s.onLiu fun _ => r.1.returnFrame s.claimHeld
  if r.2 then s'.raise .linkMuted else s'

/-- TRANSMIT_ERROR (R156). -/
def execTransmitError (s : State) : Answered := .next (if s.liu.tx.isSome then s.abortTransmission else s)

/-- CLAIM_GONE_OUT (R68). -/
def execClaimGoneOut (s : State) : Answered :=
  .next (match s.liu.tx, s.liu.claim with
    | some { source := .claim, .. }, some c =>
      (s.onLiu fun l => { l.wentOut with claim := none }).huClaimOut c.channel
    | _, _ => s)

/-- The muted-since flag clears when a beacon that carries it has gone out (R157). -/
def Liu.beaconOut (b : BeaconFields) (l : Liu) : Liu :=
  { l.wentOut with mutedSince := if b.flags.getLsbD 4 then false else l.mutedSince }

/-- BEACON_GONE_OUT (R155). -/
def execBeaconGoneOut (s : State) : Answered :=
  .next (match s.liu.tx with
    | some { source := .time b, .. } => s.onLiu (Liu.beaconOut b)
    | _ => s)

/-- STOP_ASSERT_GONE_OUT (R154). -/
def execStopAssertGoneOut (s : State) : Answered :=
  .next (match s.liu.tx with
    | some { source := .halt, .. } => s.onLiu fun l => { l.wentOut with halt := false }
    | _ => s)

/-- The reply at the head of the REPLY queue after a part of it has gone out (R163). -/
def Liu.partOut (l : Liu) : Liu :=
  match l.replies with
  | r :: rest =>
    { l.wentOut with replies := if r.parts ≤ r.next + 1 then rest else { r with next := r.next + 1 } :: rest }
  | [] => l.wentOut

/-- STATUS_REPLY_GONE_OUT (R163). -/
def execStatusReplyGoneOut (s : State) : Answered :=
  .next (match s.liu.tx with
    | some { source := .query, .. } => s.onLiu Liu.partOut
    | _ => s)

/-- A PAGE_REQUEST has gone out (R128): a record that has been freed meanwhile changes nothing. -/
def State.requestOut (s : State) : State :=
  match s.liu.fetchQ with
  | f :: rest =>
    let t := s.fetchTicks
    let now := s.tbu.basinTime
    (s.onLiu fun l => { l.wentOut with fetchQ := rest }).onCm fun c => c.onFill f.fill fun x =>
      ({ x with attempts := x.attempts + 1, owed := false, queued := false } : Fill).startTimer now t
  | [] => s.onLiu Liu.wentOut

/-- PAGE_REQUEST_GONE_OUT (R128). -/
def execPageRequestGoneOut (s : State) : Answered :=
  .next (match s.liu.tx with
    | some { source := .fetch, .. } => s.requestOut
    | _ => s)

/-- A PAGE_DATA has gone out (R132, R158): the yield count rises, and chunk 255 frees its serve record. -/
def State.dataOut (s : State) : State :=
  match s.liu.contentQ with
  | p :: rest =>
    let s := s.onLiu fun l => { l.wentOut with contentQ := rest, yieldCount := min 4 (l.yieldCount + 1) }
    if p.chunk = 255 then s.onCm fun c => { c with serves := c.serves.filter fun r => r.id != p.serve } else s
  | [] => s.onLiu Liu.wentOut

/-- PAGE_DATA_GONE_OUT (R132). -/
def execPageDataGoneOut (s : State) : Answered :=
  .next (match s.liu.tx with
    | some { source := .content, .. } => s.dataOut
    | _ => s)

/-- YIELD_IDLE_EXPIRY (R158): 200 µs of idle line with the yield count at 4. -/
def execYieldIdleExpiry (s : State) : Answered :=
  .next (if s.liu.yieldCount = 4 ∧ s.liu.tx.isNone then s.onLiu fun l => { l with yieldCount := 0 } else s)

/-- FRAME_DISCARDED (R159): the levels heard fail a check. -/
def execFrameDiscarded (levels : List Bool) (s : State) : Answered :=
  .next (match checkFrame levels with
    | .discarded _ => if s.live then s.onLiu fun l => l.frameHeard.countRxError else s
    | .accepted | .unfinished => s)

end Sys2Proof.Machine
end

