-- ==== Sys2Proof/Machine/ContentEvents.lean ====
section
/-!
DEFINITION. The content map's events: frames taken from the intake, fetch timers, and serves (spec/06, R121 to R133).
-/
namespace Sys2Proof.Machine

/-! ## The intake (R120) -/

/-- The frame at the head of the intake may be taken: the frame before it is done, at least 32 table-write places are
free, and the map region is initialised (R120). -/
def Cm.mayTake (c : Cm) : Bool := c.chunk.isNone && decide (c.tableWrites ≤ 32) && c.init == .left 0

/-- The head of the intake leaves it. -/
def State.popIntake (s : State) : State := s.onCm fun c => { c with intake := c.intake.drop 1 }

/-- A MAP_FAULT of the content map. -/
def State.mapFault (s : State) (d : FaultDetail) : State := s.raise .mapFault (some d)

/-- The DEFINED segments of 0..119. -/
def Cm.showSegments (c : Cm) : List Nat := (c.dir.map (·.1)).filter fun g => !isHouse g

/-- A SHOW_SELECT taken (R121). -/
def State.takeSelect (s : State) (n : Nat) : State :=
  if s.tbu.state ≠ .idle ∧ s.tbu.state ≠ .standby then s
  else if 119 < n then s.mapFault (.showNo n)
  else if n = s.cm.showId then s
  else (s.release s.cm.showSegments).onCm fun c => { c with showId := n }

/-- SHOW_SELECT_TAKEN (R121). -/
def execShowSelectTaken (s : State) : Answered :=
  .next (match s.cm.intake with
    | .select n :: _ => if s.live && s.cm.mayTake then s.popIntake.takeSelect n else s
    | _ => s)

/-! ## Definitions (R123, R124) -/

/-- The segment number of a definition. -/
def segmentOf (f : SegmentDefineFields) : Nat := f.segment.toNat % 128

/-- The type of a definition that passes step 2 of the screening (R123). -/
def Cm.screenDefine (c : Cm) (f : SegmentDefineFields) : Option SegType :=
  if f.reservedSet || f.length.toNat == 0 || decide (1048576 < f.length.toNat)
      || !c.showMatches f.showId.toNat (segmentOf f) then none
  else segTypeOf f.kind.toNat

/-- The directory entry a definition makes. -/
def dirEntryOf (f : SegmentDefineFields) (k : SegType) : DirEntry :=
  { showId := f.showId.toNat, kind := k, length := f.length.toNat, owner := if k = .cue then f.owner else 0 }

/-- The definition concerns the station at `own` (R123, step 3). -/
def concerns (f : SegmentDefineFields) (k : SegType) (own : Position) : Bool :=
  if k = .cue then f.owner == own.val else f.tail.getLsbD own.val

/-- A DEFINED segment released; an UNDEFINED one stays as it is. -/
def State.releaseIfDefined (s : State) (g : Nat) : State := if (s.cm.entry g).isSome then s.release [g] else s

/-- The entry becomes DEFINED, with the table writes of it and of its 64 page table entries (R124). -/
def State.define (s : State) (g : Nat) (e : DirEntry) : State :=
  (s.onCm fun c =>
    (({ c with dir := Table.put c.dir g e } : Cm).touch g).queueWrites [g]
      ((List.range 64).map (pageKey g))).issueMap

/-- A SEGMENT_DEFINE taken (R123, R124). -/
def State.takeDefine (s : State) (f : SegmentDefineFields) : State :=
  let g := segmentOf f
  if s.tbu.state.bearing then s
  else
    match s.cm.screenDefine f with
    | none => s.mapFault (.segment g)
    | some k =>
      if !concerns f k s.own then s.releaseIfDefined g
      else if s.cm.entry g = some (dirEntryOf f k) then s
      else (s.releaseIfDefined g).define g (dirEntryOf f k)

/-- SEGMENT_DEFINE_TAKEN (R124). -/
def execSegmentDefineTaken (s : State) : Answered :=
  .next (match s.cm.intake with
    | .define f :: _ => if s.live && s.cm.mayTake then s.popIntake.takeDefine f else s
    | _ => s)

/-! ## Pages (R125, R126) -/

/-- A chunk for the FILLING page of record `x` (R126): the fetch timer restarts; a chunk not yet in the received set
joins it and is written, and one already in it is done at once. -/
def State.feed (s : State) (x : Fill) (chunk : Nat) (data : List Byte) : State :=
  let now := s.tbu.basinTime
  let t := s.fetchTicks
  let s := s.onCm fun c => c.onFill x.id (Fill.startTimer now t)
  if x.received.getLsbD chunk then s
  else
    (s.onCm fun c =>
      { c.onFill x.id (fun y => { y with received := y.received ||| (1 <<< chunk) }) with chunk := some x.id }).onSmc
      fun m => m.arrive .content (Request.at .write64 (placeOf x.phys (64 * chunk)) x.id (data.map some))

/-- The chunk fed to the record of its page, when there is one. -/
def State.feedPage (s : State) (g q : Nat) (f : PageDataFields) : State :=
  match s.cm.fillOf g q with
  | some x => s.feed x f.chunk.toNat f.data
  | none => s

/-- A PAGE_DATA taken (R125, R198). -/
def State.takePageData (s : State) (f : PageDataFields) : State :=
  let g := f.segment.toNat
  let q := f.page.toNat
  if 127 < g ∨ 63 < q then s.mapFault (.page g q)
  else if !s.cm.showMatches f.showId.toNat g then s
  else
    match s.cm.entry g with
    | none => s
    | some e =>
      if pagesOf e.length ≤ q then s.mapFault (.page g q)
      else
        match s.cm.pageState g q with
        | .present => s
        | .filling => s.feedPage g q f
        | .absent | .unavailable =>
          if 8 ≤ s.cm.fills.length then s
          else
            match s.cm.lowestFree with
            | none => s.raiseStoreFull g q
            | some p => (s.openFill g q p false).feedPage g q f

/-- PAGE_DATA_TAKEN (R125), once the class of content writes is free. -/
def execPageDataTaken (s : State) : Answered :=
  .next (match s.cm.intake with
    | .data f :: _ =>
      if s.live && s.cm.mayTake && s.smc.classFree .content then s.popIntake.takePageData f else s
    | _ => s)

/-- QUEUED_CHANGE_APPLY (R114): the first change that waits is made when its table write has a place. -/
def execQueuedChangeApply (s : State) : Answered :=
  .next (match s.cm.waiting with
    | x :: rest =>
      if s.live && decide (s.cm.tableWrites < 64) then
        (s.onCm fun c => { c with waiting := rest }).applyChange x
      else s
    | [] => s)

/-! ## Fetch timers (R128, R129) -/

/-- The lowest segment and page first. -/
def lowerPage (g q g' q' : Nat) : Bool := decide (pageKey g q < pageKey g' q')

/-- The record whose fetch timer has expired (R128). Of two that expire at one moment the lowest segment and page is taken
first, so that the detail of PAGE_UNAVAILABLE is that of the higher: the model's choice (notes/assumptions/63.md). -/
def Cm.expired (c : Cm) : Option Fill :=
  c.fills.foldl (fun best f =>
    if f.timer = some 0 then
      match best with
      | none => some f
      | some b => if lowerPage f.segment f.page b.segment b.page then some f else best
    else best) none

/-- A fetch timer expires (R128, R129). -/
def State.fetchExpired (s : State) (f : Fill) : State :=
  if f.attempts < 3 then (s.onCm fun c => c.owe s.st.oscTicks f.id).queueRequest
  else (s.onCm fun c => c.onFill f.id fun f => { f with timer := none }).makeChange (.unavailable f.id)

/-- FETCH_TIMER_EXPIRY (R128). -/
def execFetchTimerExpiry (s : State) : Answered :=
  .next (match s.cm.expired with
    | some f => if s.live then s.fetchExpired f else s
    | none => s)

/-- PAGE_REQUEST_QUEUE (R128). -/
def execPageRequestQueue (s : State) : Answered := .next (if s.live then s.queueRequest else s)

/-! ## Serves (R131, R132) -/

/-- Of the serve records that satisfy `p` the one of the lowest segment and page. -/
def Cm.lowestServe (c : Cm) (p : Serve → Bool) : Option Serve :=
  (c.serves.filter p).foldl (fun best r =>
    match best with
    | none => some r
    | some b => if lowerPage r.segment r.page b.segment b.page then some r else best) none

/-- A serve record whose delay has ended. -/
def Serve.delayOver (r : Serve) : Bool := r.stage == .delay 0

/-- Serve record `id` changed. -/
def Cm.onServe (c : Cm) (id : Nat) (g : Serve → Serve) : Cm :=
  { c with serves := c.serves.map fun r => if r.id = id then g r else r }

/-- A delay ends (R131): SENDING with next read 0, and the lookup of the page's address. -/
def State.startSending (s : State) (r : Serve) : State :=
  let s := s.onCm fun c => c.onServe r.id fun r => { r with stage := .sending none 0 false }
  let x := s.serveLookup r
  x.1.serveAnswer r.id x.2

/-- SERVE_DELAY_END (R131). Of two delays that end at one moment the record of the lower segment or page enters SENDING and
makes its lookup first: the model's choice (notes/assumptions/64.md). -/
def execServeDelayEnd (s : State) : Answered :=
  .next (match s.cm.lowestServe Serve.delayOver with
    | some r => if s.live then s.startSending r else s
    | none => s)

/-- A read of the record is in flight. -/
def Serve.reading (r : Serve) : Bool :=
  match r.stage with
  | .sending _ _ f => f
  | .delay _ => false

/-- The reads in flight of the other serve record. -/
def Cm.otherReads (c : Cm) (id : Nat) : Nat := (c.serves.filter fun r => r.id != id && r.reading).length

/-- The record may issue its next read (R132). -/
def State.mayRead (s : State) (r : Serve) : Bool :=
  match r.stage with
  | .sending (some _) next false =>
    decide (next < 256) && decide (s.liu.contentQ.length + 4 + 4 * s.cm.otherReads r.id ≤ 16)
  | _ => false

/-- The next read of a serve record issued (R132). -/
def State.issueServeRead (s : State) (r : Serve) : State :=
  match r.stage with
  | .sending (some p) next _ =>
    (s.onCm fun c => c.onServe r.id fun x => { x with stage := .sending (some p) next true }).onSmc fun m =>
      m.arrive .serve (Request.at .read256 (placeOf p (64 * next)) r.id)
  | _ => s

/-- SERVE_READ_ISSUE (R132): the record of the lower segment and page decides first. -/
def execServeReadIssue (s : State) : Answered :=
  .next (match s.cm.lowestServe s.mayRead with
    | some r => if s.live && s.smc.classFree .serve then s.issueServeRead r else s
    | none => s)

end Sys2Proof.Machine
end

