-- ==== Sys2Proof/Machine/MemoryEvents.lean ====
section
/-!
DEFINITION. The show memory controller's events and the completions its requesters act on (spec/07, R138 to R149; spec/02,
R28; spec/05, R110; spec/06, R114, R117, R126, R132).
-/
namespace Sys2Proof.Machine

/-! ## The controller -/

/-- The words of the row read's burst that ends are handed to the audio unit (R138). -/
def State.handWords (s : State) : State :=
  match s.smc.port, s.smc.audio with
  | some { op := .burst .audio, issued := true, .. }, some r =>
    s.onAu fun a => a.takeWords (Memory.readRange s.smc.mem (addressOf r.bank r.row r.burstCol) 32)
  | _, _ => s

/-- GRANT_POINT (R140): the operation on the port ends. A burst at a row that the SDRAM does not have (R137) stops the
model; no request of the station names one. -/
def execGrantPoint (s : State) : Answered :=
  if s.smc.burstRow.any (fun r => decide (8192 ≤ r)) then .fault .outsideShowMemory
  else .next (s.handWords.onSmc Smc.endOperation)

/-- DEBT_RISE (R145). -/
def execDebtRise (s : State) : Answered := .next (s.onSmc Smc.debtRise)

/-- BANK_ACTIVATE_DONE (R139). -/
def execBankActivateDone (bank : Fin 4) (s : State) : Answered := .next (s.onSmc fun m => m.activateDone bank)

/-- BANK_PRECHARGE_DONE (R139). -/
def execBankPrechargeDone (bank : Fin 4) (s : State) : Answered := .next (s.onSmc fun m => m.prechargeDone bank)

/-- INIT_WAIT_END (R148). -/
def execInitWaitEnd (s : State) : Answered := .next (if s.powered then s.onSmc Smc.initWaitEnd else s)

/-- INIT_PRECHARGE_END (R148). -/
def execInitPrechargeEnd (s : State) : Answered := .next (s.onSmc Smc.initPrechargeEnd)

/-- INIT_REFRESH_END (R148). -/
def execInitRefreshEnd (s : State) : Answered := .next (s.onSmc Smc.initRefreshEnd)

/-- READY reached: the MEMORY phase ends (R192), and the map region is initialised (R135). -/
def State.memoryReady (s : State) : State :=
  let s := if s.st.phase = .memory then s.onSt fun t => { t with phase := .listening } else s
  if s.live then s.initMap else s

/-- INIT_MODE_END (R148). -/
def execInitModeEnd (s : State) : Answered :=
  .next (if s.smc.ctl = .initMode then (s.onSmc Smc.initModeEnd).memoryReady else s)

/-! ## Completions: each is reported at the end of its last burst (R138) and acted on by its requester -/

/-- The completion of class `c` acted on by `act`, when there is one. -/
def State.completion (s : State) (c : ReqClass) (act : State → Report → State) : State :=
  match s.smc.reportOf c with
  | some r => act (s.onSmc fun m => m.dropReport c) r
  | none => s

/-- CUE_READ_COMPLETE (R28). -/
def execCueReadComplete (s : State) : Answered := .next (s.completion .cue fun s r => s.cueReadDone r.bytes)

/-- ROW_READ_COMPLETE (R110). -/
def execRowReadComplete (s : State) : Answered := .next (s.completion .audio fun s r => s.rowReadDone r.bytes)

/-- The walk whose second read stands at the head of the map-region queue. -/
def Cm.secondRead (c : Cm) : Option Walk :=
  match c.mapQ with
  | .walk w :: _ => if w.second then some w else none
  | _ => none

/-- WALK_COMPLETE (R117): the second read of a walk completes. -/
def execWalkComplete (s : State) : Answered :=
  .next (match s.cm.secondRead with
    | some w => s.completion .walk fun s r => s.walkDone w r.bytes
    | none => s)

/-- MAP_REGION_ACCESS_COMPLETE (R114): a table write or the first read of a walk completes. -/
def execMapRegionAccessComplete (s : State) : Answered :=
  .next (if s.cm.secondRead.isNone then s.completion .walk fun s _ => s.mapAccessDone else s)

/-- A chunk write completes (R126): at the 256th chunk the page becomes PRESENT. -/
def State.chunkDone (s : State) : State :=
  let done := s.cm.chunk.bind fun id => (s.cm.fillById id).filter fun f => f.received == BitVec.allOnes 256
  let s := s.onCm fun c => { c with chunk := none }
  match done with
  | some f => s.makeChange (.present f.id)
  | none => s

/-- CHUNK_WRITE_COMPLETE (R126). -/
def execChunkWriteComplete (s : State) : Answered := .next (s.completion .content fun s _ => s.chunkDone)

/-- The four PAGE_DATA frames of a serve read (R132). -/
def framesOf (showId : Nat) (r : Serve) (next : Nat) (bytes : List Byte) : List PageDataOut :=
  [0, 1, 2, 3].map fun i =>
    { serve := r.id, showId := showId, segment := r.segment, page := r.page, chunk := next + i,
      data := (bytes.drop (64 * i)).take 64 }

/-- A serve read completes for record `id` (R132); without effect when the record has stopped (R133). -/
def State.serveReadDone (s : State) (id : Nat) (bytes : List Byte) : State :=
  match s.cm.serves.find? fun r => r.id == id with
  | some r =>
    match r.stage with
    | .sending a next true =>
      (s.onCm fun c => c.onServe id fun x => { x with stage := .sending a (next + 4) false }).onLiu fun l =>
        { l with contentQ := l.contentQ ++ framesOf (s.cm.showOf r.segment) r next bytes }
    | _ => s
  | none => s

/-- SERVE_READ_COMPLETE (R132). -/
def execServeReadComplete (s : State) : Answered :=
  .next (s.completion .serve fun s r => s.serveReadDone r.id r.bytes)

end Sys2Proof.Machine
end

