-- ==== Sys2Proof/Machine/PowerEvents.lean ====
section
/-!
DEFINITION. Power-on, the configuration read, the reset pin, and the basin input unit's inputs (spec/10, R183, R184;
spec/11, R190 to R195).
-/
namespace Sys2Proof.Machine

/-- POWER_ON (R192). -/
def execPowerOn (strap : Position) (stopOpen : Bool) (contacts : BitVec 8) (s : State) : Answered :=
  .next (s.powerUp strap stopOpen contacts)

/-- CONFIG_READ_COMPLETE (R191), while the station reads its configuration. -/
def execConfigReadComplete (record : List Byte) (s : State) : Answered :=
  .next (if s.st.phase = .reading then s.takeConfig record else s)

/-- RESET_PIN_ASSERT (R194): a reset point, at which the station is held. -/
def execResetPinAssert (s : State) : Answered :=
  .next (if s.powered then s.resetPoint .resetPin .pinHeld else s)

/-- RESET_PIN_RELEASE (R194): the strap and then the configuration are read again. -/
def execResetPinRelease (strap : Position) (s : State) : Answered :=
  .next (if s.st.phase = .pinHeld then s.onSt fun t => { t with phase := .reading, position := strap } else s)

/-- STOP_INPUT_ACTIVE (R183): the filtered input becomes active; the TBU acts as R20 gives and a STOP_ASSERT is
offered. Before the blocks run only the filter takes the level. -/
def execStopInputActive (s : State) : Answered :=
  .next
    (if s.powered && !s.biu.stopActive then
      let s := s.onBiu fun b => { b with stopActive := true }
      if s.live then s.haltRequest.onLiu Liu.offerStop else s
    else s)

/-- STOP_INPUT_INACTIVE (R183). -/
def execStopInputInactive (s : State) : Answered :=
  .next (if s.powered then s.onBiu fun b => { b with stopActive := false } else s)

/-- FEEDBACK_CHANGE (R184). -/
def execFeedbackChange (p : Channel) (present : Bool) (s : State) : Answered :=
  .next (if s.powered then s.onBiu fun b => { b with feedback := b.feedback.set p present } else s)

end Sys2Proof.Machine
end

