-- ==== Sys2Proof/Machine/Dispatch.lean ====
section
/-!
DEFINITION. The meaning of each command, one arm for every constructor of Instr.
-/
namespace Sys2Proof.Machine

/-- The effect of a command on everything but the queue. -/
def exec (i : Instr) (s : State) : Host.Outcome State Fault Refusal :=
  match i with
  | .powerOn strap stopOpen contacts => Sys2Proof.Machine.execPowerOn strap stopOpen contacts s
  | .configReadComplete record => Sys2Proof.Machine.execConfigReadComplete record s
  | .resetPinAssert => Sys2Proof.Machine.execResetPinAssert s
  | .resetPinRelease strap => Sys2Proof.Machine.execResetPinRelease strap s
  | .resetStation sender target strap => Sys2Proof.Machine.execResetStation sender target strap s
  | .listenEnd inp => Sys2Proof.Machine.execListenEnd inp s
  | .frameBoundary inp => Sys2Proof.Machine.execFrameBoundary inp s
  | .warmupEnd inp => Sys2Proof.Machine.execWarmupEnd inp s
  | .wake sender => Sys2Proof.Machine.execWake sender s
  | .standby sender => Sys2Proof.Machine.execStandby sender s
  | .showSelect sender showId => Sys2Proof.Machine.execShowSelect sender showId s
  | .go sender showId t0 => Sys2Proof.Machine.execGo sender showId t0 s
  | .t0Reached => Sys2Proof.Machine.execT0Reached s
  | .hold sender th => Sys2Proof.Machine.execHold sender th s
  | .enterHeld inp => Sys2Proof.Machine.execEnterHeld inp s
  | .resume sender tr => Sys2Proof.Machine.execResume sender tr s
  | .resumeBoundary inp => Sys2Proof.Machine.execResumeBoundary inp s
  | .stop sender fade => Sys2Proof.Machine.execStop sender fade s
  | .endActionDue => Sys2Proof.Machine.execEndActionDue s
  | .endingComplete inp => Sys2Proof.Machine.execEndingComplete inp s
  | .stopAssert sender => Sys2Proof.Machine.execStopAssert sender s
  | .clearHalt sender => Sys2Proof.Machine.execClearHalt sender s
  | .trigger sender number press => Sys2Proof.Machine.execTrigger sender number press s
  | .cueReadComplete => Sys2Proof.Machine.execCueReadComplete s
  | .restExpiry p inp => Sys2Proof.Machine.execRestExpiry p inp s
  | .softStartEnd p inp => Sys2Proof.Machine.execSoftStartEnd p inp s
  | .minimumRunEnd p inp => Sys2Proof.Machine.execMinimumRunEnd p inp s
  | .feedbackAbsenceLock p inp => Sys2Proof.Machine.execFeedbackAbsenceLock p inp s
  | .stoppingDriveZero p inp => Sys2Proof.Machine.execStoppingDriveZero p inp s
  | .spacingTimerExpiry => Sys2Proof.Machine.execSpacingTimerExpiry s
  | .startClaim sender channel allowance => Sys2Proof.Machine.execStartClaim sender channel allowance s
  | .claimGoneOut => Sys2Proof.Machine.execClaimGoneOut s
  | .definitionAnswer => Sys2Proof.Machine.execDefinitionAnswer s
  | .contentEnd v => Sys2Proof.Machine.execContentEnd v s
  | .outputPair => Sys2Proof.Machine.execOutputPair s
  | .rowReadComplete => Sys2Proof.Machine.execRowReadComplete s
  | .walkComplete => Sys2Proof.Machine.execWalkComplete s
  | .mapRegionAccessComplete => Sys2Proof.Machine.execMapRegionAccessComplete s
  | .queuedChangeApply => Sys2Proof.Machine.execQueuedChangeApply s
  | .segmentDefine sender f => Sys2Proof.Machine.execSegmentDefine sender f s
  | .pageData sender f => Sys2Proof.Machine.execPageData sender f s
  | .showSelectTaken => Sys2Proof.Machine.execShowSelectTaken s
  | .segmentDefineTaken => Sys2Proof.Machine.execSegmentDefineTaken s
  | .pageDataTaken => Sys2Proof.Machine.execPageDataTaken s
  | .chunkWriteComplete => Sys2Proof.Machine.execChunkWriteComplete s
  | .fetchTimerExpiry => Sys2Proof.Machine.execFetchTimerExpiry s
  | .pageRequestQueue => Sys2Proof.Machine.execPageRequestQueue s
  | .pageRequestGoneOut => Sys2Proof.Machine.execPageRequestGoneOut s
  | .pageRequest sender showId segment page => Sys2Proof.Machine.execPageRequest sender showId segment page s
  | .serveDelayEnd => Sys2Proof.Machine.execServeDelayEnd s
  | .serveReadIssue => Sys2Proof.Machine.execServeReadIssue s
  | .serveReadComplete => Sys2Proof.Machine.execServeReadComplete s
  | .pageDataGoneOut => Sys2Proof.Machine.execPageDataGoneOut s
  | .initWaitEnd => Sys2Proof.Machine.execInitWaitEnd s
  | .initPrechargeEnd => Sys2Proof.Machine.execInitPrechargeEnd s
  | .initRefreshEnd => Sys2Proof.Machine.execInitRefreshEnd s
  | .initModeEnd => Sys2Proof.Machine.execInitModeEnd s
  | .grantPoint => Sys2Proof.Machine.execGrantPoint s
  | .debtRise => Sys2Proof.Machine.execDebtRise s
  | .bankActivateDone bank => Sys2Proof.Machine.execBankActivateDone bank s
  | .bankPrechargeDone bank => Sys2Proof.Machine.execBankPrechargeDone bank s
  | .transmitStart rivals => Sys2Proof.Machine.execTransmitStart rivals s
  | .transmitError => Sys2Proof.Machine.execTransmitError s
  | .muteEnd inp => Sys2Proof.Machine.execMuteEnd inp s
  | .beaconGoneOut => Sys2Proof.Machine.execBeaconGoneOut s
  | .stopAssertGoneOut => Sys2Proof.Machine.execStopAssertGoneOut s
  | .statusReplyGoneOut => Sys2Proof.Machine.execStatusReplyGoneOut s
  | .yieldIdleExpiry => Sys2Proof.Machine.execYieldIdleExpiry s
  | .frameDiscarded levels => Sys2Proof.Machine.execFrameDiscarded levels s
  | .statusReply sender payload => Sys2Proof.Machine.execStatusReply sender payload s
  | .statusQueryGeneral sender target tag => Sys2Proof.Machine.execStatusQueryGeneral sender target tag s
  | .statusQueryPumps sender target tag => Sys2Proof.Machine.execStatusQueryPumps sender target tag s
  | .statusQueryFixtures sender target tag => Sys2Proof.Machine.execStatusQueryFixtures sender target tag s
  | .statusQueryPeers sender target tag => Sys2Proof.Machine.execStatusQueryPeers sender target tag s
  | .statusQueryMemory sender target tag => Sys2Proof.Machine.execStatusQueryMemory sender target tag s
  | .statusQueryFaults sender target tag => Sys2Proof.Machine.execStatusQueryFaults sender target tag s
  | .beacon sender f elapsed => Sys2Proof.Machine.execBeacon sender f elapsed s
  | .levelReadingValid inp => Sys2Proof.Machine.execLevelReadingValid inp s
  | .windReadingValid inp => Sys2Proof.Machine.execWindReadingValid inp s
  | .cutoutEnd inp => Sys2Proof.Machine.execCutoutEnd inp s
  | .stopInputActive => Sys2Proof.Machine.execStopInputActive s
  | .stopInputInactive => Sys2Proof.Machine.execStopInputInactive s
  | .feedbackChange p present => Sys2Proof.Machine.execFeedbackChange p present s
  | .clearFaults sender target => Sys2Proof.Machine.execClearFaults sender target s
  | .statusQueryUnknownSelector sender target selector tag => Sys2Proof.Machine.execStatusQueryUnknownSelector sender target selector tag s

end Sys2Proof.Machine
end

