-- ==== Sys2Proof/Machine/Step.lean ====
section
/-!
DEFINITION. One step of the station: the command at the front of the queue is taken and its effect made.
-/
namespace Sys2Proof.Machine

/-- The command at the front of the queue is run on the state with the queue's rest. On an empty queue the station
idles (notes/assumptions/4.md). -/
def step (s : State) : Host.Outcome State Fault Refusal :=
  match s.pending with
  | [] => .next s
  | i :: rest => exec i { s with pending := rest }

/-- The command that a word spells put at the front of the queue. No row of the table gives its command bits, so that
no word spells one. -/
def State.withFetchWord (s : State) (nbits w : Nat) : State :=
  match Sys2Proof.decodeTableWord nbits w with
  | some i => { s with pending := i :: s.pending }
  | none => s

end Sys2Proof.Machine
end

