-- ==== Sys2Proof/Machine/Frames.lean ====
section
/-!
DEFINITION. Accepted frames as commands (spec/11, R196 to R198; spec/08, R152, R159): the frame that the levels on the line
spell, the command that its class, kind and selector codes and its payload bytes give, and the frame of each command that
comes from the line.
-/
namespace Sys2Proof.Machine

/-- The parts of a frame that carry it: arbitration byte, kind byte and payload (R152). -/
structure Frame where
  arb : Byte
  kind : Byte
  payload : List Byte
  deriving DecidableEq, Repr

/-! ## From the line to a frame -/

/-- The bytes that bits spell, most significant bit first; bits short of a byte spell none (R196). -/
def bytesOf : List Bool → List Byte
  | a :: b :: c :: d :: e :: f :: g :: h :: rest => BitVec.ofNat 8 (bitsNat [a, b, c, d, e, f, g, h]) :: bytesOf rest
  | _ => []

/-- The bits of `n` bits of the stuffed part from the run given, and what follows (R151); none when they cannot be read. -/
def takeBits (n run : Nat) (last : Bool) (ls : List Bool) : Option (List Bool × Nat × Bool × List Bool) :=
  match readBits n run last ls with
  | .ok bits r l rest => some (bits, r, l, rest)
  | .violation | .short => none

/-- The frame that the levels from a start delimiter on carry, when the checks of R159 accept it. -/
def readFrame (ls : List Bool) : Option Frame :=
  if checkFrame ls = .accepted then do
    let (head, r, l, rest) ← takeBits 24 1 false (ls.drop 1)
    let (body, _) ← takeBits (8 * bitsNat (head.drop 16)) r l rest
    match bytesOf head with
    | [arb, kind, _] => some { arb := arb, kind := kind, payload := bytesOf body }
    | _ => none
  else none

/-! ## From a frame to its command -/

/-- The class value of a frame (R152). -/
def Frame.cls (f : Frame) : Nat := f.arb.toNat / 32

/-- The sender position of a frame: the low five bits of its arbitration byte (R152). -/
def Frame.sender (f : Frame) : Position := ⟨f.arb.toNat % 32, Nat.mod_lt _ (by decide)⟩

/-- The byte of the payload at `i`. -/
def Frame.byteAt (f : Frame) (i : Nat) : Byte := f.payload.getD i 0

/-- The field of `k` bytes of the payload from byte `i`, most significant byte first (R196). -/
def Frame.fieldAt (f : Frame) (i k : Nat) : BitVec (8 * k) := BitVec.ofNat (8 * k) (beNat ((f.payload.drop i).take k))

/-- The payload of a BEACON (R197). -/
def Frame.beaconFields (f : Frame) : BeaconFields :=
  { stamp := f.fieldAt 0 6, role := f.byteAt 6, state := f.byteAt 7, showId := f.byteAt 8, index := f.fieldAt 9 2
    demand := f.fieldAt 11 4, share := f.fieldAt 15 4, wind := f.fieldAt 19 2, level := f.fieldAt 21 2
    flags := f.byteAt 23 }

/-- The payload of a SEGMENT_DEFINE (R198). -/
def Frame.defineFields (f : Frame) : SegmentDefineFields :=
  { showId := f.byteAt 0, segment := f.byteAt 1, kind := f.byteAt 2, length := f.fieldAt 3 4, tail := f.fieldAt 7 4 }

/-- The payload of a PAGE_DATA (R198). -/
def Frame.dataFields (f : Frame) : PageDataFields :=
  { showId := f.byteAt 0, segment := f.byteAt 1, page := f.byteAt 2, chunk := f.byteAt 3, data := f.payload.drop 4 }

/-- The STATUS_QUERY of a selector code (R196): six selectors, and every other code an unknown selector. -/
def statusQuery (sender : Position) (target selector tag : Byte) : Instr :=
  match selector.toNat with
  | 0 => .statusQueryGeneral sender target tag
  | 1 => .statusQueryPumps sender target tag
  | 2 => .statusQueryFixtures sender target tag
  | 3 => .statusQueryPeers sender target tag
  | 4 => .statusQueryMemory sender target tag
  | 5 => .statusQueryFaults sender target tag
  | _ => .statusQueryUnknownSelector sender target selector tag

/-- The command of an accepted frame (R196): none for a class or kind that does not exist. `strap` is the strap as a
RESET_STATION has it read again, and `elapsed` the ticks from a BEACON's start delimiter to its acceptance; a frame carries
neither. -/
def Frame.command (strap : Position) (elapsed : Nat) (f : Frame) : Option Instr :=
  match f.cls, f.kind.toNat with
  | 0, 0 => some (.stopAssert f.sender)
  | 1, 0 => some (.beacon f.sender f.beaconFields elapsed)
  | 2, 0 => some (.startClaim f.sender (f.byteAt 0) (f.fieldAt 1 2))
  | 3, 0 => some (.showSelect f.sender (f.byteAt 0))
  | 3, 1 => some (.go f.sender (f.byteAt 0) (f.fieldAt 1 6))
  | 3, 2 => some (.hold f.sender (f.fieldAt 0 6))
  | 3, 3 => some (.resume f.sender (f.fieldAt 0 6))
  | 3, 4 => some (.stop f.sender (f.fieldAt 0 2))
  | 3, 5 => some (.trigger f.sender (f.byteAt 0) (f.fieldAt 1 6))
  | 3, 6 => some (.standby f.sender)
  | 3, 7 => some (.wake f.sender)
  | 3, 8 => some (.clearHalt f.sender)
  | 3, 9 => some (.clearFaults f.sender (f.byteAt 0))
  | 3, 10 => some (.resetStation f.sender (f.byteAt 0) strap)
  | 4, 0 => some (statusQuery f.sender (f.byteAt 0) (f.byteAt 1) (f.byteAt 2))
  | 4, 1 => some (.statusReply f.sender f.payload)
  | 5, 0 => some (.pageRequest f.sender (f.byteAt 0) (f.byteAt 1) (f.byteAt 2))
  | 6, 0 => some (.segmentDefine f.sender f.defineFields)
  | 6, 1 => some (.pageData f.sender f.dataFields)
  | _, _ => none

/-- What the levels on the line come to (R159, R196): the command of the frame they carry, the discard of a frame that
fails a check, or nothing while no frame has ended. -/
def commandOnLine (strap : Position) (elapsed : Nat) (ls : List Bool) : Option Instr :=
  match checkFrame ls with
  | .accepted => (readFrame ls).bind (Frame.command strap elapsed)
  | .discarded _ => some (.frameDiscarded ls)
  | .unfinished => none

/-! ## From a command to its frame -/

/-- A frame of class `cls` and kind `kind` from position `p`. -/
def frameFrom (cls kind : Nat) (p : Position) (payload : List Byte) : Frame :=
  { arb := arbByte cls p, kind := BitVec.ofNat 8 kind, payload := payload }

/-- The frame of a command that comes from the line (R196 to R198); none for any other. -/
def frameOf : Instr → Option Frame
  | .stopAssert p => some (frameFrom 0 0 p [])
  | .beacon p f _ => some (frameFrom 1 0 p f.bytes)
  | .startClaim p c a => some (frameFrom 2 0 p (c :: beBytes 2 a.toNat))
  | .showSelect p n => some (frameFrom 3 0 p [n])
  | .go p n t0 => some (frameFrom 3 1 p (n :: beBytes 6 t0.toNat))
  | .hold p th => some (frameFrom 3 2 p (beBytes 6 th.toNat))
  | .resume p tr => some (frameFrom 3 3 p (beBytes 6 tr.toNat))
  | .stop p fade => some (frameFrom 3 4 p (beBytes 2 fade.toNat))
  | .trigger p n press => some (frameFrom 3 5 p (n :: beBytes 6 press.toNat))
  | .standby p => some (frameFrom 3 6 p [])
  | .wake p => some (frameFrom 3 7 p [])
  | .clearHalt p => some (frameFrom 3 8 p [])
  | .clearFaults p target => some (frameFrom 3 9 p [target])
  | .resetStation p target _ => some (frameFrom 3 10 p [target])
  | .statusQueryGeneral p target tag => some (frameFrom 4 0 p [target, 0, tag])
  | .statusQueryPumps p target tag => some (frameFrom 4 0 p [target, 1, tag])
  | .statusQueryFixtures p target tag => some (frameFrom 4 0 p [target, 2, tag])
  | .statusQueryPeers p target tag => some (frameFrom 4 0 p [target, 3, tag])
  | .statusQueryMemory p target tag => some (frameFrom 4 0 p [target, 4, tag])
  | .statusQueryFaults p target tag => some (frameFrom 4 0 p [target, 5, tag])
  | .statusQueryUnknownSelector p target selector tag => some (frameFrom 4 0 p [target, selector, tag])
  | .statusReply p payload => some (frameFrom 4 1 p payload)
  | .pageRequest p n g q => some (frameFrom 5 0 p [n, g, q])
  | .segmentDefine p f => some (frameFrom 6 0 p f.bytes)
  | .pageData p f => some (frameFrom 6 1 p f.bytes)
  | .powerOn .. | .configReadComplete _ | .resetPinAssert | .resetPinRelease _ | .listenEnd _ | .frameBoundary _
  | .warmupEnd _ | .t0Reached | .enterHeld _ | .resumeBoundary _ | .endActionDue | .endingComplete _
  | .cueReadComplete | .restExpiry .. | .softStartEnd .. | .minimumRunEnd .. | .feedbackAbsenceLock ..
  | .stoppingDriveZero .. | .spacingTimerExpiry | .claimGoneOut | .definitionAnswer | .contentEnd _ | .outputPair
  | .rowReadComplete | .walkComplete | .mapRegionAccessComplete | .queuedChangeApply | .showSelectTaken
  | .segmentDefineTaken | .pageDataTaken | .chunkWriteComplete | .fetchTimerExpiry | .pageRequestQueue
  | .pageRequestGoneOut | .serveDelayEnd | .serveReadIssue | .serveReadComplete | .pageDataGoneOut | .initWaitEnd
  | .initPrechargeEnd | .initRefreshEnd | .initModeEnd | .grantPoint | .debtRise | .bankActivateDone _
  | .bankPrechargeDone _ | .transmitStart _ | .transmitError | .muteEnd _ | .beaconGoneOut | .stopAssertGoneOut
  | .statusReplyGoneOut | .yieldIdleExpiry | .frameDiscarded _ | .levelReadingValid _ | .windReadingValid _
  | .cutoutEnd _ | .stopInputActive | .stopInputInactive | .feedbackChange .. => none

end Sys2Proof.Machine
end

