-- ==== Sys2Proof/Safety.lean ====
section
/-!
DEFINITION. The terms claims are stated in: when a frame is heard, when a boundary leaves the level and the wind as they
are, and the conditions that every step keeps (spec/03, R59; spec/04, R83; spec/06, R113; spec/07, R137; spec/09, R174;
spec/01, R20, R46, R73; the capacities of R35, R119 to R132, R154, R163, R185).
-/
namespace Sys2Proof.Machine

/-! ## Frames heard -/

/-- The station receives frames, and this one comes from another station. -/
abbrev State.hears (s : State) (sender : Position) : Prop := s.live = true ∧ sender ≠ s.own

/-- The sender position of a frame; none for a command that is no frame accepted from the link. -/
def sender? : Instr → Option Position
  | .resetStation p _ _ | .wake p | .standby p | .showSelect p _ | .go p _ _ | .hold p _ | .resume p _ | .stop p _
  | .stopAssert p | .clearHalt p | .trigger p _ _ | .startClaim p _ _ | .segmentDefine p _ | .pageData p _
  | .pageRequest p _ _ _ | .statusReply p _ | .statusQueryGeneral p _ _ | .statusQueryPumps p _ _
  | .statusQueryFixtures p _ _ | .statusQueryPeers p _ _ | .statusQueryMemory p _ _ | .statusQueryFaults p _ _
  | .beacon p _ _ | .clearFaults p _ | .statusQueryUnknownSelector p _ _ _ => some p
  | .powerOn .. | .configReadComplete _ | .resetPinAssert | .resetPinRelease _ | .listenEnd _ | .frameBoundary _
  | .warmupEnd _ | .t0Reached | .enterHeld _ | .resumeBoundary _ | .endActionDue | .endingComplete _
  | .cueReadComplete | .restExpiry .. | .softStartEnd .. | .minimumRunEnd .. | .feedbackAbsenceLock ..
  | .stoppingDriveZero .. | .spacingTimerExpiry | .claimGoneOut | .definitionAnswer | .contentEnd _ | .outputPair
  | .rowReadComplete | .walkComplete | .mapRegionAccessComplete | .queuedChangeApply | .showSelectTaken
  | .segmentDefineTaken | .pageDataTaken | .chunkWriteComplete | .fetchTimerExpiry | .pageRequestQueue
  | .pageRequestGoneOut | .serveDelayEnd | .serveReadIssue | .serveReadComplete | .pageDataGoneOut | .initWaitEnd
  | .initPrechargeEnd | .initRefreshEnd | .initModeEnd | .grantPoint | .debtRise | .bankActivateDone _
  | .bankPrechargeDone _ | .transmitStart _ | .transmitError | .muteEnd _ | .beaconGoneOut | .stopAssertGoneOut
  | .statusReplyGoneOut | .yieldIdleExpiry | .frameDiscarded _ | .levelReadingValid _ | .windReadingValid _
  | .cutoutEnd _ | .stopInputActive | .stopInputInactive | .feedbackChange .. => none

/-- The command marks a boundary, or names what one brings about (R1). -/
def boundary? : Instr → Bool
  | .listenEnd _ | .frameBoundary _ | .warmupEnd _ | .enterHeld _ | .resumeBoundary _ | .endingComplete _
  | .restExpiry .. | .softStartEnd .. | .minimumRunEnd .. | .feedbackAbsenceLock .. | .stoppingDriveZero ..
  | .muteEnd _ | .levelReadingValid _ | .windReadingValid _ | .cutoutEnd _ => true
  | .powerOn .. | .configReadComplete _ | .resetPinAssert | .resetPinRelease _ | .resetStation .. | .wake _
  | .standby _ | .showSelect .. | .go .. | .t0Reached | .hold .. | .resume .. | .stop .. | .endActionDue
  | .stopAssert _ | .clearHalt _ | .trigger .. | .cueReadComplete | .spacingTimerExpiry | .startClaim ..
  | .claimGoneOut | .definitionAnswer | .contentEnd _ | .outputPair | .rowReadComplete | .walkComplete
  | .mapRegionAccessComplete | .queuedChangeApply | .segmentDefine .. | .pageData .. | .showSelectTaken
  | .segmentDefineTaken | .pageDataTaken | .chunkWriteComplete | .fetchTimerExpiry | .pageRequestQueue
  | .pageRequestGoneOut | .pageRequest .. | .serveDelayEnd | .serveReadIssue | .serveReadComplete
  | .pageDataGoneOut | .initWaitEnd | .initPrechargeEnd | .initRefreshEnd | .initModeEnd | .grantPoint
  | .debtRise | .bankActivateDone _ | .bankPrechargeDone _ | .transmitStart _ | .transmitError | .beaconGoneOut
  | .stopAssertGoneOut | .statusReplyGoneOut | .yieldIdleExpiry | .frameDiscarded _ | .statusReply ..
  | .statusQueryGeneral .. | .statusQueryPumps .. | .statusQueryFixtures .. | .statusQueryPeers ..
  | .statusQueryMemory .. | .statusQueryFaults .. | .beacon .. | .stopInputActive | .stopInputInactive
  | .feedbackChange .. | .clearFaults .. | .statusQueryUnknownSelector .. => false

/-- The state in which an accepted frame is acted on: its reception is over, and the yield count is 0 (R158, R162). -/
def State.afterFrame (s : State) : State := s.onLiu Liu.frameHeard

/-! ## Reset points -/

/-- The table writes of the map-region queue, in order (R114). -/
def Cm.writesQueued (c : Cm) : List TableWrite :=
  c.mapQ.filterMap fun e =>
    match e with
    | .write w => some w
    | .walk _ => none

/-- What a reset point leaves of `s` (R194, R46, R149): outputs at 0, voices idle, the line given up and the show with it;
what is in flight with the memory controller is left without effect, but for table writes; basin time, show memory, its
controller and tables, the peers and the inputs go on. -/
def State.quietedTo (s t : State) : Prop :=
  t.st.cold = false ∧ t.st.params = s.st.params ∧
    (∀ n : Channel, t.driveOutput n = 0) ∧ (∀ n : Fin 48, t.dimmingOutput n = 0) ∧
    t.au.a.state = .idle ∧ t.au.b.state = .idle ∧ t.liu.tx = none ∧ t.liu.rxStamp = none ∧
    t.ce.readState = .none ∧ t.ce.queue = [] ∧ t.ce.slateEven = {} ∧ t.ce.slateOdd = {} ∧
    t.ce.fetch = s.ce.fetch.map (fun f => { f with live := false }) ∧ t.au.fill = none ∧
    t.liu = { s.liu with tx := none, rxStamp := none, contentQ := [] } ∧
    t.cm = { s.cm with chunk := none, serves := [], mapQ := t.cm.mapQ } ∧
    t.cm.writesQueued = s.cm.writesQueued ∧ (∀ w : Walk, .walk w ∈ t.cm.mapQ → w.askers = [] ∧ w.stale = true) ∧
    t.tbu = s.tbu ∧ t.smc = s.smc ∧ t.pt = s.pt ∧ t.biu = s.biu ∧ t.pending = s.pending

/-! ## Boundaries -/

/-- A station that is up stands at the next boundary, its stop input inactive. -/
abbrev State.atBoundary (s : State) : Prop := s.st.phase = .up ∧ s.boundaryDue = true ∧ s.biu.stopActive = false

/-- The boundary's input and ageing leave the effective level: the own level reading stays as it is, and no record that
carries a level is cleared. -/
abbrev State.levelSteady (s : State) (i : BoundaryInput) : Prop :=
  (s.onBiu (Biu.sampleLevel s.params i.loop)).ownLevel = s.ownLevel ∧
    (s.ownBeaconFrame s.nextFrame = true → (s.pt.leaving.any fun p => p.level.isSome) = false)

/-- The boundary's input and ageing leave the effective wind. -/
abbrev State.windSteady (s : State) (i : BoundaryInput) : Prop :=
  (s.onBiu (Biu.sampleWind s.params i.pulses)).ownWind = s.ownWind ∧
    (s.ownBeaconFrame s.nextFrame = true → (s.pt.leaving.any fun p => p.wind.isSome) = false)

/-- A pump that turns or is about to: CLAIMING, STARTING or RUNNING. -/
def PumpState.active : PumpState → Bool
  | .claiming | .starting | .running => true
  | _ => false

/-- Pump `n` is LOCKED with cause FEEDBACK, its drive 0 and no arrival expected, and the fault is in the list (R63,
R70). -/
def State.lockedOnFeedback (s : State) (n : Channel) : Prop :=
  (s.hu.pump n).state = .locked ∧ (s.hu.pump n).lockFeedback = true ∧ s.driveOutput n = 0 ∧
    (s.hu.pump n).arrival = .void ∧ (s.biu.faults.any fun r => r.kind == .pumpNoFeedback) = true

/-- A voice that sounds or is about to go on: PLAYING or FADING. -/
def VoiceState.sounds : VoiceState → Bool
  | .playing | .fading => true
  | _ => false

/-- The fault list holds a record of kind `k`. -/
def State.faulted (s : State) (k : FaultKind) : Bool := s.biu.faults.any fun r => r.kind == k

/-- The count of the fault list's record of kind `k`; 0 when it holds none (R185). -/
def State.faultCount (s : State) (k : FaultKind) : Nat :=
  ((s.biu.faults.find? fun r => r.kind == k).map fun r => r.count).getD 0

/-! ## Staging and cut scans -/

/-- The action goes to the audio unit's slate (R36). -/
def Action.forVoice (a : Action) : Bool :=
  match a.deed with
  | .prime .. | .start .. | .gain .. | .stopVoice .. => true
  | .jet .. | .light _ | .endShow => false

/-- In frame `k` the actions `st` have been put one after another into the slate of frame `k + 1`, each with its place
there (R36, R37); CUE_LATE has been counted for each whose dispatch frame is `k` or earlier. Nothing else has changed but
the queue and the count of list order. -/
def State.stagedTo (s t : State) (k : Nat) (st : List Action) : Prop :=
  st.foldlM Slate.stage (s.ce.slate (k + 1)) = some (t.ce.slate (k + 1)) ∧ t.ce.slate k = s.ce.slate k ∧
    t.faultCount .cueLate =
      (let late := st.countP fun a => decide (a.dispatch / 960 ≤ k)
       if late = 0 then s.faultCount .cueLate else min 65535 (s.faultCount .cueLate + late)) ∧
    t = { s with
      ce := { s.ce with queue := t.ce.queue, nextOrder := t.ce.nextOrder, slateEven := t.ce.slateEven,
                        slateOdd := t.ce.slateOdd }
      biu := { s.biu with faults := t.biu.faults } }

/-- The cut scan `x` has ended without a cut (R44): the engine stands at its return point, the cue buffer empty. -/
def State.scanGivenUp (s : State) (x : ScanRecord) : State :=
  { s with ce := { s.ce with
      readState := x.returnState, pos := some x.returnPos, closed := x.returnClosed, buffer := none, pageWait := false
      scan := none } }

/-! ## The end of a show and a halt -/

/-- ENDING entered from `s` with a stop fade of `fade` frames (R18, R73, R88, R105): the engine has given the show up,
every height is 0, every lit channel fades to 0 over the fade and every other has no fade, no voice plays on; the segment
base, pumps' states, show memory, tables, peers, inputs and the start-up record are as they were. -/
def State.endsShow (s : State) (fade : Nat) (t : State) : Prop :=
  t.tbu = { s.tbu with state := .ending, hold := {} } ∧
    t.ce.readState = .none ∧ t.ce.pos = none ∧ t.ce.queue = [] ∧ t.ce.slateEven = {} ∧ t.ce.slateOdd = {} ∧
    (∀ n : Channel, (t.hu.pump n).height = 0 ∧ (t.hu.pump n).state = (s.hu.pump n).state) ∧
    (∀ n : Fin 48, t.lu.channels[n].target = 0 ∧
      (s.lu.channels[n].level = 0 ∨ fade = 0 → t.lu.channels[n].level = 0 ∧ t.lu.channels[n].fade = 0) ∧
      (s.lu.channels[n].level ≠ 0 → fade ≠ 0 → t.lu.channels[n].level = s.lu.channels[n].level ∧
        t.lu.channels[n].start = s.lu.channels[n].level ∧ t.lu.channels[n].fade = fade ∧
        t.lu.channels[n].elapsed = 0)) ∧
    (∀ f : Fin 12, t.lu.follow[f] = none) ∧
    (∀ v : VoiceId, (t.au.voice v).state ≠ .playing ∧ (t.au.voice v).state ≠ .priming ∧ (t.au.voice v).prime = none) ∧
    t.cm = s.cm ∧ t.smc = s.smc ∧ t.pt = s.pt ∧ t.biu = s.biu ∧ t.st = s.st ∧ t.pending = s.pending

/-- HALTED entered from `s` (R20, R73, R89, R105): everything of the show discarded, no pump active, every channel of a
present fixture at its halt level with no fade, no voice playing on. -/
def State.haltsTo (s t : State) : Prop :=
  t.tbu.state = .halted ∧ t.tbu.armed = none ∧ t.tbu.segBase = none ∧ t.tbu.hold = {} ∧ t.tbu.outOfStep = false ∧
    t.tbu.basinTime = s.tbu.basinTime ∧
    t.ce.readState = .none ∧ t.ce.queue = [] ∧ t.ce.slateEven = {} ∧ t.ce.slateOdd = {} ∧
    (∀ n : Channel, (t.hu.pump n).state.active = false ∧ (t.hu.pump n).height = 0) ∧
    (∀ (f : Fin 12) (n : Fin 48), n.val / 4 = f.val → s.params.fixtures[f].present = true →
      t.lu.channels[n].level = s.params.fixtures[f].halt * 257 ∧ t.lu.channels[n].fade = 0) ∧
    (∀ v : VoiceId, (t.au.voice v).state ≠ .playing ∧ (t.au.voice v).prime = none) ∧
    t.cm = s.cm ∧ t.smc = s.smc ∧ t.pt = s.pt ∧ t.st = s.st ∧ t.pending = s.pending

/-! ## What every step keeps -/

/-- The directory, the page tables and show memory are in canonical form. -/
def State.tablesCanonical (s : State) : Prop :=
  Memory.wf s.smc.mem = true ∧ Table.risesFrom none s.cm.dir = true ∧ Table.risesFrom none s.cm.pages = true

/-- The entry holds a physical page (R113). -/
def Pte.holdsPage (e : Pte) : Bool := e.state == .filling || e.state == .present

/-- The physical pages that FILLING and PRESENT entries hold. -/
def Cm.heldPages (c : Cm) : List Nat := (c.pages.filter fun e => e.2.holdsPage).map fun e => e.2.phys

/-- The pages outside the free page set are those held, each once and each one of 4..8191 (R119); each fill record is of
exactly one FILLING entry with the same physical page, and each such entry has its record (R125). -/
def State.pagesConserved (s : State) : Prop :=
  s.cm.taken.Perm s.cm.heldPages ∧ s.cm.taken.Pairwise (· < ·) ∧ (∀ p ∈ s.cm.taken, 4 ≤ p ∧ p ≤ 8191) ∧
    Table.risesFrom none s.cm.pages = true ∧
    (∀ e ∈ s.cm.dir, e.2.length ≤ 1048576) ∧
    (∀ f ∈ s.cm.fills, f.page < 64 ∧ f.id < s.cm.nextId ∧
      Table.get? s.cm.pages (pageKey f.segment f.page) = some { state := .filling, phys := f.phys }) ∧
    (∀ e ∈ s.cm.pages, e.2.state = .filling → ∃ f ∈ s.cm.fills, pageKey f.segment f.page = e.1) ∧
    (s.cm.fills.map fun f => pageKey f.segment f.page).Nodup ∧ (s.cm.fills.map fun f => f.id).Nodup

/-- The committed draw is within the share last computed (R59). -/
def State.drawWithinShare (s : State) : Prop := s.hu.committedDraw s.params ≤ s.hu.share

/-- Every output of a channel is 0, or the value of R82 of its level under the fixture's cover state; a submerged
fixture's cover state is that of the level last compared, and that level is the effective level (R83). -/
def State.lightsGuarded (s : State) : Prop :=
  s.lu.level = s.pt.level ∧
    (∀ f : Fin 12, (s.params.fixtures[f].present && s.params.fixtures[f].submerged) = true →
      s.lu.exposed[f] = decide (s.lu.level < s.params.fixtures[f].cover)) ∧
    ∀ (f : Fin 12) (n : Fin 48), n.val / 4 = f.val →
      s.lu.channels[n].output = 0 ∨
        s.lu.channels[n].output =
          outputValue s.params.fixtures[f] s.lu.trimFactor[f] s.lu.exposed[f] s.lu.channels[n].level

/-- The effective wind and level are those of the sources held, and the basin input unit holds them (R171 to R174). -/
def State.readingsMerged (s : State) : Prop :=
  s.pt.wind = (s.windBest.map (·.2)).getD s.params.fallbackWind ∧ s.pt.level = (s.levelBest.map (·.2)).getD 0 ∧
    s.biu.effWind = s.pt.wind ∧ s.biu.effLevel = s.pt.level

/-- In HALTED and STANDBY no pump turns or is about to (R73); outside ARMED, RUNNING and HELD the cue engine reads no
list and holds no action (R46). -/
def State.stilled (s : State) : Prop :=
  (s.tbu.state = .halted ∨ s.tbu.state = .standby → ∀ n : Channel, (s.hu.pump n).state.active = false) ∧
    (s.tbu.state ≠ .armed → s.tbu.state ≠ .running → s.tbu.state ≠ .held →
      s.ce.readState = .none ∧ s.ce.pos = none ∧ s.ce.queue = [] ∧ s.ce.waiting = none ∧ s.ce.scan = none)

/-- No queue, list or count is above its capacity: the pending queue (R35) and the voice actions of a slate (R40), the
content intake (R120), the map cache (R116), the fill and serve records (R125, R130), the table writes (R114: 64, and up to
8 more that a warm reset queues, R135 and notes/assumptions/50.md), the FETCH, CONTENT and REPLY queues (R154, R132, R163),
the serve reads with the memory controller (R138), the failure, mute and yield counts (R156 to R158), the refresh debt
(R145), and the fault list, one record for each kind (R185). With the CONTENT queue go the reads in flight that will fill
it, with the serve records their numbers, and with the table writes the map region still to be initialised (R135). -/
def State.withinCapacity (s : State) : Prop :=
  s.ce.queue.length ≤ 32 ∧ s.ce.slateEven.voices.length ≤ 8 ∧ s.ce.slateOdd.voices.length ≤ 8 ∧
    s.cm.intake.length ≤ 4 ∧ s.cm.cache.length ≤ 16 ∧ s.cm.fills.length ≤ 8 ∧ s.cm.serves.length ≤ 2 ∧
    s.cm.tableWrites + s.cm.fills.length ≤ 72 ∧
    (s.cm.init = .waiting → s.cm.dir = [] ∧ s.cm.pages = [] ∧ s.cm.tableWrites = 0) ∧
    (s.cm.serves.map fun r => r.id).Nodup ∧ (∀ r ∈ s.cm.serves, r.id < s.cm.nextId) ∧
    s.liu.contentQ.length + 4 * (s.cm.serves.filter Serve.reading).length ≤ 16 ∧
    s.liu.fetchQ.length ≤ 2 ∧ s.liu.replies.length ≤ 4 ∧ s.smc.serve.length ≤ 2 ∧ s.liu.fails ≤ 7 ∧
    s.liu.mute ≤ 50 ∧ s.liu.yieldCount ≤ 4 ∧ s.smc.debt ≤ 8 ∧ (s.biu.faults.map (·.kind)).Nodup

end Sys2Proof.Machine
end

