-- ==== Sys2Proof/WellFormed.lean ====
section
/-!
DEFINITION. The commands that can come about: operands within the formats of the manual (spec/08, R151 to R159; spec/11,
R191, R196). A command outside them still has a meaning; it is no event of a real station.
-/
namespace Sys2Proof

open Sys2Proof.Machine

/-- The configuration memory holds 256 bytes, and may answer short of them (R191). -/
def recordFits (r : List Byte) : Bool := decide (r.length ≤ 256)

/-- A chunk is 64 bytes (R198). -/
def chunkFits (f : PageDataFields) : Bool := f.data.length == 64

/-- The payload of a STATUS_REPLY is 5 to 80 bytes (R196). -/
def replyFits (p : List Byte) : Bool := decide (5 ≤ p.length) && decide (p.length ≤ 80)

/-- An unknown selector is above 5 (R196). -/
def selectorUnknown (n : Byte) : Bool := decide (5 < n.toNat)

/-- Rivals for the line: at most 31 other stations, none of class 7 (R152, R153). -/
def rivalsFit (l : List Byte) : Bool := decide (l.length ≤ 31) && l.all fun b => decide (b.toNat < 224)

/-- The levels heard are those of a frame that a check discards (R159). -/
def levelsDiscarded (l : List Bool) : Bool :=
  match checkFrame l with
  | .discarded _ => true
  | .accepted | .unfinished => false

/-- A BEACON takes at most 29 ticks on the line: 233 bits, at most 58 stuff bits, and the end delimiter, at 2 µs
(R151, R152). -/
def elapsedFits (n : Nat) : Bool := decide (n ≤ 29)

/-- Frames travel with their formats; the loop's mean current is below 2^16 µA, and a frame counts fewer than 2^16
pulses. -/
def inputFits (i : BoundaryInput) : Bool := decide (i.loop < 65536) && decide (i.pulses < 65536)

/-- A command is well formed. -/
def Instr.wellFormed : Instr → Bool
  | .configReadComplete r => recordFits r
  | .pageData _ f => chunkFits f
  | .statusReply _ p => replyFits p
  | .statusQueryUnknownSelector _ _ n _ => selectorUnknown n
  | .transmitStart l => rivalsFit l
  | .frameDiscarded l => levelsDiscarded l
  | .beacon _ _ n => elapsedFits n
  | .listenEnd i | .frameBoundary i | .warmupEnd i | .enterHeld i | .resumeBoundary i | .endingComplete i
  | .restExpiry _ i | .softStartEnd _ i | .minimumRunEnd _ i | .feedbackAbsenceLock _ i
  | .stoppingDriveZero _ i | .muteEnd i | .levelReadingValid i | .windReadingValid i | .cutoutEnd i => inputFits i
  | .powerOn .. | .resetPinAssert | .resetPinRelease _ | .resetStation .. | .wake _ | .standby _ | .showSelect ..
  | .go .. | .t0Reached | .hold .. | .resume .. | .stop .. | .endActionDue | .stopAssert _ | .clearHalt _
  | .trigger .. | .cueReadComplete | .spacingTimerExpiry | .startClaim .. | .claimGoneOut | .definitionAnswer
  | .contentEnd _ | .outputPair | .rowReadComplete | .walkComplete | .mapRegionAccessComplete
  | .queuedChangeApply | .segmentDefine .. | .showSelectTaken | .segmentDefineTaken | .pageDataTaken
  | .chunkWriteComplete | .fetchTimerExpiry | .pageRequestQueue | .pageRequestGoneOut | .pageRequest ..
  | .serveDelayEnd | .serveReadIssue | .serveReadComplete | .pageDataGoneOut | .initWaitEnd | .initPrechargeEnd
  | .initRefreshEnd | .initModeEnd | .grantPoint | .debtRise | .bankActivateDone _ | .bankPrechargeDone _
  | .transmitError | .beaconGoneOut | .stopAssertGoneOut | .statusReplyGoneOut | .yieldIdleExpiry
  | .statusQueryGeneral .. | .statusQueryPumps .. | .statusQueryFixtures .. | .statusQueryPeers ..
  | .statusQueryMemory .. | .statusQueryFaults .. | .stopInputActive | .stopInputInactive | .feedbackChange ..
  | .clearFaults .. => true

end Sys2Proof
end

