-- ==== Sys2Proof/Certificates/Slice0/Obligations.lean ====
section
/-!
DEFINITION. The statements about the station, each from the rules its docstring cites.
-/

open Sys2Proof Sys2Proof.Machine

/-! ## The queue and start-up (spec/11, spec/01) -/

/-- A step runs the command at the front of the queue on the state with the queue's rest; on an empty queue the station
idles, which is the model's choice (notes/assumptions/4.md). -/
def Obligations.StepRunsFrontCommand : Prop :=
  (∀ (c : Instr) (rest : List Instr) (s : State),
    step { s with pending := c :: rest } = exec c { s with pending := rest }) ∧
  ∀ s : State, s.pending = [] → step s = .next s

/-- Power-on begins from nothing (R192, and the tables of R9, R75, R90, R111, R148, R164, R185): basin time 0, STANDBY,
every output 0, the line silent, the fault list empty, the memory controller in INIT_WAIT with no request and no debt;
the strap is read and the filters start from the levels held. Show memory then reads as nothing written
(notes/assumptions/2.md, the model's choice). -/
def Obligations.PowerOnStartsFromNothing : Prop :=
  ∀ (strap : Position) (stopOpen : Bool) (contacts : BitVec 8) (s : State), ∃ t,
    exec (.powerOn strap stopOpen contacts) s = .next t ∧
    t.st.phase = .reading ∧ t.own = strap ∧ t.st.cause = .powerOn ∧ t.tbu = {} ∧ t.ce = {} ∧
    (∀ n : Channel, t.driveOutput n = 0 ∧ (t.hu.pump n).state = .off) ∧ (∀ n : Fin 48, t.dimmingOutput n = 0) ∧
    t.audioOutput = (0, 0) ∧ t.pairNow = (0, 0) ∧ t.liu = {} ∧ t.pt.peers = Vector.replicate 32 none ∧
    t.smc.ctl = .initWait ∧ t.smc.debt = 0 ∧ (∀ c : ReqClass, t.smc.slot c = none) ∧ t.smc.mem = [] ∧
    t.biu.faults = [] ∧ t.biu.stopActive = stopOpen ∧ (∀ n : Channel, t.biu.feedback[n] = contacts.getLsbD n.val) ∧
    t.pending = s.pending

/-- The configuration read's end (R191, R192, and the reset values of R9, R47, R75, R90, R111, R135, R164, R175): the
record is judged and its parameters taken, basin time is kept, the show state is STANDBY, nothing turns, lights or sounds,
every peer record is ABSENT, and an invalid record alone is a fault. Pumps come up OFF after power-on and RESTING with the
rest time after a warm reset, LOCKED with cause DRY under a dry-run level above 0. The content map begins from nothing
after power-on; a warm reset keeps directory, current show, PRESENT and UNAVAILABLE pages and queued table writes, makes
FILLING pages ABSENT with their physical pages free, and queues the writes of these. Show memory and the filters are kept.
That the last frame number stays after power-on is log entry 9, that a pump which DRY locks keeps its rest count is log
entry 44, that the writes join the queue without a test for room is log entry 50, and that check word bytes the memory has
not given are read as 0 is log entry 70: the model's choices. -/
def Obligations.ConfigurationTaken : Prop :=
  ∀ (r : List Byte) (s : State), s.st.phase = .reading → ∃ t,
    exec (.configReadComplete r) s = .next t ∧
    t.st.valid = recordValid r ∧ t.params = paramsTaken r s.own ∧ t.st.checkWord = recWord r 254 ∧
    t.st.phase = (if s.smc.ctl = .ready then .listening else .memory) ∧ t.st.listen = 0 ∧
    t.tbu = { basinTime := s.tbu.basinTime,
              frameNo := if s.st.cold then s.tbu.frameNo else s.tbu.basinTime / 960 } ∧
    t.ce.readState = .none ∧ t.ce.queue = [] ∧ t.ce.index = 0 ∧ t.ce.lastTrigger = none ∧
    (∀ n : Channel, t.driveOutput n = 0 ∧ (t.hu.pump n).state.active = false ∧ (t.hu.pump n).arrival = .void) ∧
    (∀ n : Channel, t.params.pumps[n].present = false ∨ s.st.cold = true → (t.hu.pump n).restCount = 0 ∧
      (t.hu.pump n).state =
        if t.params.pumps[n].present = true ∧ 0 < t.params.dryRun then .locked else .off) ∧
    (∀ n : Channel, t.params.pumps[n].present = true → s.st.cold = false →
      (t.hu.pump n).restCount = t.params.pumps[n].rest * 50 ∧
      (t.hu.pump n).state = if 0 < t.params.dryRun then .locked else .resting) ∧
    (∀ n : Channel, (t.hu.pump n).lockDry = (t.params.pumps[n].present && decide (0 < t.params.dryRun)) ∧
      (t.hu.pump n).lockFeedback = false ∧ (t.hu.pump n).height = 0 ∧ (t.hu.pump n).requested = 0) ∧
    t.hu.demand = 0 ∧ t.hu.share = 0 ∧ t.hu.scale = 1024 ∧
    t.hu.spacing = (paramsTaken r s.own).spacing * 48 ∧ t.hu.claimHolder = none ∧
    (∀ n : Fin 48, t.lu.channels[n].level = 0 ∧ t.dimmingOutput n = 0) ∧ t.lu.follow = Vector.replicate 12 none ∧
    t.au.a.state = .idle ∧ t.au.b.state = .idle ∧ t.au.slots = Vector.replicate 32 {} ∧ t.au.fill = none ∧
    t.liu = {} ∧ t.pt.peers = Vector.replicate 32 none ∧
    t.pt.wind = t.params.fallbackWind ∧ t.pt.windSource = none ∧ t.pt.level = 0 ∧ t.pt.levelSource = none ∧
    t.cm.cache = [] ∧ t.cm.fills = [] ∧ t.cm.serves = [] ∧ t.cm.intake = [] ∧ t.cm.chunk = none ∧
    t.cm.waiting = [] ∧ t.cm.storeFull = false ∧
    (s.st.cold = true → t.cm.dir = [] ∧ t.cm.pages = [] ∧ t.cm.taken = [] ∧ t.cm.showId = 0) ∧
    (s.st.cold = false → s.tablesCanonical → t.cm.dir = s.cm.dir ∧ t.cm.showId = s.cm.showId ∧
      (∀ g q, q < 64 → t.cm.pageState g q =
        if s.cm.pageState g q = .filling then .absent else s.cm.pageState g q) ∧
      t.cm.taken = (s.cm.pages.filter fun e => e.2.state == .filling).foldl (fun l e => l.erase e.2.phys) s.cm.taken ∧
      (s.cm.init ≠ .waiting → ∃ l, t.cm.writesQueued = s.cm.writesQueued ++ l ∧
        ∀ e ∈ s.cm.pages, e.2.state = .filling → ∃ w ∈ l, w.block = 32 + e.1 / 16)) ∧
    t.biu.faults = (if recordValid r then []
      else [{ kind := .configInvalid, first := s.tbu.basinTime, count := 1, detail := none }]) ∧
    t.biu.levelState = (if 0 < t.params.dryRun then .dry else .normal) ∧
    t.biu.stopActive = s.biu.stopActive ∧ t.biu.feedback = s.biu.feedback ∧ t.smc.mem = s.smc.mem ∧
    t.smc.ctl = s.smc.ctl ∧ t.smc.debt = s.smc.debt ∧ t.pending = s.pending

/-- Out-of-range values of a valid record are brought to the range by R8, and no fault is counted for them; every other
value is taken as it is. -/
def Obligations.TimebaseParametersClamped : Prop :=
  ∀ (r : List Byte) (s : State), s.st.phase = .reading → recordValid r = true → ∃ t,
    exec (.configReadComplete r) s = .next t ∧ t.biu.faults = [] ∧
    (480 < field r 4 2 → t.params.linkDelay = 480) ∧ (field r 4 2 ≤ 480 → t.params.linkDelay = field r 4 2) ∧
    (48 < recByte r 6 → t.params.slew = 48) ∧ (recByte r 6 ≤ 48 → t.params.slew = recByte r 6) ∧
    (500 < field r 7 2 → t.params.endFade = 500) ∧ (field r 7 2 ≤ 500 → t.params.endFade = field r 7 2)

/-- What the outputs and the line are at a reset point (R194), that a show is given up (R46), and that what is in flight with
the memory controller has no effect any more, but for table writes (R149). That every other value (basin time, tables,
peers, inputs) stays until the configuration has been read, and that RESET_STATION carries the strap as it is read again,
is log entry 35, the model's choice. -/
def Obligations.ResetPointQuietsOutputs : Prop :=
  (∀ s : State, s.powered = true → ∃ t, exec .resetPinAssert s = .next t ∧ t.st.phase = .pinHeld ∧
    t.st.cause = .resetPin ∧ t.own = s.own ∧ s.quietedTo t) ∧
  (∀ (p : Position) (target : Byte) (strap : Position) (s : State), s.hears p → target.toNat = s.own.val → ∃ t,
    exec (.resetStation p target strap) s = .next t ∧ t.st.phase = .reading ∧ t.st.cause = .resetStation ∧
    t.own = strap ∧ s.afterFrame.quietedTo t) ∧
  (∀ (p : Position) (target : Byte) (strap : Position) (s : State), s.hears p → target.toNat ≠ s.own.val →
    exec (.resetStation p target strap) s = .next s.afterFrame) ∧
  (∀ (strap : Position) (s : State), s.st.phase = .pinHeld →
    exec (.resetPinRelease strap) s = .next { s with st := { s.st with phase := .reading, position := strap } })

/-! ## Basin time and boundaries (spec/01) -/

/-- A boundary that basin time has not reached is not marked (R1); at one it has reached the frame number becomes the
next, and without a correction basin time stays as it is. While the station holds at a reset point or reads its
configuration a boundary is marked and nothing more (R192, R194). That the command changes nothing before the boundary is
due is log entry 5, and what such a boundary does not do is log entry 9: the model's choices. -/
def Obligations.BoundaryMarksNextFrame : Prop :=
  (∀ (i : BoundaryInput) (s : State), s.boundaryDue = false → exec (.frameBoundary i) s = .next s) ∧
  (∀ (i : BoundaryInput) (s : State), s.st.phase = .up → s.boundaryDue = true →
    s.ownBeaconFrame (s.tbu.frameNo + 1) = false → ∃ t, exec (.frameBoundary i) s = .next t ∧
      t.tbu.frameNo = s.tbu.frameNo + 1 ∧ t.tbu.basinTime = s.tbu.basinTime ∧
      t.tbu.lastCorrection = s.tbu.lastCorrection ∧ t.liu.tx = s.liu.tx ∧ t.liu.beacon = s.liu.beacon ∧
      t.pt.peers = s.pt.peers ∧ t.st = s.st ∧ t.smc.mem = s.smc.mem ∧ t.pending = s.pending) ∧
  (∀ (i : BoundaryInput) (s : State), s.live = false → s.boundaryDue = true → ∃ t,
    exec (.frameBoundary i) s = .next t ∧ t.tbu.frameNo = s.tbu.frameNo + 1 ∧
      t = { s with tbu := { s.tbu with frameNo := t.tbu.frameNo, lastStop := t.tbu.lastStop } })

/-- An own beacon boundary of a station that is up (R2, R4, R5, R7): the last median is the lower median of own 0 and the
FRESH samples as the boundary's inputs and ageing leave them; the correction is the median, in the show-bearing states
clamped to the slew; the frame number follows R5; OUT_OF_STEP is set above 960, kept above 480 and clear at 480 or below,
and clear outside the show-bearing states; a beacon stands in its slot. The correction moves every sample that the ageing
leaves (R168) and the stamp of a reception in progress with basin time (R6), as every correction does, and no time of the
show; a correction of 0 changes no sample. That
ageing comes before the median is log entry 11, and basin time mod 2^48 is log entry 13: the model's choices. -/
def Obligations.OwnBeaconBoundaryCorrects : Prop :=
  (∀ (i : BoundaryInput) (s : State), s.st.phase = .up → s.boundaryDue = true →
    s.ownBeaconFrame (s.tbu.frameNo + 1) = true → ∃ t, exec (.frameBoundary i) s = .next t ∧
      lowerMedian (0 :: (s.pt.peers.toList.filterMap fun p => p.bind Peer.older).filterMap fun p =>
        if p.fresh then p.sample else none) = some t.tbu.lastMedian ∧
      (s.tbu.state.bearing = true → t.tbu.lastCorrection.natAbs ≤ s.params.slew) ∧
      (s.tbu.state.bearing = true → s.params.slew ≤ 48 →
        t.tbu.lastCorrection = max (-(s.params.slew : Int)) (min (s.params.slew : Int) t.tbu.lastMedian)) ∧
      (s.tbu.state.bearing = false → 0 ≤ (s.tbu.basinTime : Int) + t.tbu.lastMedian →
        t.tbu.lastCorrection = t.tbu.lastMedian) ∧
      (s.tbu.state.bearing = false → (s.tbu.basinTime : Int) + t.tbu.lastMedian < 0 →
        t.tbu.lastCorrection = -(s.tbu.basinTime : Int)) ∧
      (t.tbu.basinTime : Int) = ((s.tbu.basinTime : Int) + t.tbu.lastCorrection) % 2 ^ 48 ∧
      t.tbu.frameNo = (if t.tbu.lastCorrection.natAbs < 960 then s.tbu.frameNo + 1 else t.tbu.basinTime / 960) ∧
      (s.tbu.state.bearing = true → t.tbu.state.bearing = true → t.tbu.outOfStep =
        if 960 < t.tbu.lastMedian.natAbs then true
        else if 480 < t.tbu.lastMedian.natAbs then s.tbu.outOfStep else false) ∧
      (s.tbu.state.bearing = false ∨ t.tbu.state.bearing = false → t.tbu.outOfStep = false) ∧
      (∀ q : Position, (t.pt.peers[q].bind fun p => p.sample) =
        (s.pt.peers[q].bind fun p => if p.age + 1 < 3 then p.sample else none).map (· - t.tbu.lastCorrection)) ∧
      t.liu.rxStamp = s.liu.rxStamp.map (· + t.tbu.lastCorrection) ∧
      t.liu.beacon.isSome = true ∧ t.pending = s.pending) ∧
  (∀ (s : State) (k : Nat) (c : Int) (q : Position),
    ((s.correct k c).pt.peers[q].bind fun p => p.sample) =
      (s.pt.peers[q].bind fun p => p.sample).map (· - (s.correct k c).tbu.lastCorrection)) ∧
  (∀ (s : State) (k : Nat) (c : Int),
    (s.correct k c).liu.rxStamp = s.liu.rxStamp.map (· + (s.correct k c).tbu.lastCorrection) ∧
    (s.correct k c).tbu.segBase = s.tbu.segBase ∧ (s.correct k c).tbu.armed = s.tbu.armed ∧
    (s.correct k c).tbu.hold = s.tbu.hold ∧ (s.correct k c).ce = s.ce ∧ (s.correct k c).hu = s.hu ∧
    (s.correct k c).au = s.au ∧ (s.correct k c).lu = s.lu) ∧
  ∀ (s : State) (k : Nat), (s.correct k 0).pt = s.pt ∧ (s.correct k 0).tbu.basinTime = s.tbu.basinTime % 2 ^ 48

/-- Counts of boundaries that end at one. The 15th of a listen puts the station up (R193): basin time steps by the lower
median of the stored samples, without own 0 (R9), and every stored sample with it (R6); WIND_SOURCE_LOST, LEVEL_SOURCE_LOST
and DRY_RUN_LOCKOUT are raised for what then has no source or is DRY (R173, R182), each once, and not otherwise; auto-wake
wakes the station under its conditions (R11). Without a sample basin time becomes 0 after power-on and is kept after a warm
reset (R9); that the frame number becomes 0 with it, and that the step is the last correction, is log entry 12; that this
boundary's ageing comes before the step is log entry 11 and basin time mod 2^48 is entry 13: the model's choices. The 8th in
WARMUP leads to IDLE (R12); the 50th in MUTE ends it (R157). -/
def Obligations.CountedBoundariesEnd : Prop :=
  (∀ (i : BoundaryInput) (s : State), s.st.phase = .listening → s.st.listen = 14 → s.boundaryDue = true →
    s.tbu.state = .standby → s.biu.stopActive = false → ∃ t, exec (.listenEnd i) s = .next t ∧ t.st.phase = .up ∧
      t.tbu.state = (if s.params.autoWake && s.st.valid && !s.tbu.conflict then .warmup else .standby) ∧
      (s.pt.peers = Vector.replicate 32 none → s.st.cold = true → t.tbu.basinTime = 0 ∧ t.tbu.frameNo = 0) ∧
      (s.pt.peers = Vector.replicate 32 none → s.st.cold = false → t.tbu.basinTime = s.tbu.basinTime) ∧
      (let aged (q : Position) : Option Peer :=
        if s.ownBeaconFrame (s.tbu.frameNo + 1) then s.pt.peers[q].bind Peer.older else s.pt.peers[q]
       let samples : List Int := (List.finRange 32).filterMap fun q => (aged q).bind fun p => p.sample
       (∀ m, lowerMedian samples = some m →
        t.tbu.lastCorrection = (if (s.tbu.basinTime : Int) + m < 0 then -(s.tbu.basinTime : Int) else m) ∧
        (t.tbu.basinTime : Int) = ((s.tbu.basinTime : Int) + t.tbu.lastCorrection) % 2 ^ 48 ∧
        t.tbu.frameNo =
          (if t.tbu.lastCorrection.natAbs < 960 then s.tbu.frameNo + 1 else t.tbu.basinTime / 960) ∧
        ∀ q : Position, (t.pt.peers[q].bind fun p => p.sample) =
          ((aged q).bind fun p => p.sample).map (· - t.tbu.lastCorrection)) ∧
       (samples = [] → t.tbu.basinTime = if s.st.cold then 0 else s.tbu.basinTime)) ∧
      t.faultCount .windSourceLost =
        (if t.pt.windSource = none then min 65535 (s.faultCount .windSourceLost + 1)
         else s.faultCount .windSourceLost) ∧
      t.faultCount .levelSourceLost =
        (if t.pt.levelSource = none then min 65535 (s.faultCount .levelSourceLost + 1)
         else s.faultCount .levelSourceLost) ∧
      t.faultCount .dryRunLockout =
        (if t.biu.levelState = .dry then min 65535 (s.faultCount .dryRunLockout + 1)
         else s.faultCount .dryRunLockout) ∧
      t.liu.beacon = s.liu.beacon ∧ t.smc.mem = s.smc.mem ∧ t.pending = s.pending) ∧
  (∀ (i : BoundaryInput) (s : State), s.live = true → s.boundaryDue = true → s.tbu.state = .warmup →
    s.tbu.warmup = 7 → s.biu.stopActive = false → ∃ t, exec (.warmupEnd i) s = .next t ∧ t.tbu.state = .idle ∧
      t.smc.mem = s.smc.mem ∧ t.pending = s.pending) ∧
  (∀ (i : BoundaryInput) (s : State), s.live = true → s.boundaryDue = true → s.liu.mute = 1 → ∃ t,
    exec (.muteEnd i) s = .next t ∧ t.liu.mute = 0 ∧ t.liu.mutedSince = s.liu.mutedSince ∧
      t.liu.fails = s.liu.fails ∧ t.smc.mem = s.smc.mem ∧ t.pending = s.pending)

/-- The pending hold takes effect at the first boundary at or after Th (R16): HELD, the hold boundary recorded; the cue
engine stages nothing (R45), the light unit and the audio unit record the frame (R87, R104), and no voice plays on. That Th
stays in the hold record while HELD is log entry 14, the model's choice. -/
def Obligations.HoldEntered : Prop :=
  ∀ (i : BoundaryInput) (s : State) (th : Nat), s.atBoundary → s.tbu.state = .running → s.tbu.hold.th = some th →
    th ≤ s.nextBoundary → s.ce.endDue (s.tbu.basinTime + s.params.slew) = false → ∃ t,
      exec (.enterHeld i) s = .next t ∧ t.tbu.state = .held ∧ t.tbu.hold.boundary = some s.nextBoundary ∧
      t.tbu.hold.th = some th ∧ t.tbu.segBase = s.tbu.segBase ∧ t.ce.queue = s.ce.queue ∧
      t.lu.holdFrame = some s.nextFrame ∧ t.au.holdFrame = some s.nextFrame ∧
      (∀ v : VoiceId, (t.au.voice v).state.sounds = false) ∧ t.smc.mem = s.smc.mem ∧ t.pending = s.pending

/-- The pending resume takes effect at the first boundary at or after Tr (R17, R45): RUNNING; the segment base, the
dispatch times of the queue and the re-arm end move by the frames held, and the hold record is cleared. First of a list
that is not being read, with what stays in the queue; then in every read state, READING and SCANNING included: the passes
of the boundary, the engine's own reading among them, begin from a state in which all this has been done and the read state
and position are as they were. An END action then due takes effect (R34). The order of the boundary's work is log entry 11,
that the units' hold frames go at the resume is log entry 56, that a resume below the hold boundary moves nothing is log entry
71, and that a pending START's start time and a pending LIGHT's cue frame move with their dispatch times is log entry 72: the
model's choices. -/
def Obligations.ResumeShiftsShow : Prop :=
  let moved (d : Nat) (b : Action) : Action := { b with
    dispatch := b.dispatch + d
    deed := match b.deed with
      | .start v g p gain ts => .start v g p gain (ts + d)
      | .light x => .light { x with cueFrame := x.cueFrame + d / 960 }
      | x => x }
  (∀ (i : BoundaryInput) (s : State) (tr h base : Nat), s.atBoundary → s.tbu.state = .held →
    s.tbu.hold.tr = some tr → s.tbu.hold.boundary = some h → s.tbu.segBase = some base → tr ≤ s.nextBoundary →
    s.ce.readState ≠ .reading → s.ce.readState ≠ .scanning → (s.ce.queue.any fun a => a.deed == .endShow) = false →
    ∃ t, exec (.resumeBoundary i) s = .next t ∧ t.tbu.state = .running ∧ t.tbu.hold = {} ∧
      t.tbu.segBase = some (base + (s.nextBoundary - h)) ∧
      (∀ a ∈ t.ce.queue, ∃ b ∈ s.ce.queue, a = moved (s.nextBoundary - h) b) ∧
      t.ce.running = s.ce.running.map (fun r => { r with rearmEnd := r.rearmEnd + (s.nextBoundary - h) }) ∧
      t.lu.holdFrame = none ∧ t.au.holdFrame = none ∧ t.smc.mem = s.smc.mem ∧ t.pending = s.pending) ∧
  (∀ (i : BoundaryInput) (s : State) (tr h base : Nat), s.atBoundary → s.tbu.state = .held →
    s.tbu.hold.tr = some tr → s.tbu.hold.boundary = some h → s.tbu.segBase = some base → tr ≤ s.nextBoundary →
    (∀ a ∈ s.ce.queue, a.deed = .endShow → s.nextBoundary < a.dispatch + (s.nextBoundary - h)) →
    ∃ (x t : State) (c : Int), exec (.resumeBoundary i) s = .next t ∧
      t = x.atReading s.nextBoundary (fun y => y.passes s.nextFrame s.nextBoundary c .running false true) ∧
      x.tbu.state = .running ∧ x.tbu.hold = {} ∧ x.tbu.segBase = some (base + (s.nextBoundary - h)) ∧
      x.ce = { s.ce with
        queue := s.ce.queue.map (moved (s.nextBoundary - h))
        running := s.ce.running.map fun r => { r with rearmEnd := r.rearmEnd + (s.nextBoundary - h) } } ∧
      t.lu.holdFrame = none ∧ t.au.holdFrame = none ∧ t.smc.mem = s.smc.mem ∧ t.pending = s.pending) ∧
  (∀ (i : BoundaryInput) (s : State) (tr h : Nat) (a : Action), s.atBoundary → s.tbu.state = .held →
    s.tbu.hold.tr = some tr → s.tbu.hold.boundary = some h → tr ≤ s.nextBoundary →
    a ∈ s.ce.queue → a.deed = .endShow → a.dispatch + (s.nextBoundary - h) ≤ s.nextBoundary → ∃ t,
      exec (.resumeBoundary i) s = .next t ∧ t.tbu.state = .ending ∧ t.tbu.hold = {} ∧ t.ce.readState = .none ∧
      t.ce.queue = [] ∧ t.smc.mem = s.smc.mem ∧ t.pending = s.pending)

/-- ENDING completes at a boundary at which every pump is OFF, RESTING or LOCKED, no fade is in progress and both voices
are IDLE (R19): the station goes to IDLE, and the armed record and the segment base are discarded. -/
def Obligations.EndingCompletes : Prop :=
  ∀ (i : BoundaryInput) (s : State), s.atBoundary → s.tbu.state = .ending →
    (∀ n : Channel, (s.hu.pump n).state = .off ∨ (s.hu.pump n).state = .resting ∨ (s.hu.pump n).state = .locked) →
    (∀ n : Fin 48, s.lu.channels[n].fade ≤ s.lu.channels[n].elapsed) →
    s.au.a.state = .idle → s.au.b.state = .idle → ∃ t,
      exec (.endingComplete i) s = .next t ∧ t.tbu.state = .idle ∧ t.tbu.armed = none ∧ t.tbu.segBase = none ∧
      t.tbu.outOfStep = false ∧ t.smc.mem = s.smc.mem ∧ t.pending = s.pending

/-! ## Pumps at a boundary (spec/03) -/

/-- What step 3 and stage 9 of a pass make of a pump: a rest that expires (R62), the end of soft start (R63), the end of the
minimum run (R64), feedback absent for the 25th pass (R70), and a stopping drive that reaches 0 (R65), also in the pass in
which the pump enters STOPPING at the end of its minimum run (R64). That the 25th absence locks a pump also where a zero target finds its minimum
run passed is log entry 43, the model's choice. -/
def Obligations.PumpEventsAtBoundary : Prop :=
  ∀ (i : BoundaryInput) (s : State) (n : Channel), s.atBoundary → s.levelSteady i →
    s.params.pumps[n].present = true →
    ((s.hu.pump n).state = .resting → (s.hu.pump n).restCount ≤ 1 → ∃ t, exec (.restExpiry n i) s = .next t ∧
      (t.hu.pump n).state = (if (t.hu.pump n).requested = 0 then .off else .claiming) ∧
      ((t.hu.pump n).requested ≠ 0 → (t.hu.pump n).arrival = .pending) ∧ (t.hu.pump n).restCount = 0 ∧
      t.driveOutput n = 0) ∧
    ((s.hu.pump n).state = .starting → s.params.pumps[n].soft ≤ (s.hu.pump n).softCount →
      s.biu.feedback[n] = true → ∃ t, exec (.softStartEnd n i) s = .next t ∧
      (t.hu.pump n).runCount = 0 ∧ (t.hu.pump n).absence = 0 ∧ (t.hu.pump n).state ≠ .starting ∧
      (t.hu.pump n).state ≠ .locked ∧
      (0 < (t.hu.pump n).requested → t.hu.scale = 1024 → s.params.pumps[n].dmin ≤ 4096 →
        (t.hu.pump n).state = .running)) ∧
    ((s.hu.pump n).state = .starting → s.params.pumps[n].soft ≤ (s.hu.pump n).softCount →
      s.biu.feedback[n] = false → ∃ t, exec (.softStartEnd n i) s = .next t ∧ t.lockedOnFeedback n) ∧
    ((s.hu.pump n).state = .running → (s.hu.pump n).runCount + 1 = s.params.pumps[n].minRun * 50 →
      s.biu.feedback[n] = true → ∃ t, exec (.minimumRunEnd n i) s = .next t ∧
      (t.hu.pump n).runCount = s.params.pumps[n].minRun * 50 ∧
      ((t.hu.pump n).requested = 0 → (t.hu.pump n).arrival = .void ∧
        ((t.hu.pump n).state = .stopping ∨ (t.hu.pump n).state = .resting)) ∧
      (0 < (t.hu.pump n).requested → t.hu.scale = 1024 → s.params.pumps[n].dmin ≤ 4096 →
        (t.hu.pump n).state = .running)) ∧
    ((s.hu.pump n).state = .running → (s.hu.pump n).absence = 24 → s.biu.feedback[n] = false → ∃ t,
      exec (.feedbackAbsenceLock n i) s = .next t ∧ t.lockedOnFeedback n) ∧
    ((s.hu.pump n).state = .stopping → (s.hu.pump n).actual ≤ s.params.pumps[n].rampDown → ∃ t,
      exec (.stoppingDriveZero n i) s = .next t ∧ t.driveOutput n = 0 ∧
      ((s.hu.pump n).lockPending = false → (t.hu.pump n).state = .resting ∧
        (t.hu.pump n).restCount = s.params.pumps[n].rest * 50) ∧
      ((s.hu.pump n).lockPending = true → (t.hu.pump n).state = .locked ∧ (t.hu.pump n).lockDry = true ∧
        (t.hu.pump n).lockPending = false)) ∧
    ((s.hu.pump n).state = .running → (s.hu.pump n).runCount + 1 = s.params.pumps[n].minRun * 50 →
      s.biu.feedback[n] = true → (s.hu.pump n).actual ≤ s.params.pumps[n].rampDown → ∃ t,
      exec (.minimumRunEnd n i) s = .next t ∧ ((t.hu.pump n).requested = 0 →
        exec (.stoppingDriveZero n i) s = .next t ∧ (t.hu.pump n).state = .resting ∧ t.driveOutput n = 0 ∧
        (t.hu.pump n).restCount = s.params.pumps[n].rest * 50))

/-! ## Readings (spec/10) -/

/-- The own readings become valid (R177, R178): the level at the 10th boundary in a row with a sound loop current, the
wind when its window reaches 50 counts. Cut-out ends at the boundary at which the quiet count reaches 500 (R181): DERATE for
a wind above W0 and CALM otherwise. -/
def Obligations.ReadingsBecomeValidAndCutoutEnds : Prop :=
  (∀ (i : BoundaryInput) (s : State), s.live = true → s.boundaryDue = true → s.params.levelFitted = true →
    s.biu.levelValid = false → s.biu.levelCount = 9 → 3600 ≤ i.loop → ∃ t, exec (.levelReadingValid i) s = .next t ∧
      t.biu.levelValid = true ∧ t.biu.levelCount = 10 ∧ t.biu.loopMean = i.loop ∧
      t.biu.level = min 4095 (s.params.levelZero + (max 4000 (min 20000 i.loop) - 4000) * s.params.levelSpan / 16000) ∧
      t.smc.mem = s.smc.mem ∧ t.pending = s.pending) ∧
  (∀ (i : BoundaryInput) (s : State), s.live = true → s.boundaryDue = true → s.params.windFitted = true →
    s.biu.windWindow.length = 49 → ∃ t, exec (.windReadingValid i) s = .next t ∧ t.biu.windValid = true ∧
      t.biu.windWindow = s.biu.windWindow ++ [i.pulses] ∧
      t.biu.wind = min 65535 ((s.biu.windWindow.sum + i.pulses) * s.params.windFactor / 100) ∧
      t.smc.mem = s.smc.mem ∧ t.pending = s.pending) ∧
  ∀ (i : BoundaryInput) (s : State), s.atBoundary → s.windSteady i → s.biu.windState = .cutout → s.biu.quiet = 499 →
    s.biu.effWind < max 1 (s.params.wcut - s.params.windHyst) → ∃ t, exec (.cutoutEnd i) s = .next t ∧
      t.biu.windState = (if s.params.w0 < s.biu.effWind then .derate else .calm) ∧ t.biu.effWind = s.biu.effWind ∧
      t.smc.mem = s.smc.mem ∧ t.pending = s.pending

/-! ## Control frames (spec/01) -/

/-- WAKE, STANDBY and CLEAR_HALT (R11, R21): taken in STANDBY, IDLE and HALTED under their conditions, and ignored
otherwise. STANDBY entered leaves no pump active, every channel dark and both voices IDLE, and the tables, show memory
and the current show as they are. -/
def Obligations.WakeStandbyClearHalt : Prop :=
  (∀ (p : Position) (s : State), s.hears p → s.tbu.state = .standby → s.st.valid = true → s.tbu.conflict = false →
    exec (.wake p) s =
      .next { s.afterFrame with tbu := { s.tbu with state := .warmup, warmup := 0 } }) ∧
  (∀ (p : Position) (s : State), s.hears p →
    (s.tbu.state ≠ .standby ∨ s.st.valid = false ∨ s.tbu.conflict = true) → exec (.wake p) s = .next s.afterFrame) ∧
  (∀ (p : Position) (s : State), s.hears p → s.tbu.state = .idle → ∃ t, exec (.standby p) s = .next t ∧
    t.tbu.state = .standby ∧ t.tbu.armed = none ∧ t.tbu.segBase = none ∧ t.tbu.basinTime = s.tbu.basinTime ∧
    (∀ n : Channel, (t.hu.pump n).state.active = false ∧ (t.hu.pump n).height = 0) ∧
    (∀ n : Fin 48, t.lu.channels[n].level = 0 ∧ t.dimmingOutput n = 0) ∧
    t.au.a.state = .idle ∧ t.au.b.state = .idle ∧ t.cm = s.cm ∧ t.smc = s.smc ∧ t.ce = s.ce ∧ t.pt = s.pt ∧
    t.biu = s.biu ∧ t.st = s.st ∧ t.pending = s.pending) ∧
  (∀ (p : Position) (s : State), s.hears p → s.tbu.state ≠ .idle → exec (.standby p) s = .next s.afterFrame) ∧
  (∀ (p : Position) (s : State), s.hears p → s.tbu.state = .halted → s.biu.stopActive = false →
    s.tbu.conflict = false → (∀ x, s.tbu.lastStop = some x → 2 ≤ x.boundaries) → ∃ t,
    exec (.clearHalt p) s = .next t ∧ t.tbu = { s.tbu with state := .idle } ∧
    (∀ n : Fin 48, t.lu.channels[n].level = 0 ∧ t.dimmingOutput n = 0) ∧ t.au.a.state = .idle ∧
    t.au.b.state = .idle ∧ t.hu = s.hu ∧ t.ce = s.ce ∧ t.cm = s.cm ∧ t.smc = s.smc ∧ t.pt = s.pt ∧
    t.biu = s.biu ∧ t.st = s.st ∧ t.pending = s.pending) ∧
  (∀ (p : Position) (s : State), s.hears p → (s.tbu.state ≠ .halted ∨ s.biu.stopActive = true ∨
    s.tbu.conflict = true ∨ ∃ x, s.tbu.lastStop = some x ∧ x.boundaries < 2) →
    exec (.clearHalt p) s = .next s.afterFrame)

/-- SHOW_SELECT, SEGMENT_DEFINE and PAGE_DATA join the content intake (R10, R120), which holds 4: a frame that finds it
full is counted as a receive error. SHOW_SELECT is ignored outside IDLE and STANDBY. A PAGE_DATA first ends the serve
records of its page that R131 and R133 name, also when it then finds the intake full; that its show id is not compared for
this is log entry 25, the model's choice. -/
def Obligations.ContentFramesTakenIn : Prop :=
  (∀ (p : Position) (n : Byte) (s : State), s.hears p → (s.tbu.state = .idle ∨ s.tbu.state = .standby) →
    exec (.showSelect p n) s = .next (s.afterFrame.intoIntake (.select n.toNat))) ∧
  (∀ (p : Position) (n : Byte) (s : State), s.hears p → s.tbu.state ≠ .idle → s.tbu.state ≠ .standby →
    exec (.showSelect p n) s = .next s.afterFrame) ∧
  (∀ (p : Position) (f : SegmentDefineFields) (s : State), s.hears p →
    exec (.segmentDefine p f) s = .next (s.afterFrame.intoIntake (.define f))) ∧
  (∀ (s : State) (f : ContentFrame), s.cm.intake.length < 4 →
    s.intoIntake f = { s with cm := { s.cm with intake := s.cm.intake ++ [f] } }) ∧
  (∀ (s : State) (f : ContentFrame), 4 ≤ s.cm.intake.length →
    s.intoIntake f = { s with liu := { s.liu with rxErrors := min 65535 (s.liu.rxErrors + 1) } }) ∧
  (∀ (p : Position) (f : PageDataFields) (s : State), s.hears p → s.cm.intake.length < 4 → ∃ t,
    exec (.pageData p f) s = .next t ∧ t.cm.intake = s.cm.intake ++ [.data f] ∧
    (∀ r ∈ t.cm.serves, r ∈ s.cm.serves ∧ ¬(r.segment = f.segment.toNat ∧ r.page = f.page.toNat ∧
      ((∃ n, r.stage = .delay n) ∨ p.val < s.own.val))) ∧
    ((s.cm.serves.map fun r => r.id).Nodup → ∀ r ∈ s.cm.serves, ¬(r.segment = f.segment.toNat ∧
      r.page = f.page.toNat ∧ ((∃ n, r.stage = .delay n) ∨ p.val < s.own.val)) → r ∈ t.cm.serves) ∧
    t.cm.pages = s.cm.pages ∧ t.cm.fills = s.cm.fills ∧ t.smc = s.smc ∧ t.tbu = s.tbu ∧ t.pending = s.pending) ∧
  (∀ (p : Position) (f : PageDataFields) (s : State), s.hears p → 4 ≤ s.cm.intake.length → ∃ t,
    exec (.pageData p f) s = .next t ∧ t.cm.intake = s.cm.intake ∧
    t.liu.rxErrors = min 65535 (s.liu.rxErrors + 1) ∧
    (∀ r ∈ t.cm.serves, r ∈ s.cm.serves ∧ ¬(r.segment = f.segment.toNat ∧ r.page = f.page.toNat ∧
      ((∃ n, r.stage = .delay n) ∨ p.val < s.own.val))) ∧
    t = { s with cm := { s.cm with serves := t.cm.serves }, liu := t.liu })

/-- GO (R14, R23): in IDLE, for the current show or the house program, no duplicate, and not past the late window, it
arms the station or sets it running, with the segment base at T0 and the engine reading from the list it resolves; with
no list the show ends with MAP_FAULT. Any other GO is ignored. -/
def Obligations.GoTaken : Prop :=
  (∀ (p : Position) (n : Byte) (t0 : BitVec 48) (s : State) (g : Nat) (e : DirEntry), s.hears p →
    s.tbu.state = .idle → s.tbu.lastGo ≠ some t0.toNat → (n.toNat = s.cm.showId ∨ n.toNat = 0) →
    s.tbu.frameNo ≤ t0.toNat / 960 + 100 → s.cm.resolve n.toNat s.own.val = some g → s.cm.entry g = some e →
    e.kind = .cue → ∃ t, exec (.go p n t0) s = .next t ∧
      t.tbu.state = (if s.tbu.frameNo < t0.toNat / 960 then .armed else .running) ∧
      t.tbu.armed = some { showId := n.toNat, t0 := t0.toNat } ∧ t.tbu.segBase = some t0.toNat ∧
      t.tbu.lastGo = some t0.toNat ∧ t.tbu.basinTime = s.tbu.basinTime ∧ t.ce.index = 0 ∧ t.ce.waiting = none ∧
      t.ce.running = none ∧ t.ce.lastTrigger = none ∧ (t.ce.pos.map fun x => x.segment) = some g ∧ t.hu = s.hu ∧
      t.lu = s.lu ∧ t.au = s.au ∧ t.smc.mem = s.smc.mem ∧ t.pt = s.pt ∧ t.st = s.st ∧ t.pending = s.pending) ∧
  (∀ (p : Position) (n : Byte) (t0 : BitVec 48) (s : State), s.hears p → s.takesGo n.toNat t0.toNat = true →
    s.cm.resolve n.toNat s.own.val = none → ∃ t, exec (.go p n t0) s = .next t ∧
      t.tbu.state = (if s.tbu.frameNo < t0.toNat / 960 then .idle else .ending) ∧
      t.tbu.lastGo = some t0.toNat ∧ t.ce.readState = .none ∧ t.faulted .mapFault = true ∧
      t.smc = s.smc ∧ t.cm = s.cm ∧ t.pending = s.pending) ∧
  (∀ (p : Position) (n : Byte) (t0 : BitVec 48) (s : State), s.hears p →
    (s.tbu.state ≠ .idle ∨ s.tbu.lastGo = some t0.toNat ∨ (n.toNat ≠ s.cm.showId ∧ n.toNat ≠ 0) ∨
      t0.toNat / 960 + 100 < s.tbu.frameNo) → exec (.go p n t0) s = .next s.afterFrame)

/-- Basin time reaches T0 in ARMED (R15): RUNNING, the base unchanged; with an END action due by then, ENDING at once (R34).
An END action due in RUNNING ends the show with the configured end fade (R34, R18); that a dark channel's fade frames become
0 is log entry 55, the model's choice. Before T0, before the END's time and in another state these commands leave the state
as it is, which is log entry 5, the model's choice. HOLD and RESUME are taken in RUNNING and HELD (R16, R17) unless their
stamp is the last taken of its kind (R10); the station stays in its state until the boundary. -/
def Obligations.ShowTimesTaken : Prop :=
  (∀ (s : State) (r : ArmedRecord), s.live = true → s.tbu.state = .armed → s.tbu.armed = some r →
    r.t0 ≤ s.tbu.basinTime → s.ce.endDue s.tbu.basinTime = false →
    exec .t0Reached s = .next { s with tbu := { s.tbu with state := .running } }) ∧
  (∀ s : State, s.live = true → (s.tbu.state ≠ .armed ∨ ∀ r, s.tbu.armed = some r → s.tbu.basinTime < r.t0) →
    exec .t0Reached s = .next s) ∧
  (∀ (s : State) (r : ArmedRecord), s.live = true → s.tbu.state = .armed → s.tbu.armed = some r →
    r.t0 ≤ s.tbu.basinTime → s.ce.endDue s.tbu.basinTime = true → ∃ t,
    exec .t0Reached s = .next t ∧ s.endsShow s.params.endFade t) ∧
  (∀ (s : State) (a : Action), s.live = true → s.tbu.state = .running → a ∈ s.ce.queue → a.deed = .endShow →
    a.dispatch ≤ s.tbu.basinTime → ∃ t, exec .endActionDue s = .next t ∧ s.endsShow s.params.endFade t) ∧
  (∀ s : State, s.live = true → (s.tbu.state ≠ .running ∨ ∀ a ∈ s.ce.queue, a.deed = .endShow →
    s.tbu.basinTime < a.dispatch) → exec .endActionDue s = .next s) ∧
  (∀ (p : Position) (th : BitVec 48) (s : State), s.hears p → s.tbu.state = .running →
    s.tbu.lastHold ≠ some th.toNat → exec (.hold p th) s =
      .next { s.afterFrame with tbu := { s.tbu with hold := { s.tbu.hold with th := some th.toNat },
                                                    lastHold := some th.toNat } }) ∧
  (∀ (p : Position) (th : BitVec 48) (s : State), s.hears p →
    (s.tbu.state ≠ .running ∨ s.tbu.lastHold = some th.toNat) → exec (.hold p th) s = .next s.afterFrame) ∧
  (∀ (p : Position) (tr : BitVec 48) (s : State), s.hears p → s.tbu.state = .held →
    s.tbu.lastResume ≠ some tr.toNat → exec (.resume p tr) s =
      .next { s.afterFrame with tbu := { s.tbu with hold := { s.tbu.hold with tr := some tr.toNat },
                                                    lastResume := some tr.toNat } }) ∧
  (∀ (p : Position) (tr : BitVec 48) (s : State), s.hears p →
    (s.tbu.state ≠ .held ∨ s.tbu.lastResume = some tr.toNat) → exec (.resume p tr) s = .next s.afterFrame)

/-- STOP (R15, R18, R73, R88, R90): from RUNNING and HELD the station goes to ENDING with the frame's fade, at most 500
frames; from ARMED to IDLE, everything dark and silent; in every other state it is ignored. That a dark channel's fade frames
become 0 at ENDING is log entry 55, the model's choice. -/
def Obligations.StopEndsShow : Prop :=
  (∀ (p : Position) (fade : BitVec 16) (s : State), s.hears p → (s.tbu.state = .running ∨ s.tbu.state = .held) →
    ∃ t, exec (.stop p fade) s = .next t ∧ s.endsShow (min 500 fade.toNat) t) ∧
  (∀ (p : Position) (fade : BitVec 16) (s : State), s.hears p → s.tbu.state = .armed → ∃ t,
    exec (.stop p fade) s = .next t ∧ t.tbu.state = .idle ∧ t.tbu.armed = none ∧ t.tbu.segBase = none ∧
    t.ce.readState = .none ∧ t.ce.queue = [] ∧ (∀ n : Channel, (t.hu.pump n).height = 0 ∧
      (t.hu.pump n).state = (s.hu.pump n).state) ∧
    (∀ n : Fin 48, t.lu.channels[n].level = 0 ∧ t.dimmingOutput n = 0) ∧ t.au.a.state = .idle ∧
    t.au.b.state = .idle ∧ t.cm = s.cm ∧ t.smc = s.smc ∧ t.pt = s.pt ∧ t.biu = s.biu ∧ t.st = s.st ∧
    t.pending = s.pending) ∧
  (∀ (p : Position) (fade : BitVec 16) (s : State), s.hears p → s.tbu.state ≠ .armed → s.tbu.state ≠ .running →
    s.tbu.state ≠ .held → exec (.stop p fade) s = .next s.afterFrame)

/-- A HALT heard, or the own stop input becoming active, halts every state but STANDBY at once (R20, R183, R73, R89,
R105); in HALTED and STANDBY it changes no pump, light or voice. The own input offers a STOP_ASSERT in every state. -/
def Obligations.HaltStopsEverything : Prop :=
  (∀ (p : Position) (s : State), s.hears p → s.tbu.state ≠ .standby → s.tbu.state ≠ .halted → ∃ t,
    exec (.stopAssert p) s = .next t ∧ s.haltsTo t ∧
    t.tbu.lastStop = some { frame := s.tbu.frameNo, boundaries := 0 } ∧ t.biu = s.biu) ∧
  (∀ (p : Position) (s : State), s.hears p → (s.tbu.state = .standby ∨ s.tbu.state = .halted) →
    exec (.stopAssert p) s = .next { s.afterFrame with
      tbu := { s.tbu with lastStop := some { frame := s.tbu.frameNo, boundaries := 0 } } }) ∧
  (∀ s : State, s.live = true → s.biu.stopActive = false → s.tbu.state ≠ .standby → s.tbu.state ≠ .halted → ∃ t,
    exec .stopInputActive s = .next t ∧ s.haltsTo t ∧ t.liu.halt = true ∧ t.biu = { s.biu with stopActive := true }) ∧
  (∀ s : State, s.live = true → s.biu.stopActive = false → (s.tbu.state = .standby ∨ s.tbu.state = .halted) →
    exec .stopInputActive s =
      .next { s with biu := { s.biu with stopActive := true }, liu := { s.liu with halt := true } })

/-! ## Cues and actions (spec/02) -/

/-- Cue records as they are read (R24 to R26, R30 to R34, R200). A record is malformed exactly where R24 says; of any other
each field is that of its bytes in R200, clamped as R24 gives. A malformed
record within the horizon is counted and skipped, and gives no action. After an END_SEGMENT any record but a WAIT_TRIGGER
opens a timed show segment, based on the base then held plus the closing time, and so does the end of the list, whether or
not its END action finds room; that a malformed record opens one is log entry 19, the model's choice. A record below the
last cue time is counted and read with that time. JET, SWEEP, LIGHT, AUDIO_START, AUDIO_GAIN, AUDIO_STOP and END_SHOW give
the actions of their rules, with the lead of each jet taken off. Taken, such a record gives its actions at the base plus its
time, or the last cue time where that is later, which becomes the last cue time; past the horizon, or without room for every
action, it waits. The end of a list without a closed segment gives an END action at the base plus the last cue time, or waits
for room. -/
def Obligations.CuesBecomeActions : Prop :=
  (∀ r : List Byte, decodeCue r = none ↔
    let kind := recByte r 4
    let flags := recByte r 5
    let mask := recWord r 6
    kind = 0 ∨ 9 < kind ∨
    (if kind = 3 then 3 < flags else if kind = 1 ∨ kind = 2 ∨ kind = 7 then 1 < flags else 0 < flags) ∨
    (if kind = 1 then 255 < mask else if kind = 3 then 4095 < mask else 0 < mask) ∨
    (kind = 2 ∧ (recByte r 9 < recByte r 8 ∨ 7 < recByte r 9 ∨ 1 < recByte r 10)) ∨
    (kind = 3 ∧ (15 < recByte r 12 ∨ (2 ≤ flags ∧ 7 < recByte r 15))) ∨
    (kind = 4 ∧ (1 < recByte r 8 ∨ 127 < recByte r 9)) ∨
    ((kind = 5 ∨ kind = 6) ∧ 1 < recByte r 8)) ∧
  (∀ (r : List Byte) (c : Cue), r.length = 16 → decodeCue r = some c →
    let bit0 : Bool := recByte r 5 % 2 = 1
    let voice : VoiceId := if recByte r 8 = 0 then .a else .b
    cueTime r = 65536 * recWord r 0 + recWord r 2 ∧
    (recByte r 4 = 1 → c = .jet (recWord r 6) (min 4095 (recWord r 8)) (recWord r 10) bit0) ∧
    (recByte r 4 = 2 → c = .sweep (recByte r 8) (recByte r 9) (recByte r 10 = 1) (min 4095 (recWord r 11))
      (recWord r 13) bit0) ∧
    (recByte r 4 = 3 → c = .light (recWord r 6) (recByte r 12) (recByte r 8) (recByte r 9) (recByte r 10)
      (recByte r 11) (if bit0 then min 3000 (recWord r 13) else 0)
      (if 2 ≤ recByte r 5 then some (recByte r 15) else none)) ∧
    (recByte r 4 = 4 → c = .audioStart voice (recByte r 9) (65536 * recWord r 10 + recWord r 12)
      (min 800 (recWord r 14))) ∧
    (recByte r 4 = 5 → c = .audioGain voice (min 800 (recWord r 9)) (min 3000 (recWord r 11))) ∧
    (recByte r 4 = 6 → c = .audioStop voice (min 3000 (recWord r 9))) ∧
    (recByte r 4 = 7 → c = .waitTrigger (recByte r 8) (recWord r 9) bit0) ∧
    (recByte r 4 = 8 → c = .endSegment) ∧ (recByte r 4 = 9 → c = .endShow)) ∧
  (∀ (s : State) (p : ReadPos) (r : List Byte), decodeCue r = none → s.ce.closed = none →
    s.base + max (cueTime r) s.ce.lastCue ≤ s.tbu.basinTime + s.params.horizon * 48000 → ∃ x : State,
    s.readRecord p r = .more x ∧ x.faultCount .cueMalformed = min 65535 (s.faultCount .cueMalformed + 1) ∧
      x.ce = { s.ce with pos := s.ce.pos.map fun q => { q with offset := q.offset + 16 } } ∧
      x = { s with ce := x.ce, biu := x.biu }) ∧
  (∀ (s : State) (p : ReadPos) (r : List Byte) (t : Nat), s.ce.closed = some t →
    (∀ n a i, decodeCue r ≠ some (.waitTrigger n a i)) → s.readRecord p r = .more { s with
      ce := { s.ce with index := s.ce.index + 1, lastCue := 0, closed := none }
      tbu := { s.tbu with segBase := some (s.tbu.segBase.getD 0 + t) } }) ∧
  (∀ (s : State) (t : Nat), s.ce.closed = some t → s.endOfList.ce.index = s.ce.index + 1 ∧
    s.endOfList.ce.closed = none ∧ s.endOfList.ce.lastCue = 0 ∧
    s.endOfList.tbu.segBase = some (s.tbu.segBase.getD 0 + t) ∧
    (32 ≤ s.ce.queue.length → s.endOfList.ce.queue = s.ce.queue ∧ s.endOfList.ce.readState = s.ce.readState) ∧
    (s.ce.queue.length < 32 → s.endOfList.ce.readState = .ended ∧ ∃ a ∈ s.endOfList.ce.queue,
      a.deed = .endShow ∧ a.dispatch = s.tbu.segBase.getD 0 + t)) ∧
  (∀ (s : State) (p : ReadPos) (r : List Byte), s.ce.closed = none → decodeCue r = some .endSegment →
    s.base + max (cueTime r) s.ce.lastCue ≤ s.tbu.basinTime + s.params.horizon * 48000 → s.ce.queue.length ≤ 32 →
    ∃ x : State, s.readRecord p r = .more x ∧ x.ce = { s.ce with
        pos := s.ce.pos.map fun q => { q with offset := q.offset + 16 }
        lastCue := max (cueTime r) s.ce.lastCue, closed := some (max (cueTime r) s.ce.lastCue) } ∧
      x.faultCount .cueMalformed =
        (if cueTime r < s.ce.lastCue then min 65535 (s.faultCount .cueMalformed + 1)
         else s.faultCount .cueMalformed) ∧ x = { s with ce := x.ce, biu := x.biu }) ∧
  (∀ (s : State) (p : ReadPos) (r : List Byte) (c : Cue), s.ce.closed = none → decodeCue r = some c → c ≠ .endSegment →
    (∀ n a i, c ≠ .waitTrigger n a i) →
    let t := max (cueTime r) s.ce.lastCue
    let acts := s.actionsOf c (s.base + t)
    (s.tbu.basinTime + s.params.horizon * 48000 < s.base + t → s.readRecord p r = .stop s) ∧
    (32 < s.ce.queue.length + acts.length → s.readRecord p r = .stop s) ∧
    (s.base + t ≤ s.tbu.basinTime + s.params.horizon * 48000 → s.ce.queue.length + acts.length ≤ 32 → ∃ x y : State,
      x = { s with biu := x.biu } ∧ x.faultCount .cueMalformed =
        (if cueTime r < s.ce.lastCue then min 65535 (s.faultCount .cueMalformed + 1)
         else s.faultCount .cueMalformed) ∧
      y = acts.foldl (fun z a => z.produce a.1 a.2) x ∧
      s.readRecord p r = if c = .endShow then
          .stop { y with ce := { y.ce with lastCue := t, readState := .ended } }
        else .more { y with ce := { y.ce with
          lastCue := t, pos := s.ce.pos.map fun q => { q with offset := q.offset + 16 } } })) ∧
  (∀ (s : State) (p : ReadPos), s.ce.closed = none → s.ce.readState ≠ .scanning →
    s.cueAnswer p .endOf = .stop (if 32 ≤ s.ce.queue.length then s else { s with ce := { s.ce with
      queue := insertAction { deed := .endShow, dispatch := s.base + s.ce.lastCue, order := s.ce.nextOrder,
                              index := s.ce.index } s.ce.queue
      nextOrder := s.ce.nextOrder + 1, readState := .ended } })) ∧
  (∀ (s : State) (mask height ramp T : Nat) (at? : Bool) (n : Channel), ∀ x : Deed × Nat,
    (x ∈ s.actionsOf (.jet mask height ramp at?) T ∧ x.1 = .jet n.val height ramp) ↔
      mask.testBit n.val = true ∧ s.params.pumps[n].present = true ∧
      x = (.jet n.val height ramp, T - if at? then 0 else s.leadOf n height)) ∧
  (∀ (s : State) (first last height gap T : Nat) (back basin : Bool) (n : Channel), first ≤ last → last ≤ 7 →
    ∀ x : Deed × Nat, (x ∈ s.actionsOf (.sweep first last back height gap basin) T ∧ x.1 = .jet n.val height 0) ↔
      first ≤ n.val ∧ n.val ≤ last ∧ s.params.pumps[n].present = true ∧
      x = (.jet n.val height 0, T + ((if back then last - n.val else n.val - first) +
        if basin then s.params.ringIndex * (last - first + 1) else 0) * gap - s.leadOf n height)) ∧
  (∀ (s : State) (mask chans r g b w fade T : Nat) (follow : Option Nat), mask ≠ 0 → chans ≠ 0 → ∃ d : LightDeed,
    s.actionsOf (.light mask chans r g b w fade follow) T = [(.light d, T)] ∧ d.cueFrame = T / 960 ∧
      d.fade = fade ∧ d.follow = follow ∧ [d.r, d.g, d.b, d.w] = [r, g, b, w] ∧
      (∀ (f : Fin 12) (k : Fin 4), d.covers f k = (mask.testBit f.val && chans.testBit k.val)) ∧
      (∀ f : Fin 12, d.names f = mask.testBit f.val)) ∧
  (∀ (s : State) (v : VoiceId) (g start gain ramp T : Nat),
    s.actionsOf (.audioStart v g start gain) T = [(.prime v g start, T - 9600), (.start v g start gain T, T)] ∧
    s.actionsOf (.audioGain v gain ramp) T = [(.gain v gain ramp, T)] ∧
    s.actionsOf (.audioStop v ramp) T = [(.stopVoice v ramp, T)] ∧ s.actionsOf .endShow T = [(.endShow, T)])

/-- The pending queue and the slates (R35 to R40). An action goes after every one that is dispatched no later and before
every later one. What is due in the next frame or before is put into that frame's slate when it is produced in ARMED or
RUNNING, and at each boundary in queue order; CUE_LATE is counted for each whose frame has gone by; END actions stay, and so
do the voice actions beyond those that fill the slate to 8 (that one is counted late once, when it is staged, is log entry
41, the model's choice). Of two JET actions for one jet
the later in list order stays; each light channel has at most one holder, the later in list order; voice actions stand in
list order. -/
def Obligations.ActionsQueuedAndStaged : Prop :=
  (∀ (a : Action) (q : List Action), q.Pairwise (fun x y => x.dispatch ≤ y.dispatch) → ∃ early late : List Action,
    q = early ++ late ∧ insertAction a q = early ++ a :: late ∧ (∀ b ∈ early, b.dispatch ≤ a.dispatch) ∧
      (∀ b ∈ late, a.dispatch < b.dispatch)) ∧
  (∀ (s : State) (k : Nat) (a : Action),
    (a.deed ≠ .endShow → (a.forVoice = true → (s.ce.slate (k + 1)).voices.length < 8) → ∃ t, s.stage k a = some t ∧
      (s.ce.slate (k + 1)).stage a = some (t.ce.slate (k + 1)) ∧ s.stagedTo t k [a] ∧
      t.ce.queue = s.ce.queue ∧ t.ce.nextOrder = s.ce.nextOrder) ∧
    (a.deed = .endShow ∨ (a.forVoice = true ∧ 8 ≤ (s.ce.slate (k + 1)).voices.length) → s.stage k a = none)) ∧
  (∀ (s : State) (d : Deed) (n : Nat),
    let a : Action := { deed := d, dispatch := n, order := s.ce.nextOrder, index := s.ce.index }
    let x := s.ce.slate (s.tbu.frameNo + 1)
    (d ≠ .endShow → n / 960 ≤ s.tbu.frameNo + 1 → (s.tbu.state = .armed ∨ s.tbu.state = .running) →
      (a.forVoice = true → x.voices.length < 8) →
      x.stage a = some ((s.produce d n).ce.slate (s.tbu.frameNo + 1)) ∧
      s.stagedTo (s.produce d n) s.tbu.frameNo [a] ∧ (s.produce d n).ce.queue = s.ce.queue ∧
      (s.produce d n).ce.nextOrder = s.ce.nextOrder + 1) ∧
    (d = .endShow ∨ s.tbu.frameNo + 1 < n / 960 ∨ (s.tbu.state ≠ .armed ∧ s.tbu.state ≠ .running) ∨
      (a.forVoice = true ∧ 8 ≤ x.voices.length) →
      s.produce d n = { s with ce := { s.ce with
        queue := insertAction a s.ce.queue, nextOrder := s.ce.nextOrder + 1 } })) ∧
  (∀ (s : State) (k : Nat), ∃ st : List Action, s.stagedTo (s.stagePass k) k st ∧ st.Sublist s.ce.queue ∧
    (s.stagePass k).ce.queue.Sublist s.ce.queue ∧ s.ce.queue.Perm (st ++ (s.stagePass k).ce.queue) ∧
    (s.stagePass k).ce.nextOrder = s.ce.nextOrder ∧
    st.filter (fun a => !a.forVoice) = s.ce.queue.filter (fun a =>
      a.deed != .endShow && decide (a.dispatch / 960 ≤ k + 1) && !a.forVoice) ∧
    st.filter (fun a => a.forVoice) = (s.ce.queue.filter fun a =>
      decide (a.dispatch / 960 ≤ k + 1) && a.forVoice).take (8 - (s.ce.slate (k + 1)).voices.length)) ∧
  (∀ (x y : Slate) (a : Action) (j h r : Nat), a.deed = .jet j h r → x.stage a = some y →
    y.lights = x.lights ∧ y.voices = x.voices ∧
    ((∃ b ∈ x.jets, ∃ h' r', b.deed = .jet j h' r' ∧ a.order < b.order) → y.jets = x.jets) ∧
    ((∀ b ∈ x.jets, ∀ h' r', b.deed = .jet j h' r' → b.order ≤ a.order) → a ∈ y.jets ∧
      (∀ b ∈ y.jets, ∀ h' r', b.deed = .jet j h' r' → b = a) ∧
      ∀ b ∈ x.jets, (∀ h' r', b.deed ≠ .jet j h' r') → b ∈ y.jets)) ∧
  (∀ (x y : Slate) (a : Action) (d : LightDeed), a.deed = .light d → x.stage a = some y →
    x.lights.Pairwise (fun b c => b.channels &&& c.channels = 0) →
    y.jets = x.jets ∧ y.voices = x.voices ∧ y.lights.Pairwise (fun b c => b.channels &&& c.channels = 0) ∧
    (∀ n : Fin 48, (y.lights.any fun b => b.channels.getLsbD n) =
      (d.channels.getLsbD n || x.lights.any fun b => b.channels.getLsbD n)) ∧
    (∀ b ∈ y.lights, ∀ n : Fin 48, b.channels.getLsbD n = true → d.channels.getLsbD n = true →
      a.order ≤ b.order)) ∧
  (∀ (x : Slate) (a : Action), a.deed ≠ .endShow → (∀ j h r, a.deed ≠ .jet j h r) → (∀ d, a.deed ≠ .light d) →
    (8 ≤ x.voices.length → x.stage a = none) ∧
    (x.voices.length < 8 → ∃ y, x.stage a = some y ∧ y.jets = x.jets ∧ y.lights = x.lights ∧
      y.voices.Perm (a :: x.voices) ∧ (x.voices.Pairwise (fun b c => b.order ≤ c.order) →
        y.voices.Pairwise (fun b c => b.order ≤ c.order))))

/-! ## The cue engine (spec/02) -/

/-- A TRIGGER in RUNNING (R42, R43): the number the engine waits for opens the segment with base P + 3840; in a segment
opened INTERRUPTIBLE, at or after its re-arm end, a cut scan starts from the read position, just after an END_SEGMENT too
(that a closed segment can still be cut is log entry 42, the model's choice); a duplicate, a trigger before the re-arm end
and a trigger in any other state are ignored. Reading then goes on (R27). A WAIT_TRIGGER taken is recorded and the engine waits
(R42). A cut scan passes records and counts the segments it enters; a WAIT_TRIGGER of its number makes the cut: the running
segment's actions leave the queue, and the segment found opens with base P + 3840; another number, END_SHOW, the end of the
list or HELD (R44) bring back the return point with an empty buffer, and nothing is discarded. That the record at which a scan
stops is not checked for form is log entry 52, the model's choice. -/
def Obligations.TriggerOpensOrCuts : Prop :=
  (∀ (p : Position) (n : Byte) (press : BitVec 48) (s : State) (w : WaitingRecord), s.hears p →
    s.tbu.state = .running → s.ce.readState = .waiting → s.ce.waiting = some w → w.number = n.toNat →
    s.ce.lastTrigger ≠ some press.toNat → (∀ r, s.ce.running = some r → r.rearmEnd ≤ press.toNat) → ∃ x : State,
    exec (.trigger p n press) s = .next x.cueRun ∧
      x = { s.afterFrame with
        tbu := { s.tbu with segBase := some (press.toNat + 3840) }
        ce := { s.ce with
          readState := .reading, waiting := none, lastTrigger := some press.toNat, index := s.ce.index + 1,
          lastCue := 0, closed := none
          running := some { index := s.ce.index + 1, interruptible := w.interruptible,
                            rearmEnd := press.toNat + 3840 + w.rearm * 960 } } }) ∧
  (∀ (p : Position) (n : Byte) (press : BitVec 48) (s : State) (r : RunningRecord) (q : ReadPos), s.hears p →
    s.tbu.state = .running → (s.ce.readState = .reading ∨ s.ce.readState = .ended) → s.ce.running = some r →
    s.ce.pos = some q → r.interruptible = true → r.index = s.ce.index → r.rearmEnd ≤ press.toNat →
    s.ce.lastTrigger ≠ some press.toNat → ∃ x : State, exec (.trigger p n press) s = .next x.cueRun ∧
      x.ce.readState = .scanning ∧ x.ce.lastTrigger = some press.toNat ∧ x.ce.queue = s.ce.queue ∧
      x.ce.pos = some q ∧ x.tbu = s.tbu ∧ x.hu = s.hu ∧ x.lu = s.lu ∧ x.au = s.au ∧
      (x.ce.scan.map fun y => (y.number, y.press, y.returnPos, y.returnState, y.passed)) =
        some (n.toNat, press.toNat, q, s.ce.readState, 0) ∧
      (x.ce.scan.map fun y => (y.returnClosed, y.afterEnd)) = some (s.ce.closed, s.ce.closed.isSome)) ∧
  (∀ (p : Position) (n : Byte) (press : BitVec 48) (s : State), s.hears p →
    (s.tbu.state ≠ .running ∨ s.ce.lastTrigger = some press.toNat ∨
      (∃ r, s.ce.running = some r ∧ press.toNat < r.rearmEnd) ∨
      (s.ce.readState = .waiting ∧ ∀ w, s.ce.waiting = some w → w.number ≠ n.toNat) ∨
      ((s.ce.readState = .reading ∨ s.ce.readState = .ended) ∧
        ∀ r, s.ce.running = some r → r.interruptible = false ∨ r.index ≠ s.ce.index) ∨
      s.ce.readState = .scanning ∨ s.ce.readState = .none) →
    exec (.trigger p n press) s = .next s.afterFrame) ∧
  (∀ (s : State) (p : ReadPos) (r : List Byte) (n a : Nat) (i : Bool), decodeCue r = some (.waitTrigger n a i) →
    s.ce.queue.length ≤ 32 → s.readRecord p r = .stop { s with ce := { s.ce with
      pos := s.ce.pos.map fun q => { q with offset := q.offset + 16 }
      waiting := some { number := n, rearm := a, interruptible := i }, closed := none, readState := .waiting } }) ∧
  (∀ (s : State) (p : ReadPos) (r : List Byte) (x : ScanRecord), (s.tbu.state = .armed ∨ s.tbu.state = .running) →
    s.ce.readState = .scanning → s.ce.scan = some x → s.ce.pageWait = false → s.ce.pos = some p →
    s.ce.recordAt p = some r → p.offset + 16 ≤ s.cm.lengthOf p.segment →
    (recByte r 4 ≠ 7 → recByte r 4 ≠ 9 → s.cueStep = .more { s with ce := { s.ce with
      pos := some { p with offset := p.offset + 16 }
      scan := some { x with passed := x.passed + (if x.afterEnd then 1 else 0)
                            afterEnd := decide (recByte r 4 = 8) } } }) ∧
    (∀ k, s.ce.running = some k → recByte r 4 = 7 → recByte r 8 = x.number → s.cueStep = .more { s with
      tbu := { s.tbu with segBase := some (x.press + 3840) }
      ce := { s.ce with
        pos := some { p with offset := p.offset + 16 }
        queue := s.ce.queue.filter fun a => a.deed == .endShow || a.index != k.index
        index := s.ce.index + x.passed + 1, lastCue := 0, closed := none, waiting := none, readState := .reading
        scan := none
        running := some { index := s.ce.index + x.passed + 1, interruptible := decide (recByte r 5 % 2 = 1)
                          rearmEnd := x.press + 3840 + recWord r 9 * 960 } } }) ∧
    ((recByte r 4 = 7 ∧ recByte r 8 ≠ x.number) ∨ recByte r 4 = 9 → s.cueStep = .more (s.scanGivenUp x)) ∧
    s.cueAnswer p .endOf = .more (s.scanGivenUp x)) ∧
  (∀ (s : State) (x : ScanRecord), s.ce.scan = some x → s.cueHold = s.scanGivenUp x)

/-- A cue read completes (R28, R46): its bytes become the cue buffer when the read position still stands in its block, and
are dropped otherwise, whether the position has been dropped or has moved to another block; reading goes on. A row read
completes (R110): its slot becomes VALID with the row, or EMPTY when its segment has been freed, no other slot changes, and
the next fill is considered, of the blocks wanted at that moment by log entry 61, the model's choice. -/
def Obligations.ReadsFillTheirBuffers : Prop :=
  (∀ (s : State) (r : Report) (f : CueFetch), s.smc.reportOf .cue = some r → s.ce.fetch = some f → ∃ x : State,
    exec .cueReadComplete s = .next x.cueRun ∧
      (f.live = true → (∃ p, s.ce.pos = some p ∧ p.segment = f.segment ∧ p.offset / 256 * 256 = f.offset) →
        x.ce.buffer = some { segment := f.segment, offset := f.offset, bytes := r.bytes }) ∧
      (f.live = false → x.ce.buffer = s.ce.buffer) ∧
      ((∀ p, s.ce.pos = some p → p.segment ≠ f.segment ∨ p.offset / 256 * 256 ≠ f.offset) →
        x.ce.buffer = s.ce.buffer) ∧ x.ce.fetch = none ∧ x.ce.queue = s.ce.queue ∧
      x.smc.mem = s.smc.mem ∧ x.tbu = s.tbu ∧ x.pending = s.pending) ∧
  (∀ (s : State) (r : Report) (f : AudioFill) (k : Fin 32), s.smc.reportOf .audio = some r → s.au.fill = some f →
    f.slot = some k → ∃ x : State, exec .rowReadComplete s = .next x.considerFill ∧ x.au.fill = none ∧
      (f.freed = false →
        x.au.slots[k] = { state := .valid, tag := some (f.segment, f.block), data := r.bytes }) ∧
      (f.freed = true → x.au.slots[k] = { state := .empty, tag := none, data := [] }) ∧
      (∀ j : Fin 32, j ≠ k → x.au.slots[j] = s.au.slots[j]) ∧ x.au.a = s.au.a ∧ x.au.b = s.au.b ∧
      x.smc.mem = s.smc.mem ∧ x.tbu = s.tbu ∧ x.pending = s.pending)

/-! ## Start claims (spec/03) -/

/-- A START_CLAIM heard restarts the spacing timer with S and withdraws an own claim not yet begun, whose pump gives the
slot up (R67). At the timer's expiry the lowest CLAIMING pump whose allowance the share admits claims (R66, R69); with no
such pump, with the claim slot or the CLAIM slot occupied, or before the expiry, nothing is claimed (before the expiry by
log entry 5, the model's choice). The own claim has gone out (R68): the spacing timer restarts; the CLAIMING holder enters
STARTING when the share admits its allowance and gives the slot up otherwise; a pump that is no longer the holder is left
as it is. -/
def Obligations.ClaimsKeepSpacing : Prop :=
  (∀ (p : Position) (c : Byte) (a : BitVec 16) (s : State), s.hears p → s.liu.claim.isSome = true →
    s.liu.claimBegun = false → exec (.startClaim p c a) s =
      .next { s.afterFrame with
        hu := { s.hu with spacing := s.params.spacing * 48, claimHolder := none }
        liu := { s.liu.frameHeard with claim := none } }) ∧
  (∀ (p : Position) (c : Byte) (a : BitVec 16) (s : State), s.hears p →
    (s.liu.claim = none ∨ s.liu.claimBegun = true) → exec (.startClaim p c a) s =
      .next { s.afterFrame with hu := { s.hu with spacing := s.params.spacing * 48 } }) ∧
  (∀ (s : State) (n : Channel), s.live = true → s.hu.spacing = 0 → s.hu.claimHolder = none → s.liu.claim = none →
    (s.hu.pump n).state = .claiming → s.hu.committedDraw s.params + s.params.pumps[n].allowance ≤ s.hu.share →
    (∀ m : Channel, m.val < n.val → (s.hu.pump m).state = .claiming →
      s.hu.share < s.hu.committedDraw s.params + s.params.pumps[m].allowance) →
    exec .spacingTimerExpiry s =
      .next { s with
        hu := { s.hu with claimHolder := some n }
        liu := { s.liu with claim := some { channel := n, allowance := s.params.pumps[n].allowance } } }) ∧
  (∀ s : State, (s.live = false ∨ s.hu.spacing ≠ 0 ∨ s.hu.claimHolder.isSome = true ∨ s.liu.claim.isSome = true ∨
      ∀ n : Channel, (s.hu.pump n).state = .claiming →
      s.hu.share < s.hu.committedDraw s.params + s.params.pumps[n].allowance) →
    exec .spacingTimerExpiry s = .next s) ∧
  (∀ (s : State) (tx : Tx) (c : ClaimFrame), s.liu.tx = some tx → tx.source = .claim → s.liu.claim = some c → ∃ t,
    exec .claimGoneOut s = .next t ∧ t.liu = { s.liu with tx := none, fails := 0, claim := none } ∧
    t.hu.spacing = s.params.spacing * 48 ∧
    (s.hu.claimHolder = some c.channel → (s.hu.pump c.channel).state = .claiming →
      s.hu.committedDraw s.params + s.params.pumps[c.channel].allowance ≤ s.hu.share →
      t.hu.pump c.channel =
        { s.hu.pump c.channel with state := .starting, softCount := 0, actual := 0 } ∧
      t.hu.claimHolder = some c.channel) ∧
    (s.hu.claimHolder = some c.channel → (s.hu.pump c.channel).state = .claiming →
      s.hu.share < s.hu.committedDraw s.params + s.params.pumps[c.channel].allowance →
      t.hu.pump c.channel = s.hu.pump c.channel ∧ t.hu.claimHolder = none) ∧
    (s.hu.claimHolder ≠ some c.channel →
      t.hu.pump c.channel = s.hu.pump c.channel ∧ t.hu.claimHolder = s.hu.claimHolder) ∧
    (∀ m : Channel, m ≠ c.channel → t.hu.pump m = s.hu.pump m) ∧
    t = { s with hu := t.hu, liu := t.liu })

/-! ## Following lights and voices (spec/04, spec/05) -/

/-- The follow list (R84 to R87). A LIGHT action with a follow jet makes one entry for each present fixture of its fixture
mask, whole, in place of an earlier one (with no channel of it left too, which is log entry 33, the model's choice), and
moves no channel. One without takes the channels it covers from the entries of its fixtures, and an entry left with none
goes. At a pass an entry is released when its jet's arrival falls in the frame or before, is VOID, or the limit frame has
come: each channel it covers begins its fade toward its target, and the entry goes; before that it stays. In HELD no fade
steps and none is released. -/
def Obligations.FollowListReleases : Prop :=
  (∀ (P : Params) (d : LightDeed) (j : Nat) (l : Lu) (f : Fin 12), P.fixtures[f].present = true →
    d.fixtures.getLsbD f.val = true → ∃ e, (l.enterFollow P d j).follow[f] = some e ∧ e.jet = j ∧ e.fade = d.fade ∧
      e.limit = d.cueFrame + 100 ∧ (l.enterFollow P d j).channels = l.channels ∧
      ∀ k : Fin 4, e.targets[k] =
        if d.channels.getLsbD (4 * f.val + k.val) then some (d.value k * 257) else none) ∧
  (∀ (P : Params) (d : LightDeed) (j : Nat) (l : Lu) (f : Fin 12),
    (P.fixtures[f].present = false ∨ d.fixtures.getLsbD f.val = false) →
    (l.enterFollow P d j).follow[f] = l.follow[f]) ∧
  (∀ (P : Params) (d : LightDeed) (l : Lu) (f : Fin 12) (e : FollowEntry), l.follow[f] = some e →
    (d.fixtures.getLsbD f.val = false → (l.applyLight P d).follow[f] = some e) ∧
    (d.fixtures.getLsbD f.val = true →
      (∀ k : Fin 4, e.targets[k] = none ∨ d.channels.getLsbD (4 * f.val + k.val) = true) →
      (l.applyLight P d).follow[f] = none) ∧
    (d.fixtures.getLsbD f.val = true → ∀ k : Fin 4, e.targets[k] ≠ none →
      d.channels.getLsbD (4 * f.val + k.val) = false → ∃ e', (l.applyLight P d).follow[f] = some e' ∧
        e'.jet = e.jet ∧ e'.fade = e.fade ∧ e'.limit = e.limit ∧ ∀ c : Fin 4, e'.targets[c] =
          if d.channels.getLsbD (4 * f.val + c.val) then none else e.targets[c])) ∧
  (∀ (P : Params) (h : Hu) (level k : Nat) (st : ShowState) (l : Lu) (f : Fin 12) (e : FollowEntry),
    st ≠ .held → l.follow[f] = some e →
    (e.limit ≤ k ∨ h.arrivalOf e.jet = .void ∨ ∃ t x, h.arrivalOf e.jet = .set t x ∧ t / 960 ≤ k) →
    (l.pass P h level k st false false []).follow[f] = none ∧
    ∀ (n : Fin 48) (c : Fin 4), n.val = 4 * f.val + c.val →
      (∀ t, e.targets[c] = some t →
        ((l.pass P h level k st false false []).channels[n].target = t ∧
          (l.pass P h level k st false false []).channels[n].elapsed = 0 ∧
          (l.pass P h level k st false false []).channels[n].fade = e.fade) ∧
        (e.fade = 0 → (l.pass P h level k st false false []).channels[n].level = t) ∧
        (0 < e.fade → (l.pass P h level k st false false []).channels[n].level = l.channels[n].step.level ∧
          (l.pass P h level k st false false []).channels[n].start = l.channels[n].step.level)) ∧
      (e.targets[c] = none → (l.pass P h level k st false false []).channels[n] =
        { l.channels[n].step with output := (l.pass P h level k st false false []).channels[n].output })) ∧
  (∀ (P : Params) (h : Hu) (level k : Nat) (st : ShowState) (l : Lu) (f : Fin 12) (e : FollowEntry),
    l.follow[f] = some e →
    (st = .held ∨ (k < e.limit ∧ (h.arrivalOf e.jet = .pending ∨
      ∃ t x, h.arrivalOf e.jet = .set t x ∧ k < t / 960))) →
    (l.pass P h level k st false false []).follow[f] = some e) ∧
  (∀ (P : Params) (h : Hu) (level k : Nat) (l : Lu) (n : Fin 48),
    (l.pass P h level k .held false false []).channels[n].level = l.channels[n].level ∧
    (l.pass P h level k .held false false []).channels[n].elapsed = l.channels[n].elapsed)

/-- Voices (R96, R99, R100). The factor of g is 32768 × 10^(−g/200) rounded to the nearest. A START takes the prime record
that names its segment and sample, or asks anew, and the voice plays from its start time at the START's gain, with no prime
record and the other voice as it was. A GAIN on a PLAYING voice moves its factor over n boundaries, j of them by j / n of the
way, and in no other state. A STOP_VOICE on a sounding voice fades it to 0 over its frames and leaves the content at the
last of them, at once for 0 frames; it clears a PRIMING voice, and an IDLE one ignores it. -/
def Obligations.VoicesStartRampAndFade : Prop :=
  (∀ g : Nat, (2 * dbFactor g - 1) ^ 200 * 10 ^ g ≤ 65536 ^ 200 ∧ 65536 ^ 200 < (2 * dbFactor g + 1) ^ 200 * 10 ^ g) ∧
  (∀ (a : Au) (v : VoiceId) (g s gain ts : Nat),
    ((a.doStart v g s gain ts).voice v).state = .playing ∧ ((a.doStart v g s gain ts).voice v).prime = none ∧
    ((a.doStart v g s gain ts).voice v).gain = dbFactor gain ∧
    ((a.doStart v g s gain ts).voice v).rampTarget = dbFactor gain ∧
    ((a.doStart v g s gain ts).voice v).ramping = false ∧
    (∀ w : VoiceId, w ≠ v → (a.doStart v g s gain ts).voice w = a.voice w) ∧
    (∃ c, ((a.doStart v g s gain ts).voice v).content = some c ∧ c.item.segment = g ∧ c.item.start = s ∧ c.ts = ts ∧
      c.ended = false ∧
      (∀ r, (a.voice v).prime = some r → r.segment = g → r.start = s →
        c.item = r ∧ (a.doStart v g s gain ts).requests = a.requests) ∧
      ((∀ r, (a.voice v).prime = some r → r.segment ≠ g ∨ r.start ≠ s) → c.item.kind = none ∧
        c.item.request = a.nextRequest ∧ (a.doStart v g s gain ts).requests =
          a.requests ++ [{ id := a.nextRequest, voice := v, segment := g }]))) ∧
  (∀ (v : Voice) (g n j : Nat), v.state = .playing → 0 < n → v.gain ≤ 32768 →
    (j ≤ n → ((Nat.repeat Voice.stepRamp j (v.doGain g n)).gain : Int) =
      (v.gain : Int) + (((dbFactor g : Int) - v.gain) * j).tdiv n) ∧
    (n ≤ j → (Nat.repeat Voice.stepRamp j (v.doGain g n)).gain = dbFactor g ∧
      (Nat.repeat Voice.stepRamp j (v.doGain g n)).ramping = false)) ∧
  (∀ (v : Voice) (g n : Nat), (v.state = .playing → (v.doGain g 0).gain = dbFactor g ∧ (v.doGain g 0).ramping = false) ∧
    (v.state ≠ .playing → v.doGain g n = v)) ∧
  (∀ (v : Voice) (n j : Nat), (v.state = .playing ∨ v.state = .fading) → (v.content.any fun c => c.ended) = false →
    (j < n → (Nat.repeat (Voice.passStep false) j (v.doStop n)).state = .fading ∧
      (Nat.repeat (Voice.passStep false) j (v.doStop n)).content = v.content ∧
      ((Nat.repeat (Voice.passStep false) j (v.doStop n)).gain : Int) = (v.gain : Int) + (-(v.gain : Int) * j).tdiv n) ∧
    (n ≤ j → (Nat.repeat (Voice.passStep false) j (v.doStop n)).content = none ∧
      (Nat.repeat (Voice.passStep false) j (v.doStop n)).prime = v.prime ∧
      (Nat.repeat (Voice.passStep false) j (v.doStop n)).state = if v.prime.isSome then .priming else .idle)) ∧
  (∀ (v : Voice) (n : Nat), (v.state = .priming → (v.doStop n).state = .idle ∧ (v.doStop n).prime = none) ∧
    (v.state = .idle → v.doStop n = v))

/-! ## The audio unit (spec/05) -/

/-- The oldest definition request is answered (R95): an audio segment gives the waiting record its type and sample
count; an UNDEFINED segment is counted as MAP_FAULT, and the record goes; an answer that no record waits for is
discarded. Content whose position has reached its sample count has ended (R97), and is marked; nothing else changes. -/
def Obligations.DefinitionsAndEndsApplied : Prop :=
  (∀ (s : State) (q : DefRequest) (rest : List DefRequest) (p : PrimeRecord) (e : DirEntry), s.live = true →
    s.au.requests = q :: rest → (s.au.voice q.voice).prime = some p → p.request = q.id → p.kind = none →
    s.cm.entry q.segment = some e → e.kind ≠ .cue → ∃ t, exec .definitionAnswer s = .next t ∧
      (t.au.voice q.voice).prime = some { p with
        kind := some e.kind, count := e.length / (2 * if e.kind = .stereo then 2 else 1) } ∧
      (t.au.voice q.voice).state = (s.au.voice q.voice).state ∧
      (∀ v : VoiceId, v ≠ q.voice → t.au.voice v = s.au.voice v) ∧
      t.au.requests = rest ∧ t = { s with au := t.au }) ∧
  (∀ (s : State) (q : DefRequest) (rest : List DefRequest) (p : PrimeRecord), s.live = true →
    s.au.requests = q :: rest → (s.au.voice q.voice).prime = some p → p.request = q.id → p.kind = none →
    s.cm.entry q.segment = none → ∃ t, exec .definitionAnswer s = .next t ∧
      (t.au.voice q.voice).prime = none ∧
      ((s.au.voice q.voice).state = .priming → (t.au.voice q.voice).state = .idle) ∧ t.au.requests = rest ∧
      t.faulted .mapFault = true ∧ t = { s with au := t.au, biu := t.biu }) ∧
  (∀ (s : State) (q : DefRequest) (rest : List DefRequest), s.live = true → s.au.requests = q :: rest →
    (∀ p, (s.au.voice q.voice).prime = some p → p.request ≠ q.id) →
    (∀ c, (s.au.voice q.voice).content = some c → c.item.request ≠ q.id) →
    exec .definitionAnswer s = .next { s with au := { s.au with requests := rest } }) ∧
  ∀ (s : State) (v : VoiceId) (c : Content), (s.au.voice v).content = some c → (s.au.voice v).state ≠ .paused →
    c.item.kind.isSome = true → c.item.count ≤ c.item.start + (s.au.tau s.tbu.basinTime - c.ts) → ∃ t,
    exec (.contentEnd v) s = .next t ∧ t.au.voice v = { s.au.voice v with content := some { c with ended := true } } ∧
    (∀ w : VoiceId, w ≠ v → t.au.voice w = s.au.voice w) ∧ t.au.slots = s.au.slots ∧ t = { s with au := t.au }

/-- One tick of the local oscillator (R1, R102, R69, R128, R130): basin time counts one on, a pair of 16-bit samples is
presented, 0 until the configuration has been read and 0 from two silent voices. The pair is the sum of the two voices'
values for each output, saturated, ducked by 3277 under OUT_OF_STEP and brought down by the master trim. A voice's value is
its sample at the position, mono on both outputs, under the gain that moves linearly over the frame (R99) and the pause
envelope; a voice gives 0 before its start time, past its sample count, in IDLE and PRIMING, and where its block is missing
(R98); the spacing timer, every fetch timer that runs and every serve delay count down; frame numbers, pumps, lights, tables
and show memory are left. That OUTPUT_PAIR is this tick is log entry 6, the wrap at 2^48 is log entry 13, that a sample's more
significant byte stands first is log entry 17, the shift that a correction leaves for its own tick alone is log entry 51, and
that a paused voice's frozen ramp goes on in ENDING and HALTED is log entry 62: the model's choices. -/
def Obligations.TickPresentsPair : Prop :=
  ∀ s : State, s.powered = true → ∃ t, exec .outputPair s = .next t ∧
    t.tbu = { s.tbu with basinTime := (s.tbu.basinTime + 1) % 2 ^ 48, shift := 0 } ∧ t.audioOutput = s.pairNow ∧
    (s.st.configured = false → t.audioOutput = (0, 0)) ∧
    (s.au.a.state = .idle → s.au.b.state = .idle → t.audioOutput = (0, 0)) ∧
    (s.au.trimFactor ≤ 32768 → -32768 ≤ t.audioOutput.1 ∧ t.audioOutput.1 ≤ 32767 ∧
      -32768 ≤ t.audioOutput.2 ∧ t.audioOutput.2 ≤ 32767) ∧
    t.hu = { s.hu with spacing := s.hu.spacing - 1 } ∧
    t.cm = { s.cm with fills := t.cm.fills, serves := t.cm.serves } ∧
    t.cm.fills.length = s.cm.fills.length ∧ t.cm.serves.length = s.cm.serves.length ∧
    (∀ (k : Nat) (f : Fill), s.cm.fills[k]? = some f →
      t.cm.fills[k]? = some { f with timer := f.timer.map fun n => n - 1 }) ∧
    (∀ (k : Nat) (r : Serve) (n : Nat), s.cm.serves[k]? = some r → r.stage = .delay n →
      t.cm.serves[k]? = some { r with stage := .delay (n - 1) }) ∧
    (∀ (k : Nat) (r : Serve), s.cm.serves[k]? = some r → (∀ n, r.stage ≠ .delay n) → t.cm.serves[k]? = some r) ∧
    (s.st.configured = true →
      let x := s.au.voiceOut (s.tbu.state == .held) (s.au.tau s.tbu.basinTime) s.au.a
      let y := s.au.voiceOut (s.tbu.state == .held) (s.au.tau s.tbu.basinTime) s.au.b
      let out (m : Int) : Int :=
        (if s.tbu.outOfStep then max (-32768) (min 32767 m) * 3277 / 32768 else max (-32768) (min 32767 m))
          * s.au.trimFactor / 32768
      t.audioOutput = (out (x.1 + y.1), out (x.2 + y.2))) ∧
    (∀ (held : Bool) (tau : Nat) (v : Voice),
      (v.state = .idle ∨ v.state = .priming ∨ (∃ c, v.content = some c ∧ (tau < c.ts ∨
        (c.item.kind.isSome = true ∧ c.item.count ≤ c.item.start + (tau - c.ts)) ∨
        ∀ k, c.item.kind = some k →
          s.au.find? c.item.segment (blockOf k (c.item.start + (tau - c.ts))) = none)) →
        s.au.voiceOut held tau v = (0, 0)) ∧
      (∀ (c : Content) (k : SegType) (i : Fin 32), v.content = some c → c.item.kind = some k →
        (v.state = .playing ∨ v.state = .fading) → c.ts ≤ tau → c.item.start + (tau - c.ts) < c.item.count →
        s.au.find? c.item.segment (blockOf k (c.item.start + (tau - c.ts))) = some i →
        let at? (b : Nat) : Int := ((s.au.slots[i].data.getD b 0 ++ s.au.slots[i].data.getD (b + 1) 0 : BitVec 16)).toInt
        let p := c.item.start + (tau - c.ts)
        let close : Nat := if held then v.gain else v.stepRamp.gain
        let f : Int := (((v.gain : Int) + (((close : Int) - v.gain) * (min s.au.frameTick 960 : Nat)).tdiv 960).toNat : Nat)
        let out (m : Int) : Int := m * f / 32768 * v.envelope.factor / 32768
        s.au.voiceOut held tau v =
          if k = .stereo then (out (at? (4 * p % 4096)), out (at? (4 * p % 4096 + 2)))
          else (out (at? (2 * p % 4096)), out (at? (2 * p % 4096))))) ∧
    t.lu = s.lu ∧ t.ce = s.ce ∧ t.au.slots = s.au.slots ∧ t.smc = { s.smc with clock := t.smc.clock } ∧
    t.st = { s.st with oscTicks := s.st.oscTicks + 1 } ∧ t.liu = s.liu ∧ t.pt = s.pt ∧ t.pending = s.pending

/-! ## The content map (spec/06) -/

/-- A lookup (R115): the first of its checks that applies gives the answer, and only an ABSENT page or a miss of the map
cache changes anything but the cache's order. A miss joins or begins a walk (R116, R117). For an ABSENT page a fetch starts
when a fill record, a place for the table write and a free page are there (R127): the lowest free page, the entry FILLING,
a record with source FETCH, attempts 0 and its request owed; else it does not, with STORE_FULL only where the page alone is
lacking (that the record and the place are looked for first is log entry 24, the model's choice). Owed requests take the
places of the FETCH queue in the order in which they became owed, those of one moment in ascending segment and page
(R128); that one moment is one tick of the oscillator is log entry 51, the model's choice. -/
def Obligations.LookupsAnswered : Prop :=
  (∀ (s : State) (who : Asker) (g off : Nat) (k : SegType),
    (s.cm.entry g = none → s.lookup who g off k = (s, .mapFault)) ∧
    ∀ e, s.cm.entry g = some e →
      (e.kind ≠ k → s.lookup who g off k = (s, .typeMismatch)) ∧
      (e.kind = k → e.length ≤ off → s.lookup who g off k = (s, .endOf)) ∧
      (e.kind = k → off < e.length →
        (s.cm.pageState g (off / 16384) = .filling → s.lookup who g off k = (s, .wait)) ∧
        (s.cm.pageState g (off / 16384) = .unavailable → s.lookup who g off k = (s, .unavailable)) ∧
        (∀ c, s.cm.pageState g (off / 16384) = .present → s.cm.cached g (off / 16384) = some c → ∃ t : State,
          s.lookup who g off k = (t, .address c.phys) ∧ t.cm.cache.head? = some c ∧
            (∀ x, x ∈ t.cm.cache → x ∈ s.cm.cache) ∧ t = { s with cm := { s.cm with cache := t.cm.cache } }) ∧
        (s.cm.pageState g (off / 16384) = .present → s.cm.cached g (off / 16384) = none → ∃ t : State,
          s.lookup who g off k = (t, .walking) ∧
            (∃ w : Walk, .walk w ∈ t.cm.mapQ ∧ w.segment = g ∧ w.page = off / 16384 ∧ who ∈ w.askers) ∧
            t.cm.writesQueued = s.cm.writesQueued ∧ t.cm.cache = s.cm.cache ∧
            t = { s with cm := { s.cm with mapQ := t.cm.mapQ, mapIssued := t.cm.mapIssued }, smc := t.smc }) ∧
        (∀ p, s.cm.pageState g (off / 16384) = .absent → s.cm.fills.length < 8 → s.cm.tableWrites < 64 →
          s.cm.lowestFree = some p → ∃ (t : State) (x : Fill), s.lookup who g off k = (t, .wait) ∧
            t.cm.fills = s.cm.fills ++ [x] ∧ x.segment = g ∧ x.page = off / 16384 ∧ x.phys = p ∧ x.received = 0 ∧
            x.fetch = true ∧ x.attempts = 0 ∧ x.owed = true ∧ x.queued = false ∧ x.timer = none ∧
            x.last = s.tbu.basinTime ∧ x.owedAt = s.st.oscTicks ∧
            Table.get? t.cm.pages (pageKey g (off / 16384)) = some { state := .filling, phys := p } ∧
            t.cm.tableWrites = s.cm.tableWrites + 1 ∧ t.cm.dir = s.cm.dir ∧ t.smc.mem = s.smc.mem ∧
            t = { s with cm := t.cm, smc := t.smc }) ∧
        (s.cm.pageState g (off / 16384) = .absent → (8 ≤ s.cm.fills.length ∨ 64 ≤ s.cm.tableWrites) →
          s.lookup who g off k = (s, .wait)) ∧
        (s.cm.pageState g (off / 16384) = .absent → s.cm.fills.length < 8 → s.cm.tableWrites < 64 →
          s.cm.lowestFree = none → ∃ t : State, s.lookup who g off k = (t, .wait) ∧
            t.faultCount .storeFull = min 65535 (s.faultCount .storeFull + 1) ∧
            t = { s with cm := { s.cm with storeFull := true }, biu := t.biu }))) ∧
  (∀ (c : Cm) (f : Fill), c.nextOwed = some f → f ∈ c.fills ∧ f.owed = true ∧ f.queued = false ∧
    ∀ x ∈ c.fills, x.owed = true → x.queued = false →
      f.owedAt < x.owedAt ∨ (f.owedAt = x.owedAt ∧ 64 * f.segment + f.page ≤ 64 * x.segment + x.page)) ∧
  (∀ c : Cm, c.nextOwed = none → ∀ x ∈ c.fills, x.owed = true → x.queued = true) ∧
  (∀ s : State, (s.cm.fills.map fun f => f.id).Nodup → ∃ q, s.queueRequests.liu.fetchQ = s.liu.fetchQ ++ q ∧
    (s.liu.fetchQ.length ≤ 2 → s.queueRequests.liu.fetchQ.length ≤ 2) ∧
    (s.queueRequests.liu.fetchQ.length < 2 → ∀ x ∈ s.queueRequests.cm.fills, x.owed = true → x.queued = true) ∧
    s.queueRequests = { s with cm := { s.cm with fills := s.queueRequests.cm.fills }, liu := s.queueRequests.liu })

/-- A walk's second read completes (R116, R117): not stale, its entry is the most recently used of the map cache, which
stays within 16, and every lookup it carried is answered with the physical page read; stale, it installs nothing and each
lookup is answered afresh, and the page requests that come to be owed from it take their places. Before that, a table write
or a walk's first read leaves the head of the map-region queue or goes on to the second read (R114). That the physical page
stands in bytes 2 and 3 of an entry is log entry 8, the model's choice. -/
def Obligations.MapRegionAccessesComplete : Prop :=
  (∀ (s : State) (w : Walk) (rest : List MapEntry) (r : Report), s.cm.mapQ = .walk w :: rest → w.second = true →
    s.smc.reportOf .walk = some r → w.stale = false → s.cm.cache.length ≤ 16 → ∃ (x : State) (phys : Nat),
    exec .walkComplete s = .next (w.askers.foldl (fun y a => y.answerAsker (.address phys) a) x) ∧
      phys = beNat ((r.bytes.drop (4 * ((64 * w.segment + w.page) % 4) + 2)).take 2) ∧
      (x.cm.cache.head?.map fun e => (e.segment, e.page)) = some (w.segment, w.page) ∧ x.cm.cache.length ≤ 16 ∧
      (s.cm.cached w.segment w.page = none → (x.cm.cache.head?.map fun e => e.phys) = some phys) ∧
      x.cm.mapQ = rest ∧ x.cm.pages = s.cm.pages ∧ x.cm.dir = s.cm.dir ∧ x.smc.mem = s.smc.mem ∧ x.tbu = s.tbu ∧
      x.ce = s.ce ∧ x.au = s.au) ∧
  (∀ (s : State) (w : Walk) (rest : List MapEntry) (r : Report), s.cm.mapQ = .walk w :: rest → w.second = true →
    s.smc.reportOf .walk = some r → w.stale = true → ∃ x : State,
    exec .walkComplete s = .next (w.askers.foldl State.answerAfresh x).queueRequests ∧
      x.cm.cache = s.cm.cache ∧ x.cm.mapQ = rest ∧ x.cm.pages = s.cm.pages ∧ x.smc.mem = s.smc.mem) ∧
  (∀ (s : State) (w : TableWrite) (rest : List MapEntry) (r : Report), s.cm.mapQ = .write w :: rest →
    s.smc.reportOf .walk = some r → ∃ t, exec .mapRegionAccessComplete s = .next t ∧ t.cm.mapQ = rest ∧
      (∀ n, s.cm.init = .left n → t.cm.init = .left (if w.init then n - 1 else n)) ∧
      t.cm.pages = s.cm.pages ∧ t.cm.dir = s.cm.dir ∧ t.cm.cache = s.cm.cache ∧ t.smc.mem = s.smc.mem ∧
      t = { s with cm := t.cm, smc := t.smc }) ∧
  (∀ (s : State) (w : Walk) (rest : List MapEntry) (r : Report), s.cm.mapQ = .walk w :: rest → w.second = false →
    w.askers ≠ [] → s.smc.reportOf .walk = some r → ∃ t, exec .mapRegionAccessComplete s = .next t ∧
      t.cm.mapQ = .walk { w with second := true } :: rest ∧ t.cm.cache = s.cm.cache ∧ t.smc.mem = s.smc.mem ∧
      t = { s with cm := t.cm, smc := t.smc })

/-- A page becomes PRESENT with the fill's physical page when the write of its last chunk completes and its table write
has a place (R126, R114), at once or as the first of the changes that wait; the fill record is freed in the same change.
A write that completes before the last chunk leaves the tables as they are. -/
def Obligations.PageBecomesPresent : Prop :=
  (∀ (s : State) (r : Report) (f : Fill), s.smc.reportOf .content = some r → s.cm.chunk = some f.id →
    s.cm.fillById f.id = some f → f.received = BitVec.allOnes 256 → s.cm.waiting = [] → s.cm.tableWrites < 64 → ∃ t,
    exec .chunkWriteComplete s = .next t ∧ t.cm.chunk = none ∧
      Table.get? t.cm.pages (pageKey f.segment f.page) = some { state := .present, phys := f.phys } ∧
      (∀ x ∈ t.cm.fills, x.id ≠ f.id) ∧ t.cm.taken = s.cm.taken ∧ t.cm.dir = s.cm.dir ∧
      t.smc.mem = s.smc.mem ∧ t.tbu = s.tbu ∧ t.au = s.au ∧ t.ce = s.ce) ∧
  (∀ (s : State) (r : Report) (f : Fill), s.smc.reportOf .content = some r → s.cm.chunk = some f.id →
    s.cm.fillById f.id = some f → f.received ≠ BitVec.allOnes 256 → ∃ t,
    exec .chunkWriteComplete s = .next t ∧ t.cm = { s.cm with chunk := none } ∧
      t = { s with cm := t.cm, smc := t.smc } ∧ t.smc.mem = s.smc.mem) ∧
  (∀ (s : State) (f : Fill) (rest : List Change), s.live = true → s.cm.waiting = .present f.id :: rest →
    s.cm.fillById f.id = some f → s.cm.tableWrites < 64 → ∃ t, exec .queuedChangeApply s = .next t ∧
      t.cm.waiting = rest ∧
      Table.get? t.cm.pages (pageKey f.segment f.page) = some { state := .present, phys := f.phys } ∧
      (∀ x ∈ t.cm.fills, x.id ≠ f.id) ∧ t.cm.taken = s.cm.taken ∧ t.smc.mem = s.smc.mem) ∧
  (∀ s : State, 64 ≤ s.cm.tableWrites → exec .queuedChangeApply s = .next s)

/-- A SHOW_SELECT taken (R121, R122): every segment of 0..119 becomes UNDEFINED with every page ABSENT, no fill or serve
record of one stays, and the house program's segments are untouched; the current show is the frame's. In another state, or
for the current show, nothing changes; a show above 119 is counted as MAP_FAULT. -/
def Obligations.ShowSelectionReleases : Prop :=
  (∀ (s : State) (n : Nat) (rest : List ContentFrame), s.live = true → s.cm.intake = .select n :: rest →
    s.cm.mayTake = true → (s.tbu.state = .idle ∨ s.tbu.state = .standby) → n ≤ 119 → n ≠ s.cm.showId →
    s.tablesCanonical → ∃ t, exec .showSelectTaken s = .next t ∧ t.cm.showId = n ∧ t.cm.intake = rest ∧
      (∀ g, g < 120 → t.cm.entry g = none) ∧ (∀ g, 120 ≤ g → t.cm.entry g = s.cm.entry g) ∧
      (∀ g q, 120 ≤ g → q < 64 → t.cm.pageState g q = s.cm.pageState g q) ∧
      (∀ g q, (s.cm.entry g).isSome = true → g < 120 → q < 64 → t.cm.pageState g q = .absent) ∧
      (∀ f ∈ t.cm.fills, f ∈ s.cm.fills ∧ ((s.cm.entry f.segment).isSome = true → 120 ≤ f.segment)) ∧
      (∀ r ∈ t.cm.serves, r ∈ s.cm.serves ∧ ((s.cm.entry r.segment).isSome = true → 120 ≤ r.segment)) ∧
      t.smc.mem = s.smc.mem ∧ t.tbu = s.tbu ∧ t.ce = s.ce ∧ t.hu = s.hu ∧ t.lu = s.lu ∧ t.pending = s.pending) ∧
  (∀ (s : State) (n : Nat) (rest : List ContentFrame), s.live = true → s.cm.intake = .select n :: rest →
    s.cm.mayTake = true → ((s.tbu.state ≠ .idle ∧ s.tbu.state ≠ .standby) ∨ (n ≤ 119 ∧ n = s.cm.showId)) →
    exec .showSelectTaken s = .next { s with cm := { s.cm with intake := rest } }) ∧
  (∀ (s : State) (n : Nat) (rest : List ContentFrame), s.live = true → s.cm.intake = .select n :: rest →
    s.cm.mayTake = true → (s.tbu.state = .idle ∨ s.tbu.state = .standby) → 119 < n → ∃ t,
    exec .showSelectTaken s = .next t ∧ t.cm = { s.cm with intake := rest } ∧ t.faulted .mapFault = true ∧
      t = { s with cm := t.cm, biu := t.biu })

/-- A SEGMENT_DEFINE taken (R123, R124): ignored in a show-bearing state; refused with MAP_FAULT when it fails the
screening; without effect when it repeats the entry; otherwise the entry becomes DEFINED with its fields when it concerns
the station, and UNDEFINED when it does not. -/
def Obligations.DefinitionTaken : Prop :=
  (∀ (s : State) (f : SegmentDefineFields) (rest : List ContentFrame), s.live = true →
    s.cm.intake = .define f :: rest → s.cm.mayTake = true → s.tbu.state.bearing = true →
    exec .segmentDefineTaken s = .next { s with cm := { s.cm with intake := rest } }) ∧
  (∀ (s : State) (f : SegmentDefineFields) (rest : List ContentFrame), s.live = true →
    s.cm.intake = .define f :: rest → s.cm.mayTake = true → s.tbu.state.bearing = false →
    (f.reservedSet = true ∨ f.length.toNat = 0 ∨ 1048576 < f.length.toNat ∨ f.kind.toNat = 3 ∨
      s.cm.showMatches f.showId.toNat (segmentOf f) = false) → ∃ t, exec .segmentDefineTaken s = .next t ∧
      t.cm = { s.cm with intake := rest } ∧ t.faulted .mapFault = true ∧ t = { s with cm := t.cm, biu := t.biu }) ∧
  (∀ (s : State) (f : SegmentDefineFields) (rest : List ContentFrame) (k : SegType), s.live = true →
    s.cm.intake = .define f :: rest → s.cm.mayTake = true → s.tbu.state.bearing = false →
    s.cm.screenDefine f = some k → concerns f k s.own = true → s.cm.entry (segmentOf f) = some (dirEntryOf f k) →
    exec .segmentDefineTaken s = .next { s with cm := { s.cm with intake := rest } }) ∧
  (∀ (s : State) (f : SegmentDefineFields) (rest : List ContentFrame) (k : SegType), s.live = true →
    s.cm.intake = .define f :: rest → s.cm.mayTake = true → s.tbu.state.bearing = false →
    s.cm.screenDefine f = some k → concerns f k s.own = true → s.cm.entry (segmentOf f) ≠ some (dirEntryOf f k) →
    s.tablesCanonical → ∃ t, exec .segmentDefineTaken s = .next t ∧ t.cm.intake = rest ∧
      t.cm.entry (segmentOf f) = some { showId := f.showId.toNat, kind := k, length := f.length.toNat,
                                        owner := if k = .cue then f.owner else 0 } ∧
      (∀ g, g ≠ segmentOf f → t.cm.entry g = s.cm.entry g) ∧
      ((s.cm.entry (segmentOf f)).isSome = true → ∀ q, q < 64 → t.cm.pageState (segmentOf f) q = .absent) ∧
      t.smc.mem = s.smc.mem ∧ t.tbu = s.tbu ∧ t.ce = s.ce ∧ t.hu = s.hu ∧ t.lu = s.lu ∧ t.pending = s.pending) ∧
  (∀ (s : State) (f : SegmentDefineFields) (rest : List ContentFrame) (k : SegType), s.live = true →
    s.cm.intake = .define f :: rest → s.cm.mayTake = true → s.tbu.state.bearing = false →
    s.cm.screenDefine f = some k → concerns f k s.own = false → s.tablesCanonical → ∃ t,
    exec .segmentDefineTaken s = .next t ∧ t.cm.intake = rest ∧ t.cm.entry (segmentOf f) = none ∧
      (∀ g, g ≠ segmentOf f → t.cm.entry g = s.cm.entry g) ∧ t.smc.mem = s.smc.mem ∧ t.tbu = s.tbu ∧
      t.pending = s.pending)

/-- A PAGE_DATA taken (R125, R126): for an ABSENT or UNAVAILABLE page of a DEFINED segment a fill is opened on the lowest
free physical page, and the chunk's bytes go to the memory controller as a content write at byte 64 × chunk of it; with 8
fill records in use the chunk is ignored, and with no free page STORE_FULL is raised (R119). A chunk for a FILLING page
restarts the record's timer, unless its request is owed, and is written when it is not in the received set yet; one that
is, is done at once. A chunk for a PRESENT page, or of a show that does not match, is ignored; an unused page, or one that
the bytes do not name, is counted as MAP_FAULT (R198). -/
def Obligations.PageDataTaken : Prop :=
  (∀ (s : State) (f : PageDataFields) (rest : List ContentFrame) (e : DirEntry) (p : Nat), s.live = true →
    s.cm.intake = .data f :: rest → s.cm.mayTake = true → s.smc.classFree .content = true →
    f.segment.toNat ≤ 127 → f.page.toNat ≤ 63 → s.cm.showMatches f.showId.toNat f.segment.toNat = true →
    s.cm.entry f.segment.toNat = some e → f.page.toNat < (e.length + 16383) / 16384 →
    (s.cm.pageState f.segment.toNat f.page.toNat = .absent ∨
      s.cm.pageState f.segment.toNat f.page.toNat = .unavailable) →
    s.cm.fills.length < 8 → s.cm.lowestFree = some p →
    (∀ x ∈ s.cm.fills, x.id < s.cm.nextId ∧ ¬(x.segment = f.segment.toNat ∧ x.page = f.page.toNat)) →
    ∃ (t : State) (x : Fill),
    exec .pageDataTaken s = .next t ∧ t.cm.intake = rest ∧
      Table.get? t.cm.pages (pageKey f.segment.toNat f.page.toNat) = some { state := .filling, phys := p } ∧
      t.cm.fills = s.cm.fills ++ [x] ∧ x.segment = f.segment.toNat ∧ x.page = f.page.toNat ∧ x.phys = p ∧
      x.received = 1 <<< f.chunk.toNat ∧ x.fetch = false ∧ x.attempts = 0 ∧ x.owed = false ∧
      x.timer = some (s.params.fetchTimeout * 48) ∧ x.last = s.tbu.basinTime ∧ t.cm.chunk = some x.id ∧
      (t.smc.content.map fun r => (r.kind, r.bank.val, r.row, r.col, r.data, r.done)) =
        some (.write64, p % 4, 4 * (p / 4) + 64 * f.chunk.toNat / 4096, 64 * f.chunk.toNat % 4096,
          f.data.map some, 0) ∧
      t.cm.dir = s.cm.dir ∧ t.smc.mem = s.smc.mem ∧ t.tbu = s.tbu ∧ t.au = s.au ∧ t.ce = s.ce ∧
      t.pending = s.pending) ∧
  (∀ (s : State) (f : PageDataFields) (rest : List ContentFrame), s.live = true →
    s.cm.intake = .data f :: rest → s.cm.mayTake = true → s.smc.classFree .content = true →
    f.segment.toNat ≤ 127 → f.page.toNat ≤ 63 →
    (s.cm.showMatches f.showId.toNat f.segment.toNat = false ∨ s.cm.entry f.segment.toNat = none ∨
      ∃ e, s.cm.entry f.segment.toNat = some e ∧ f.page.toNat < (e.length + 16383) / 16384 ∧
        s.cm.pageState f.segment.toNat f.page.toNat = .present) →
    exec .pageDataTaken s = .next { s with cm := { s.cm with intake := rest } }) ∧
  (∀ (s : State) (f : PageDataFields) (rest : List ContentFrame) (e : DirEntry), s.live = true →
    s.cm.intake = .data f :: rest → s.cm.mayTake = true → s.smc.classFree .content = true →
    f.segment.toNat ≤ 127 → f.page.toNat ≤ 63 → s.cm.showMatches f.showId.toNat f.segment.toNat = true →
    s.cm.entry f.segment.toNat = some e → (e.length + 16383) / 16384 ≤ f.page.toNat → ∃ t,
    exec .pageDataTaken s = .next t ∧ t.cm = { s.cm with intake := rest } ∧ t.faulted .mapFault = true ∧
      t = { s with cm := t.cm, biu := t.biu }) ∧
  (∀ (s : State) (f : PageDataFields) (rest : List ContentFrame), s.live = true →
    s.cm.intake = .data f :: rest → s.cm.mayTake = true → s.smc.classFree .content = true →
    (127 < f.segment.toNat ∨ 63 < f.page.toNat) → ∃ t,
    exec .pageDataTaken s = .next t ∧ t.cm = { s.cm with intake := rest } ∧ t.faulted .mapFault = true ∧
      t = { s with cm := t.cm, biu := t.biu }) ∧
  (∀ (s : State) (f : PageDataFields) (rest : List ContentFrame) (e : DirEntry), s.live = true →
    s.cm.intake = .data f :: rest → s.cm.mayTake = true → s.smc.classFree .content = true →
    f.segment.toNat ≤ 127 → f.page.toNat ≤ 63 → s.cm.showMatches f.showId.toNat f.segment.toNat = true →
    s.cm.entry f.segment.toNat = some e → f.page.toNat < (e.length + 16383) / 16384 →
    (s.cm.pageState f.segment.toNat f.page.toNat = .absent ∨
      s.cm.pageState f.segment.toNat f.page.toNat = .unavailable) →
    (8 ≤ s.cm.fills.length → exec .pageDataTaken s = .next { s with cm := { s.cm with intake := rest } }) ∧
    (s.cm.fills.length < 8 → s.cm.lowestFree = none → ∃ t, exec .pageDataTaken s = .next t ∧
      t.cm = { s.cm with intake := rest, storeFull := true } ∧ t.faulted .storeFull = true ∧
      t = { s with cm := t.cm, biu := t.biu })) ∧
  (∀ (s : State) (f : PageDataFields) (rest : List ContentFrame) (e : DirEntry) (x : Fill), s.live = true →
    s.cm.intake = .data f :: rest → s.cm.mayTake = true → s.smc.classFree .content = true →
    f.segment.toNat ≤ 127 → f.page.toNat ≤ 63 → s.cm.showMatches f.showId.toNat f.segment.toNat = true →
    s.cm.entry f.segment.toNat = some e → f.page.toNat < (e.length + 16383) / 16384 →
    s.cm.pageState f.segment.toNat f.page.toNat = .filling → x ∈ s.cm.fills → x.segment = f.segment.toNat →
    x.page = f.page.toNat → (∀ y ∈ s.cm.fills, y.segment = x.segment → y.page = x.page → y = x) → ∃ t,
    exec .pageDataTaken s = .next t ∧ t.cm.intake = rest ∧ t.cm.pages = s.cm.pages ∧ t.cm.taken = s.cm.taken ∧
      { x with
        received := x.received ||| (1 <<< f.chunk.toNat)
        timer := if x.owed then x.timer else some (s.params.fetchTimeout * 48)
        last := if x.owed then x.last else s.tbu.basinTime } ∈ t.cm.fills ∧
      (x.received.getLsbD f.chunk.toNat = false → t.cm.chunk = some x.id ∧
        (t.smc.content.map fun r => (r.kind, r.bank.val, r.row, r.col, r.data, r.done)) =
          some (.write64, x.phys % 4, 4 * (x.phys / 4) + 64 * f.chunk.toNat / 4096, 64 * f.chunk.toNat % 4096,
            f.data.map some, 0)) ∧
      (x.received.getLsbD f.chunk.toNat = true → t.cm.chunk = none ∧ t.smc = s.smc) ∧
      t.smc.mem = s.smc.mem ∧ t = { s with cm := t.cm, smc := t.smc })

/-- A fetch timer that expires (R128, R129): below three attempts the request becomes owed and the source FETCH; after
three the page becomes UNAVAILABLE with PAGE_UNAVAILABLE, and its record is freed. Of two that expire at one moment the lowest
segment and page is taken first by log entry 63, the model's choice. A free place of the FETCH queue takes the request owed
first. A request gone out counts an attempt and starts the timer. -/
def Obligations.FetchesRequested : Prop :=
  (∀ (s : State) (f : Fill), s.live = true → s.cm.expired = some f → f.attempts < 3 → ∃ t,
    exec .fetchTimerExpiry s = .next t ∧
      (∃ x ∈ t.cm.fills, x.id = f.id ∧ x.fetch = true ∧ x.owed = true ∧ x.timer = none ∧ x.attempts = f.attempts) ∧
      t.cm.pages = s.cm.pages ∧ t.smc = s.smc ∧ t.biu = s.biu ∧ t.tbu = s.tbu ∧ t.pending = s.pending) ∧
  (∀ (s : State) (f : Fill), s.live = true → s.cm.expired = some f → 3 ≤ f.attempts →
    (∀ x ∈ s.cm.fills, x.id = f.id → x = f) → s.cm.waiting = [] → s.cm.tableWrites < 64 → ∃ t,
    exec .fetchTimerExpiry s = .next t ∧ t.cm.pageState f.segment f.page = .unavailable ∧
      (∀ x ∈ t.cm.fills, x.id ≠ f.id) ∧ t.cm.taken = s.cm.taken.erase f.phys ∧ t.faulted .pageUnavailable = true ∧
      t.cm.dir = s.cm.dir ∧ t.smc.mem = s.smc.mem ∧ t.tbu = s.tbu ∧ t.pending = s.pending) ∧
  (∀ (s : State) (f : Fill), s.live = true → s.liu.fetchQ.length < 2 → s.cm.nextOwed = some f → ∃ t,
    exec .pageRequestQueue s = .next t ∧
      t.liu.fetchQ = s.liu.fetchQ ++
        [{ fill := f.id, showId := if 120 ≤ f.segment then 0 else s.cm.showId, segment := f.segment,
           page := f.page }] ∧
      (∀ x ∈ t.cm.fills, x.id = f.id → x.queued = true) ∧ t.cm.pages = s.cm.pages ∧
      t = { s with cm := t.cm, liu := t.liu }) ∧
  (∀ (s : State) (tx : Tx) (q : PageRequestOut) (rest : List PageRequestOut) (f : Fill), s.liu.tx = some tx →
    tx.source = .fetch → s.liu.fetchQ = q :: rest → f ∈ s.cm.fills → f.id = q.fill → ∃ t,
    exec .pageRequestGoneOut s = .next t ∧
      t.liu = { s.liu with tx := none, fails := 0, fetchQ := rest } ∧
      { f with attempts := f.attempts + 1, owed := false, queued := false,
               timer := some (s.params.fetchTimeout * 48), last := s.tbu.basinTime } ∈ t.cm.fills ∧
      t.cm.pages = s.cm.pages ∧ t = { s with cm := t.cm, liu := t.liu })

/-- A PAGE_REQUEST opens a serve record in DELAY when no case of R130 refuses it, and is ignored otherwise; that its delay is
(distance × step + 1) × 48 ticks of the local oscillator is log entry 31, the model's choice. At the end of its delay the
record is SENDING with next read 0 (R131), its address known at once on a map cache hit; of two delays that end at one
moment the lower segment or page goes first by log entry 64, the model's choice. Its reads (R132) are issued for the
256 bytes of chunks next read to next read + 3 as the conditions of R132 hold; a completed read queues the four PAGE_DATA
frames in chunk order; a frame gone out leaves the queue, counts for the burst yield (R158), and with chunk 255 frees the
record. A completion of a record that has stopped has no effect (R133). -/
def Obligations.PageRequestsServed : Prop :=
  (∀ (p : Position) (n g q : Byte) (s : State), s.hears p → g.toNat ≤ 127 → q.toNat ≤ 63 →
    s.cm.showMatches n.toNat g.toNat = true → (s.cm.entry g.toNat).isSome = true →
    s.cm.pageState g.toNat q.toNat = .present →
    (∀ r ∈ s.cm.serves, ¬(r.segment = g.toNat ∧ r.page = q.toNat)) → s.cm.serves.length < 2 →
    s.liu.conflict = false →
    exec (.pageRequest p n g q) s = .next { s.afterFrame with
      cm := { s.cm with
        serves := s.cm.serves ++
          [{ id := s.cm.nextId, segment := g.toNat, page := q.toNat, requester := p.val,
             stage := .delay ((((s.own.val - p.val) + (p.val - s.own.val)) * s.params.serveStep + 1) * 48) }]
        nextId := s.cm.nextId + 1 } }) ∧
  (∀ (p : Position) (n g q : Byte) (s : State), s.hears p →
    (127 < g.toNat ∨ 63 < q.toNat ∨ s.cm.showMatches n.toNat g.toNat = false ∨ s.cm.entry g.toNat = none ∨
      s.cm.pageState g.toNat q.toNat ≠ .present ∨ (∃ r ∈ s.cm.serves, r.segment = g.toNat ∧ r.page = q.toNat) ∨
      2 ≤ s.cm.serves.length ∨ s.liu.conflict = true) →
    exec (.pageRequest p n g q) s = .next s.afterFrame) ∧
  (∀ (s : State) (r : Serve) (e : DirEntry) (c : CacheEntry), s.live = true →
    s.cm.lowestServe Serve.delayOver = some r → s.cm.entry r.segment = some e → r.page * 16384 < e.length →
    s.cm.pageState r.segment r.page = .present → s.cm.cached r.segment r.page = some c →
    ∃ t, exec .serveDelayEnd s = .next t ∧
      { r with stage := .sending (some c.phys) 0 false } ∈ t.cm.serves ∧ t = { s with cm := t.cm }) ∧
  (∀ (s : State) (r : Serve) (e : DirEntry), s.live = true → s.cm.lowestServe Serve.delayOver = some r →
    s.cm.entry r.segment = some e → r.page * 16384 < e.length → s.cm.pageState r.segment r.page = .present →
    s.cm.cached r.segment r.page = none → ∃ t, exec .serveDelayEnd s = .next t ∧
      { r with stage := .sending none 0 false } ∈ t.cm.serves ∧
      (∃ w : Walk, .walk w ∈ t.cm.mapQ ∧ w.segment = r.segment ∧ w.page = r.page ∧ .serve r.id ∈ w.askers) ∧
      t.smc.mem = s.smc.mem ∧ t = { s with cm := t.cm, smc := t.smc }) ∧
  (∀ (s : State) (r : Serve) (p next : Nat), s.live = true → s.smc.classFree .serve = true →
    s.cm.lowestServe s.mayRead = some r → r.stage = .sending (some p) next false → ∃ t,
    exec .serveReadIssue s = .next t ∧ { r with stage := .sending (some p) next true } ∈ t.cm.serves ∧
      (t.smc.serve.getLast?.map fun x => (x.kind, x.id, x.bank.val, x.row, x.col)) =
        some (.read256, r.id, p % 4, 4 * (p / 4) + 64 * next / 4096, 64 * next % 4096) ∧
      t.smc.mem = s.smc.mem ∧ t = { s with cm := t.cm, smc := t.smc }) ∧
  (∀ (s : State) (d : Report) (r : Serve) (a : Option Nat) (next : Nat), s.smc.reportOf .serve = some d →
    s.cm.serves.find? (fun x => x.id == d.id) = some r → r.stage = .sending a next true → ∃ t,
    exec .serveReadComplete s = .next t ∧ { r with stage := .sending a (next + 4) false } ∈ t.cm.serves ∧
      t.liu.contentQ.map (fun x => (x.chunk, x.segment, x.page, x.data)) =
        s.liu.contentQ.map (fun x => (x.chunk, x.segment, x.page, x.data)) ++
          [(next, r.segment, r.page, d.bytes.take 64),
           (next + 1, r.segment, r.page, (d.bytes.drop 64).take 64),
           (next + 2, r.segment, r.page, (d.bytes.drop 128).take 64),
           (next + 3, r.segment, r.page, (d.bytes.drop 192).take 64)] ∧
      t.smc.mem = s.smc.mem ∧ t = { s with cm := t.cm, smc := t.smc, liu := t.liu }) ∧
  (∀ (s : State) (d : Report), s.smc.reportOf .serve = some d → (∀ x ∈ s.cm.serves, x.id ≠ d.id) → ∃ t,
    exec .serveReadComplete s = .next t ∧ t = { s with smc := t.smc } ∧ t.smc.mem = s.smc.mem) ∧
  (∀ (s : State) (tx : Tx) (p : PageDataOut) (rest : List PageDataOut), s.liu.tx = some tx → tx.source = .content →
    s.liu.contentQ = p :: rest → ∃ t, exec .pageDataGoneOut s = .next t ∧
      t.liu = { s.liu with tx := none, fails := 0, contentQ := rest, yieldCount := min 4 (s.liu.yieldCount + 1) } ∧
      (p.chunk = 255 → ∀ r ∈ t.cm.serves, r.id ≠ p.serve) ∧ (p.chunk ≠ 255 → t.cm = s.cm) ∧
      t = { s with cm := t.cm, liu := t.liu })

/-! ## The show memory controller (spec/07) -/

/-- The start-up sequence of the controller (R148): INIT_WAIT, INIT_PRECHARGE, INIT_REFRESH with its 8 refreshes,
INIT_MODE and READY, each entered when the one before it ends, with all banks IDLE from the precharge on, the slots as
they are, and at READY the debt 0 and the first grant point. The station's MEMORY phase ends with it (R192), and the map
region's initialisation begins (R135). That the commands change nothing in READY is log entry 5, and that the memory clock
then stands at 20,000 or more is log entry 23: the model's choices. -/
def Obligations.MemoryStartUp : Prop :=
  (∀ s : State, s.powered = true → s.smc.ctl = .initWait → exec .initWaitEnd s =
    .next { s with smc := { s.smc with clock := max s.smc.clock 20000, ctl := .initPrecharge } }) ∧
  (∀ s : State, s.smc.ctl = .initPrecharge → ∃ t, exec .initPrechargeEnd s = .next t ∧ t.smc.ctl = .initRefresh ∧
    t.smc.initCount = 0 ∧ (∀ b : Fin 4, t.smc.banks[b].state = .idle ∧ t.smc.banks[b].row = none) ∧
    (∀ c : ReqClass, t.smc.slot c = s.smc.slot c) ∧ t.smc.mem = s.smc.mem ∧ t = { s with smc := t.smc }) ∧
  (∀ s : State, s.smc.ctl = .initRefresh → ∃ t, exec .initRefreshEnd s = .next t ∧
    t.smc.ctl = (if s.smc.initCount < 7 then .initRefresh else .initMode) ∧
    t.smc.initCount = s.smc.initCount + 1 ∧ t.smc.debt = s.smc.debt ∧
    (∀ c : ReqClass, t.smc.slot c = s.smc.slot c) ∧ t.smc.mem = s.smc.mem ∧ t = { s with smc := t.smc }) ∧
  (∀ s : State, s.smc.ctl = .initMode → ∃ t, exec .initModeEnd s = .next t ∧ t.smc.ctl = .ready ∧ t.smc.debt = 0 ∧
    t.smc.rises = 0 ∧ t.st.phase = (if s.st.phase = .memory then .listening else s.st.phase) ∧
    (s.live = true → s.cm.init = .waiting → t.cm.init = .left 32) ∧
    (s.smc.audio.isSome = true → (t.smc.port.map fun p => p.op) = some (.burst .audio)) ∧
    t.smc.mem = s.smc.mem ∧ t.tbu = s.tbu ∧ t.biu = s.biu ∧ t.liu = s.liu ∧ t.pending = s.pending) ∧
  (∀ s : State, s.smc.ctl = .ready → exec .initWaitEnd s = .next s ∧ exec .initPrechargeEnd s = .next s ∧
    exec .initRefreshEnd s = .next s ∧ exec .initModeEnd s = .next s)

/-- A grant point, at an idle port of a READY controller and at the end of a burst or a refresh, gives the port to the first
that applies of the order of R140: forced refresh at a debt of 8, audio fill, map walk, cue read, content write, serve read,
opportunistic refresh. At an end the order is taken on the debt and the slots as the end leaves them: the debt 1 less after
a refresh, a request still in its slot after a burst that is not its last and gone from it after its last, the second serve
read then in front. An operation whose burst or refresh has not been issued yet has not ended. A debt rise adds 1, up to 8, and is a grant point
at an idle port; a refresh that ends takes 1 off and is counted by its kind; before READY nothing rises (R145 to R147,
R150). That a debt of 8 stays 8 at a rise and a debt of 0 stays 0 is log entry 36, and that an operation not yet issued is
left is log entry 5: the model's choices. -/
def Obligations.PortGivenAndDebtKept : Prop :=
  let first (m : Smc) : Option PortOp :=
    if 8 ≤ m.debt then some (.refresh true)
    else if m.audio.isSome then some (.burst .audio)
    else if m.walk.isSome then some (.burst .walk)
    else if m.cue.isSome then some (.burst .cue)
    else if m.content.isSome then some (.burst .content)
    else if m.serve ≠ [] then some (.burst .serve)
    else if 0 < m.debt then some (.refresh false)
    else none
  (∀ s : State, s.smc.ctl = .ready → s.smc.port = none → ∃ t, exec .grantPoint s = .next t ∧
    (t.smc.port.map fun p => p.op) = first s.smc ∧
    t.smc.debt = s.smc.debt ∧ (∀ c : ReqClass, t.smc.slot c = s.smc.slot c) ∧ t.smc.mem = s.smc.mem ∧
    t = { s with smc := t.smc }) ∧
  (∀ (s : State) (p : Port), s.smc.port = some p → p.issued = false → exec .grantPoint s = .next s) ∧
  (∀ s : State, s.smc.ctl = .ready → ∃ t, exec .debtRise s = .next t ∧ t.smc.debt = min 8 (s.smc.debt + 1) ∧
    t.smc.rises = s.smc.rises + 1 ∧ (∀ c : ReqClass, t.smc.slot c = s.smc.slot c) ∧
    (s.smc.port ≠ none → t.smc.port = s.smc.port ∧ t.smc.banks = s.smc.banks) ∧
    (s.smc.port = none → 7 ≤ s.smc.debt → (t.smc.port.map fun p => p.op) = some (.refresh true)) ∧
    (s.smc.port = none → s.smc.debt < 7 → (∀ c : ReqClass, s.smc.slot c = none) →
      (t.smc.port.map fun p => p.op) = some (.refresh false)) ∧
    t.smc.mem = s.smc.mem ∧ t = { s with smc := t.smc }) ∧
  (∀ s : State, s.smc.ctl ≠ .ready → exec .debtRise s = .next s) ∧
  (∀ (s : State) (f : Bool) (d : Nat), s.smc.port = some { op := .refresh f, issued := true, due := d } → ∃ t,
    exec .grantPoint s = .next t ∧ (t.smc.port.map fun p => p.op) = first t.smc ∧ t.smc.debt = s.smc.debt - 1 ∧
    t.smc.forced = (if f then min 65535 (s.smc.forced + 1) else s.smc.forced) ∧
    t.smc.opportunistic = (if f then s.smc.opportunistic else min 65535 (s.smc.opportunistic + 1)) ∧
    (∀ c : ReqClass, t.smc.slot c = s.smc.slot c) ∧ t.smc.serve = s.smc.serve ∧ t.smc.mem = s.smc.mem ∧
    t = { s with smc := t.smc }) ∧
  (∀ (s : State) (c : ReqClass) (r : Request) (d : Nat),
    s.smc.port = some { op := .burst c, issued := true, due := d } → s.smc.slot c = some r → r.row < 8192 → ∃ t,
    exec .grantPoint s = .next t ∧ (t.smc.port.map fun p => p.op) = first t.smc ∧ t.smc.debt = s.smc.debt ∧
    t.smc.forced = s.smc.forced ∧ t.smc.opportunistic = s.smc.opportunistic ∧
    (r.done + 1 < r.kind.bursts → (t.smc.slot c).map (·.done) = some (r.done + 1)) ∧
    (r.kind.bursts ≤ r.done + 1 → t.smc.slot c = if c = .serve then s.smc.serve[1]? else none) ∧
    (∀ e : ReqClass, e ≠ c → t.smc.slot e = s.smc.slot e) ∧
    t.smc.serve.length = s.smc.serve.length - (if c = .serve ∧ r.kind.bursts ≤ r.done + 1 then 1 else 0) ∧
    t = { s with smc := t.smc, au := { s.au with slots := t.au.slots } })

/-- A burst transferred (R137, R138, R141): a write writes its 32 bytes under the mask at the burst's address and
nothing else, a read delivers the 32 bytes and writes nothing; the request keeps its slot until its last burst, whose end
is reported; a row read hands the words of each burst into the FILLING slot of its fill, and then closes its bank (R142);
no other slot and no voice is touched. A row that the SDRAM does not have (R137) stops the model, which is log entry 22, the
model's choice. -/
def Obligations.BurstsMoveBytes : Prop :=
  (∀ (s : State) (c : ReqClass) (r : Request) (d : Nat),
    s.smc.port = some { op := .burst c, issued := true, due := d } → s.smc.slot c = some r → r.row < 8192 →
    Memory.wf s.smc.mem = true → ∃ t, exec .grantPoint s = .next t ∧ Memory.wf t.smc.mem = true ∧
      (r.kind = .write64 → ∀ a : Nat, Memory.read t.smc.mem a =
        if addressOf r.bank r.row r.burstCol ≤ a ∧ a < addressOf r.bank r.row r.burstCol + 32 then
          (r.data[32 * r.done + (a - addressOf r.bank r.row r.burstCol)]?.join).getD (Memory.read s.smc.mem a)
        else Memory.read s.smc.mem a) ∧
      (r.kind ≠ .write64 → t.smc.mem = s.smc.mem) ∧
      (r.done + 1 < r.kind.bursts → t.smc.reports = s.smc.reports ∧ t.smc.slot c = some { r with
        done := r.done + 1
        got := if r.kind = .write64 then r.got
          else r.got ++ Memory.readRange s.smc.mem (addressOf r.bank r.row r.burstCol) 32 }) ∧
      (r.kind.bursts ≤ r.done + 1 → (c ≠ .serve → t.smc.slot c = none) ∧
        (r.kind = .rowRead → t.smc.banks[r.bank].state = .precharging) ∧
        t.smc.reports = s.smc.reports ++ [{
          cls := c, id := r.id
          bytes :=
            let got := r.got ++ Memory.readRange s.smc.mem (addressOf r.bank r.row r.burstCol) 32
            if r.kind = .write64 then r.got else if r.kind = .read16 then (got.drop (r.col % 32)).take 16 else got }]) ∧
      (∀ e : ReqClass, e ≠ c → t.smc.slot e = s.smc.slot e) ∧
      (∀ k : Fin 32, c = .audio → r.kind = .rowRead → (s.au.fill.bind fun f => f.slot) = some k →
        t.au.slots[k] = { s.au.slots[k] with
          data := s.au.slots[k].data ++ Memory.readRange s.smc.mem (addressOf r.bank r.row r.burstCol) 32 } ∧
        ∀ j : Fin 32, j ≠ k → t.au.slots[j] = s.au.slots[j]) ∧
      (c ≠ .audio ∨ (s.au.fill.bind fun f => f.slot) = none → t.au = s.au) ∧
      t = { s with smc := t.smc, au := { s.au with slots := t.au.slots } }) ∧
  (∀ (s : State) (c : ReqClass) (r : Request) (d : Nat),
    s.smc.port = some { op := .burst c, issued := true, due := d } → s.smc.slot c = some r → 8192 ≤ r.row →
    exec .grantPoint s = .fault .outsideShowMemory)

/-- The banks (R139, R141, R144): 20 ns after its activate a bank is OPEN with its row, and the burst that waits for it is
issued; 20 ns after its precharge it is IDLE, and is activated for the burst that waits for it; a refresh is issued when
the last bank becomes IDLE, or 20 ns later when its precharge of all banks has waited for that bank. The moments of a
refresh that waited are log entry 23, and that a bank in another state is left is log entry 5: the model's choices. -/
def Obligations.BanksOpenAndClose : Prop :=
  (∀ (s : State) (b : Fin 4) (c : ReqClass) (r : Request) (d : Nat), s.smc.banks[b].state = .activating →
    s.smc.banks[b].row = some r.row → s.smc.port = some { op := .burst c, issued := false, due := d } →
    s.smc.slot c = some r → r.bank = b → ∃ t, exec (.bankActivateDone b) s = .next t ∧
      t.smc.banks[b] = { s.smc.banks[b] with state := .open } ∧
      t.smc.port = some {
        op := .burst c, issued := true
        due := max s.smc.clock s.smc.banks[b].due + if r.kind = .write64 then 8 else 11 } ∧
      (∀ e : Fin 4, e ≠ b → t.smc.banks[e] = s.smc.banks[e]) ∧ t.smc.mem = s.smc.mem ∧
      t = { s with smc := t.smc }) ∧
  (∀ (s : State) (b : Fin 4), s.smc.banks[b].state ≠ .activating → exec (.bankActivateDone b) s = .next s) ∧
  (∀ (s : State) (b : Fin 4), s.smc.banks[b].state = .precharging → s.smc.port = none → ∃ t,
    exec (.bankPrechargeDone b) s = .next t ∧ t.smc.banks[b].state = .idle ∧ t.smc.banks[b].row = none ∧
      (∀ e : Fin 4, e ≠ b → t.smc.banks[e] = s.smc.banks[e]) ∧ t.smc.port = none ∧ t.smc.mem = s.smc.mem ∧
      t = { s with smc := t.smc }) ∧
  (∀ (s : State) (b : Fin 4) (c : ReqClass) (r : Request) (d : Nat), s.smc.banks[b].state = .precharging →
    s.smc.port = some { op := .burst c, issued := false, due := d } → s.smc.slot c = some r → r.bank = b → ∃ t,
      exec (.bankPrechargeDone b) s = .next t ∧ t.smc.banks[b].state = .activating ∧
      t.smc.banks[b].row = some r.row ∧
      t.smc.banks[b].lastActivate = some (max s.smc.clock s.smc.banks[b].due) ∧
      (∀ e : Fin 4, e ≠ b → t.smc.banks[e] = s.smc.banks[e]) ∧ t.smc.mem = s.smc.mem ∧
      t = { s with smc := t.smc }) ∧
  (∀ (s : State) (b : Fin 4) (f : Bool) (d : Nat), s.smc.banks[b].state = .precharging →
    s.smc.port = some { op := .refresh f, issued := false, due := d } →
    (∀ e : Fin 4, e ≠ b → s.smc.banks[e].state = .idle) → ∃ t, exec (.bankPrechargeDone b) s = .next t ∧
      (∀ e : Fin 4, t.smc.banks[e].state = .idle) ∧
      t.smc.port = some {
        op := .refresh f, issued := true, due := max s.smc.clock s.smc.banks[b].due + if d = 0 then 8 else 6 } ∧
      t.smc.mem = s.smc.mem ∧ t = { s with smc := t.smc }) ∧
  (∀ (s : State) (b : Fin 4), s.smc.banks[b].state ≠ .precharging → exec (.bankPrechargeDone b) s = .next s)

/-! ## The Basin Link (spec/08) -/

/-- At a start delimiter (R153 to R155, R157, R158, R160) the station's chosen frame goes out when no rival's arbitration
byte is lower: HALT first, then the beacon, which leaves its slot and carries own basin time, the claim, a reply part, a
page request, and page data while the yield count is below 4. With a lower rival the frame, whatever its class, keeps its
place and nothing is sent, and the station receives, as it does with no frame that may go: it keeps own basin time as the
start of frame. On an idle line with no frame that may go nothing happens. In MUTE or with a conflict recorded only HALT
goes. That arbitration is decided at the start delimiter by the rivals' bytes, an equal byte letting this station go on, is
log entry 7, the model's choice. -/
def Obligations.FramesContendForLine : Prop :=
  (∀ (rivals : List Byte) (s : State), s.st.phase = .up → s.liu.tx = none → s.liu.halt = true →
    (∀ r ∈ rivals, s.own.val ≤ r.toNat) → exec (.transmitStart rivals) s = .next { s with liu := { s.liu with
      tx := some { source := .halt, arb := BitVec.ofNat 8 s.own.val, kind := 0, payload := [] } } }) ∧
  (∀ (rivals : List Byte) (s : State) (b : BeaconFields), s.st.phase = .up → s.liu.tx = none → s.liu.halt = false →
    s.liu.mute = 0 → s.liu.conflict = false → s.liu.beacon = some b → (∀ r ∈ rivals, 32 + s.own.val ≤ r.toNat) →
    exec (.transmitStart rivals) s = .next { s with liu := { s.liu with
      beacon := none
      tx := some {
        source := .time { b with stamp := BitVec.ofNat 48 s.tbu.basinTime }
        arb := BitVec.ofNat 8 (32 + s.own.val), kind := 0,
        payload := ({ b with stamp := BitVec.ofNat 48 s.tbu.basinTime } : BeaconFields).bytes } } }) ∧
  (∀ (rivals : List Byte) (s : State) (b : BeaconFields) (r : Byte), s.st.phase = .up → s.liu.tx = none →
    s.liu.halt = false → s.liu.beacon = some b → r ∈ rivals → r.toNat < 32 + s.own.val →
    exec (.transmitStart rivals) s =
      .next { s with liu := { s.liu with rxStamp := some (s.tbu.basinTime : Int) } }) ∧
  (∀ (rivals : List Byte) (s : State), s.st.phase = .up → s.liu.tx = none → s.liu.halt = false → s.liu.mute = 0 →
    s.liu.conflict = false → s.liu.beacon = none → ∃ t, exec (.transmitStart rivals) s = .next t ∧
      (∀ c, s.liu.claim = some c → (∀ r ∈ rivals, 64 + s.own.val ≤ r.toNat) → t.liu.tx = some {
        source := .claim, arb := BitVec.ofNat 8 (64 + s.own.val), kind := 0, payload := c.bytes }) ∧
      (∀ q rest, s.liu.claim = none → s.liu.replies = q :: rest → (∀ r ∈ rivals, 128 + s.own.val ≤ r.toNat) →
        t.liu.tx = some { source := .query, arb := BitVec.ofNat 8 (128 + s.own.val), kind := 1, payload := q.part }) ∧
      (∀ q rest, s.liu.claim = none → s.liu.replies = [] → s.liu.fetchQ = q :: rest →
        (∀ r ∈ rivals, 160 + s.own.val ≤ r.toNat) →
        t.liu.tx = some { source := .fetch, arb := BitVec.ofNat 8 (160 + s.own.val), kind := 0, payload := q.bytes }) ∧
      (∀ q rest, s.liu.claim = none → s.liu.replies = [] → s.liu.fetchQ = [] → s.liu.contentQ = q :: rest →
        s.liu.yieldCount < 4 → (∀ r ∈ rivals, 192 + s.own.val ≤ r.toNat) →
        t.liu.tx = some {
          source := .content, arb := BitVec.ofNat 8 (192 + s.own.val), kind := 1
          payload := q.bytes }) ∧
      (s.liu.claim = none → s.liu.replies = [] → s.liu.fetchQ = [] → s.liu.yieldCount = 4 → t.liu.tx = none) ∧
      t.liu.claim = s.liu.claim ∧ t.liu.replies = s.liu.replies ∧ t.liu.fetchQ = s.liu.fetchQ ∧
      t.liu.contentQ = s.liu.contentQ ∧ t = { s with liu := t.liu }) ∧
  (∀ (rivals : List Byte) (s : State) (r : Byte), s.st.phase = .up → s.liu.tx = none → s.liu.halt = true →
    r ∈ rivals → r.toNat < s.own.val → exec (.transmitStart rivals) s =
      .next { s with liu := { s.liu with rxStamp := some (s.tbu.basinTime : Int) } }) ∧
  (∀ (rivals : List Byte) (s : State) (r : Byte), s.st.phase = .up → s.liu.tx = none → s.liu.halt = false →
    s.liu.mute = 0 → s.liu.conflict = false → s.liu.beacon = none → r ∈ rivals →
    ((s.liu.claim ≠ none ∧ r.toNat < 64 + s.own.val) ∨
      (s.liu.claim = none ∧ s.liu.replies ≠ [] ∧ r.toNat < 128 + s.own.val) ∨
      (s.liu.claim = none ∧ s.liu.replies = [] ∧ s.liu.fetchQ ≠ [] ∧ r.toNat < 160 + s.own.val) ∨
      (s.liu.claim = none ∧ s.liu.replies = [] ∧ s.liu.fetchQ = [] ∧ s.liu.contentQ ≠ [] ∧ s.liu.yieldCount < 4 ∧
        r.toNat < 192 + s.own.val) ∨
      (s.liu.claim = none ∧ s.liu.replies = [] ∧ s.liu.fetchQ = [] ∧
        (s.liu.contentQ = [] ∨ 4 ≤ s.liu.yieldCount))) →
    exec (.transmitStart rivals) s =
      .next { s with liu := { s.liu with rxStamp := some (s.tbu.basinTime : Int) } }) ∧
  (∀ s : State, s.st.phase = .up → s.liu.tx = none → s.liu.halt = false → s.liu.beacon = none → s.liu.claim = none →
    s.liu.replies = [] → s.liu.fetchQ = [] → (s.liu.contentQ = [] ∨ 4 ≤ s.liu.yieldCount) →
    exec (.transmitStart []) s = .next s) ∧
  (∀ (rivals : List Byte) (s : State), s.live = true → s.liu.tx = none → rivals ≠ [] →
    (s.st.phase ≠ .up ∨ (s.liu.halt = false ∧ (s.liu.mute ≠ 0 ∨ s.liu.conflict = true))) →
    exec (.transmitStart rivals) s =
      .next { s with liu := { s.liu with rxStamp := some (s.tbu.basinTime : Int) } })

/-- A transmission is aborted (R155 to R157): its frame keeps its place, a beacon only when no newer one stands in its
slot, a claim only while its pump holds the claim slot; the failure is counted, and the eighth in a row enters MUTE for 50
boundaries and raises LINK_MUTED. In MUTE no failure counts. Frames that have gone out leave their places (R154, R163): a
beacon that carried it clears muted-since, a STOP_ASSERT empties the HALT slot, a reply goes on to its next part or leaves
the queue. 200 µs of idle line return the yield count to 0 (R158); a discarded frame of another station is counted (R159); a
STATUS_REPLY heard reaches no block (R162). -/
def Obligations.TransmissionsEnd : Prop :=
  (∀ (s : State) (x : Tx), s.liu.tx = some x → ∃ t, exec .transmitError s = .next t ∧ t.liu.tx = none ∧
    (s.liu.mute = 0 → s.liu.fails < 7 → t.liu.fails = s.liu.fails + 1 ∧ t.liu.mute = 0 ∧ t.biu = s.biu) ∧
    (s.liu.mute = 0 → 7 ≤ s.liu.fails → t.liu.fails = 0 ∧ t.liu.mute = 50 ∧ t.liu.mutedSince = true ∧
      t.faulted .linkMuted = true) ∧
    (s.liu.mute ≠ 0 → t.liu.fails = s.liu.fails ∧ t.liu.mute = s.liu.mute ∧ t.biu = s.biu) ∧
    (∀ b, x.source = .time b → t.liu.beacon = s.liu.beacon.or (some b) ∧ t.liu.claim = s.liu.claim) ∧
    (∀ c, x.source = .claim → s.liu.claim = some c → t.liu.beacon = s.liu.beacon ∧
      t.liu.claim = if s.hu.claimHolder = some c.channel then some c else none) ∧
    t.liu.halt = s.liu.halt ∧ t.liu.replies = s.liu.replies ∧ t.liu.fetchQ = s.liu.fetchQ ∧
    t.liu.contentQ = s.liu.contentQ ∧ t = { s with liu := t.liu, biu := t.biu }) ∧
  (∀ (s : State) (x : Tx) (b : BeaconFields), s.liu.tx = some x → x.source = .time b → exec .beaconGoneOut s =
    .next { s with liu := { s.liu with
      tx := none, fails := 0, mutedSince := if b.flags.getLsbD 4 then false else s.liu.mutedSince } }) ∧
  (∀ (s : State) (x : Tx), s.liu.tx = some x → x.source = .halt → exec .stopAssertGoneOut s =
    .next { s with liu := { s.liu with tx := none, fails := 0, halt := false } }) ∧
  (∀ (s : State) (x : Tx) (r : Reply) (rest : List Reply), s.liu.tx = some x → x.source = .query →
    s.liu.replies = r :: rest → exec .statusReplyGoneOut s = .next { s with liu := { s.liu with
      tx := none, fails := 0
      replies := if (r.snapshot.length + 75) / 76 ≤ r.next + 1 then rest
        else { r with next := r.next + 1 } :: rest } }) ∧
  (∀ s : State, s.liu.yieldCount = 4 → s.liu.tx = none →
    exec .yieldIdleExpiry s = .next { s with liu := { s.liu with yieldCount := 0 } }) ∧
  (∀ (levels : List Bool) (why : Discard) (s : State), s.live = true → checkFrame levels = .discarded why →
    exec (.frameDiscarded levels) s = .next { s with liu := { s.liu with
      yieldCount := 0, rxStamp := none, rxErrors := min 65535 (s.liu.rxErrors + 1) } }) ∧
  (∀ (p : Position) (payload : List Byte) (s : State), s.hears p →
    exec (.statusReply p payload) s = .next { s with liu := { s.liu with yieldCount := 0, rxStamp := none } })

/-- A STATUS_QUERY to own position (R163, and R22, R76, R91, R136, R189, R199) queues one snapshot of the state as it
stands, below 4 replies and with no conflict recorded; otherwise, and for another target, nothing is queued. An unknown
selector is a receive error, under a recorded conflict too (log entry 28). The first bytes of each snapshot: GENERAL opens
with basin time, frame number and station state, PUMPS with pump 0's present flag and state, FIXTURES with fixture 0's
present and submerged flags and cover level, PEERS with the state of the lowest other position's record, MEMORY with the
state of cache slot 0, FAULTS with the number of fault records (their layout is log entry 20). The snapshot is taken with the frame's reception
over, its yield count 0 (log entry 57). What the entries say is the model's choice. -/
def Obligations.QueriesAnswered : Prop :=
  (∀ (p : Position) (target tag : Byte) (s : State), s.hears p → target.toNat = s.own.val →
    s.liu.conflict = false → s.liu.replies.length < 4 →
    let queued (sel : Nat) (bytes : List Byte) : State := { s.afterFrame with
      liu := { s.afterFrame.liu with
        replies := s.liu.replies ++ [{ tag := tag, selector := sel, snapshot := bytes, next := 0 }] } }
    exec (.statusQueryGeneral p target tag) s = .next (queued 0 s.afterFrame.generalSnapshot) ∧
    exec (.statusQueryPumps p target tag) s = .next (queued 1 s.afterFrame.pumpsSnapshot) ∧
    exec (.statusQueryFixtures p target tag) s = .next (queued 2 s.afterFrame.fixturesSnapshot) ∧
    exec (.statusQueryPeers p target tag) s = .next (queued 3 s.afterFrame.peersSnapshot) ∧
    exec (.statusQueryMemory p target tag) s = .next (queued 4 s.afterFrame.memorySnapshot) ∧
    exec (.statusQueryFaults p target tag) s = .next (queued 5 s.afterFrame.faultsSnapshot)) ∧
  (∀ (p : Position) (target tag : Byte) (s : State), s.hears p →
    (target.toNat ≠ s.own.val ∨ s.liu.conflict = true ∨ 4 ≤ s.liu.replies.length) →
    exec (.statusQueryGeneral p target tag) s = .next s.afterFrame ∧
    exec (.statusQueryPumps p target tag) s = .next s.afterFrame ∧
    exec (.statusQueryFixtures p target tag) s = .next s.afterFrame ∧
    exec (.statusQueryPeers p target tag) s = .next s.afterFrame ∧
    exec (.statusQueryMemory p target tag) s = .next s.afterFrame ∧
    exec (.statusQueryFaults p target tag) s = .next s.afterFrame) ∧
  (∀ (p : Position) (target n tag : Byte) (s : State), s.hears p → target.toNat = s.own.val → 5 < n.toNat →
    exec (.statusQueryUnknownSelector p target n tag) s = .next { s.afterFrame with
      liu := { s.afterFrame.liu with rxErrors := min 65535 (s.liu.rxErrors + 1) } }) ∧
  (∀ (p : Position) (target n tag : Byte) (s : State), s.hears p → target.toNat ≠ s.own.val →
    exec (.statusQueryUnknownSelector p target n tag) s = .next s.afterFrame) ∧
  ∀ s : State, s.generalSnapshot.take 13 =
      beBytes 6 s.tbu.basinTime ++ beBytes 6 s.tbu.frameNo ++ [BitVec.ofNat 8 s.tbu.state.code] ∧
    s.pumpsSnapshot.take 2 =
      [BitVec.ofNat 8 s.params.pumps[0].present.toNat, BitVec.ofNat 8 (s.hu.pump 0).state.code] ∧
    s.fixturesSnapshot.take 6 = [BitVec.ofNat 8 s.params.fixtures[0].present.toNat,
      BitVec.ofNat 8 s.params.fixtures[0].submerged.toNat] ++ beBytes 4 s.params.fixtures[0].cover ∧
    s.peersSnapshot.take 1 = [BitVec.ofNat 8
      (peerStateCode (if s.own = 0 then s.pt.peers[(1 : Position)] else s.pt.peers[(0 : Position)]))] ∧
    s.memorySnapshot.take 1 = [BitVec.ofNat 8 s.au.slots[0].state.code] ∧
    s.faultsSnapshot.take 1 = [BitVec.ofNat 8 s.biu.faults.length]

/-- A frame with own position as its sender (R161, R13, R133): it is not delivered, whatever it is; POSITION_CONFLICT is
raised and recorded, the station goes to STANDBY with its show given up, no pump active and every output dark, the REPLY
queue and the serve records empty, their PAGE_DATA frames and the claim withdrawn unless they have begun, the beacon and the
page requests left, the tables and show memory as they were. That a station in a phase that does not receive ignores every
frame is log entry 9, the model's choice. -/
def Obligations.OwnPositionHeardIsConflict : Prop :=
  (∀ (c : Instr) (s : State), sender? c = some s.own → s.live = true → ∃ t, exec c s = .next t ∧
    t.tbu.state = .standby ∧ t.tbu.conflict = true ∧ t.liu.conflict = true ∧ t.liu.replies = [] ∧
    t.cm = { s.cm with serves := [] } ∧ t.faulted .positionConflict = true ∧
    t.faultCount .positionConflict = min 65535 (s.faultCount .positionConflict + 1) ∧
    (∀ n : Channel, (t.hu.pump n).state.active = false) ∧ (∀ n : Fin 48, t.dimmingOutput n = 0) ∧
    t.hu.claimHolder = none ∧
    (s.hu.claimHolder.isSome = true → s.liu.claimBegun = false → t.liu.claim = none) ∧
    (s.hu.claimHolder = none ∨ s.liu.claimBegun = true → t.liu.claim = s.liu.claim) ∧
    (s.liu.contentBegun = false →
      t.liu.contentQ = s.liu.contentQ.filter fun x => s.cm.serves.all fun r => x.serve != r.id) ∧
    (s.liu.contentBegun = true → t.liu.contentQ = s.liu.contentQ.take 1 ++
      (s.liu.contentQ.drop 1).filter fun x => s.cm.serves.all fun r => x.serve != r.id) ∧
    t.liu.beacon = s.liu.beacon ∧ t.liu.fetchQ = s.liu.fetchQ ∧ t.liu.halt = s.liu.halt ∧
    t.au.a.state = .idle ∧ t.au.b.state = .idle ∧ t.ce.readState = .none ∧ t.ce.queue = [] ∧
    t.tbu.basinTime = s.tbu.basinTime ∧ t.smc = s.smc ∧ t.pt = s.pt ∧ t.st = s.st ∧ t.pending = s.pending) ∧
  (∀ (c : Instr) (p : Position) (s : State), sender? c = some p → s.live = false → exec c s = .next s)

/-! ## Peers and inputs (spec/09, spec/10) -/

/-- A beacon heard is recorded whole for its position (R167), FRESH at age 0, with the offset sample of R3: its stamp plus
the link delay less the start of its reception; every other record stays, and basin time, the content map and show memory
are left. A start that no command has recorded is basin time less the ticks the command carries, which is log entry 7; in
the tick of a correction the start is taken on the scale before it (R169), which is log entry 51: the model's choices. -/
def Obligations.BeaconRecorded : Prop :=
  ∀ (p : Position) (f : BeaconFields) (elapsed : Nat) (s : State), s.hears p → ∃ t,
    exec (.beacon p f elapsed) s = .next t ∧
    t.pt.peers[p] = some {
      fresh := true, age := 0, role := f.role.toNat, stamp := f.stamp.toNat, arrival := s.tbu.frameNo
      sample := some ((f.stamp.toNat : Int) + s.params.linkDelay -
        (s.liu.rxStamp.getD ((s.tbu.basinTime : Int) - elapsed) - s.tbu.shift))
      state := f.state.toNat, showId := f.showId.toNat, index := f.index.toNat, demand := f.demand.toNat
      share := f.share.toNat
      wind := if f.flags.getLsbD 5 then some f.wind.toNat else none
      level := if f.flags.getLsbD 6 then some f.level.toNat else none
      flags := f.flags.truncate 5 } ∧
    (∀ q : Position, q ≠ p → t.pt.peers[q] = s.pt.peers[q]) ∧
    t.liu.rxStamp = none ∧ t.liu.yieldCount = 0 ∧ t.tbu = s.tbu ∧ t.cm = s.cm ∧ t.smc = s.smc ∧ t.ce = s.ce ∧
    t.au = s.au ∧ t.st = s.st ∧ t.pending = s.pending

/-- The filtered inputs (R183, R184), and CLEAR_FAULTS to own position (R187, R71): lock cause FEEDBACK is removed, a
LOCKED pump with no cause left rests, and the records whose condition is not present leave the list; to another position
nothing happens. -/
def Obligations.InputsAndFaultClearing : Prop :=
  (∀ s : State, s.powered = true →
    exec .stopInputInactive s = .next { s with biu := { s.biu with stopActive := false } }) ∧
  (∀ (n : Channel) (x : Bool) (s : State), s.powered = true → exec (.feedbackChange n x) s =
    .next { s with biu := { s.biu with feedback := s.biu.feedback.set n x } }) ∧
  (∀ (p : Position) (target : Byte) (s : State), s.hears p → target.toNat = s.own.val → ∃ t,
    exec (.clearFaults p target) s = .next t ∧
    t.biu.faults = s.biu.faults.filter (fun r => t.conditionPresent r.kind) ∧
    (∀ n : Channel, (s.hu.pump n).state ≠ .locked → t.hu.pump n = s.hu.pump n) ∧
    (∀ n : Channel, (s.hu.pump n).state = .locked → (s.hu.pump n).lockDry = true →
      t.hu.pump n = { s.hu.pump n with lockFeedback := false }) ∧
    (∀ n : Channel, (s.hu.pump n).state = .locked → (s.hu.pump n).lockDry = false →
      (t.hu.pump n).state = .resting ∧ (t.hu.pump n).lockFeedback = false ∧
      (t.hu.pump n).restCount = s.params.pumps[n].rest * 50 ∧ t.driveOutput n = 0) ∧
    t = { s.afterFrame with hu := t.hu, biu := { s.biu with faults := t.biu.faults } }) ∧
  (∀ (p : Position) (target : Byte) (s : State), s.hears p → target.toNat ≠ s.own.val →
    exec (.clearFaults p target) s = .next s.afterFrame)

/-! ## What only some commands change -/

/-- Show memory's bytes change only where a burst is transferred, at a grant point (R138, R141), and power-on begins from
none: no other command writes it, and no warm reset (R149). -/
def Obligations.MemoryWrittenOnlyByBursts : Prop :=
  ∀ (c : Instr) (s t : State), exec c s = .next t → c ≠ .grantPoint → (∀ a b d, c ≠ .powerOn a b d) →
    t.smc.mem = s.smc.mem

/-- The parameters are fixed from one configuration read to the next (R191), the position from one reading of the strap to
the next (R190), and basin time moves only by the tick, at boundaries and from power-on (R1, R5). -/
def Obligations.ChangesHaveTheirCauses : Prop :=
  ∀ (c : Instr) (s t : State), exec c s = .next t → (∀ a b d, c ≠ .powerOn a b d) →
    ((∀ r, c ≠ .configReadComplete r) → t.st.params = s.st.params ∧ t.st.valid = s.st.valid) ∧
    ((∀ x, c ≠ .resetPinRelease x) → (∀ p n x, c ≠ .resetStation p n x) → t.st.position = s.st.position) ∧
    (c ≠ .outputPair → boundary? c = false → t.tbu.basinTime = s.tbu.basinTime) ∧ t.pending = s.pending

/-! ## Figures (spec/03, spec/04) -/

/-- Height to drive and back (R53): 0 for 0, 4096 from Hmax on, and otherwise the integer square root of
floor(H2 × 2^24 / Hmax), raised to d_min; the height of drive x is floor(Hmax × x² / 2^24), and a drive that is not raised
does not pass the height asked for. -/
def Obligations.DriveReachesHeight : Prop :=
  ∀ (pp : PumpParams) (h x : Nat), pp.hmax ≤ 4095 →
    (h = 0 → driveFor pp h = 0) ∧ (h ≠ 0 → pp.hmax ≤ h → driveFor pp h = 4096) ∧
    (h ≠ 0 → h < pp.hmax → ∃ r, r * r ≤ h * 2 ^ 24 / pp.hmax ∧ h * 2 ^ 24 / pp.hmax < (r + 1) * (r + 1) ∧
      driveFor pp h = max r pp.dmin ∧ (pp.dmin ≤ r → heightAt pp (driveFor pp h) ≤ h)) ∧
    heightAt pp x = pp.hmax * x ^ 2 / 2 ^ 24 ∧ heightAt pp 4096 = pp.hmax

/-- The scale factor of stage 8 (R58): the largest of 0..1024 for which the scaled power of the RUNNING pumps is within
the share less A_s; 1024 with no RUNNING pump; and each RUNNING pump's committed target is floor(d × f / 1024). -/
def Obligations.ScaleFactorLargest : Prop :=
  ∀ (P : Params) (h : Hu),
    (h.scaleTargets P).scale ≤ 1024 ∧
    h.scaledPower P (h.scaleTargets P).scale ≤ h.share - h.startAllowance P ∧
    (∀ g, (h.scaleTargets P).scale < g → g ≤ 1024 → h.share - h.startAllowance P < h.scaledPower P g) ∧
    (∀ f g, f ≤ g → h.scaledPower P f ≤ h.scaledPower P g) ∧
    ((∀ n : Channel, (h.pump n).state ≠ .running) → (h.scaleTargets P).scale = 1024) ∧
    (∀ n : Channel, (h.pump n).state = .running → ((h.scaleTargets P).pump n).committed =
      (h.pump n).stageDrive P.pumps[n] * (h.scaleTargets P).scale / 1024) ∧
    (∀ n : Channel, (h.pump n).state ≠ .running → (h.scaleTargets P).pump n = h.pump n)

/-- A fade of n frames (R80, R81): after j of its steps the level is S0 + (T − S0) × j / n, truncated toward zero, between
S0 and T; at the n-th step it is T, and no step moves it then. -/
def Obligations.FadeReachesTarget : Prop :=
  ∀ (ch : LightChannel) (t n j : Nat), 0 < n →
    (j ≤ n → ((Nat.repeat LightChannel.step j (ch.apply t n)).level : Int) =
      (ch.level : Int) + (((t : Int) - ch.level) * j).tdiv n) ∧
    (j ≤ n → min ch.level t ≤ (Nat.repeat LightChannel.step j (ch.apply t n)).level ∧
      (Nat.repeat LightChannel.step j (ch.apply t n)).level ≤ max ch.level t) ∧
    (n ≤ j → (Nat.repeat LightChannel.step j (ch.apply t n)).level = t ∧
      (Nat.repeat LightChannel.step j (ch.apply t n)).fading = false)

/-! ## Invariants -/

/-- The state before power-on meets every invariant stated below. -/
def Obligations.ResetMeetsInvariants : Prop :=
  State.reset.tablesCanonical ∧ State.reset.pagesConserved ∧ State.reset.drawWithinShare ∧
    State.reset.lightsGuarded ∧ State.reset.readingsMerged ∧ State.reset.stilled ∧ State.reset.withinCapacity

/-- Every step keeps the directory, the page tables and show memory in canonical form. -/
def Obligations.TablesStayCanonical : Prop :=
  ∀ s t : State, s.tablesCanonical → step s = .next t → t.tablesCanonical

/-- Every step keeps each physical page in one place (R119): outside the free page set stand exactly the pages that
FILLING and PRESENT entries hold, each once, and with the map region and the free pages they number 8192; every FILLING
entry has its one fill record (R125). -/
def Obligations.PagesStayConserved : Prop :=
  (∀ s t : State, s.pagesConserved → step s = .next t → t.pagesConserved) ∧
  ∀ s : State, s.pagesConserved → 4 + s.cm.freeCount + s.cm.heldPages.length = 8192

/-- Every step keeps the committed draw within the share last computed (R59). -/
def Obligations.DrawStaysWithinShare : Prop :=
  ∀ s t : State, s.drawWithinShare → step s = .next t → t.drawWithinShare

/-- Every step keeps the interlock (R83): a submerged fixture's outputs are 0 whenever the effective level is below its
cover level, and every other output is 0 or that of R82 for its level. -/
def Obligations.InterlockHolds : Prop :=
  (∀ s t : State, s.lightsGuarded → step s = .next t → t.lightsGuarded) ∧
  ∀ (s : State) (f : Fin 12) (n : Fin 48), s.lightsGuarded → n.val / 4 = f.val →
    (s.params.fixtures[f].present && s.params.fixtures[f].submerged) = true →
    s.pt.level < s.params.fixtures[f].cover → s.dimmingOutput n = 0

/-- Every step keeps the effective wind and level those of the present sources (R171 to R174). -/
def Obligations.ReadingsStayMerged : Prop :=
  ∀ s t : State, s.readingsMerged → step s = .next t → t.readingsMerged

/-- Every step keeps it that in HALTED and STANDBY no pump is CLAIMING, STARTING or RUNNING (one that is STOPPING ramps its
drive down there, R20, R73), and the cue engine without a show outside ARMED, RUNNING and HELD (R46). -/
def Obligations.HaltedStaysStill : Prop := ∀ s t : State, s.stilled → step s = .next t → t.stilled

/-- Every step keeps every queue, list and count of State.withinCapacity within its capacity, the tables being conserved
(PagesStayConserved): the pending queue, the audio slates, the intake, the map cache, fill and serve records, table writes,
the FETCH, CONTENT and REPLY queues, the serve reads, the link's counts, the refresh debt and the fault list. That a warm
reset may take the table writes from 64 to 72 is log entry 50, the model's choice. -/
def Obligations.CapacitiesHold : Prop :=
  ∀ s t : State, s.pagesConserved → s.withinCapacity → step s = .next t → t.withinCapacity

/-- Frames on the line (R151, R152, R196 to R198). A frame written with stuff bits and CRC passes every check of R159 when its
class has its kind and its length is one of the kind's, and the levels read back give the same arbitration byte, kind byte
and payload. The frame of every well-formed command that comes from the line is such a frame, and its class, kind and
selector codes and its payload bytes give that command again, sender and every field as they were. The stuffing at the edges
of the CRC is log entry 21, the model's choice; the strap of a RESET_STATION and the elapsed ticks of a BEACON are operands
that no frame carries (log entries 35 and 7). -/
def Obligations.FramesSpellCommands : Prop :=
  (∀ (arb kind : Byte) (payload : List Byte) (lo hi : Nat),
    kindLength (arb.toNat / 32) kind.toNat = some (lo, hi) → lo ≤ payload.length → payload.length ≤ hi →
    checkFrame (frameLevels arb kind payload) = .accepted ∧
    readFrame (frameLevels arb kind payload) = some { arb := arb, kind := kind, payload := payload }) ∧
  (∀ (c : Instr) (f : Frame), c.wellFormed = true → frameOf c = some f →
    sender? c = some f.sender ∧
    (∃ strap elapsed, f.command strap elapsed = some c ∧
      commandOnLine strap elapsed (frameLevels f.arb f.kind f.payload) = some c)) ∧
  (∀ c : Instr, (frameOf c).isSome = (sender? c).isSome)
end

