-- ==== Sys2Proof/Laws/State.lean ====
section
/-!
SUPPORT. What each update of one block leaves: one lemma for each field of State and each update of Machine/Ops.lean, and
for the raise of a fault (spec/10, R185). True by unfolding, so that no later proof unfolds an update.
-/
namespace Sys2Proof.Machine

variable (s : State)

/-! ## onTbu -/

@[simp] theorem State.onTbu_tbu (g : Tbu → Tbu) : (s.onTbu g).tbu = g s.tbu := rfl
@[simp] theorem State.onTbu_ce (g : Tbu → Tbu) : (s.onTbu g).ce = s.ce := rfl
@[simp] theorem State.onTbu_hu (g : Tbu → Tbu) : (s.onTbu g).hu = s.hu := rfl
@[simp] theorem State.onTbu_lu (g : Tbu → Tbu) : (s.onTbu g).lu = s.lu := rfl
@[simp] theorem State.onTbu_au (g : Tbu → Tbu) : (s.onTbu g).au = s.au := rfl
@[simp] theorem State.onTbu_cm (g : Tbu → Tbu) : (s.onTbu g).cm = s.cm := rfl
@[simp] theorem State.onTbu_liu (g : Tbu → Tbu) : (s.onTbu g).liu = s.liu := rfl
@[simp] theorem State.onTbu_pt (g : Tbu → Tbu) : (s.onTbu g).pt = s.pt := rfl
@[simp] theorem State.onTbu_smc (g : Tbu → Tbu) : (s.onTbu g).smc = s.smc := rfl
@[simp] theorem State.onTbu_biu (g : Tbu → Tbu) : (s.onTbu g).biu = s.biu := rfl
@[simp] theorem State.onTbu_st (g : Tbu → Tbu) : (s.onTbu g).st = s.st := rfl
@[simp] theorem State.onTbu_pending (g : Tbu → Tbu) : (s.onTbu g).pending = s.pending := rfl

@[simp] theorem State.onTbu_live (g : Tbu → Tbu) : (s.onTbu g).live = s.live := rfl
@[simp] theorem State.onTbu_powered (g : Tbu → Tbu) : (s.onTbu g).powered = s.powered := rfl
@[simp] theorem State.onTbu_own (g : Tbu → Tbu) : (s.onTbu g).own = s.own := rfl
@[simp] theorem State.onTbu_params (g : Tbu → Tbu) : (s.onTbu g).params = s.params := rfl
@[simp] theorem State.onTbu_startingUp (g : Tbu → Tbu) : (s.onTbu g).startingUp = s.startingUp := rfl

/-! ## onCe -/

@[simp] theorem State.onCe_tbu (g : Ce → Ce) : (s.onCe g).tbu = s.tbu := rfl
@[simp] theorem State.onCe_ce (g : Ce → Ce) : (s.onCe g).ce = g s.ce := rfl
@[simp] theorem State.onCe_hu (g : Ce → Ce) : (s.onCe g).hu = s.hu := rfl
@[simp] theorem State.onCe_lu (g : Ce → Ce) : (s.onCe g).lu = s.lu := rfl
@[simp] theorem State.onCe_au (g : Ce → Ce) : (s.onCe g).au = s.au := rfl
@[simp] theorem State.onCe_cm (g : Ce → Ce) : (s.onCe g).cm = s.cm := rfl
@[simp] theorem State.onCe_liu (g : Ce → Ce) : (s.onCe g).liu = s.liu := rfl
@[simp] theorem State.onCe_pt (g : Ce → Ce) : (s.onCe g).pt = s.pt := rfl
@[simp] theorem State.onCe_smc (g : Ce → Ce) : (s.onCe g).smc = s.smc := rfl
@[simp] theorem State.onCe_biu (g : Ce → Ce) : (s.onCe g).biu = s.biu := rfl
@[simp] theorem State.onCe_st (g : Ce → Ce) : (s.onCe g).st = s.st := rfl
@[simp] theorem State.onCe_pending (g : Ce → Ce) : (s.onCe g).pending = s.pending := rfl

@[simp] theorem State.onCe_live (g : Ce → Ce) : (s.onCe g).live = s.live := rfl
@[simp] theorem State.onCe_powered (g : Ce → Ce) : (s.onCe g).powered = s.powered := rfl
@[simp] theorem State.onCe_own (g : Ce → Ce) : (s.onCe g).own = s.own := rfl
@[simp] theorem State.onCe_params (g : Ce → Ce) : (s.onCe g).params = s.params := rfl
@[simp] theorem State.onCe_startingUp (g : Ce → Ce) : (s.onCe g).startingUp = s.startingUp := rfl

/-! ## onHu -/

@[simp] theorem State.onHu_tbu (g : Hu → Hu) : (s.onHu g).tbu = s.tbu := rfl
@[simp] theorem State.onHu_ce (g : Hu → Hu) : (s.onHu g).ce = s.ce := rfl
@[simp] theorem State.onHu_hu (g : Hu → Hu) : (s.onHu g).hu = g s.hu := rfl
@[simp] theorem State.onHu_lu (g : Hu → Hu) : (s.onHu g).lu = s.lu := rfl
@[simp] theorem State.onHu_au (g : Hu → Hu) : (s.onHu g).au = s.au := rfl
@[simp] theorem State.onHu_cm (g : Hu → Hu) : (s.onHu g).cm = s.cm := rfl
@[simp] theorem State.onHu_liu (g : Hu → Hu) : (s.onHu g).liu = s.liu := rfl
@[simp] theorem State.onHu_pt (g : Hu → Hu) : (s.onHu g).pt = s.pt := rfl
@[simp] theorem State.onHu_smc (g : Hu → Hu) : (s.onHu g).smc = s.smc := rfl
@[simp] theorem State.onHu_biu (g : Hu → Hu) : (s.onHu g).biu = s.biu := rfl
@[simp] theorem State.onHu_st (g : Hu → Hu) : (s.onHu g).st = s.st := rfl
@[simp] theorem State.onHu_pending (g : Hu → Hu) : (s.onHu g).pending = s.pending := rfl

@[simp] theorem State.onHu_live (g : Hu → Hu) : (s.onHu g).live = s.live := rfl
@[simp] theorem State.onHu_powered (g : Hu → Hu) : (s.onHu g).powered = s.powered := rfl
@[simp] theorem State.onHu_own (g : Hu → Hu) : (s.onHu g).own = s.own := rfl
@[simp] theorem State.onHu_params (g : Hu → Hu) : (s.onHu g).params = s.params := rfl
@[simp] theorem State.onHu_startingUp (g : Hu → Hu) : (s.onHu g).startingUp = s.startingUp := rfl

/-! ## onLu -/

@[simp] theorem State.onLu_tbu (g : Lu → Lu) : (s.onLu g).tbu = s.tbu := rfl
@[simp] theorem State.onLu_ce (g : Lu → Lu) : (s.onLu g).ce = s.ce := rfl
@[simp] theorem State.onLu_hu (g : Lu → Lu) : (s.onLu g).hu = s.hu := rfl
@[simp] theorem State.onLu_lu (g : Lu → Lu) : (s.onLu g).lu = g s.lu := rfl
@[simp] theorem State.onLu_au (g : Lu → Lu) : (s.onLu g).au = s.au := rfl
@[simp] theorem State.onLu_cm (g : Lu → Lu) : (s.onLu g).cm = s.cm := rfl
@[simp] theorem State.onLu_liu (g : Lu → Lu) : (s.onLu g).liu = s.liu := rfl
@[simp] theorem State.onLu_pt (g : Lu → Lu) : (s.onLu g).pt = s.pt := rfl
@[simp] theorem State.onLu_smc (g : Lu → Lu) : (s.onLu g).smc = s.smc := rfl
@[simp] theorem State.onLu_biu (g : Lu → Lu) : (s.onLu g).biu = s.biu := rfl
@[simp] theorem State.onLu_st (g : Lu → Lu) : (s.onLu g).st = s.st := rfl
@[simp] theorem State.onLu_pending (g : Lu → Lu) : (s.onLu g).pending = s.pending := rfl

@[simp] theorem State.onLu_live (g : Lu → Lu) : (s.onLu g).live = s.live := rfl
@[simp] theorem State.onLu_powered (g : Lu → Lu) : (s.onLu g).powered = s.powered := rfl
@[simp] theorem State.onLu_own (g : Lu → Lu) : (s.onLu g).own = s.own := rfl
@[simp] theorem State.onLu_params (g : Lu → Lu) : (s.onLu g).params = s.params := rfl
@[simp] theorem State.onLu_startingUp (g : Lu → Lu) : (s.onLu g).startingUp = s.startingUp := rfl

/-! ## onAu -/

@[simp] theorem State.onAu_tbu (g : Au → Au) : (s.onAu g).tbu = s.tbu := rfl
@[simp] theorem State.onAu_ce (g : Au → Au) : (s.onAu g).ce = s.ce := rfl
@[simp] theorem State.onAu_hu (g : Au → Au) : (s.onAu g).hu = s.hu := rfl
@[simp] theorem State.onAu_lu (g : Au → Au) : (s.onAu g).lu = s.lu := rfl
@[simp] theorem State.onAu_au (g : Au → Au) : (s.onAu g).au = g s.au := rfl
@[simp] theorem State.onAu_cm (g : Au → Au) : (s.onAu g).cm = s.cm := rfl
@[simp] theorem State.onAu_liu (g : Au → Au) : (s.onAu g).liu = s.liu := rfl
@[simp] theorem State.onAu_pt (g : Au → Au) : (s.onAu g).pt = s.pt := rfl
@[simp] theorem State.onAu_smc (g : Au → Au) : (s.onAu g).smc = s.smc := rfl
@[simp] theorem State.onAu_biu (g : Au → Au) : (s.onAu g).biu = s.biu := rfl
@[simp] theorem State.onAu_st (g : Au → Au) : (s.onAu g).st = s.st := rfl
@[simp] theorem State.onAu_pending (g : Au → Au) : (s.onAu g).pending = s.pending := rfl

@[simp] theorem State.onAu_live (g : Au → Au) : (s.onAu g).live = s.live := rfl
@[simp] theorem State.onAu_powered (g : Au → Au) : (s.onAu g).powered = s.powered := rfl
@[simp] theorem State.onAu_own (g : Au → Au) : (s.onAu g).own = s.own := rfl
@[simp] theorem State.onAu_params (g : Au → Au) : (s.onAu g).params = s.params := rfl
@[simp] theorem State.onAu_startingUp (g : Au → Au) : (s.onAu g).startingUp = s.startingUp := rfl

/-! ## onCm -/

@[simp] theorem State.onCm_tbu (g : Cm → Cm) : (s.onCm g).tbu = s.tbu := rfl
@[simp] theorem State.onCm_ce (g : Cm → Cm) : (s.onCm g).ce = s.ce := rfl
@[simp] theorem State.onCm_hu (g : Cm → Cm) : (s.onCm g).hu = s.hu := rfl
@[simp] theorem State.onCm_lu (g : Cm → Cm) : (s.onCm g).lu = s.lu := rfl
@[simp] theorem State.onCm_au (g : Cm → Cm) : (s.onCm g).au = s.au := rfl
@[simp] theorem State.onCm_cm (g : Cm → Cm) : (s.onCm g).cm = g s.cm := rfl
@[simp] theorem State.onCm_liu (g : Cm → Cm) : (s.onCm g).liu = s.liu := rfl
@[simp] theorem State.onCm_pt (g : Cm → Cm) : (s.onCm g).pt = s.pt := rfl
@[simp] theorem State.onCm_smc (g : Cm → Cm) : (s.onCm g).smc = s.smc := rfl
@[simp] theorem State.onCm_biu (g : Cm → Cm) : (s.onCm g).biu = s.biu := rfl
@[simp] theorem State.onCm_st (g : Cm → Cm) : (s.onCm g).st = s.st := rfl
@[simp] theorem State.onCm_pending (g : Cm → Cm) : (s.onCm g).pending = s.pending := rfl

@[simp] theorem State.onCm_live (g : Cm → Cm) : (s.onCm g).live = s.live := rfl
@[simp] theorem State.onCm_powered (g : Cm → Cm) : (s.onCm g).powered = s.powered := rfl
@[simp] theorem State.onCm_own (g : Cm → Cm) : (s.onCm g).own = s.own := rfl
@[simp] theorem State.onCm_params (g : Cm → Cm) : (s.onCm g).params = s.params := rfl
@[simp] theorem State.onCm_startingUp (g : Cm → Cm) : (s.onCm g).startingUp = s.startingUp := rfl

/-! ## onLiu -/

@[simp] theorem State.onLiu_tbu (g : Liu → Liu) : (s.onLiu g).tbu = s.tbu := rfl
@[simp] theorem State.onLiu_ce (g : Liu → Liu) : (s.onLiu g).ce = s.ce := rfl
@[simp] theorem State.onLiu_hu (g : Liu → Liu) : (s.onLiu g).hu = s.hu := rfl
@[simp] theorem State.onLiu_lu (g : Liu → Liu) : (s.onLiu g).lu = s.lu := rfl
@[simp] theorem State.onLiu_au (g : Liu → Liu) : (s.onLiu g).au = s.au := rfl
@[simp] theorem State.onLiu_cm (g : Liu → Liu) : (s.onLiu g).cm = s.cm := rfl
@[simp] theorem State.onLiu_liu (g : Liu → Liu) : (s.onLiu g).liu = g s.liu := rfl
@[simp] theorem State.onLiu_pt (g : Liu → Liu) : (s.onLiu g).pt = s.pt := rfl
@[simp] theorem State.onLiu_smc (g : Liu → Liu) : (s.onLiu g).smc = s.smc := rfl
@[simp] theorem State.onLiu_biu (g : Liu → Liu) : (s.onLiu g).biu = s.biu := rfl
@[simp] theorem State.onLiu_st (g : Liu → Liu) : (s.onLiu g).st = s.st := rfl
@[simp] theorem State.onLiu_pending (g : Liu → Liu) : (s.onLiu g).pending = s.pending := rfl

@[simp] theorem State.onLiu_live (g : Liu → Liu) : (s.onLiu g).live = s.live := rfl
@[simp] theorem State.onLiu_powered (g : Liu → Liu) : (s.onLiu g).powered = s.powered := rfl
@[simp] theorem State.onLiu_own (g : Liu → Liu) : (s.onLiu g).own = s.own := rfl
@[simp] theorem State.onLiu_params (g : Liu → Liu) : (s.onLiu g).params = s.params := rfl
@[simp] theorem State.onLiu_startingUp (g : Liu → Liu) : (s.onLiu g).startingUp = s.startingUp := rfl

/-! ## onPt -/

@[simp] theorem State.onPt_tbu (g : Pt → Pt) : (s.onPt g).tbu = s.tbu := rfl
@[simp] theorem State.onPt_ce (g : Pt → Pt) : (s.onPt g).ce = s.ce := rfl
@[simp] theorem State.onPt_hu (g : Pt → Pt) : (s.onPt g).hu = s.hu := rfl
@[simp] theorem State.onPt_lu (g : Pt → Pt) : (s.onPt g).lu = s.lu := rfl
@[simp] theorem State.onPt_au (g : Pt → Pt) : (s.onPt g).au = s.au := rfl
@[simp] theorem State.onPt_cm (g : Pt → Pt) : (s.onPt g).cm = s.cm := rfl
@[simp] theorem State.onPt_liu (g : Pt → Pt) : (s.onPt g).liu = s.liu := rfl
@[simp] theorem State.onPt_pt (g : Pt → Pt) : (s.onPt g).pt = g s.pt := rfl
@[simp] theorem State.onPt_smc (g : Pt → Pt) : (s.onPt g).smc = s.smc := rfl
@[simp] theorem State.onPt_biu (g : Pt → Pt) : (s.onPt g).biu = s.biu := rfl
@[simp] theorem State.onPt_st (g : Pt → Pt) : (s.onPt g).st = s.st := rfl
@[simp] theorem State.onPt_pending (g : Pt → Pt) : (s.onPt g).pending = s.pending := rfl

@[simp] theorem State.onPt_live (g : Pt → Pt) : (s.onPt g).live = s.live := rfl
@[simp] theorem State.onPt_powered (g : Pt → Pt) : (s.onPt g).powered = s.powered := rfl
@[simp] theorem State.onPt_own (g : Pt → Pt) : (s.onPt g).own = s.own := rfl
@[simp] theorem State.onPt_params (g : Pt → Pt) : (s.onPt g).params = s.params := rfl
@[simp] theorem State.onPt_startingUp (g : Pt → Pt) : (s.onPt g).startingUp = s.startingUp := rfl

/-! ## onSmc -/

@[simp] theorem State.onSmc_tbu (g : Smc → Smc) : (s.onSmc g).tbu = s.tbu := rfl
@[simp] theorem State.onSmc_ce (g : Smc → Smc) : (s.onSmc g).ce = s.ce := rfl
@[simp] theorem State.onSmc_hu (g : Smc → Smc) : (s.onSmc g).hu = s.hu := rfl
@[simp] theorem State.onSmc_lu (g : Smc → Smc) : (s.onSmc g).lu = s.lu := rfl
@[simp] theorem State.onSmc_au (g : Smc → Smc) : (s.onSmc g).au = s.au := rfl
@[simp] theorem State.onSmc_cm (g : Smc → Smc) : (s.onSmc g).cm = s.cm := rfl
@[simp] theorem State.onSmc_liu (g : Smc → Smc) : (s.onSmc g).liu = s.liu := rfl
@[simp] theorem State.onSmc_pt (g : Smc → Smc) : (s.onSmc g).pt = s.pt := rfl
@[simp] theorem State.onSmc_smc (g : Smc → Smc) : (s.onSmc g).smc = g s.smc := rfl
@[simp] theorem State.onSmc_biu (g : Smc → Smc) : (s.onSmc g).biu = s.biu := rfl
@[simp] theorem State.onSmc_st (g : Smc → Smc) : (s.onSmc g).st = s.st := rfl
@[simp] theorem State.onSmc_pending (g : Smc → Smc) : (s.onSmc g).pending = s.pending := rfl

@[simp] theorem State.onSmc_live (g : Smc → Smc) : (s.onSmc g).live = s.live := rfl
@[simp] theorem State.onSmc_powered (g : Smc → Smc) : (s.onSmc g).powered = s.powered := rfl
@[simp] theorem State.onSmc_own (g : Smc → Smc) : (s.onSmc g).own = s.own := rfl
@[simp] theorem State.onSmc_params (g : Smc → Smc) : (s.onSmc g).params = s.params := rfl
@[simp] theorem State.onSmc_startingUp (g : Smc → Smc) : (s.onSmc g).startingUp = s.startingUp := rfl

/-! ## onBiu -/

@[simp] theorem State.onBiu_tbu (g : Biu → Biu) : (s.onBiu g).tbu = s.tbu := rfl
@[simp] theorem State.onBiu_ce (g : Biu → Biu) : (s.onBiu g).ce = s.ce := rfl
@[simp] theorem State.onBiu_hu (g : Biu → Biu) : (s.onBiu g).hu = s.hu := rfl
@[simp] theorem State.onBiu_lu (g : Biu → Biu) : (s.onBiu g).lu = s.lu := rfl
@[simp] theorem State.onBiu_au (g : Biu → Biu) : (s.onBiu g).au = s.au := rfl
@[simp] theorem State.onBiu_cm (g : Biu → Biu) : (s.onBiu g).cm = s.cm := rfl
@[simp] theorem State.onBiu_liu (g : Biu → Biu) : (s.onBiu g).liu = s.liu := rfl
@[simp] theorem State.onBiu_pt (g : Biu → Biu) : (s.onBiu g).pt = s.pt := rfl
@[simp] theorem State.onBiu_smc (g : Biu → Biu) : (s.onBiu g).smc = s.smc := rfl
@[simp] theorem State.onBiu_biu (g : Biu → Biu) : (s.onBiu g).biu = g s.biu := rfl
@[simp] theorem State.onBiu_st (g : Biu → Biu) : (s.onBiu g).st = s.st := rfl
@[simp] theorem State.onBiu_pending (g : Biu → Biu) : (s.onBiu g).pending = s.pending := rfl

@[simp] theorem State.onBiu_live (g : Biu → Biu) : (s.onBiu g).live = s.live := rfl
@[simp] theorem State.onBiu_powered (g : Biu → Biu) : (s.onBiu g).powered = s.powered := rfl
@[simp] theorem State.onBiu_own (g : Biu → Biu) : (s.onBiu g).own = s.own := rfl
@[simp] theorem State.onBiu_params (g : Biu → Biu) : (s.onBiu g).params = s.params := rfl
@[simp] theorem State.onBiu_startingUp (g : Biu → Biu) : (s.onBiu g).startingUp = s.startingUp := rfl

/-! ## onSt -/

@[simp] theorem State.onSt_tbu (g : StartUp → StartUp) : (s.onSt g).tbu = s.tbu := rfl
@[simp] theorem State.onSt_ce (g : StartUp → StartUp) : (s.onSt g).ce = s.ce := rfl
@[simp] theorem State.onSt_hu (g : StartUp → StartUp) : (s.onSt g).hu = s.hu := rfl
@[simp] theorem State.onSt_lu (g : StartUp → StartUp) : (s.onSt g).lu = s.lu := rfl
@[simp] theorem State.onSt_au (g : StartUp → StartUp) : (s.onSt g).au = s.au := rfl
@[simp] theorem State.onSt_cm (g : StartUp → StartUp) : (s.onSt g).cm = s.cm := rfl
@[simp] theorem State.onSt_liu (g : StartUp → StartUp) : (s.onSt g).liu = s.liu := rfl
@[simp] theorem State.onSt_pt (g : StartUp → StartUp) : (s.onSt g).pt = s.pt := rfl
@[simp] theorem State.onSt_smc (g : StartUp → StartUp) : (s.onSt g).smc = s.smc := rfl
@[simp] theorem State.onSt_biu (g : StartUp → StartUp) : (s.onSt g).biu = s.biu := rfl
@[simp] theorem State.onSt_st (g : StartUp → StartUp) : (s.onSt g).st = g s.st := rfl
@[simp] theorem State.onSt_pending (g : StartUp → StartUp) : (s.onSt g).pending = s.pending := rfl

/-! ## raise -/

@[simp] theorem State.raise_tbu (k : FaultKind) (d : Option FaultDetail) : (s.raise k d).tbu = s.tbu := rfl
@[simp] theorem State.raise_ce (k : FaultKind) (d : Option FaultDetail) : (s.raise k d).ce = s.ce := rfl
@[simp] theorem State.raise_hu (k : FaultKind) (d : Option FaultDetail) : (s.raise k d).hu = s.hu := rfl
@[simp] theorem State.raise_lu (k : FaultKind) (d : Option FaultDetail) : (s.raise k d).lu = s.lu := rfl
@[simp] theorem State.raise_au (k : FaultKind) (d : Option FaultDetail) : (s.raise k d).au = s.au := rfl
@[simp] theorem State.raise_cm (k : FaultKind) (d : Option FaultDetail) : (s.raise k d).cm = s.cm := rfl
@[simp] theorem State.raise_liu (k : FaultKind) (d : Option FaultDetail) : (s.raise k d).liu = s.liu := rfl
@[simp] theorem State.raise_pt (k : FaultKind) (d : Option FaultDetail) : (s.raise k d).pt = s.pt := rfl
@[simp] theorem State.raise_smc (k : FaultKind) (d : Option FaultDetail) : (s.raise k d).smc = s.smc := rfl
@[simp] theorem State.raise_biu (k : FaultKind) (d : Option FaultDetail) :
    (s.raise k d).biu = { s.biu with faults := raiseIn s.biu.faults s.tbu.basinTime k d } := rfl
@[simp] theorem State.raise_st (k : FaultKind) (d : Option FaultDetail) : (s.raise k d).st = s.st := rfl
@[simp] theorem State.raise_pending (k : FaultKind) (d : Option FaultDetail) : (s.raise k d).pending = s.pending := rfl
@[simp] theorem State.raise_live (k : FaultKind) (d : Option FaultDetail) : (s.raise k d).live = s.live := rfl
@[simp] theorem State.raise_powered (k : FaultKind) (d : Option FaultDetail) : (s.raise k d).powered = s.powered := rfl
@[simp] theorem State.raise_own (k : FaultKind) (d : Option FaultDetail) : (s.raise k d).own = s.own := rfl
@[simp] theorem State.raise_params (k : FaultKind) (d : Option FaultDetail) : (s.raise k d).params = s.params := rfl
@[simp] theorem State.raise_startingUp (k : FaultKind) (d : Option FaultDetail) : (s.raise k d).startingUp = s.startingUp := rfl

/-! ## A correction, the oscillator's tick, and the words of an audio burst -/

@[simp] theorem State.correct_ce (k : Nat) (c : Int) : (s.correct k c).ce = s.ce := rfl
@[simp] theorem State.correct_hu (k : Nat) (c : Int) : (s.correct k c).hu = s.hu := rfl
@[simp] theorem State.correct_lu (k : Nat) (c : Int) : (s.correct k c).lu = s.lu := rfl
@[simp] theorem State.correct_au (k : Nat) (c : Int) : (s.correct k c).au = s.au := rfl
@[simp] theorem State.correct_cm (k : Nat) (c : Int) : (s.correct k c).cm = s.cm := rfl
@[simp] theorem State.correct_smc (k : Nat) (c : Int) : (s.correct k c).smc = s.smc := rfl
@[simp] theorem State.correct_biu (k : Nat) (c : Int) : (s.correct k c).biu = s.biu := rfl
@[simp] theorem State.correct_st (k : Nat) (c : Int) : (s.correct k c).st = s.st := rfl
@[simp] theorem State.correct_pending (k : Nat) (c : Int) : (s.correct k c).pending = s.pending := rfl

/-- The burst of an audio row read fills the block's slot and reaches nothing else (R138). -/
theorem State.handWords_onAu : ∃ g : Au → Au, s.handWords = s.onAu g := by
  unfold State.handWords
  split
  · exact ⟨_, rfl⟩
  · exact ⟨id, rfl⟩

@[simp] theorem Au.takeWords_a (a : Au) (w : List Byte) : (a.takeWords w).a = a.a := by
  unfold Au.takeWords; split <;> rfl
@[simp] theorem Au.takeWords_b (a : Au) (w : List Byte) : (a.takeWords w).b = a.b := by
  unfold Au.takeWords; split <;> rfl
@[simp] theorem Au.takeWords_fill (a : Au) (w : List Byte) : (a.takeWords w).fill = a.fill := by
  unfold Au.takeWords; split <;> rfl

/-! ## The content map's requests, and what a reset point leaves of it -/

@[simp] theorem Cm.owe_dir (c : Cm) (now id : Nat) : (c.owe now id).dir = c.dir := rfl
@[simp] theorem Cm.owe_pages (c : Cm) (now id : Nat) : (c.owe now id).pages = c.pages := rfl
@[simp] theorem Cm.owe_taken (c : Cm) (now id : Nat) : (c.owe now id).taken = c.taken := rfl
@[simp] theorem Cm.owe_showId (c : Cm) (now id : Nat) : (c.owe now id).showId = c.showId := rfl
@[simp] theorem Cm.owe_cache (c : Cm) (now id : Nat) : (c.owe now id).cache = c.cache := rfl
@[simp] theorem Cm.owe_mapQ (c : Cm) (now id : Nat) : (c.owe now id).mapQ = c.mapQ := rfl
@[simp] theorem Cm.owe_serves (c : Cm) (now id : Nat) : (c.owe now id).serves = c.serves := rfl
@[simp] theorem Cm.abandonAccesses_dir (c : Cm) : c.abandonAccesses.dir = c.dir := rfl
@[simp] theorem Cm.abandonAccesses_pages (c : Cm) : c.abandonAccesses.pages = c.pages := rfl
@[simp] theorem Cm.abandonAccesses_taken (c : Cm) : c.abandonAccesses.taken = c.taken := rfl
@[simp] theorem Cm.abandonAccesses_showId (c : Cm) : c.abandonAccesses.showId = c.showId := rfl
@[simp] theorem Cm.abandonAccesses_storeFull (c : Cm) : c.abandonAccesses.storeFull = c.storeFull := rfl
@[simp] theorem Cm.abandonAccesses_cache (c : Cm) : c.abandonAccesses.cache = c.cache := rfl
@[simp] theorem Cm.abandonAccesses_fills (c : Cm) : c.abandonAccesses.fills = c.fills := rfl
@[simp] theorem Cm.abandonAccesses_chunk (c : Cm) : c.abandonAccesses.chunk = none := rfl
@[simp] theorem Cm.abandonAccesses_serves (c : Cm) : c.abandonAccesses.serves = [] := rfl

/-! ## The commands a boundary brings about -/

/-- A boundary-named command marks the boundary or leaves the state. -/
theorem State.markWhen_cases (due : Bool) (i : BoundaryInput) :
    s.markWhen due i = s.markBoundary i ∨ s.markWhen due i = s := by
  unfold State.markWhen; split
  · exact .inl rfl
  · exact .inr rfl

/-- The same for one that names what becomes of a pump. -/
theorem State.markAsPumpGoes_cases (p : Channel) (before : List PumpState) (after : Pump → Bool) (i : BoundaryInput) :
    s.markAsPumpGoes p before after i = s.markBoundary i ∨ s.markAsPumpGoes p before after i = s := by
  unfold State.markAsPumpGoes; simp only; split
  · exact .inl rfl
  · exact .inr rfl

/-! ## The fixed files -/

@[simp] theorem Hu.onPump_same (h : Hu) (n : Channel) (g : Pump → Pump) : (h.onPump n g).pump n = g (h.pump n) := by
  simp [Hu.onPump, Hu.pump]

theorem Hu.onPump_other (h : Hu) {n m : Channel} (g : Pump → Pump) (ne : m ≠ n) :
    (h.onPump n g).pump m = h.pump m := by
  simp only [Hu.onPump, Hu.pump, Fin.getElem_fin]
  exact Vector.getElem_set_ne _ _ (fun e => ne (Fin.ext e.symm))

@[simp] theorem Hu.mapPumps_pump (h : Hu) (g : Channel → Pump → Pump) (n : Channel) :
    (h.mapPumps g).pump n = g n (h.pump n) := by
  simp [Hu.mapPumps, Hu.pump]

@[simp] theorem Hu.mapPumps_spacing (h : Hu) (g : Channel → Pump → Pump) : (h.mapPumps g).spacing = h.spacing := rfl
@[simp] theorem Hu.mapPumps_claimHolder (h : Hu) (g : Channel → Pump → Pump) :
    (h.mapPumps g).claimHolder = h.claimHolder := rfl
@[simp] theorem Hu.mapPumps_share (h : Hu) (g : Channel → Pump → Pump) : (h.mapPumps g).share = h.share := rfl
@[simp] theorem Hu.mapPumps_demand (h : Hu) (g : Channel → Pump → Pump) : (h.mapPumps g).demand = h.demand := rfl
@[simp] theorem Hu.mapPumps_total (h : Hu) (g : Channel → Pump → Pump) : (h.mapPumps g).total = h.total := rfl
@[simp] theorem Hu.mapPumps_scale (h : Hu) (g : Channel → Pump → Pump) : (h.mapPumps g).scale = h.scale := rfl

@[simp] theorem Ce.setSlate_slate (c : Ce) (k : Nat) (x : Slate) : (c.setSlate k x).slate k = x := by
  by_cases h : k % 2 = 0 <;> simp [Ce.setSlate, Ce.slate, h]

@[simp] theorem Au.onVoice_same (a : Au) (v : VoiceId) (g : Voice → Voice) : (a.onVoice v g).voice v = g (a.voice v) := by
  cases v <;> rfl

theorem Au.onVoice_other (a : Au) {v w : VoiceId} (g : Voice → Voice) (ne : w ≠ v) :
    (a.onVoice v g).voice w = a.voice w := by
  cases v <;> cases w <;> first | rfl | exact absurd rfl ne

end Sys2Proof.Machine
end

