-- ==== Sys2Proof/Laws/Aside.lean ====
section
/-!
SUPPORT. What the operations of the show, the passes and the content map leave alone, said once for each. `State.outer` is
the part of the state that none of them reaches: basin time and the corrections, the start-up record, the peer table, the
inputs, the beacon, the transmission and the counts of the link, show memory and the clock of its controller, the queue.
`State.aside` adds the rest of the timebase unit, which only the show transitions write.
-/
namespace Sys2Proof.Machine

/-! ## The two projections -/

/-- The link interface unit without the claim, the FETCH and the CONTENT queue. -/
def Liu.outer (l : Liu) : Liu := { l with claim := none, fetchQ := [], contentQ := [] }

/-- The memory controller without its banks, slots and port. -/
def Smc.outer (m : Smc) : Smc :=
  { m with banks := Vector.replicate 4 {}, audio := none, walk := none, cue := none, content := none, serve := [],
           port := none }

/-- The timebase unit without the station show state and what a show holds in it. -/
def Tbu.outer (t : Tbu) : Tbu :=
  { t with state := .standby, outOfStep := false, armed := none, segBase := none, hold := {}, warmup := 0 }

/-- What the passes and the content map do not reach. -/
def State.aside (s : State) : State :=
  { s with ce := {}, hu := {}, lu := {}, au := {}, cm := {}, liu := s.liu.outer, smc := s.smc.outer,
           biu := { s.biu with faults := [] } }

/-- What the transitions of the show do not reach either. -/
def State.outer (s : State) : State := { s.aside with tbu := s.tbu.outer }

theorem State.outer_of_aside {s t : State} (h : t.aside = s.aside) : t.outer = s.outer := by
  have e : ∀ x : State, x.outer = { x.aside with tbu := x.aside.tbu.outer } := fun _ => rfl
  rw [e, e, h]

section
variable {s t : State}

theorem State.tbu_of_aside (h : t.aside = s.aside) : t.tbu = s.tbu := congrArg (fun x => x.tbu) h
theorem State.st_of_outer (h : t.outer = s.outer) : t.st = s.st := congrArg (fun x => x.st) h
theorem State.pt_of_outer (h : t.outer = s.outer) : t.pt = s.pt := congrArg (fun x => x.pt) h
theorem State.pending_of_outer (h : t.outer = s.outer) : t.pending = s.pending := congrArg (fun x => x.pending) h
theorem State.basinTime_of_outer (h : t.outer = s.outer) : t.tbu.basinTime = s.tbu.basinTime :=
  congrArg (fun x => x.tbu.basinTime) h
theorem State.frameNo_of_outer (h : t.outer = s.outer) : t.tbu.frameNo = s.tbu.frameNo :=
  congrArg (fun x => x.tbu.frameNo) h
theorem State.lastCorrection_of_outer (h : t.outer = s.outer) : t.tbu.lastCorrection = s.tbu.lastCorrection :=
  congrArg (fun x => x.tbu.lastCorrection) h
theorem State.conflict_of_outer (h : t.outer = s.outer) : t.tbu.conflict = s.tbu.conflict :=
  congrArg (fun x => x.tbu.conflict) h
theorem State.mute_of_outer (h : t.outer = s.outer) : t.liu.mute = s.liu.mute := congrArg (fun x => x.liu.mute) h
theorem State.tx_of_outer (h : t.outer = s.outer) : t.liu.tx = s.liu.tx := congrArg (fun x => x.liu.tx) h
theorem State.beacon_of_outer (h : t.outer = s.outer) : t.liu.beacon = s.liu.beacon :=
  congrArg (fun x => x.liu.beacon) h
theorem State.mem_of_outer (h : t.outer = s.outer) : t.smc.mem = s.smc.mem := congrArg (fun x => x.smc.mem) h
theorem State.ctl_of_outer (h : t.outer = s.outer) : t.smc.ctl = s.smc.ctl := congrArg (fun x => x.smc.ctl) h
theorem State.debt_of_outer (h : t.outer = s.outer) : t.smc.debt = s.smc.debt := congrArg (fun x => x.smc.debt) h
theorem State.reports_of_outer (h : t.outer = s.outer) : t.smc.reports = s.smc.reports :=
  congrArg (fun x => x.smc.reports) h
theorem State.biu_of_outer (h : t.outer = s.outer) : { t.biu with faults := [] } = { s.biu with faults := [] } :=
  congrArg (fun x => x.biu) h
theorem State.stopActive_of_outer (h : t.outer = s.outer) : t.biu.stopActive = s.biu.stopActive :=
  congrArg (fun x => x.biu.stopActive) h
theorem State.windState_of_outer (h : t.outer = s.outer) : t.biu.windState = s.biu.windState :=
  congrArg (fun x => x.biu.windState) h
end

/-- A fold keeps what each of its steps keeps. -/
theorem foldl_keeps {α β γ : Type} (p : α → γ) (f : α → β → α) (h : ∀ a b, p (f a b) = p a) (l : List β) (a : α) :
    p (l.foldl f a) = p a := by
  induction l generalizing a with
  | nil => rfl
  | cons b rest ih => rw [List.foldl_cons, ih, h]

/-! ## Single updates -/

section
variable (s : State)

@[simp] theorem State.onCe_aside (g : Ce → Ce) : (s.onCe g).aside = s.aside := rfl
@[simp] theorem State.onHu_aside (g : Hu → Hu) : (s.onHu g).aside = s.aside := rfl
@[simp] theorem State.onLu_aside (g : Lu → Lu) : (s.onLu g).aside = s.aside := rfl
@[simp] theorem State.onAu_aside (g : Au → Au) : (s.onAu g).aside = s.aside := rfl
@[simp] theorem State.onCm_aside (g : Cm → Cm) : (s.onCm g).aside = s.aside := rfl
@[simp] theorem State.raise_aside (k : FaultKind) (d : Option FaultDetail) : (s.raise k d).aside = s.aside := rfl
@[simp] theorem State.onCe_outer (g : Ce → Ce) : (s.onCe g).outer = s.outer := rfl
@[simp] theorem State.onHu_outer (g : Hu → Hu) : (s.onHu g).outer = s.outer := rfl
@[simp] theorem State.onLu_outer (g : Lu → Lu) : (s.onLu g).outer = s.outer := rfl
@[simp] theorem State.onAu_outer (g : Au → Au) : (s.onAu g).outer = s.outer := rfl
@[simp] theorem State.onCm_outer (g : Cm → Cm) : (s.onCm g).outer = s.outer := rfl
@[simp] theorem State.raise_outer (k : FaultKind) (d : Option FaultDetail) : (s.raise k d).outer = s.outer := rfl

theorem State.onLiu_aside {g : Liu → Liu} (h : ∀ l, (g l).outer = l.outer) : (s.onLiu g).aside = s.aside := by
  show ({ s.aside with liu := (g s.liu).outer } : State) = s.aside
  rw [h]
  rfl

theorem State.onSmc_aside {g : Smc → Smc} (h : ∀ m, (g m).outer = m.outer) : (s.onSmc g).aside = s.aside := by
  show ({ s.aside with smc := (g s.smc).outer } : State) = s.aside
  rw [h]
  rfl

theorem State.onTbu_outer {g : Tbu → Tbu} (h : ∀ t, (g t).outer = t.outer) : (s.onTbu g).outer = s.outer := by
  show ({ s.outer with tbu := (g s.tbu).outer } : State) = s.outer
  rw [h]
  rfl
end

@[simp] theorem Liu.withdrawClaim_outer (l : Liu) : l.withdrawClaim.outer = l.outer := by
  unfold Liu.withdrawClaim
  split <;> rfl

@[simp] theorem Liu.withdrawFetch_outer (l : Liu) (id : Nat) : (l.withdrawFetch id).outer = l.outer := rfl
@[simp] theorem Liu.withdrawContent_outer (l : Liu) (id : Nat) : (l.withdrawContent id).outer = l.outer := rfl
@[simp] theorem Smc.onBank_outer (m : Smc) (b : Fin 4) (g : Bank → Bank) : (m.onBank b g).outer = m.outer := rfl

/-! ## The memory controller (spec/07) -/

/-- A burst begun moves banks and the port alone. -/
@[simp] theorem Smc.startBurst_outer (m : Smc) (c : ReqClass) (r : Request) : (m.startBurst c r).outer = m.outer := by
  unfold Smc.startBurst
  dsimp only
  split
  · split <;> rfl
  · rfl
  · rfl
  · rfl

@[simp] theorem Smc.startRefresh_outer (m : Smc) (f : Bool) : (m.startRefresh f).outer = m.outer := by
  unfold Smc.startRefresh
  split
  · rfl
  · split <;> rfl

/-- A grant moves banks and the port alone (R140). -/
@[simp] theorem Smc.grant_outer (m : Smc) : m.grant.outer = m.outer := by
  unfold Smc.grant
  split
  · exact m.startRefresh_outer true
  · split
    · exact m.startBurst_outer _ _
    · split
      · exact m.startRefresh_outer false
      · rfl

@[simp] theorem Smc.grantIfIdle_outer (m : Smc) : m.grantIfIdle.outer = m.outer := by
  unfold Smc.grantIfIdle
  split
  · exact m.grant_outer
  · rfl

/-- A request's arrival fills its slot, and may move banks and the port (R138, R140). -/
@[simp] theorem Smc.arrive_outer (m : Smc) (c : ReqClass) (r : Request) : (m.arrive c r).outer = m.outer := by
  unfold Smc.arrive
  rw [Smc.grantIfIdle_outer]
  cases c <;> rfl

section
variable (s : State)

@[simp] theorem State.arrive_aside (c : ReqClass) (r : Request) : (s.onSmc fun m => m.arrive c r).aside = s.aside :=
  s.onSmc_aside fun m => m.arrive_outer c r

/-! ## The content map (spec/06) -/

@[simp] theorem State.issueMap_aside : s.issueMap.aside = s.aside := by
  unfold State.issueMap
  split
  · split
    · simp
    · rfl
  · rfl

@[simp] theorem State.popMap_aside : s.popMap.aside = s.aside := by simp [State.popMap]

@[simp] theorem State.raiseStoreFull_aside (g q : Nat) : (s.raiseStoreFull g q).aside = s.aside := rfl

@[simp] theorem State.openFill_aside (g q p : Nat) (f : Bool) : (s.openFill g q p f).aside = s.aside := by
  simp [State.openFill]

@[simp] theorem State.queueRequest_aside : s.queueRequest.aside = s.aside := by
  unfold State.queueRequest
  split
  · split
    · rfl
    · rfl
  · rfl

@[simp] theorem State.queueRequests_aside : s.queueRequests.aside = s.aside := by simp [State.queueRequests]

theorem State.queueRequests_outer : s.queueRequests.outer = s.outer := State.outer_of_aside s.queueRequests_aside

@[simp] theorem State.freeFill_aside (id : Nat) : (s.freeFill id).aside = s.aside := rfl
@[simp] theorem State.dropServe_aside (id : Nat) : (s.dropServe id).aside = s.aside := rfl

theorem State.freeFills_aside (l : List Fill) : (l.foldl (fun s f => s.freeFill f.id) s).aside = s.aside :=
  foldl_keeps State.aside (fun (s : State) (f : Fill) => s.freeFill f.id) (fun _ _ => rfl) l s

theorem State.dropServes_aside (l : List Serve) : (l.foldl (fun s r => s.dropServe r.id) s).aside = s.aside :=
  foldl_keeps State.aside (fun (s : State) (r : Serve) => s.dropServe r.id) (fun _ _ => rfl) l s

@[simp] theorem State.releaseOne_aside (g : Nat) : (s.releaseOne g).aside = s.aside := by
  unfold State.releaseOne
  simp only [State.onAu_aside, State.onCm_aside, State.dropServes_aside, State.freeFills_aside]

@[simp] theorem State.release_aside (gs : List Nat) : (s.release gs).aside = s.aside := by
  unfold State.release
  rw [State.issueMap_aside, State.onCm_aside, foldl_keeps State.aside _ fun t g => t.releaseOne_aside g]

@[simp] theorem State.startFetch_aside (g q : Nat) : (s.startFetch g q).aside = s.aside := by
  unfold State.startFetch
  split
  · rfl
  · split
    · rfl
    · simp

/-- A lookup touches the content map, the memory controller's slots and the FETCH queue alone (R115). -/
@[simp] theorem State.lookup_aside (who : Asker) (g off : Nat) (k : SegType) :
    (s.lookup who g off k).1.aside = s.aside := by
  unfold State.lookup
  split
  · rfl
  · split
    · rfl
    · split
      · rfl
      · dsimp only
        split
        · split
          · rfl
          · simp
        · simp
        · rfl
        · rfl

@[simp] theorem State.applyChange_aside (x : Change) : (s.applyChange x).aside = s.aside := by
  unfold State.applyChange
  split
  · split
    · simp
    · rfl
  · split
    · simp
    · rfl

@[simp] theorem State.makeChange_aside (x : Change) : (s.makeChange x).aside = s.aside := by
  unfold State.makeChange
  split
  · simp
  · rfl

@[simp] theorem State.initMap_aside : s.initMap.aside = s.aside := by
  unfold State.initMap
  split
  · simp
  · rfl

/-! ## The hydraulics unit (spec/03) -/

@[simp] theorem State.giveUpClaim_aside : s.giveUpClaim.aside = s.aside := by
  unfold State.giveUpClaim
  rw [State.onLiu_aside _ Liu.withdrawClaim_outer, State.onHu_aside]

@[simp] theorem State.settleClaim_aside : s.settleClaim.aside = s.aside := by
  unfold State.settleClaim
  split
  · rfl
  · split
    · rfl
    · rfl
    · simp

@[simp] theorem State.recheckClaim_aside : s.recheckClaim.aside = s.aside := by
  unfold State.recheckClaim
  split
  · split
    · simp
    · rfl
  · rfl

@[simp] theorem State.queueClaim_aside : s.queueClaim.aside = s.aside := by
  unfold State.queueClaim
  split
  · split
    · rfl
    · rfl
  · rfl

@[simp] theorem State.raiseFeedbackLocks_aside (before : Hu) : (s.raiseFeedbackLocks before).aside = s.aside := by
  unfold State.raiseFeedbackLocks
  refine foldl_keeps State.aside _ (fun t n => ?_) _ _
  split <;> rfl

/-- The pass of the hydraulics unit reaches the unit, the claim and the fault list alone (R51). -/
@[simp] theorem State.huPass_aside (now : Nat) (handed : ShowState) (jets : List Action) :
    (s.huPass now handed jets).aside = s.aside := by
  simp [State.huPass]

@[simp] theorem State.huDry_aside : s.huDry.aside = s.aside := by simp [State.huDry]
@[simp] theorem State.huNormal_aside : s.huNormal.aside = s.aside := rfl
@[simp] theorem State.huHalt_aside : s.huHalt.aside = s.aside := by simp [State.huHalt]
@[simp] theorem State.huZeroHeights_aside : s.huZeroHeights.aside = s.aside := rfl

/-! ## The show transitions (spec/01) -/

@[simp] theorem State.enterEnding_outer (fade : Nat) : (s.enterEnding fade).outer = s.outer := by
  unfold State.enterEnding State.huZeroHeights
  simp only [State.onAu_outer, State.onLu_outer, State.onHu_outer, State.onCe_outer]
  rfl

@[simp] theorem State.armedToIdle_outer : s.armedToIdle.outer = s.outer := by
  unfold State.armedToIdle State.huZeroHeights
  simp only [State.onAu_outer, State.onLu_outer, State.onHu_outer, State.onCe_outer]
  rfl

theorem State.huHalt_outer : s.huHalt.outer = s.outer := State.outer_of_aside s.huHalt_aside

@[simp] theorem State.enterHalted_outer : s.enterHalted.outer = s.outer := by
  unfold State.enterHalted
  simp only [State.onAu_outer, State.onLu_outer, State.huHalt_outer, State.onCe_outer]
  rfl

@[simp] theorem State.haltRequest_outer : s.haltRequest.outer = s.outer := by
  unfold State.haltRequest
  split <;> simp

@[simp] theorem State.enterStandby_outer : s.enterStandby.outer = s.outer := by
  unfold State.enterStandby
  simp only [State.onAu_outer, State.onLu_outer, State.huHalt_outer]
  rfl

@[simp] theorem State.haltedToIdle_outer : s.haltedToIdle.outer = s.outer := rfl
@[simp] theorem State.endingToIdle_outer : s.endingToIdle.outer = s.outer := rfl
@[simp] theorem State.enterWarmup_outer : s.enterWarmup.outer = s.outer := rfl

@[simp] theorem State.takeEnd_outer (now : Nat) : (s.takeEnd now).outer = s.outer := by
  unfold State.takeEnd
  split <;> simp

@[simp] theorem State.takeT0_outer (now : Nat) : (s.takeT0 now).outer = s.outer := by
  unfold State.takeT0
  split
  · rw [State.takeEnd_outer]
    rfl
  · rfl

/-! ## The cue engine (spec/02) -/

/-- The state a step of reading comes to. -/
def Progress.state : Progress → State
  | .more s => s
  | .stop s => s

@[simp] theorem Progress.state_more : (Progress.more s).state = s := rfl
@[simp] theorem Progress.state_stop : (Progress.stop s).state = s := rfl

theorem State.stage_aside {k : Nat} {a : Action} {t : State} (h : s.stage k a = some t) : t.aside = s.aside := by
  unfold State.stage at h
  split at h
  · cases h
  · simp only [Option.some.injEq] at h
    subst h
    split <;> rfl

@[simp] theorem State.stagePass_aside (k : Nat) : (s.stagePass k).aside = s.aside := by
  unfold State.stagePass
  refine foldl_keeps State.aside _ (fun t a => ?_) _ _
  split
  · split
    · rename_i u h
      rw [State.onCe_aside, State.stage_aside t h]
    · rfl
  · rfl

@[simp] theorem State.produce_aside (d : Deed) (n : Nat) : (s.produce d n).aside = s.aside := by
  simp only [State.produce]
  split
  · rcases h : (s.onCe _).stage _ _ with _ | t
    · rfl
    · rw [Option.getD_some, State.stage_aside _ h]
      rfl
  · rfl

@[simp] theorem State.openSegment_outer (b : Nat) : (s.openSegment b).outer = s.outer := rfl
@[simp] theorem State.openTriggered_outer (p : Nat) (w : WaitingRecord) : (s.openTriggered p w).outer = s.outer := rfl
@[simp] theorem State.countMalformed_aside (p : ReadPos) : (s.countMalformed p).aside = s.aside := rfl

@[simp] theorem State.cueEndShow_outer : s.cueEndShow.outer = s.outer := by
  unfold State.cueEndShow
  split
  · simp
  · simp
  · rfl

theorem State.produce_outer (d : Deed) (n : Nat) : (s.produce d n).outer = s.outer :=
  State.outer_of_aside (s.produce_aside d n)

@[simp] theorem State.openTimed_outer : s.openTimed.outer = s.outer := by
  unfold State.openTimed
  split <;> rfl

@[simp] theorem State.endOfList_outer : s.endOfList.outer = s.outer := by
  unfold State.endOfList
  dsimp only
  split
  · simp
  · rw [State.onCe_outer, State.produce_outer, State.openTimed_outer]

@[simp] theorem State.cueEnd_outer : s.cueEnd.state.outer = s.outer := by
  unfold State.cueEnd
  split
  · rfl
  · simp

@[simp] theorem State.cueLookup_aside (p : ReadPos) : (s.cueLookup p).1.aside = s.aside := by
  unfold State.cueLookup
  split
  · rfl
  · exact s.lookup_aside _ _ _ _

@[simp] theorem State.cueAnswer_outer (p : ReadPos) (a : Answer) : (s.cueAnswer p a).state.outer = s.outer := by
  unfold State.cueAnswer
  dsimp only
  split
  · split
    · simp
    · split
      · simp only [Progress.state_stop, State.onCe_outer]
        exact State.outer_of_aside (s.arrive_aside _ _)
      · rfl
  · rfl
  · rfl
  · rfl
  · simp
  · simp
  · simp

theorem State.produceAll_outer (l : List (Deed × Nat)) :
    (l.foldl (fun (s : State) (a : Deed × Nat) => s.produce a.1 a.2) s).outer = s.outer :=
  foldl_keeps State.outer (fun (s : State) (a : Deed × Nat) => s.produce a.1 a.2)
    (fun t a => t.produce_outer a.1 a.2) l s

@[simp] theorem State.takeCue_outer (p : ReadPos) (r : List Byte) (c : Cue) (t : Nat) :
    (s.takeCue p r c t).state.outer = s.outer := by
  have malformed : (if cueTime r < s.ce.lastCue then s.countMalformed p else s).outer = s.outer := by
    split <;> rfl
  unfold State.takeCue
  dsimp only
  split
  · rfl
  · cases c <;> first
      | rfl
      | (simp only [Progress.state_stop, Progress.state_more, State.onCe_outer]
         rw [State.produceAll_outer, malformed])

@[simp] theorem State.readRecord_go_outer (p : ReadPos) (r : List Byte) (c : Option Cue) :
    (State.readRecord.go s p r c).state.outer = s.outer := by
  unfold State.readRecord.go
  dsimp only
  split
  · rfl
  · split
    · rfl
    · simp

@[simp] theorem State.readRecord_outer (p : ReadPos) (r : List Byte) : (s.readRecord p r).state.outer = s.outer := by
  unfold State.readRecord
  dsimp only
  split
  · split <;> split <;> simp
  · simp

@[simp] theorem State.scanRecord_outer (x : ScanRecord) (r : List Byte) : (s.scanRecord x r).state.outer = s.outer := by
  unfold State.scanRecord
  dsimp only
  split
  · split <;> rfl
  · rfl
  · rfl
  · rfl

@[simp] theorem State.cueStep_outer : s.cueStep.state.outer = s.outer := by
  unfold State.cueStep
  dsimp only
  split
  · rfl
  · split
    · rfl
    · split
      · split
        · simp
        · split <;> simp
      · split
        · rfl
        · rw [State.cueAnswer_outer]
          exact State.outer_of_aside (s.cueLookup_aside _)

@[simp] theorem State.cueLoop_outer (n : Nat) : (s.cueLoop n).outer = s.outer := by
  induction n generalizing s with
  | zero => rfl
  | succ n ih =>
    have step := s.cueStep_outer
    unfold State.cueLoop
    split
    · rename_i t h
      rwa [h] at step
    · rename_i t h
      rw [h] at step
      rw [ih, ← step]
      rfl

/-- Reading reaches the cue engine, the show state, what a show's end stops, and the content map's lookups (R27). -/
@[simp] theorem State.cueRead_outer : s.cueRead.outer = s.outer := s.cueLoop_outer 256

@[simp] theorem State.cueRun_outer : s.cueRun.outer = s.outer := by
  unfold State.cueRun
  rw [State.queueRequests_outer, State.cueRead_outer]

@[simp] theorem Progress.run_outer (x : Progress) : x.run.outer = x.state.outer := by
  cases x <;> simp [Progress.run]

@[simp] theorem State.cueBoundary_outer (k : Nat) (handed : ShowState) : (s.cueBoundary k handed).outer = s.outer := by
  have e : (((s.stagePass k).onCe fun c => { c with pageWait := false }).cueRead).outer = s.outer := by
    rw [State.cueRead_outer, State.onCe_outer]
    exact State.outer_of_aside (s.stagePass_aside k)
  unfold State.cueBoundary
  split <;> first | exact e | rfl

@[simp] theorem State.cueHold_aside : s.cueHold.aside = s.aside := rfl
@[simp] theorem State.cueResume_aside (d : Nat) : (s.cueResume d).aside = s.aside := rfl

@[simp] theorem State.cueReadDone_outer (bytes : List Byte) : (s.cueReadDone bytes).outer = s.outer := by
  unfold State.cueReadDone
  split
  · rfl
  · simp

@[simp] theorem State.cueWalkAnswer_outer (a : Answer) : (s.cueWalkAnswer a).outer = s.outer := by
  unfold State.cueWalkAnswer
  split
  · rfl
  · split
    · rfl
    · dsimp only
      split
      · split
        · simp
        · simp
      · rfl

@[simp] theorem State.cueTrigger_outer (n p : Nat) : (s.cueTrigger n p).outer = s.outer := by
  unfold State.cueTrigger
  split
  · rfl
  · split
    · rfl
    · dsimp only
      split
      · split
        · split
          · simp
          · rfl
        · rfl
      · split
        · split
          · simp
          · rfl
        · rfl
      · split
        · split
          · simp
          · rfl
        · rfl
      · rfl
      · rfl

@[simp] theorem State.cueGo_outer (n : Nat) : (s.cueGo n).outer = s.outer := by
  unfold State.cueGo
  dsimp only
  split <;> simp

/-! ## The audio unit's fills (spec/05) -/

@[simp] theorem State.fillAnswer_aside (f : AudioFill) (a : Answer) : (s.fillAnswer f a).aside = s.aside := by
  unfold State.fillAnswer
  split
  · rfl
  · split
    · simp
    · rfl
  all_goals rfl

@[simp] theorem State.fillLookup_aside (f : AudioFill) : (s.fillLookup f).1.aside = s.aside := s.lookup_aside _ _ _ _

@[simp] theorem State.fillLoop_aside (n : Nat) : (s.fillLoop n).aside = s.aside := by
  induction n generalizing s with
  | zero => rfl
  | succ n ih =>
    unfold State.fillLoop
    split
    · rfl
    · split
      · rfl
      · simp [ih]

@[simp] theorem State.fillSlots_aside : s.fillSlots.aside = s.aside := s.fillLoop_aside 128

@[simp] theorem State.considerFill_aside : s.considerFill.aside = s.aside := by simp [State.considerFill]

@[simp] theorem State.fillWalkAnswer_aside (a : Answer) : (s.fillWalkAnswer a).aside = s.aside := by
  unfold State.fillWalkAnswer
  split <;> simp

@[simp] theorem State.rowReadDone_aside (bytes : List Byte) : (s.rowReadDone bytes).aside = s.aside := by
  unfold State.rowReadDone
  split
  · split <;> simp
  · simp

@[simp] theorem State.answerDefinition_aside : s.answerDefinition.aside = s.aside := by
  unfold State.answerDefinition
  split
  · rfl
  · dsimp only
    split <;> rfl

@[simp] theorem State.takeVoiceAction_aside (x : Action) : (s.takeVoiceAction x).aside = s.aside := by
  unfold State.takeVoiceAction
  dsimp only
  split <;> simp

@[simp] theorem State.takeVoiceActions_aside (acts : List Action) : (s.takeVoiceActions acts).aside = s.aside := by
  induction acts generalizing s with
  | nil => rfl
  | cons x acts ih => exact (ih (s.takeVoiceAction x)).trans (s.takeVoiceAction_aside x)

@[simp] theorem State.lookAheadStep_aside : s.lookAheadStep.aside = s.aside := by simp [State.lookAheadStep]

@[simp] theorem State.auPass_aside (now k : Nat) (c : Int) (handed : ShowState) (entered resumed : Bool)
    (acts : List Action) : (s.auPass now k c handed entered resumed acts).aside = s.aside := by
  simp [State.auPass]

/-! ## Walks (spec/06) -/

@[simp] theorem State.serveAnswer_aside (id : Nat) (a : Answer) : (s.serveAnswer id a).aside = s.aside := by
  unfold State.serveAnswer
  split <;> rfl

@[simp] theorem State.serveLookup_aside (r : Serve) : (s.serveLookup r).1.aside = s.aside := s.lookup_aside _ _ _ _

theorem State.answerAsker_outer (ans : Answer) (a : Asker) : (s.answerAsker ans a).outer = s.outer := by
  unfold State.answerAsker
  split
  · simp
  · exact State.outer_of_aside (s.fillWalkAnswer_aside ans)
  · exact State.outer_of_aside (s.serveAnswer_aside _ ans)

theorem State.answerAfresh_outer (a : Asker) : (s.answerAfresh a).outer = s.outer := by
  unfold State.answerAfresh
  split
  · split
    · rw [State.cueWalkAnswer_outer]
      exact State.outer_of_aside (s.cueLookup_aside _)
    · rfl
  · split
    · refine State.outer_of_aside ?_
      simp
    · rfl
  · split
    · refine State.outer_of_aside ?_
      simp
    · rfl

theorem State.popMap_outer : s.popMap.outer = s.outer := State.outer_of_aside s.popMap_aside

@[simp] theorem State.walkDone_outer (w : Walk) (bytes : List Byte) : (s.walkDone w bytes).outer = s.outer := by
  unfold State.walkDone
  dsimp only
  split
  · rw [State.queueRequests_outer, foldl_keeps State.outer _ fun t a => t.answerAfresh_outer a, State.popMap_outer]
  · rw [foldl_keeps State.outer _ fun t a => t.answerAsker_outer _ a, State.onCm_outer, State.popMap_outer]

@[simp] theorem State.mapAccessDone_aside : s.mapAccessDone.aside = s.aside := by
  unfold State.mapAccessDone
  split
  · simp
  · split <;> simp
  · rfl

/-! ## The passes of a boundary -/

theorem State.takeSlate_outer (k : Nat) : (s.takeSlate k).outer = s.outer := rfl

theorem State.huPass_outer (now : Nat) (handed : ShowState) (jets : List Action) :
    (s.huPass now handed jets).outer = s.outer := State.outer_of_aside (s.huPass_aside now handed jets)

theorem State.auPass_outer (now k : Nat) (c : Int) (handed : ShowState) (entered resumed : Bool)
    (acts : List Action) : (s.auPass now k c handed entered resumed acts).outer = s.outer :=
  State.outer_of_aside (s.auPass_aside now k c handed entered resumed acts)

/-- The passes reach, outside the blocks they are of, the mute count alone (R1, R157). -/
theorem State.passes_outer (k bt : Nat) (c : Int) (handed : ShowState) (entered resumed : Bool) :
    (s.passes k bt c handed entered resumed).outer = (s.onLiu Liu.boundary).outer := by
  unfold State.passes
  simp only [State.queueRequests_outer, State.auPass_outer, State.onLu_outer, State.huPass_outer, State.takeSlate_outer,
    State.cueBoundary_outer]

/-- Work done at a boundary's reading leaves basin time as it found it (R1). -/
@[simp] theorem State.atReading_basinTime (bt : Nat) (f : State → State) :
    (s.atReading bt f).tbu.basinTime = s.tbu.basinTime := rfl

/-- Two works that leave the same outside leave the same outside at a boundary's reading. -/
theorem State.atReading_outer {f g : State → State} (h : ∀ x : State, (f x).outer = (g x).outer) (bt : Nat) :
    (s.atReading bt f).outer = (s.atReading bt g).outer := by
  have e : ∀ x : State, (x.onTbu fun t => { t with basinTime := s.tbu.basinTime }).outer =
      { x.outer with tbu := { x.outer.tbu with basinTime := s.tbu.basinTime } } := fun _ => rfl
  unfold State.atReading
  rw [e, e, h]

/-- The passes at a boundary's reading reach, outside the blocks they are of, the mute count alone. -/
theorem State.atReading_passes_outer (k bt : Nat) (c : Int) (handed : ShowState) (entered resumed : Bool) :
    (s.atReading bt fun x => x.passes k bt c handed entered resumed).outer = (s.onLiu Liu.boundary).outer :=
  s.atReading_outer (g := fun x => x.onLiu Liu.boundary)
    (fun x => State.passes_outer (s := x) k bt c handed entered resumed) bt
end

end Sys2Proof.Machine
end

