-- ==== Sys2Proof/Laws/Memory.lean ====
section
/-!
SUPPORT. The laws of sparse tables and of show memory (spec/07, R137): a read after a write, and the canonical form.
-/
namespace Sys2Proof.Machine

variable {α : Type}

/-! ## Tables -/

theorem Table.get?_put_same (t : List (Nat × α)) (k : Nat) (v : α) : Table.get? (Table.put t k v) k = some v := by
  induction t with
  | nil => simp [Table.put, Table.get?]
  | cons e rest ih =>
    obtain ⟨k', v'⟩ := e
    simp only [Table.put]
    split
    · simp [Table.get?]
    · split
      · simp [Table.get?]
      · simp only [Table.get?]
        rw [if_neg (by omega), if_neg (by omega), ih]

theorem Table.get?_put_other (t : List (Nat × α)) {k a : Nat} (v : α) (ne : a ≠ k) :
    Table.get? (Table.put t k v) a = Table.get? t a := by
  induction t with
  | nil => simp [Table.put, Table.get?, Ne.symm ne]
  | cons e rest ih =>
    obtain ⟨k', v'⟩ := e
    simp only [Table.put]
    split
    · simp only [Table.get?]
      rw [if_neg (Ne.symm ne)]
      split
      · rw [if_neg (by omega), if_pos (by omega)]
      · rfl
    · split
      · subst_vars
        simp only [Table.get?]
        rw [if_neg (Ne.symm ne), if_neg (Ne.symm ne)]
      · simp only [Table.get?]
        rw [ih]

theorem Table.get?_below {t : List (Nat × α)} {l a : Nat} (h : Table.risesFrom (some l) t = true) (le : a ≤ l) :
    Table.get? t a = none := by
  cases t with
  | nil => rfl
  | cons e rest =>
    obtain ⟨k', v'⟩ := e
    simp only [Table.risesFrom, Bool.and_eq_true, decide_eq_true_eq] at h
    simp only [Table.get?]
    rw [if_neg (by omega), if_pos (by omega)]

theorem Table.risesFrom_lower {t : List (Nat × α)} {l l' : Nat} (h : Table.risesFrom (some l) t = true) (le : l' ≤ l) :
    Table.risesFrom (some l') t = true := by
  cases t with
  | nil => rfl
  | cons e rest =>
    simp only [Table.risesFrom, Bool.and_eq_true, decide_eq_true_eq] at h ⊢
    exact ⟨by omega, h.2⟩

theorem Table.risesFrom_none {t : List (Nat × α)} {l : Nat} (h : Table.risesFrom (some l) t = true) :
    Table.risesFrom none t = true := by
  cases t with
  | nil => rfl
  | cons e rest =>
    simp only [Table.risesFrom, Bool.and_eq_true] at h ⊢
    exact ⟨trivial, h.2⟩

theorem Table.risesFrom_tail {lo : Option Nat} {k : Nat} {v : α} {rest : List (Nat × α)}
    (h : Table.risesFrom lo ((k, v) :: rest) = true) : Table.risesFrom (some k) rest = true := by
  simp only [Table.risesFrom, Bool.and_eq_true] at h
  exact h.2

theorem Table.risesFrom_put {t : List (Nat × α)} {lo : Option Nat} (k : Nat) (v : α)
    (h : Table.risesFrom lo t = true) (hk : ∀ l, lo = some l → l < k) :
    Table.risesFrom lo (Table.put t k v) = true := by
  induction t generalizing lo with
  | nil =>
    cases lo with
    | none => rfl
    | some l => simp [Table.put, Table.risesFrom, hk l rfl]
  | cons e rest ih =>
    obtain ⟨k', v'⟩ := e
    have tail := Table.risesFrom_tail h
    simp only [Table.put]
    split
    · rename_i lt
      simp only [Table.risesFrom, Bool.and_eq_true, decide_eq_true_eq]
      refine ⟨?_, lt, tail⟩
      cases lo with
      | none => rfl
      | some l => simpa using hk l rfl
    · split
      · rename_i eq
        subst eq
        simpa only [Table.risesFrom] using h
      · simp only [Table.risesFrom, Bool.and_eq_true] at h ⊢
        refine ⟨h.1, ih tail ?_⟩
        intro l e
        cases e
        omega

theorem Table.risesFrom_drop {t : List (Nat × α)} {lo : Option Nat} (k : Nat) (h : Table.risesFrom lo t = true) :
    Table.risesFrom lo (Table.drop t k) = true := by
  induction t generalizing lo with
  | nil => exact h
  | cons e rest ih =>
    obtain ⟨k', v'⟩ := e
    have tail := Table.risesFrom_tail h
    simp only [Table.drop]
    split
    · exact h
    · split
      · cases lo with
        | none => exact Table.risesFrom_none tail
        | some l =>
          simp only [Table.risesFrom, Bool.and_eq_true, decide_eq_true_eq] at h
          exact Table.risesFrom_lower tail (by omega)
      · simp only [Table.risesFrom, Bool.and_eq_true] at h ⊢
        exact ⟨h.1, ih tail⟩

theorem Table.get?_drop_same {t : List (Nat × α)} {lo : Option Nat} (k : Nat) (h : Table.risesFrom lo t = true) :
    Table.get? (Table.drop t k) k = none := by
  induction t generalizing lo with
  | nil => rfl
  | cons e rest ih =>
    obtain ⟨k', v'⟩ := e
    have tail := Table.risesFrom_tail h
    simp only [Table.drop]
    split
    · simp only [Table.get?]
      rw [if_neg (by omega), if_pos (by omega)]
    · split
      · exact Table.get?_below tail (by omega)
      · simp only [Table.get?]
        rw [if_neg (by omega), if_neg (by omega), ih tail]

theorem Table.get?_drop_other {t : List (Nat × α)} {lo : Option Nat} {k a : Nat} (h : Table.risesFrom lo t = true)
    (ne : a ≠ k) : Table.get? (Table.drop t k) a = Table.get? t a := by
  induction t generalizing lo with
  | nil => rfl
  | cons e rest ih =>
    obtain ⟨k', v'⟩ := e
    have tail := Table.risesFrom_tail h
    simp only [Table.drop]
    split
    · rfl
    · split
      · simp only [Table.get?]
        rw [if_neg (by omega)]
        split
        · exact Table.get?_below tail (by omega)
        · rfl
      · simp only [Table.get?]
        rw [ih tail]

theorem Table.mem_put {t : List (Nat × α)} {k : Nat} {v : α} {e : Nat × α} (h : e ∈ Table.put t k v) :
    e = (k, v) ∨ e ∈ t := by
  induction t with
  | nil => simpa [Table.put] using h
  | cons e' rest ih =>
    obtain ⟨k', v'⟩ := e'
    simp only [Table.put] at h
    split at h
    · simpa using h
    · split at h
      · simp only [List.mem_cons] at h ⊢
        exact h.imp id .inr
      · simp only [List.mem_cons] at h ⊢
        rcases h with h | h
        · exact .inr (.inl h)
        · exact (ih h).imp id .inr

theorem Table.mem_drop {t : List (Nat × α)} {k : Nat} {e : Nat × α} (h : e ∈ Table.drop t k) : e ∈ t := by
  induction t with
  | nil => exact h
  | cons e' rest ih =>
    obtain ⟨k', v'⟩ := e'
    simp only [Table.drop] at h
    split at h
    · exact h
    · split at h
      · exact .tail _ h
      · simp only [List.mem_cons] at h ⊢
        exact h.imp id ih

/-! ## Show memory -/

theorem Memory.wf_iff (m : List Host.Cell) :
    Memory.wf m = true ↔ Table.risesFrom none m = true ∧ ∀ c ∈ m, c.2 ≠ Memory.unlisted := by
  simp [Memory.wf]

/-- A write keeps the canonical form. -/
theorem Memory.wf_write {m : List Host.Cell} (h : Memory.wf m = true) (a : Nat) (b : Byte) :
    Memory.wf (Memory.write m a b) = true := by
  rw [Memory.wf_iff] at h ⊢
  unfold Memory.write
  split
  · exact ⟨Table.risesFrom_drop a h.1, fun c hc => h.2 c (Table.mem_drop hc)⟩
  · refine ⟨Table.risesFrom_put a b h.1 (by simp), fun c hc => ?_⟩
    rcases Table.mem_put hc with rfl | hc
    · assumption
    · exact h.2 c hc

/-- A masked write of a range keeps the canonical form. -/
theorem Memory.wf_writeRange {m : List Host.Cell} (h : Memory.wf m = true) (a : Nat) (bs : List (Option Byte)) :
    Memory.wf (Memory.writeRange m a bs) = true := by
  induction bs generalizing m a with
  | nil => exact h
  | cons b rest ih =>
    cases b with
    | none => exact ih h _
    | some b => exact ih (Memory.wf_write h a b) _

/-- A read gives what was written. -/
theorem Memory.read_write_same {m : List Host.Cell} (h : Memory.wf m = true) (a : Nat) (b : Byte) :
    Memory.read (Memory.write m a b) a = b := by
  rw [Memory.wf_iff] at h
  unfold Memory.read Memory.write
  split
  · rw [Table.get?_drop_same a h.1]
    exact (‹b = _›).symm
  · rw [Table.get?_put_same]
    rfl

/-- A write leaves every other byte. -/
theorem Memory.read_write_other {m : List Host.Cell} (h : Memory.wf m = true) {a x : Nat} (b : Byte) (ne : x ≠ a) :
    Memory.read (Memory.write m a b) x = Memory.read m x := by
  rw [Memory.wf_iff] at h
  unfold Memory.read Memory.write
  split
  · rw [Table.get?_drop_other h.1 ne]
  · rw [Table.get?_put_other m b ne]

/-- A masked write of a range leaves every byte outside it. -/
theorem Memory.read_writeRange_outside {m : List Host.Cell} (h : Memory.wf m = true) {a x : Nat}
    (bs : List (Option Byte)) (out : x < a ∨ a + bs.length ≤ x) :
    Memory.read (Memory.writeRange m a bs) x = Memory.read m x := by
  induction bs generalizing m a with
  | nil => rfl
  | cons b rest ih =>
    simp only [List.length_cons] at out
    cases b with
    | none => exact ih h (by omega)
    | some b =>
      show Memory.read (Memory.writeRange (Memory.write m a b) (a + 1) rest) x = _
      rw [ih (Memory.wf_write h a b) (by omega), Memory.read_write_other h b (by omega)]

/-- A masked write of a range puts each byte under the mask, and leaves the others (R137). -/
theorem Memory.read_writeRange_inside {m : List Host.Cell} (h : Memory.wf m = true) {a i : Nat}
    (bs : List (Option Byte)) (hi : i < bs.length) :
    Memory.read (Memory.writeRange m a bs) (a + i) = (bs[i]).getD (Memory.read m (a + i)) := by
  induction bs generalizing m a i with
  | nil => simp at hi
  | cons b rest ih =>
    simp only [List.length_cons] at hi
    cases i with
    | zero =>
      cases b with
      | none => exact Memory.read_writeRange_outside h rest (by omega)
      | some b =>
        show Memory.read (Memory.writeRange (Memory.write m a b) (a + 1) rest) (a + 0) = _
        rw [Memory.read_writeRange_outside (Memory.wf_write h a b) rest (by omega)]
        exact Memory.read_write_same h a b
    | succ i =>
      have e : a + (i + 1) = a + 1 + i := by omega
      cases b with
      | none =>
        show Memory.read (Memory.writeRange m (a + 1) rest) (a + (i + 1)) = _
        rw [e, ih h (by omega)]
        simp
      | some b =>
        show Memory.read (Memory.writeRange (Memory.write m a b) (a + 1) rest) (a + (i + 1)) = _
        rw [e, ih (Memory.wf_write h a b) (by omega), Memory.read_write_other h b (by omega)]
        simp

/-- Show memory after reset is in canonical form. -/
theorem State.reset_memory_wf : Memory.wf State.reset.smc.mem = true := rfl

end Sys2Proof.Machine
end

