-- ==== Sys2Proof/Tests/Slice0.lean ====
section
/-!
SUPPORT. The model's own tests: ill-formed commands refused, the worked sequences of the manual, and for each statement a
state and operands that meet its hypotheses.
-/
namespace Sys2Proof.Tests

set_option Elab.async false

open Sys2Proof Sys2Proof.Machine

/-! ## Well-formedness -/

theorem test_wf_record_too_long : (Instr.configReadComplete (List.replicate 257 0)).wellFormed = false := by decide +kernel
theorem test_wf_chunk_short :
    (Instr.pageData 3 { showId := 1, segment := 2, page := 0, chunk := 0, data := [0] }).wellFormed = false := by decide +kernel
theorem test_wf_reply_short : (Instr.statusReply 3 [1, 2]).wellFormed = false := by decide
theorem test_wf_known_selector : (Instr.statusQueryUnknownSelector 3 4 5 0).wellFormed = false := by decide
theorem test_wf_rival_class7 : (Instr.transmitStart [224]).wellFormed = false := by decide
theorem test_wf_elapsed : (Instr.beacon 3 ⟨0, 0, 0, 0, 0, 0, 0, 0, 0, 0⟩ 30).wellFormed = false := by decide
theorem test_wf_input : (Instr.frameBoundary { loop := 65536, pulses := 0 }).wellFormed = false := by decide

/-- A STOP_ASSERT of position 3 with nothing wrong is no discarded frame (R159). -/
theorem test_wf_good_frame_not_discarded :
    (Instr.frameDiscarded (frameLevels 3 0 [])).wellFormed = false := by decide +kernel

/-- Six dominant levels from the start delimiter on are a stuff violation (R151). -/
theorem test_stuff_violation :
    checkFrame [false, false, false, false, false, false] = .discarded .stuffViolation := by decide

theorem test_wf_violation : (Instr.frameDiscarded [false, false, false, false, false, false]).wellFormed = true := by
  decide

/-! ## Figures of the manual's worked sequences -/

/-- spec/04, "Fade arithmetic". -/
theorem test_fade_up :
    [1, 2, 3, 4].map (fun j => lerp 0 65535 j 4) = [16383, 32767, 49151, 65535] := by decide
theorem test_fade_down : [1, 2, 3].map (fun j => lerp 65535 0 j 3) = [43690, 21845, 0] := by decide

/-- spec/04, "Output of one fixture". -/
theorem test_outputs :
    [0, 257, 16448, 32896, 65535, 16383, 4112].map
        (outputValue { present := true, floor := 1200, trim := 60 } 16423 false) =
      [0, 1325, 9292, 17385, 33443, 9259, 3222] := by decide
theorem test_output_exposed :
    outputValue { present := true, floor := 1200, trim := 60 } 16423 true 65535 = 0 := by decide

/-- spec/04 and spec/05: the factor of 6.0 dB; and no attenuation. -/
theorem test_factor_60 : dbFactor 60 = 16423 := by decide +kernel
theorem test_factor_0 : dbFactor 0 = 32768 := by decide +kernel

/-- spec/01, "Convergence at three beacon boundaries". -/
theorem test_median_odd : lowerMedian [0, -3, 11, 14, 22] = some 11 := by decide
theorem test_median_even : lowerMedian [0, 1, -12, 2] = some 0 := by decide
theorem test_correction_clamped : correctionFor { slew := 8 } .running 11 = 8 := by decide

/-- spec/03, "Worked case: one jet against the share". -/
def jet0 : PumpParams :=
  { present := true, hmax := 2400, dmin := 1400, prated := 18500, latency := 400, rampUp := 256 }
def wind60 : Params := { w0 := 40, slope := 8, hcut := 300 }
theorem test_derated : deratedHeight wind60 jet0 .derate 60 1600 = 1344 := by decide
theorem test_drive : driveFor jet0 1344 = 3065 := by decide +kernel
theorem test_rise : riseMs 1344 = 1655 := by decide +kernel
theorem test_lead : leadTicks jet0 1344 = 98640 := by decide +kernel
theorem test_power : power jet0 3065 = 7751 := by decide +kernel
theorem test_share : feedShare 54000 7751 77751 = 5383 := by decide +kernel
theorem test_scaled : (power jet0 (3065 * 907 / 1024), power jet0 (3065 * 908 / 1024)) = (5381, 5399) := by decide +kernel
theorem test_settled : heightAt jet0 2714 = 1053 := by decide

/-- One RUNNING pump against that share: f = 907, t = 2714 (stage 8). -/
def jetHu : Hu :=
  { pumps := (Vector.replicate 8 ({} : Pump)).set 0 { state := .running, requested := 3065, actual := 2200 }
    share := 5383 }
def jetParams : Params := { pumps := (Vector.replicate 8 ({} : PumpParams)).set 0 jet0 }
theorem test_scale_factor :
    ((jetHu.scaleTargets jetParams).scale, ((jetHu.scaleTargets jetParams).pump 0).committed) = (907, 2714) := by
  decide +kernel

/-- spec/05, "The sample pick in a correction frame": offsets 121 at i = 120 for c = +8, 118 at i = 119 for c = -8. -/
theorem test_pick_forward :
    ({ correction := some { base := 960001920, c := 8, i := 120 } } : Au).tau 960002040 = 960002041 := by decide
theorem test_pick_back :
    ({ correction := some { base := 960001920, c := -8, i := 119 } } : Au).tau 960002039 = 960002038 := by decide

/-- spec/05, "One output pair". -/
theorem test_mixer : mixOne true 32768 (shr15 (20000 * 16423)) (shr15 (-12000 * 32768)) = -198 := by decide
theorem test_mixer_saturates : mixOne false 32768 30000 10000 = 32767 := by decide

/-- spec/05, "Filling the cache for two voices". -/
theorem test_home_slots : ((homeSlot 40 0).val, (homeSlot 41 0).val) = (8, 13) := by decide
theorem test_sample_count : sampleCount .stereo 1048576 = 262144 := by decide
theorem test_block_of_sample : (blockOf .stereo 1023, blockOf .stereo 1024) = (0, 1) := by decide

/-- spec/07, "Worked sequence": block 2 of page 60, and map region byte 12,300. -/
theorem test_place_fill : placeOf 60 (2 * 4096) = { bank := 0, row := 62, col := 0 } := by decide
theorem test_place_walk : (mapPlace (16 * ((2048 + 4 * pageKey 40 3) / 16))).row = 3 := by decide
theorem test_address_inverse : addressOf (placeOf 60 8200).bank (placeOf 60 8200).row (placeOf 60 8200).col
    = 16384 * 60 + 8200 := by decide

/-- spec/08, "Three stations contending". -/
theorem test_arbitration : ((arbByte 1 3).toNat, (arbByte 2 6).toNat, (arbByte 2 11).toNat) = (35, 70, 75) := by decide

/-- spec/10, "Readings from the sensors". -/
theorem test_level : (levelOfLoop { levelZero := 20, levelSpan := 300 } 9200,
    levelOfLoop { levelZero := 20, levelSpan := 300 } 3800) = (117, 20) := by decide
theorem test_wind : (Biu.sampleWind { windFitted := true, windFactor := 25 } 20
    { windWindow := List.replicate 49 8 }).wind = 103 := by decide

/-! ## A station at work -/

/-- A pump wired to jet 0. -/
def onePump : Params :=
  { pumps := (Vector.replicate 8 ({} : PumpParams)).set 0 { jet0 with allowance := 6000, rest := 1, minRun := 1 }
    feedLimit := 54000, levelFitted := true, windFitted := true }

/-- Position 7, up, its configuration valid, at basin time `bt` in frame `k`. -/
def station (bt k : Nat) (st : ShowState) : State :=
  { tbu := { basinTime := bt, frameNo := k, state := st }
    biu := { levelState := .normal }
    st := { phase := .up, cold := false, position := 7, params := onePump, valid := true, configured := true } }

/-- spec/01, "GO arriving late": 60 frames late it runs, 101 frames late it is ignored. -/
def goState (k : Nat) : State :=
  { station (k * 960) k .idle with
    cm := { showId := 3, dir := [(5, { showId := 3, kind := .cue, length := 256, owner := 7 })] } }

def goAt (k : Nat) : Option (ShowState × Option Nat) :=
  match exec (.go 3 3 172800000) (goState k) with
  | .next t => some (t.tbu.state, t.tbu.segBase)
  | _ => none

theorem test_go_in_time : goAt 179990 = some (.armed, some 172800000) := by decide +kernel
theorem test_go_late : goAt 180060 = some (.running, some 172800000) := by decide +kernel
theorem test_go_too_late : goAt 180101 = some (.idle, none) := by decide +kernel

/-- spec/01, "A show held and resumed": the hold at frame 180,301 and the resume at frame 180,600. -/
def heldShow : State :=
  { station 173376000 180599 .held with
    tbu := { basinTime := 173376000, frameNo := 180599, state := .held, segBase := some 172800000,
             hold := { th := some 173088500, boundary := some 173088960, tr := some 173376000 } }
    ce := { queue := [{ deed := .jet 0 100 0, dispatch := 173100000, order := 0, index := 1 }] } }

theorem test_resume_shift :
    (match exec (.resumeBoundary { loop := 0, pulses := 0 }) heldShow with
      | .next t => some (t.tbu.state, t.tbu.segBase, t.ce.queue.map (·.dispatch))
      | _ => none) = some (.running, some 173087040, [173387040]) := by decide +kernel

/-- spec/03, "Worked case": drive 2456 at boundary k, and the arrival record SET at boundary k + 2. -/
def rampedTo (n : Nat) : Nat × Arrival :=
  let p : Pump := { state := .running, requested := 3065, committed := 2714, actual := 2200, arrival := .pending }
  let q := Nat.repeat (fun x : Nat × Pump => (x.1 + 1, (x.2.ramp jet0).arrive jet0 (x.1 * 960))) n (1000, p)
  (q.2.actual, q.2.arrival)
theorem test_ramp_first : rampedTo 1 = (2456, .pending) := by decide +kernel
theorem test_ramp_arrives : rampedTo 3 = (2714, .set (1000 * 960 + 72240) 1053) := by decide +kernel

/-! ## States that meet the hypotheses of the statements -/

/-- A boundary's input with sound current and some wind. -/
def sea : BoundaryInput := { loop := 9200, pulses := 8 }

/-- A configuration record with the given bytes at the given places, its version 1 and its check word made to fit. -/
def recordOf (put : List (Nat × Byte)) : List Byte :=
  let body := put.foldl (fun l x => l.set x.1 x.2) ((List.replicate 254 (0 : Byte)).set 0 1)
  body ++ beBytes 2 (65535 - wordSum (body ++ [0, 0]) % 65536)

theorem test_record_valid : recordValid (recordOf [(4, 1), (5, 224), (6, 48), (7, 1), (8, 244)]) = true := by
  decide +kernel

theorem test_w_StepRunsFrontCommand : State.reset.pending = [] := rfl

/-- Power up, the strap read, the configuration not yet. -/
def readingState : State := { State.reset with st := { phase := .reading, position := 7 } }

/-- The configuration read again after a warm reset: page 0 of segment 40 is FILLING on physical page 4, page 1 PRESENT. -/
def warmState : State :=
  { readingState with
    st := { phase := .reading, position := 7, cold := false }
    cm := { dir := [(40, { showId := 3, kind := .stereo, length := 20000, owner := 0 })]
            pages := [(2560, ⟨.filling, 4⟩), (2561, ⟨.present, 5⟩)], taken := [4, 5], showId := 3, init := .left 0 } }

theorem test_w_ConfigurationTaken :
    readingState.st.phase = .reading ∧ readingState.st.cold = true ∧ warmState.st.phase = .reading ∧
      warmState.st.cold = false ∧ warmState.tablesCanonical ∧ warmState.cm.init ≠ .waiting ∧
      warmState.cm.pageState 40 0 = .filling := by
  unfold State.tablesCanonical; decide +kernel

/-- The FILLING page is ABSENT again and its write of block 32 + 160 queued, the PRESENT page kept. -/
theorem test_warm_tables :
    (match exec (.configReadComplete (recordOf [])) warmState with
      | .next t => some (t.cm.pageState 40 0, t.cm.pageState 40 1, t.cm.taken, t.cm.writesQueued.map (·.block))
      | _ => none) = some (.absent, .present, [5], [192]) := by decide +kernel

/-- Values at the top of their ranges, and one above. -/
theorem test_w_TimebaseParametersClamped :
    let top := recordOf [(4, 1), (5, 224), (6, 48), (7, 1), (8, 244)]
    let above := recordOf [(4, 1), (5, 225), (6, 49), (7, 1), (8, 245)]
    recordValid top = true ∧ field top 4 2 = 480 ∧ recByte top 6 = 48 ∧ field top 7 2 = 500 ∧
      recordValid above = true ∧ 480 < field above 4 2 ∧ 48 < recByte above 6 ∧ 500 < field above 7 2 := by
  decide +kernel

/-- Up in IDLE one tick before the boundary of frame 11, and at it; frame 12 is the own beacon frame of position 7. -/
def before11 : State := station 10559 10 .idle
def at11 : State := station 10560 10 .idle
def at12 : State := station 11520 11 .idle

/-- A peer heard at position 3, its sample 11. -/
def peer11 : Peer :=
  { fresh := true, age := 0, role := 0, stamp := 0, arrival := 0, sample := some 11, state := 2, showId := 0,
    index := 0, demand := 70000, share := 0, wind := none, level := none, flags := 0 }

def held : State := { State.reset with st := { phase := .pinHeld, position := 7 } }

theorem test_w_ResetPointQuietsOutputs :
    at11.powered = true ∧ at11.hears 3 ∧ (7 : Byte).toNat = at11.own.val ∧ (6 : Byte).toNat ≠ at11.own.val ∧
      held.st.phase = .pinHeld := by decide +kernel

theorem test_w_BoundaryMarksNextFrame :
    before11.boundaryDue = false ∧ at11.st.phase = .up ∧ at11.boundaryDue = true ∧
      at11.ownBeaconFrame (at11.tbu.frameNo + 1) = false ∧
      ({ readingState with tbu := { basinTime := 960 } } : State).live = false ∧
      ({ readingState with tbu := { basinTime := 960 } } : State).boundaryDue = true := by decide +kernel

/-- The slew in a show, the whole median outside one. -/
theorem test_w_OwnBeaconBoundaryCorrects :
    at12.st.phase = .up ∧ at12.boundaryDue = true ∧ at12.ownBeaconFrame (at12.tbu.frameNo + 1) = true ∧
      at12.tbu.state.bearing = false ∧ (station 11520 11 .running).tbu.state.bearing = true ∧
      (station 11520 11 .running).params.slew ≤ 48 := by decide +kernel

/-- spec/01, R4 to R6: a sample of 11 and own 0 have the lower median 0; with own 0 and two samples of 11 the correction is
11, which takes both to 0 and the stamp of a reception from 11,000 to 11,011. -/
theorem test_samples_move :
    (let s : State := { at12 with
       pt := { peers := ((Vector.replicate 32 none).set 3 (some peer11)).set 5 (some peer11) }
       liu := { rxStamp := some 11000 } }
     match exec (.frameBoundary { loop := 0, pulses := 0 }) s with
      | .next t => some (t.tbu.lastCorrection, t.pt.peers[(3 : Fin 32)].bind fun p => p.sample, t.liu.rxStamp)
      | _ => none) = some (11, some 0, some 11011) := by decide +kernel

/-- R7 at its thresholds: set above 960, kept above 480, clear at 480. -/
theorem test_out_of_step :
    [961, 960, 481, 480].map (fun m => outOfStepAfter .running m false) = [true, false, false, false] ∧
      [961, 960, 481, 480].map (fun m => outOfStepAfter .running (-m) true) = [true, true, true, false] ∧
      outOfStepAfter .idle 961 true = false := by decide

def listening : State :=
  { State.reset with tbu := { basinTime := 960, frameNo := 0 }
                     st := { phase := .listening, cold := true, position := 7, listen := 14, configured := true } }

/-- The same with one sample of 11 stored. -/
def listeningTo3 : State := { listening with pt := { peers := (Vector.replicate 32 none).set 3 (some peer11) } }

theorem test_listen_step :
    (match exec (.listenEnd { loop := 0, pulses := 0 }) listeningTo3 with
      | .next t => some (t.tbu.basinTime, t.tbu.frameNo, t.pt.peers[(3 : Fin 32)].bind fun p => p.sample)
      | _ => none) = some (971, 1, some 0) := by decide +kernel

/-- A reception begun 10 ticks before basin time is set to 0 (R9) is stamped -10 by its recorded start and by its elapsed
ticks alike. -/
theorem test_listen_zero :
    (match exec (.listenEnd { loop := 0, pulses := 0 }) { listening with liu := { rxStamp := some 950 } } with
      | .next t => some (t.tbu.basinTime, t.frameStamp 0, ({ t with liu := {} } : State).frameStamp 10)
      | _ => none) = some (0, -10, -10) := by decide +kernel

theorem test_w_CountedBoundariesEnd :
    (listeningTo3.st.phase = .listening ∧ listeningTo3.st.listen = 14 ∧ listeningTo3.boundaryDue = true ∧
      lowerMedian listeningTo3.pt.storedSamples = some 11 ∧ listeningTo3.pt.windSource = none ∧
      listeningTo3.pt.levelSource = none ∧ listeningTo3.biu.levelState = .dry ∧
      listeningTo3.ownBeaconFrame (listeningTo3.tbu.frameNo + 1) = false) ∧
    listening.st.phase = .listening ∧ listening.st.listen = 14 ∧ listening.boundaryDue = true ∧
      listening.tbu.state = .standby ∧ listening.biu.stopActive = false ∧
      listening.pt.peers = Vector.replicate 32 none ∧ listening.st.cold = true ∧
      (let s : State := { at11 with tbu := { at11.tbu with state := .warmup, warmup := 7 } }
       s.live = true ∧ s.boundaryDue = true ∧ s.tbu.state = .warmup ∧ s.tbu.warmup = 7) ∧
      (let s : State := { at11 with liu := { mute := 1 } }
       s.live = true ∧ s.boundaryDue = true ∧ s.liu.mute = 1) := by decide +kernel

/-- Th exactly at the boundary. -/
theorem test_w_HoldEntered :
    let s : State := { station 10560 10 .running with
      tbu := { basinTime := 10560, frameNo := 10, state := .running, segBase := some 0, hold := { th := some 10560 } } }
    s.atBoundary ∧ s.tbu.state = .running ∧ s.tbu.hold.th = some 10560 ∧ 10560 ≤ s.nextBoundary ∧
      s.ce.endDue (s.tbu.basinTime + s.params.slew) = false := by decide +kernel

theorem test_w_ResumeShiftsShow :
    heldShow.atBoundary ∧ heldShow.tbu.state = .held ∧ heldShow.tbu.hold.tr = some 173376000 ∧
      heldShow.tbu.hold.boundary = some 173088960 ∧ heldShow.tbu.segBase = some 172800000 ∧
      173376000 ≤ heldShow.nextBoundary ∧ heldShow.ce.readState ≠ .reading ∧ heldShow.ce.readState ≠ .scanning ∧
      (heldShow.ce.queue.any fun a => a.deed == .endShow) = false ∧
      (let s : State := { heldShow with ce := { heldShow.ce with readState := .reading, pos := some ⟨5, 64⟩ } }
       s.atBoundary ∧ s.ce.readState = .reading ∧ s.ce.queue.all (fun a => a.deed != .endShow) = true) ∧
      (let s : State := { heldShow with
         ce := { queue := [{ deed := .endShow, dispatch := 173088960, order := 0, index := 1 }] } }
       s.atBoundary ∧ s.tbu.state = .held ∧
         173088960 + (s.nextBoundary - 173088960) ≤ s.nextBoundary) := by decide +kernel

theorem test_w_EndingCompletes :
    let s := station 10560 10 .ending
    s.atBoundary ∧ s.tbu.state = .ending ∧ (∀ n : Channel, (s.hu.pump n).state = .off ∨
      (s.hu.pump n).state = .resting ∨ (s.hu.pump n).state = .locked) ∧
      (∀ n : Fin 48, s.lu.channels[n].fade ≤ s.lu.channels[n].elapsed) ∧ s.au.a.state = .idle ∧
      s.au.b.state = .idle := by decide +kernel

/-- The station at the boundary of frame 11 with pump 0 as given, its feedback as given. -/
def withPump (p : Pump) (fb : Bool) : State :=
  { station 10560 10 .running with
    hu := { pumps := (Vector.replicate 8 ({} : Pump)).set 0 p, share := 54000, spacing := 0 }
    biu := { levelState := .normal, feedback := (Vector.replicate 8 false).set 0 fb } }

/-- Nothing wrong at the boundary: the readings stay as they are. -/
def calm : BoundaryInput := { loop := 0, pulses := 0 }

theorem test_w_PumpEventsAtBoundary :
    (withPump {} true).atBoundary ∧ (withPump {} true).levelSteady calm ∧
      (withPump {} true).params.pumps[(0 : Channel)].present = true ∧
      (let p := (withPump { state := .resting, restCount := 1 } true).hu.pump 0
       p.state = .resting ∧ p.restCount ≤ 1) ∧
      (let s := withPump { state := .starting, softCount := 100 } true
       (s.hu.pump 0).state = .starting ∧ s.params.pumps[(0 : Channel)].soft ≤ (s.hu.pump 0).softCount ∧
         s.biu.feedback[(0 : Channel)] = true) ∧
      (withPump { state := .starting, softCount := 100 } false).biu.feedback[(0 : Channel)] = false ∧
      (let s := withPump { state := .running, runCount := 49 } true
       (s.hu.pump 0).runCount + 1 = s.params.pumps[(0 : Channel)].minRun * 50) ∧
      (let s := withPump { state := .running, absence := 24 } false
       (s.hu.pump 0).absence = 24 ∧ s.biu.feedback[(0 : Channel)] = false) ∧
      (let s := withPump { state := .stopping, actual := 128 } true
       (s.hu.pump 0).actual ≤ s.params.pumps[(0 : Channel)].rampDown) ∧
      (match exec (.minimumRunEnd 0 calm) (withPump { state := .running, runCount := 49, actual := 128 } true) with
        | .next t => some (t.hu.pump 0).requested
        | _ => none) = some 0 := by decide +kernel

/-- spec/03, R64 and R65: a zero target stops the pump at the end of its minimum run, and from a drive of 128 it is at 0 in
the same pass; STOPPING_DRIVE_ZERO is that boundary. From 129 it is not. -/
theorem test_stops_within_the_pass :
    [128, 129].map (fun a =>
        match exec (.stoppingDriveZero 0 calm) (withPump { state := .running, runCount := 49, actual := a } true) with
        | .next t => some ((t.hu.pump 0).state, t.tbu.frameNo)
        | _ => none) = [some (.resting, 11), some (.running, 10)] := by decide +kernel

/-- spec/03, R71 and R62: an unlocked pump rests before it expires; a count of 2 does not expire, one of 1 does. -/
theorem test_rest_expires :
    [2, 1].map (fun n =>
        match exec (.restExpiry 0 calm) (withPump { state := .resting, restCount := n } true) with
        | .next t => some ((t.hu.pump 0).state, t.tbu.frameNo)
        | _ => none) = [some (.resting, 10), some (.off, 11)] := by decide +kernel

theorem test_w_ReadingsBecomeValidAndCutoutEnds :
    (let s : State := { at11 with biu := { levelCount := 9 } }
     s.live = true ∧ s.boundaryDue = true ∧ s.params.levelFitted = true ∧ s.biu.levelValid = false ∧
       s.biu.levelCount = 9 ∧ 3600 ≤ ({ loop := 3600, pulses := 0 } : BoundaryInput).loop) ∧
      (let s : State := { at11 with biu := { windWindow := List.replicate 49 8 } }
       s.params.windFitted = true ∧ s.biu.windWindow.length = 49) ∧
      (let s : State := { at11 with biu := { windState := .cutout, quiet := 499, effWind := 99 } }
       s.atBoundary ∧ s.windSteady calm ∧ s.biu.windState = .cutout ∧ s.biu.quiet = 499 ∧
         s.biu.effWind < max 1 (s.params.wcut - s.params.windHyst)) := by decide +kernel

/-- At the boundary the level is that of a sound frame and the window holds 50 counts. -/
theorem test_level_becomes_valid :
    (match exec (.levelReadingValid sea) { at11 with biu := { levelCount := 9 } } with
      | .next t => some (t.biu.levelValid, t.biu.level)
      | _ => none) = some (true, (9200 - 4000) * 400 / 16000) := by decide +kernel

/-! ### Control frames and the show -/

theorem test_w_WakeStandbyClearHalt :
    (let s := station 10000 10 .standby
     s.hears 3 ∧ s.tbu.state = .standby ∧ s.st.valid = true ∧ s.tbu.conflict = false) ∧
      ((station 10000 10 .standby).tbu.state ≠ .idle ∧ at11.tbu.state ≠ .standby ∧ at11.tbu.state ≠ .halted) ∧
      (at11.hears 3 ∧ at11.tbu.state = .idle) ∧
      (let s : State := { at11 with tbu := { at11.tbu with state := .halted, lastStop := some ⟨8, 2⟩ } }
       s.hears 3 ∧ s.tbu.state = .halted ∧ s.biu.stopActive = false ∧ s.tbu.conflict = false ∧
         (s.tbu.lastStop.all fun x => decide (2 ≤ x.boundaries)) = true) ∧
      (let s : State := { at11 with tbu := { at11.tbu with state := .halted, lastStop := some ⟨9, 1⟩ } }
       s.hears 3 ∧ (s.tbu.lastStop.any fun x => decide (x.boundaries < 2)) = true) := by decide +kernel

theorem test_w_ContentFramesTakenIn :
    at11.hears 3 ∧ at11.tbu.state = .idle ∧ (station 10000 10 .running).tbu.state ≠ .idle ∧
      (station 10000 10 .running).tbu.state ≠ .standby ∧ at11.cm.intake.length < 4 ∧
      (let s : State := { at11 with cm := { intake := List.replicate 4 (.select 1) } }
       s.hears 3 ∧ 4 ≤ s.cm.intake.length) ∧
      (({ serves := [⟨5, 40, 0, 9, .delay 3⟩] } : Cm).serves.map fun r => r.id).Nodup := by decide +kernel

/-- At the last frame of the late window, and one past it. -/
theorem test_w_GoTaken :
    (let s := goState 180100
     s.hears 3 ∧ s.tbu.state = .idle ∧ s.tbu.lastGo ≠ some (172800000 : BitVec 48).toNat ∧
       (3 : Byte).toNat = s.cm.showId ∧ s.tbu.frameNo ≤ (172800000 : BitVec 48).toNat / 960 + 100 ∧
       s.cm.resolve 3 s.own.val = some 5 ∧
       s.cm.entry 5 = some { showId := 3, kind := .cue, length := 256, owner := 7 }) ∧
      (let s : State := { goState 180100 with cm := { showId := 3 } }
       s.takesGo 3 172800000 = true ∧ s.cm.resolve 3 s.own.val = none) ∧
      (172800000 : BitVec 48).toNat / 960 + 100 < (goState 180101).tbu.frameNo := by decide +kernel

/-- A show whose END action is due. -/
def ending : State :=
  { station 10000 10 .running with ce := { queue := [{ deed := .endShow, dispatch := 10000, order := 4, index := 1 }] } }

/-- ARMED for basin time 10,000 with an END action at `d`. -/
def armedShow (d : Nat) : State :=
  { station 10000 10 .armed with
    tbu := { basinTime := 10000, frameNo := 10, state := .armed, armed := some ⟨3, 10000⟩, segBase := some 10000 }
    ce := { queue := [{ deed := .endShow, dispatch := d, order := 4, index := 1 }] } }

theorem test_w_ShowTimesTaken :
    (let s := armedShow 10001
     s.live = true ∧ s.tbu.state = .armed ∧ s.tbu.armed = some ⟨3, 10000⟩ ∧ 10000 ≤ s.tbu.basinTime ∧
       s.ce.endDue s.tbu.basinTime = false) ∧
      (armedShow 10000).ce.endDue (armedShow 10000).tbu.basinTime = true ∧
      at11.tbu.state ≠ .armed ∧
      ending.tbu.state = .running ∧ { deed := .endShow, dispatch := 10000, order := 4, index := 1 } ∈ ending.ce.queue ∧
      10000 ≤ ending.tbu.basinTime ∧ at11.tbu.state ≠ .running ∧
      (ending.hears 3 ∧ ending.tbu.lastHold ≠ some 10000) ∧
      (heldShow.hears 3 ∧ heldShow.tbu.state = .held ∧ heldShow.tbu.lastResume ≠ some 10000) ∧
      at11.tbu.state ≠ .held := by decide +kernel

theorem test_w_StopEndsShow :
    (ending.hears 3 ∧ ending.tbu.state = .running) ∧ (heldShow.hears 3 ∧ heldShow.tbu.state = .held) ∧
      ((station 10000 10 .armed).hears 3 ∧ (station 10000 10 .armed).tbu.state = .armed) ∧
      (at11.hears 3 ∧ at11.tbu.state ≠ .armed ∧ at11.tbu.state ≠ .running ∧ at11.tbu.state ≠ .held) := by
  decide +kernel

theorem test_w_HaltStopsEverything :
    (ending.hears 3 ∧ ending.tbu.state ≠ .standby ∧ ending.tbu.state ≠ .halted ∧ ending.biu.stopActive = false) ∧
      ((station 10000 10 .halted).hears 3 ∧ (station 10000 10 .halted).tbu.state = .halted) := by decide +kernel

/-! ### The cue engine, claims, audio -/

/-- A cue record of time 480, of a kind, flag byte and mask, with parameters from byte 8 on. -/
def cueRecord (kind flags : Byte) (mask : BitVec 16) (rest : List Byte) : List Byte :=
  [0, 0, 1, 224, kind, flags] ++ beBytes 2 mask.toNat ++ rest ++ List.replicate (8 - rest.length) 0

/-- Reading the list of segment 5, with 32 actions pending. -/
def fullShow (closed : Option Nat) : State :=
  { station 10000 10 .running with
    tbu := { basinTime := 10000, frameNo := 10, state := .running, segBase := some 9600 }
    ce := { readState := .reading, pos := some ⟨5, 64⟩, closed := closed,
            queue := List.replicate 32 { deed := .jet 0 100 0, dispatch := 12000, order := 0, index := 0 } } }

/-- The same with an empty queue, after a record of the given time. -/
def playing (last : Nat) : State :=
  { fullShow none with ce := { readState := .reading, pos := some ⟨5, 64⟩, lastCue := last } }

theorem test_w_CuesBecomeActions :
    (decodeCue (cueRecord 0 0 0 []) = none ∧ (fullShow none).ce.closed = none ∧
      (fullShow none).base + max (cueTime (cueRecord 0 0 0 [])) (fullShow none).ce.lastCue ≤
        (fullShow none).tbu.basinTime + (fullShow none).params.horizon * 48000) ∧
      (fullShow (some 480)).ce.closed = some 480 ∧ 32 ≤ (fullShow (some 480)).ce.queue.length ∧
      decodeCue (cueRecord 8 0 0 []) = some .endSegment ∧ (fullShow none).ce.queue.length ≤ 32 ∧
      (128 : Nat).testBit 7 = true ∧ (0 : Nat) ≤ 7 ∧ (4095 : Nat) ≠ 0 ∧
      (decodeCue (cueRecord 6 0 0 [0, 0, 9]) = some (.audioStop .a 9) ∧ decodeCue (cueRecord 9 0 0 []) = some .endShow ∧
        (fullShow none).ce.readState ≠ .scanning ∧
        32 < (fullShow none).ce.queue.length + ((fullShow none).actionsOf (.audioStop .a 9) 10080).length ∧
        (playing 0).ce.queue.length + ((playing 0).actionsOf (.audioStop .a 9) 10080).length ≤ 32 ∧
        (playing 0).base + 480 ≤ (playing 0).tbu.basinTime + (playing 0).params.horizon * 48000 ∧
        (playing 481).base + 481 ≤ (playing 481).tbu.basinTime + (playing 481).params.horizon * 48000 ∧
        (playing 10000000).tbu.basinTime + (playing 10000000).params.horizon * 48000 <
          (playing 10000000).base + max 480 10000000) := by decide +kernel

/-- spec/02, R28: the list of 16,392 bytes ends at its last whole record, before a page that is not here. -/
theorem test_cut_off_record :
    (let s : State := { playing 0 with
       ce := { (playing 0).ce with pos := some ⟨5, 16384⟩ }
       cm := { dir := [(5, { showId := 3, kind := .cue, length := 16392, owner := 7 })], showId := 3 } }
     match s.cueStep with
      | .stop t => some (t.ce.readState, t.ce.queue.map (·.deed), t.cm.fills.length)
      | .more _ => none) = some (.ended, [.endShow], 0) := by decide +kernel

/-- spec/02, R45 with spec/05, R96: a pending START moves by two frames with its start time. -/
theorem test_start_moves :
    Action.moved 1920 { deed := .start .a 40 0 60 10000, dispatch := 10000, order := 3, index := 1 } =
      { deed := .start .a 40 0 60 11920, dispatch := 11920, order := 3, index := 1 } := by decide

/-- spec/02, R25 and R33: a record of time 480 after one of time 481 is counted and read with time 481. -/
theorem test_record_taken :
    (match (playing 481).readRecord ⟨5, 64⟩ (cueRecord 6 0 0 [0, 0, 9]) with
      | .more t => some (t.ce.lastCue, t.ce.pos, t.faultCount .cueMalformed, t.ce.slateOdd.voices.map (·.dispatch))
      | .stop _ => none) = some (481, some ⟨5, 80⟩, 1, [10081]) := by decide +kernel

/-- Records at the ends of their ranges, written out by R200: mask 255 and one above it, a sweep from jet 7 to jet 7, a
LIGHT with follow jet 7 and one with follow jet 8, an AUDIO_START of segment 127. -/
theorem test_cue_records :
    decodeCue (cueRecord 1 1 255 [16, 0, 0, 9]) = some (.jet 255 4095 9 true) ∧
      decodeCue (cueRecord 1 0 256 [0, 1]) = none ∧
      decodeCue (cueRecord 2 0 0 [7, 7, 1, 1, 0, 0, 5]) = some (.sweep 7 7 true 256 5 false) ∧
      decodeCue (cueRecord 3 3 2048 [1, 2, 3, 4, 15, 0, 9, 7]) = some (.light 2048 15 1 2 3 4 9 (some 7)) ∧
      decodeCue (cueRecord 3 2 1 [1, 2, 3, 4, 15, 0, 9, 8]) = none ∧
      decodeCue (cueRecord 4 0 0 [1, 127, 0, 0, 1, 0, 0, 60]) = some (.audioStart .b 127 256 60) ∧
      decodeCue (cueRecord 7 1 0 [4, 0, 100]) = some (.waitTrigger 4 100 true) ∧
      decodeCue (cueRecord 5 0 0 [1, 3, 33, 11, 185]) = some (.audioGain .b 800 3000) ∧
      (cueRecord 5 0 0 [1, 3, 33, 11, 185]).length = 16 := by decide +kernel

/-- A LIGHT action of the given order holding the given channels. -/
def lightAction (order : Nat) (channels : BitVec 48) : Action :=
  { deed := .light { fixtures := 1, channels := channels, r := 0, g := 0, b := 0, w := 0, fade := 0, follow := none,
                     cueFrame := 10 }, dispatch := 10560, order := order, index := 0 }

/-- A voice action of the given order. -/
def gainAction (order : Nat) : Action :=
  { deed := .gain .a 0 0, dispatch := 10560, order := order, index := 0 }

theorem test_w_ActionsQueuedAndStaged :
    ([gainAction 0, gainAction 1].Pairwise fun x y => x.dispatch ≤ y.dispatch) ∧
      (({ slateOdd := { voices := List.replicate 7 (gainAction 0) } } : Ce).slate 11).voices.length < 8 ∧
      (gainAction 8).dispatch / 960 ≤ at11.tbu.frameNo + 1 ∧ (station 10000 10 .armed).tbu.state = .armed ∧
      at11.tbu.state ≠ .armed ∧ at11.tbu.state ≠ .running ∧
      (({ jets := [{ gainAction 4 with deed := .jet 3 9 0 }] } : Slate).stage
        { gainAction 3 with deed := .jet 3 8 0 }).isSome = true ∧
      ([lightAction 2 3, lightAction 4 12].Pairwise fun b c => b.channels &&& c.channels = 0) ∧
      8 ≤ ({ voices := List.replicate 8 (gainAction 0) } : Slate).voices.length ∧
      ((gainAction 8).forVoice = true ∧ (lightAction 2 3).forVoice = false ∧ (gainAction 8).deed ≠ .endShow) ∧
      ((playing 0).tbu.state = .running ∧ 10560 / 960 ≤ (playing 0).tbu.frameNo + 1) := by decide +kernel

/-- spec/02, R36 and R40: of nine voice actions due in frame 11 the first eight in queue order are staged at boundary 10, and
one that is due later stays too. -/
theorem test_staging_pass :
    (let s : State := { fullShow none with ce := { queue := (List.range 9).map (fun n => gainAction (20 - n)) ++
        [{ gainAction 0 with dispatch := 11520 }] } }
     ((s.stagePass 10).ce.slateOdd.voices.map (·.order), (s.stagePass 10).ce.queue.map (·.order))) =
      ([13, 14, 15, 16, 17, 18, 19, 20], [12, 0]) := by decide +kernel

/-- spec/02, "Staging": of two LIGHT actions each channel goes to the later in list order (R39). -/
theorem test_stage_light :
    (stageLight (lightAction 3 7) [lightAction 2 3, lightAction 4 12]).map (fun a => (a.order, a.channels)) =
      [(3, 3), (4, 12)] := by decide +kernel

/-- Waiting for trigger 4 after a segment that may be cut from 9,000 on. -/
def waitingShow : State :=
  { station 10000 10 .running with
    ce := { readState := .waiting, waiting := some ⟨4, 100, true⟩, running := some ⟨0, true, 9000⟩ } }

/-- Playing a segment that may be cut. -/
def playingShow : State :=
  { station 10000 10 .running with
    ce := { readState := .reading, pos := some ⟨5, 64⟩, running := some ⟨0, true, 9000⟩ } }

/-- A cut scan for trigger 4 pressed at 10,000, in segment 3 and two segments on, at the record given. -/
def scanningAt (r : List Byte) : State :=
  { playingShow with
    cm := { dir := [(5, { showId := 3, kind := .cue, length := 160, owner := 7 })] }
    ce := { readState := .scanning, pos := some ⟨5, 64⟩, running := some ⟨3, true, 9000⟩, index := 3
            buffer := some ⟨5, 0, List.replicate 64 0 ++ r⟩
            queue := [{ gainAction 1 with index := 2 }, { gainAction 2 with index := 3 },
                      { gainAction 3 with deed := .endShow, index := 3 }]
            scan := some { number := 4, press := 10000, returnPos := ⟨5, 16⟩, returnState := .reading,
                           returnClosed := none, afterEnd := false, passed := 2 } } }

theorem test_w_TriggerOpensOrCuts :
    (waitingShow.hears 3 ∧ waitingShow.tbu.state = .running ∧ waitingShow.ce.readState = .waiting ∧
      waitingShow.ce.waiting = some ⟨4, 100, true⟩ ∧ waitingShow.ce.lastTrigger ≠ some 9000 ∧
      (waitingShow.ce.running.all fun r => decide (r.rearmEnd ≤ 9000)) = true) ∧
      (playingShow.hears 3 ∧ playingShow.ce.readState = .reading ∧ playingShow.ce.running = some ⟨0, true, 9000⟩ ∧
        playingShow.ce.pos = some ⟨5, 64⟩ ∧ playingShow.ce.index = 0 ∧ playingShow.ce.lastTrigger ≠ some 9000) ∧
      at11.tbu.state ≠ .running ∧
      (let s : State := { playingShow with ce := { playingShow.ce with closed := some 480 } }
       s.ce.closed.isSome = true ∧ s.ce.pos = some ⟨5, 64⟩) ∧
      (decodeCue (cueRecord 7 1 0 [4, 0, 100]) = some (.waitTrigger 4 100 true) ∧ playingShow.ce.queue.length ≤ 32) ∧
      ((scanningAt (cueRecord 7 1 0 [4, 0, 100])).ce.readState = .scanning ∧
        (scanningAt (cueRecord 7 1 0 [4, 0, 100])).ce.pageWait = false ∧
        (scanningAt (cueRecord 7 1 0 [4, 0, 100])).ce.recordAt ⟨5, 64⟩ = some (cueRecord 7 1 0 [4, 0, 100]) ∧
        64 + 16 ≤ (scanningAt (cueRecord 7 1 0 [4, 0, 100])).cm.lengthOf 5 ∧
        recByte (cueRecord 7 1 0 [4, 0, 100]) 8 = 4 ∧ recByte (cueRecord 7 1 0 [5, 0, 100]) 8 ≠ 4 ∧
        recByte (cueRecord 9 0 0 []) 4 = 9 ∧ recByte (cueRecord 8 0 0 []) 4 = 8) := by decide +kernel

/-- spec/02, R44: the cut discards the running segment's action and keeps an earlier one's and an END action; the index
counts the two segments passed into and the one opened. -/
theorem test_cut :
    (match (scanningAt (cueRecord 7 1 0 [4, 0, 100])).cueStep with
      | .more t => some (t.ce.index, t.ce.queue.map (·.order), t.tbu.segBase, t.ce.running.map (·.rearmEnd))
      | .stop _ => none) = some (6, [1, 3], some 13840, some (13840 + 96000)) := by decide +kernel

def reported (c : ReqClass) (id : Nat) : Smc := { ctl := .ready, reports := [{ cls := c, id := id, bytes := [] }] }

theorem test_w_ReadsFillTheirBuffers :
    (let s : State := { playingShow with
       smc := reported .cue 0, ce := { playingShow.ce with fetch := some ⟨5, 0, .read, true⟩ } }
     s.smc.reportOf .cue = some ⟨.cue, 0, []⟩ ∧ s.ce.fetch = some ⟨5, 0, .read, true⟩ ∧
       s.ce.pos = some ⟨5, 64⟩ ∧ 64 / 256 * 256 = 0) ∧
      (let s : State := { playingShow with
         smc := reported .cue 0
         ce := { playingShow.ce with fetch := some ⟨5, 0, .read, true⟩, pos := some ⟨5, 256⟩ } }
       s.ce.pos = some ⟨5, 256⟩ ∧ 256 / 256 * 256 ≠ 0) ∧
      (let s : State := { at11 with smc := reported .audio 0, au := { fill := some ⟨40, 0, .stereo, some 8, false⟩ } }
       s.smc.reportOf .audio = some ⟨.audio, 0, []⟩ ∧ s.au.fill = some ⟨40, 0, .stereo, some 8, false⟩) := by
  decide +kernel

/-- Pump 0 CLAIMING under a share of exactly its allowance, and one below. -/
def claiming (share : Nat) : State :=
  { station 10000 10 .running with
    hu := { pumps := (Vector.replicate 8 ({} : Pump)).set 0 { state := .claiming, requested := 3065 },
            share := share, spacing := 0 } }

def claimTx : Tx := { source := .claim, arb := arbByte 2 7, kind := 0, payload := [0, 23, 112] }

theorem test_w_ClaimsKeepSpacing :
    (let s : State := { claiming 6000 with liu := { claim := some ⟨0, 6000⟩ } }
     s.hears 3 ∧ s.liu.claim.isSome = true ∧ s.liu.claimBegun = false) ∧ (claiming 6000).liu.claim = none ∧
      (let s := claiming 6000
       s.live = true ∧ s.hu.spacing = 0 ∧ s.hu.claimHolder = none ∧ (s.hu.pump 0).state = .claiming ∧
         s.hu.committedDraw s.params + s.params.pumps[(0 : Channel)].allowance ≤ s.hu.share) ∧
      (let s := claiming 5999
       s.hu.share < s.hu.committedDraw s.params + s.params.pumps[(0 : Channel)].allowance ∧
         s.hu.claimHolder ≠ some 0) ∧
      (let s : State := { claiming 6000 with
         hu := { (claiming 6000).hu with claimHolder := some 0 }, liu := { claim := some ⟨0, 6000⟩, tx := some claimTx } }
       s.liu.tx = some claimTx ∧ claimTx.source = .claim ∧ s.liu.claim = some ⟨0, 6000⟩ ∧
         s.hu.claimHolder = some 0 ∧ s.hu.claimHolder.isSome = true ∧ s.liu.claimBegun = true ∧
         s.liu.claim.isSome = true) := by decide +kernel

/-! ### Following lights and voices -/

/-- Fixture 0 follows jet 3 with its red channel, to frame 110 at the latest. -/
def followEntry : FollowEntry :=
  { targets := (Vector.replicate 4 none).set 0 (some 257), fade := 10, jet := 3, limit := 110 }

/-- A LIGHT action of fixture 0 that holds its red channel alone, and one that holds its green one. -/
def redDeed (channels : BitVec 48) : LightDeed :=
  { fixtures := 1, channels := channels, r := 1, g := 2, b := 3, w := 4, fade := 10, follow := some 3, cueFrame := 10 }

theorem test_w_FollowListReleases :
    (({ fixtures := (Vector.replicate 12 ({} : FixtureParams)).set 0 { present := true } } : Params).fixtures[
        (0 : Fin 12)].present = true ∧ (redDeed 1).fixtures.getLsbD 0 = true ∧ (redDeed 1).fixtures.getLsbD 1 = false) ∧
      followEntry.targets[(0 : Fin 4)] ≠ none ∧ (redDeed 1).channels.getLsbD 0 = true ∧
      (redDeed 2).channels.getLsbD 0 = false ∧ followEntry.limit ≤ 110 ∧ 109 < followEntry.limit ∧
      ({ pumps := (Vector.replicate 8 ({} : Pump)).set 3 { arrival := .set 105600 9 } } : Hu).arrivalOf 3 =
        .set 105600 9 ∧ 105600 / 960 = 110 ∧ ({} : Hu).arrivalOf 3 = .void := by decide +kernel

/-- An entry whose channels were all given up stands until its limit, and one reduced to none goes (R84). -/
theorem test_follow_entries :
    let P : Params := { fixtures := (Vector.replicate 12 ({} : FixtureParams)).set 0 { present := true } }
    let l := ({} : Lu).enterFollow P (redDeed 0) 3
    (l.follow[(0 : Fin 12)].map fun e => e.limit) = some 110 ∧
      ({ l with follow := l.follow.set 0 (some followEntry) }.applyLight P (redDeed 1)).follow[(0 : Fin 12)] = none := by
  decide +kernel

theorem test_w_VoicesStartRampAndFade :
    (let v : Voice := { state := .playing, gain := 16423 }
     v.state = .playing ∧ v.gain ≤ 32768 ∧ (v.content.any fun c => c.ended) = false) ∧
      ({ state := .priming } : Voice).state = .priming ∧ ({} : Voice).state = .idle ∧ ({} : Voice).state ≠ .playing ∧
      (let a : Au := { a := { prime := some { segment := 40, start := 0 } } }
       (a.voice .a).prime = some { segment := 40, start := 0 }) := by decide +kernel

/-- Voice A primed with block 0 of stereo segment 40, whose first page is PRESENT, takes a START of start time `ts` and then a
STOP_VOICE without frames at the boundary of basin time 10,560. -/
def startedAndStopped (ts : Nat) : State :=
  { at11 with
    cm := { dir := [(40, { showId := 3, kind := .stereo, length := 40000, owner := 0 })]
            pages := [(2560, { state := .present, phys := 5 })], taken := [5], showId := 3 }
    au := { a := { state := .priming, prime := some { segment := 40, start := 0, kind := some .stereo, count := 10000 } } }
  }.auPass 10560 11 0 .running false false
    [{ deed := .start .a 40 0 0 ts, dispatch := ts, order := 0, index := 0 },
     { deed := .stopVoice .a 0, dispatch := ts, order := 1, index := 0 }]

/-- spec/05, R109: a START 1024 ticks late changes what A wants from blocks 0 to 6 to blocks 1 to 7, and block 1 is looked up
at its taking, before the STOP_VOICE; a START on time leaves the wanted set as it is, and nothing is wanted at step 5. -/
theorem test_start_considers_fill :
    ((startedAndStopped 9536).au.fill.map fun f => (f.segment, f.block)) = some (40, 1) ∧
      (startedAndStopped 10560).au.fill = none ∧ (startedAndStopped 9536).au.a.state = .idle := by decide +kernel

/-- spec/05: a stop fade of two frames from full gain: half way, then out. -/
theorem test_stop_fade :
    let v : Voice := { state := .playing, content := some { item := { segment := 40, start := 0 }, ts := 0 } }
    ((v.doStop 2).passStep false).gain = 16384 ∧ (((v.doStop 2).passStep false).passStep false).state = .idle := by
  decide +kernel

/-- Voice A primed with segment 40, its request unanswered. -/
def primed : Voice := { state := .priming, prime := some { segment := 40, start := 0, request := 1 } }

theorem test_w_DefinitionsAndEndsApplied :
    (let s : State := { at11 with
       au := { a := primed, requests := [⟨1, .a, 40⟩] }
       cm := { dir := [(40, { showId := 3, kind := .stereo, length := 1048576, owner := 0 })] } }
     s.live = true ∧ s.au.requests = [⟨1, .a, 40⟩] ∧
       (s.au.voice .a).prime = some { segment := 40, start := 0, request := 1 } ∧
       s.cm.entry 40 = some { showId := 3, kind := .stereo, length := 1048576, owner := 0 } ∧ s.cm.entry 41 = none) ∧
      ((({ requests := [⟨1, .a, 40⟩] } : Au).voice .a).prime = none ∧
        (({ requests := [⟨1, .a, 40⟩] } : Au).voice .a).content = none) ∧
      (let c : Content := { item := { segment := 40, start := 100, kind := some .mono, count := 200 }, ts := 0 }
       let s : State := { at11 with au := { a := { state := .playing, content := some c } } }
       (s.au.voice .a).content = some c ∧ (s.au.voice .a).state ≠ .paused ∧ c.item.kind.isSome = true ∧
         c.item.count ≤ c.item.start + (s.au.tau s.tbu.basinTime - c.ts)) := by decide +kernel

/-- Voice A plays segment 40, mono, from sample 2 since basin time 9,990, at gain 16384, its block in the home slot. -/
def sounding : State :=
  { station 10000 10 .running with
    au := { a := { state := .playing, gain := 16384,
                   content := some { item := { segment := 40, start := 2, kind := some .mono, count := 100, request := 0 },
                                     ts := 9990 } }
            slots := (Vector.replicate 32 ({} : Slot)).set 8
              { state := .valid, tag := some (40, 0), data := List.replicate 24 0 ++ [16, 1] } } }

/-- spec/05, R97, R99 and R102: sample 2 + 10 = 12, bytes 24 and 25, 4097 at half gain, on both outputs. -/
theorem test_sample_presented :
    ({ sounding with st := { sounding.st with configured := true } } : State).pairNow = (2048, 2048) := by decide +kernel

theorem test_w_TickPresentsPair :
    (({ sounding with st := { sounding.st with configured := true } } : State).st.configured = true ∧
      sounding.au.a.state = .playing ∧ sounding.au.find? 40 (blockOf .mono 12) = some 8 ∧
      sounding.au.find? 40 (blockOf .mono 2048) = none) ∧
    at11.powered = true ∧ readingState.st.configured = false ∧ at11.au.a.state = .idle ∧ at11.au.b.state = .idle ∧
      at11.au.trimFactor ≤ 32768 ∧
      (⟨5, 40, 0, 9, .delay 48⟩ : Serve).stage = .delay 48 ∧
      (∀ n, (⟨5, 40, 0, 9, .sending none 0 false⟩ : Serve).stage ≠ .delay n) := by
  refine ⟨?_, ?_, ?_, ?_, ?_, ?_, rfl, fun n h => by cases h⟩ <;> decide +kernel

/-! ### The content map -/

/-- Segment 40, 20,000 bytes of stereo, two pages. -/
def dir40 : List (Nat × DirEntry) := [(40, { showId := 3, kind := .stereo, length := 20000, owner := 0 })]

/-- Up in IDLE with show 3 current, segment 40 DEFINED, the map region initialised, and the memory READY. -/
def content (c : Cm) : State :=
  { at11 with cm := { c with showId := 3, dir := dir40, init := .left 0 }, smc := { ctl := .ready } }

def walk40 (second stale : Bool) : Walk := { segment := 40, page := 0, askers := [.serve 5], stale, second }

theorem test_w_LookupsAnswered :
    ((content {}).cm.entry 39 = none ∧ (content {}).cm.entry 40 = some ⟨3, .stereo, 20000, 0⟩ ∧ 20000 ≤ 20000 ∧
      19999 / 16384 = 1 ∧ (content {}).cm.pageState 40 1 = .absent ∧ (content {}).cm.fills.length < 8 ∧
      (content {}).cm.tableWrites < 64 ∧ (content {}).cm.lowestFree = some 4) ∧
      (let s := content { pages := [(2560, ⟨.present, 4⟩)], cache := [⟨40, 0, 4, .stereo, false⟩] }
       s.cm.pageState 40 0 = .present ∧ s.cm.cached 40 0 = some ⟨40, 0, 4, .stereo, false⟩) ∧
      (content { pages := [(2560, ⟨.present, 4⟩)] }).cm.cached 40 0 = none ∧
      (content { pages := [(2560, ⟨.filling, 4⟩)] }).cm.pageState 40 0 = .filling ∧
      (content { pages := [(2560, ⟨.unavailable, 0⟩)] }).cm.pageState 40 0 = .unavailable ∧
      64 ≤ ({ mapQ := List.replicate 64 (.write ⟨0, [], false⟩) } : Cm).tableWrites := by decide +kernel

/-- With every page taken none is free (R119). -/
theorem test_w_no_free_page : ({ taken := (List.range 8188).map (· + 4) } : Cm).lowestFree = none := by decide +kernel

theorem test_w_MapRegionAccessesComplete :
    (let s : State := { content { mapQ := [.walk (walk40 true false)] } with smc := reported .walk 0 }
     s.cm.mapQ = [.walk (walk40 true false)] ∧ (walk40 true false).second = true ∧
       s.smc.reportOf .walk = some ⟨.walk, 0, []⟩ ∧ (walk40 true false).stale = false ∧ s.cm.cache.length ≤ 16 ∧
       s.cm.cached 40 0 = none) ∧
      (walk40 true true).stale = true ∧ ((walk40 false false).second = false ∧ (walk40 false false).askers ≠ []) ∧
      ({ mapQ := [.write ⟨0, [], true⟩] } : Cm).mapQ = [.write ⟨0, [], true⟩] := by decide +kernel

/-- A fill of page 0 of segment 40 on physical page 4. -/
def fill40 (received : BitVec 256) : Fill :=
  { id := 1, segment := 40, page := 0, phys := 4, received := received, fetch := false, attempts := 0, owed := false,
    queued := false, last := 0, timer := some 0, owedAt := 1 }

/-- The page FILLING, with that record. -/
def filling (received : BitVec 256) : State :=
  { content { pages := [(2560, ⟨.filling, 4⟩)], taken := [4], fills := [fill40 received], chunk := some 1, nextId := 2 }
    with smc := reported .content 1 }

theorem test_w_PageBecomesPresent :
    (let s := filling (BitVec.allOnes 256)
     s.smc.reportOf .content = some ⟨.content, 1, []⟩ ∧ s.cm.chunk = some 1 ∧
       s.cm.fillById 1 = some (fill40 (BitVec.allOnes 256)) ∧
       (fill40 (BitVec.allOnes 256)).received = BitVec.allOnes 256 ∧ s.cm.waiting = [] ∧ s.cm.tableWrites < 64) ∧
      (fill40 1).received ≠ BitVec.allOnes 256 ∧
      (let s : State := { filling 1 with cm := { (filling 1).cm with waiting := [.present 1] } }
       s.live = true ∧ s.cm.waiting = [.present 1] ∧ s.cm.fillById 1 = some (fill40 1) ∧ s.cm.tableWrites < 64) ∧
      64 ≤ ({ mapQ := List.replicate 64 (.write ⟨0, [], false⟩) } : Cm).tableWrites := by decide +kernel

theorem test_w_ShowSelectionReleases :
    (let s := content { intake := [.select 119] }
     s.live = true ∧ s.cm.intake = [.select 119] ∧ s.cm.mayTake = true ∧ s.tbu.state = .idle ∧ 119 ≠ s.cm.showId ∧
       Memory.wf s.smc.mem = true ∧ Table.risesFrom none s.cm.dir = true ∧ Table.risesFrom none s.cm.pages = true) ∧
      (content { intake := [.select 3] }).cm.showId = 3 ∧ 119 < 120 := by decide +kernel

/-- A definition of a segment for the stations whose bit is set in `tail`. -/
def define (g : Byte) (tail : BitVec 32) : SegmentDefineFields := ⟨3, g, 2, 20000, tail⟩

theorem test_w_DefinitionTaken :
    (let s := content { intake := [.define (define 41 128)] }
     s.live = true ∧ s.cm.mayTake = true ∧ s.tbu.state.bearing = false ∧
       s.cm.screenDefine (define 41 128) = some .stereo ∧ concerns (define 41 128) .stereo s.own = true ∧
       s.cm.entry (segmentOf (define 41 128)) ≠ some (dirEntryOf (define 41 128) .stereo) ∧
       s.cm.entry (segmentOf (define 40 128)) = some (dirEntryOf (define 40 128) .stereo) ∧
       concerns (define 41 64) .stereo s.own = false ∧ (define 168 128).reservedSet = true) ∧
      (station 10000 10 .running).tbu.state.bearing = true := by decide +kernel

/-- Chunk 255 of a page of segment 40. -/
def chunk (q : Byte) : PageDataFields := ⟨3, 40, q, 255, List.replicate 64 1⟩

theorem test_w_PageDataTaken :
    (let s := content { intake := [.data (chunk 1)] }
     s.live = true ∧ s.cm.mayTake = true ∧ s.smc.classFree .content = true ∧ (chunk 1).segment.toNat ≤ 127 ∧
       s.cm.showMatches 3 40 = true ∧ s.cm.entry 40 = some { showId := 3, kind := .stereo, length := 20000, owner := 0 } ∧
       1 < (20000 + 16383) / 16384 ∧ s.cm.pageState 40 1 = .absent ∧ s.cm.fills.length < 8 ∧
       s.cm.lowestFree = some 4) ∧
      (content {}).cm.showMatches 4 40 = false ∧ (20000 + 16383) / 16384 ≤ 2 ∧
      8 ≤ (List.replicate 8 (fill40 0)).length ∧
      (let s : State := { filling 1 with
         smc := { ctl := .ready }, cm := { (filling 1).cm with chunk := none, intake := [.data (chunk 0)] } }
       s.live = true ∧ s.cm.mayTake = true ∧ s.smc.classFree .content = true ∧ s.cm.pageState 40 0 = .filling ∧
         fill40 1 ∈ s.cm.fills ∧ (fill40 1).received.getLsbD 255 = false) ∧
      (fill40 (BitVec.allOnes 256)).received.getLsbD 255 = true ∧ 127 < (128 : Byte).toNat ∧
      63 < (64 : Byte).toNat := by decide +kernel

def expiredFill (n : Nat) : Fill := { fill40 0 with attempts := n }
def fetchTx : Tx := { source := .fetch, arb := arbByte 5 7, kind := 0, payload := [3, 40, 0] }

theorem test_w_FetchesRequested :
    (let s := content { fills := [expiredFill 2] }
     s.live = true ∧ s.cm.expired = some (expiredFill 2) ∧ (expiredFill 2).attempts < 3) ∧
      (let s := content { fills := [expiredFill 3] }
       s.cm.expired = some (expiredFill 3) ∧ 3 ≤ (expiredFill 3).attempts ∧ s.cm.waiting = [] ∧ s.cm.tableWrites < 64) ∧
      (let f : Fill := { fill40 0 with owed := true, timer := none }
       (content { fills := [f] }).liu.fetchQ.length < 2 ∧ (content { fills := [f] }).cm.nextOwed = some f) ∧
      (let s : State := { content { fills := [fill40 0] } with liu := { tx := some fetchTx, fetchQ := [⟨1, 3, 40, 0⟩] } }
       s.liu.tx = some fetchTx ∧ fetchTx.source = .fetch ∧ s.liu.fetchQ = [⟨1, 3, 40, 0⟩] ∧ fill40 0 ∈ s.cm.fills) := by
  decide +kernel

/-- Page 0 of segment 40 PRESENT on physical page 4. -/
def present (c : Cm) : State := content { c with pages := [(2560, ⟨.present, 4⟩)], taken := [4] }
def serve (x : ServeStage) : Serve := { id := 5, segment := 40, page := 0, requester := 9, stage := x }

def dataTx : Tx := { source := .content, arb := arbByte 6 7, kind := 1, payload := [] }

theorem test_w_PageRequestsServed :
    ((present {}).hears 9 ∧ (present {}).cm.showMatches 3 40 = true ∧ ((present {}).cm.entry 40).isSome = true ∧
      (present {}).cm.pageState 40 0 = .present ∧ (present {}).cm.serves.length < 2 ∧
      (present {}).liu.conflict = false) ∧ (content {}).cm.pageState 40 0 ≠ .present ∧
      (let s := present { serves := [serve (.delay 0)], cache := [⟨40, 0, 4, .stereo, false⟩] }
       s.live = true ∧ s.cm.lowestServe Serve.delayOver = some (serve (.delay 0)) ∧ 0 * 16384 < 20000 ∧
         s.cm.cached 40 0 = some ⟨40, 0, 4, .stereo, false⟩) ∧
      (present { serves := [serve (.delay 0)] }).cm.cached 40 0 = none ∧
      ((let r := serve (.sending (some 4) 252 false)
     let s := present { serves := [r] }
     s.live = true ∧ s.smc.classFree .serve = true ∧ s.cm.lowestServe s.mayRead = some r) ∧
      (let r := serve (.sending (some 4) 252 true)
       let s : State := { present { serves := [r] } with smc := reported .serve 5 }
       s.smc.reportOf .serve = some ⟨.serve, 5, []⟩ ∧ (s.cm.serves.find? fun x => x.id == 5) = some r) ∧
      (let s : State := { present {} with smc := reported .serve 5 }
       s.smc.reportOf .serve = some ⟨.serve, 5, []⟩ ∧ ∀ x ∈ s.cm.serves, x.id ≠ 5) ∧
      (let s : State := { present {} with liu := { tx := some dataTx, contentQ := [⟨5, 3, 40, 0, 255, []⟩] } }
       s.liu.tx = some dataTx ∧ dataTx.source = .content ∧ s.liu.contentQ = [⟨5, 3, 40, 0, 255, []⟩])) := by
  decide +kernel

/-! ### Show memory -/

theorem test_w_MemoryStartUp :
    (readingState.powered = true ∧ readingState.smc.ctl = .initWait) ∧
      ({ ctl := .initPrecharge } : Smc).ctl = .initPrecharge ∧ ({ ctl := .initRefresh, initCount := 6 } : Smc).initCount < 7 ∧
      ¬ ({ ctl := .initRefresh, initCount := 7 } : Smc).initCount < 7 ∧ ({ ctl := .initMode } : Smc).ctl = .initMode ∧
      ({ ctl := .ready } : Smc).ctl = .ready := by decide +kernel

theorem test_w_PortGivenAndDebtKept :
    ({ ctl := .ready, debt := 8 } : Smc).port = none ∧ 8 ≤ ({ ctl := .ready, debt := 8 } : Smc).debt ∧
      ({ port := some ⟨.burst .cue, false, 0⟩ } : Smc).port = some ⟨.burst .cue, false, 0⟩ ∧
      ({ ctl := .ready, debt := 7 } : Smc).port = none ∧ ({} : Smc).ctl ≠ .ready ∧
      ({ port := some ⟨.refresh true, true, 6⟩ } : Smc).port = some ⟨.refresh true, true, 6⟩ ∧
      (let m : Smc := { port := some ⟨.burst .serve, true, 11⟩, serve := List.replicate 2 (Request.at .read256 (placeOf 8191 12288)) }
       m.port = some ⟨.burst .serve, true, 11⟩ ∧ (m.slot .serve).map (fun r => (r.row, r.done)) = some (8191, 0)) := by
  decide +kernel

/-- spec/07, R140: at the end of a serve burst a cue read goes before the rest of the serve read, and a debt of 8 before
both; at the end of a refresh that leaves a debt of 7 the serve read goes before the next refresh. -/
theorem test_order_at_ends :
    let m (op : PortOp) (debt : Nat) (cue : Option Request) : Smc :=
      { ctl := .ready, port := some ⟨op, true, 11⟩, debt := debt, cue := cue,
        serve := [Request.at .read256 (placeOf 4 0)] }
    let cue := some (Request.at .read256 (placeOf 5 0))
    ((m (.burst .serve) 7 cue).endOperation.port.map (·.op)) = some (.burst .cue) ∧
      ((m (.burst .serve) 8 cue).endOperation.port.map (·.op)) = some (.refresh true) ∧
      ((m (.burst .serve) 7 none).endOperation.port.map (·.op)) = some (.burst .serve) ∧
      ((m (.refresh true) 8 none).endOperation.port.map (·.op)) = some (.burst .serve) := by decide +kernel

/-- The second burst of a chunk write into row 8191 of bank 0. -/
def writeBurst (row : Nat) : Smc :=
  { ctl := .ready, port := some ⟨.burst .content, true, 8⟩
    content := some { kind := .write64, bank := 0, row := row, col := 0, data := List.replicate 64 (some 170), done := 1 } }

/-- The second burst of a row read of row 5 of bank 0, for the fill of slot 8. -/
def rowBurst : State :=
  { at11 with
    smc := { ctl := .ready, port := some ⟨.burst .audio, true, 8⟩, mem := [⟨addressOf 0 5 32, 170⟩]
             audio := some { kind := .rowRead, bank := 0, row := 5, col := 0, done := 1, got := List.replicate 32 1 } }
    au := { fill := some ⟨40, 0, .stereo, some 8, false⟩
            slots := (Vector.replicate 32 ({} : Slot)).set 8 ⟨.filling, some (40, 0), List.replicate 32 1⟩ } }

/-- Its words stand in the FILLING slot behind those of the first (R138). -/
theorem test_row_burst :
    (match exec .grantPoint rowBurst with
      | .next t => some (t.au.slots[(8 : Fin 32)].data.length, t.au.slots[(8 : Fin 32)].data[32]?)
      | _ => none) = some (64, some 170) := by decide +kernel

theorem test_w_BurstsMoveBytes :
    ((writeBurst 8191).port = some ⟨.burst .content, true, 8⟩ ∧ ((writeBurst 8191).slot .content).isSome = true ∧
      Memory.wf (writeBurst 8191).mem = true) ∧
      (let s := rowBurst
       s.smc.port = some ⟨.burst .audio, true, 8⟩ ∧ (s.smc.slot .audio).map (·.kind) = some .rowRead ∧
         (s.au.fill.bind fun f => f.slot) = some 8) ∧ ((writeBurst 8192).slot .content).map (fun r => decide (8192 ≤ r.row)) = some true := by
  decide +kernel

/-- The burst's 32 bytes stand from byte 32 of the row on, and no other. -/
theorem test_write_burst :
    (match exec .grantPoint { at11 with smc := writeBurst 5 } with
      | .next t => some (t.smc.mem == (List.range 32).map fun i => (addressOf 0 5 (32 + i), 170))
      | _ => none) = some true := by decide +kernel

def waitingBank (st : BankState) (row : Option Nat) (op : PortOp) : Smc :=
  { ctl := .ready, banks := (Vector.replicate 4 ({} : Bank)).set 1 { state := st, row := row, due := 2 }
    port := some ⟨op, false, 0⟩, cue := some { kind := .read256, bank := 1, row := 4, col := 256 } }

theorem test_w_BanksOpenAndClose :
    (let m := waitingBank .activating (some 4) (.burst .cue)
     m.banks[(1 : Fin 4)].state = .activating ∧ m.banks[(1 : Fin 4)].row = some 4 ∧
       m.port = some ⟨.burst .cue, false, 0⟩ ∧
       m.slot .cue = some { kind := .read256, bank := 1, row := 4, col := 256 }) ∧
      (waitingBank .precharging none (.burst .cue)).banks[(1 : Fin 4)].state = .precharging ∧
      ({ (waitingBank .precharging none (.burst .cue)) with port := none } : Smc).port = none ∧
      (let m := waitingBank .precharging none (.refresh false)
       m.port = some ⟨.refresh false, false, 0⟩ ∧ ∀ e : Fin 4, e ≠ 1 → m.banks[e].state = .idle) := by decide +kernel

/-! ### The link, peers, inputs -/

/-- A beacon in its slot. -/
def beaconFields : BeaconFields := ⟨0, 0, 2, 3, 0, 0, 0, 0, 0, 0⟩

theorem test_w_FramesContendForLine :
    (at11.st.phase = .up ∧ at11.live = true ∧ at11.liu.tx = none ∧ at11.liu.halt = false ∧ at11.liu.mute = 0 ∧
      at11.liu.conflict = false ∧ at11.liu.beacon = none) ∧
      (∀ r ∈ ([70, 75] : List Byte), 32 + at11.own.val ≤ r.toNat) ∧ (35 : Byte).toNat < 32 + at11.own.val ∧
      (∀ r ∈ ([7] : List Byte), at11.own.val ≤ r.toNat) ∧ ({ at11 with liu := { halt := true } } : State).liu.halt = true ∧
      listening.st.phase ≠ .up ∧ ({ mute := 50 } : Liu).mute ≠ 0 ∧ ({ yieldCount := 4 } : Liu).yieldCount = 4 ∧
      (at11.own.val = 7 ∧ (6 : Byte).toNat < 7 ∧ (70 : Byte).toNat < 64 + 7 ∧ (134 : Byte).toNat < 128 + 7 ∧
        (166 : Byte).toNat < 160 + 7 ∧ (198 : Byte).toNat < 192 + 7) ∧
      at11.liu.claim = none ∧ at11.liu.replies = [] ∧ at11.liu.fetchQ = [] ∧ at11.liu.contentQ = [] ∧
      at11.liu.yieldCount < 4 := by
  decide +kernel

/-- spec/08, R153, R154: a claim of position 7 goes out against the same byte and keeps its place against one below it, the
station then receiving from own basin time (R160); without a frame it receives, and on an idle line it does nothing. -/
theorem test_lower_rival :
    let claiming : State := { at11 with liu := { claim := some ⟨3, 400⟩ } }
    let sees (s : State) (rivals : List Byte) := match exec (.transmitStart rivals) s with
      | .next t => some (t.liu.tx.map (·.arb), t.liu.claim.isSome, t.liu.rxStamp)
      | _ => none
    sees claiming [71] = some (some 71, true, none) ∧ sees claiming [70] = some (none, true, some 10560) ∧
      sees at11 [223] = some (none, false, some 10560) ∧ sees at11 [] = some (none, false, none) := by decide +kernel

def beaconTx : Tx := { source := .time beaconFields, arb := arbByte 1 7, kind := 0, payload := beaconFields.bytes }

/-- spec/08, "A station driven into MUTE": the eighth abort. -/
theorem test_mute :
    (match exec .transmitError { at11 with liu := { tx := some beaconTx, fails := 7 } } with
      | .next t => some (t.liu.fails, t.liu.mute, t.liu.beacon)
      | _ => none) = some (0, 50, some beaconFields) := by decide +kernel

def replyTx : Tx := { source := .query, arb := arbByte 4 7, kind := 1, payload := [] }
def haltTx : Tx := { source := .halt, arb := arbByte 0 7, kind := 0, payload := [] }

theorem test_w_TransmissionsEnd :
    (({ tx := some beaconTx, fails := 7 } : Liu).tx = some beaconTx ∧ 7 ≤ ({ tx := some beaconTx, fails := 7 } : Liu).fails ∧
      claimTx.source = .claim) ∧
      beaconTx.source = .time beaconFields ∧ haltTx.source = .halt ∧ replyTx.source = .query ∧
      (({ replies := [⟨1, 0, List.replicate 77 0, 0⟩] } : Liu).replies = [⟨1, 0, List.replicate 77 0, 0⟩]) ∧
      checkFrame [false, false, false, false, false, false] = .discarded .stuffViolation ∧ at11.hears 3 := by
  decide +kernel

theorem test_w_QueriesAnswered :
    at11.hears 3 ∧ (7 : Byte).toNat = at11.own.val ∧ at11.liu.conflict = false ∧ at11.liu.replies.length < 4 ∧
      (8 : Byte).toNat ≠ at11.own.val ∧ 5 < (6 : Byte).toNat := by decide +kernel

/-- A claim and two PAGE_DATA frames, one of serve record 5, stand to be withdrawn. -/
def inConflict : State :=
  { present { serves := [serve (.sending (some 4) 4 false)] } with
    hu := { claimHolder := some 0 }
    liu := { claim := some ⟨0, 6000⟩, contentQ := [⟨5, 3, 40, 0, 1, []⟩, ⟨4, 3, 40, 0, 255, []⟩] } }

theorem test_w_OwnPositionHeardIsConflict :
    sender? (.wake 7) = some at11.own ∧ at11.live = true ∧ readingState.live = false ∧
      (sender? (.wake 7) = some inConflict.own ∧ inConflict.live = true ∧ inConflict.hu.claimHolder.isSome = true ∧
        inConflict.liu.claimBegun = false ∧ inConflict.liu.contentBegun = false) ∧
      ({ tx := some dataTx } : Liu).contentBegun = true := by decide +kernel

/-- The claim and the frame of the record go, the frame of another record stays (R161, R133). -/
theorem test_conflict_withdraws :
    (match exec (.wake 7) inConflict with
      | .next t => some (t.liu.claim, t.liu.contentQ.map (·.serve), t.cm.serves.length)
      | _ => none) = some (none, [4], 0) := by decide +kernel

theorem test_w_BeaconRecorded : at11.hears 3 := by decide +kernel

/-- A sample: stamp 10,500, link delay 12, start of frame 10,501 on own scale. -/
theorem test_sample :
    (match exec (.beacon 3 { beaconFields with stamp := 10500 } 0) { at11 with liu := { rxStamp := some 10501 } } with
      | .next t => t.pt.peers[(3 : Fin 32)].bind fun p => p.sample
      | _ => none) = some 11 := by decide +kernel

/-- In the tick of a correction of +5 the sample is formed on the scale before it (R169). -/
theorem test_sample_in_correction_tick :
    (match exec (.beacon 3 { beaconFields with stamp := 10500 } 0)
        { at11 with tbu := { at11.tbu with shift := 5 }, liu := { rxStamp := some 10506 } } with
      | .next t => t.pt.peers[(3 : Fin 32)].bind fun p => p.sample
      | _ => none) = some 11 := by decide +kernel

theorem test_w_InputsAndFaultClearing :
    at11.powered = true ∧ at11.hears 3 ∧ (7 : Byte).toNat = at11.own.val ∧ (6 : Byte).toNat ≠ at11.own.val ∧
      (let p : Pump := { state := .locked, lockFeedback := true }
       p.state = .locked ∧ p.lockDry = false) := by decide +kernel

theorem test_w_MemoryWrittenOnlyByBursts :
    exec .stopInputInactive at11 = .next at11 ∧ Instr.stopInputInactive ≠ .grantPoint := by
  refine ⟨?_, by decide⟩
  rfl

theorem test_w_ChangesHaveTheirCauses : boundary? .stopInputInactive = false := by decide

theorem test_w_ScaleFactorLargest :
    (jetHu.pump 0).state = .running ∧ (jetHu.pump 1).state ≠ .running ∧
      jetHu.share - jetHu.startAllowance jetParams < jetHu.scaledPower jetParams 908 := by decide +kernel

theorem test_w_FadeReachesTarget : 0 < 4 ∧ ((({} : LightChannel).apply 65535 4).step).level = 16383 := by decide +kernel

theorem test_w_DriveReachesHeight : jet0.hmax ≤ 4095 ∧ 1344 < jet0.hmax ∧ jet0.dmin ≤ 3065 := by decide

/-! A station at work meets each invariant, and steps. -/

theorem test_w_TablesStayCanonical : (filling 1).tablesCanonical := by unfold State.tablesCanonical; decide +kernel
theorem test_w_PagesStayConserved : (filling 1).pagesConserved := by unfold State.pagesConserved; decide +kernel
theorem test_w_DrawStaysWithinShare : (claiming 5999).drawWithinShare := by unfold State.drawWithinShare; decide +kernel
theorem test_w_ReadingsStayMerged : at11.readingsMerged := by unfold State.readingsMerged; decide +kernel
theorem test_w_HaltedStaysStill : (station 10000 10 .halted).stilled := by unfold State.stilled; decide +kernel
theorem test_w_CapacitiesHold : (filling 1).pagesConserved ∧ (filling 1).withinCapacity := by
  unfold State.pagesConserved State.withinCapacity; decide +kernel
theorem test_w_step : step at11 = .next at11 := rfl

/-- Fixture 2 submerged and EXPOSED, the level below its cover level. -/
def shallow : State :=
  { at11 with
    st := { at11.st with params := { fixtures :=
      (Vector.replicate 12 ({} : FixtureParams)).set 2 { present := true, submerged := true } } }
    lu := { exposed := (Vector.replicate 12 false).set 2 true } }

theorem test_w_InterlockHolds :
    shallow.lightsGuarded ∧
      (shallow.params.fixtures[(2 : Fin 12)].present && shallow.params.fixtures[(2 : Fin 12)].submerged) = true ∧
      shallow.pt.level < shallow.params.fixtures[(2 : Fin 12)].cover := by
  unfold State.lightsGuarded; decide +kernel

/-! ### Frames as commands: bytes written out by R196 to R198 -/

/-- The command that a class, a kind, the sender position 3 and payload bytes give. -/
def commandOf (cls kind : Byte) (payload : List Byte) : Option Instr :=
  ({ arb := 32 * cls + 3, kind := kind, payload := payload } : Frame).command 0 2

/-- GO of show 3 at T0 172,800,000 (0A4CB800 hex), STOP with a fade of 258 frames, TRIGGER 9, START_CLAIM of 6,000 W for jet 1. -/
theorem test_frame_control :
    commandOf 3 1 [3, 0, 0, 0x0A, 0x4C, 0xB8, 0x00] = some (.go 3 3 172800000) ∧
      commandOf 3 4 [1, 2] = some (.stop 3 258) ∧
      commandOf 3 5 [9, 0, 0, 0, 0, 1, 0] = some (.trigger 3 9 256) ∧
      commandOf 2 0 [1, 0x17, 0x70] = some (.startClaim 3 1 6000) := by decide +kernel

theorem test_frame_beacon :
    commandOf 1 0 [0, 0, 0, 0, 1, 2, 0, 4, 3, 0, 5, 0, 0, 1, 0, 0, 0, 2, 0, 0, 60, 0, 80, 0x61] =
      some (.beacon 3 ⟨258, 0, 4, 3, 5, 256, 512, 60, 80, 0x61⟩ 2) := by decide +kernel

theorem test_frame_content :
    commandOf 6 0 [3, 40, 2, 0, 0, 78, 32, 0, 0, 0, 128] = some (.segmentDefine 3 ⟨3, 40, 2, 20000, 128⟩) ∧
      commandOf 6 1 ([3, 40, 1, 255] ++ List.replicate 64 1) = some (.pageData 3 (chunk 1)) := by decide +kernel

/-- Each selector code, and one that does not exist. -/
theorem test_frame_query :
    commandOf 4 0 [7, 0, 9] = some (.statusQueryGeneral 3 7 9) ∧
      commandOf 4 0 [7, 5, 9] = some (.statusQueryFaults 3 7 9) ∧
      commandOf 4 0 [7, 6, 9] = some (.statusQueryUnknownSelector 3 7 6 9) ∧ commandOf 3 11 [] = none := by decide +kernel

/-- The shortest and the longest length of a STATUS_REPLY (class 4, kind 1), and a well-formed command of the line. -/
theorem test_w_FramesSpellCommands :
    kindLength ((135 : Byte).toNat / 32) (1 : Byte).toNat = some (5, 80) ∧ (List.replicate 80 (0 : Byte)).length ≤ 80 ∧
      (Instr.go 3 3 172800000).wellFormed = true ∧ (frameOf (.go 3 3 172800000)).isSome = true := by
  decide +kernel
theorem test_frame_accepted : checkFrame (frameLevels 35 0 beaconFields.bytes) = .accepted := by decide +kernel
theorem test_on_line : commandOnLine 0 0 (frameLevels 3 0 []) = some (.stopAssert 3) := by decide +kernel

end Sys2Proof.Tests
end

