-- ==== Sys2Proof/Proofs/Untouched.lean ====
section
/-!
What the operations leave alone, finer than State.aside: the lookups and releases of the content map (spec/06), the fills and
passes of the audio unit (spec/05), the pass of the hydraulics unit (spec/03), and the readings (spec/09, spec/10).
-/
namespace Sys2Proof.Machine

/-! ## Raises (R185) -/

/-- A raise leaves the records of the kinds other than its own. -/
theorem raiseIn_filter (p : FaultKind → Bool) {k : FaultKind} (hk : p k = false) (fs : List FaultRecord) (now : Nat)
    (d : Option FaultDetail) :
    ((raiseIn fs now k d).filter fun r => p r.kind) = fs.filter fun r => p r.kind := by
  unfold raiseIn
  split
  · rw [List.filter_map]
    have same : ((fun r : FaultRecord => p r.kind) ∘ fun r : FaultRecord =>
        if r.kind = k then { r with count := satInc r.count, detail := d.or r.detail } else r) =
        fun r => p r.kind := by
      funext r
      by_cases h : r.kind = k <;> simp [h]
    rw [same]
    conv_rhs => rw [← List.map_id (List.filter _ fs)]
    refine List.map_congr_left fun r hr => ?_
    have : r.kind ≠ k := by
      rintro rfl
      simp [hk] at hr
    simp [this]
  · simp [hk]

/-- The count of a kind is read off the records of any set of kinds that has it. -/
theorem find_filter_kind (p : FaultKind → Bool) {k : FaultKind} (hk : p k = true) (fs : List FaultRecord) :
    (fs.filter fun r => p r.kind).find? (fun r => r.kind == k) = fs.find? fun r => r.kind == k := by
  induction fs with
  | nil => rfl
  | cons r rest ih =>
    by_cases hr : r.kind = k
    · simp [hr, hk]
    · by_cases hp : p r.kind <;> simp [hp, hr, ih]

theorem State.faultCount_of_filter (p : FaultKind → Bool) {k : FaultKind} (hk : p k = true) {s t : State}
    (h : (t.biu.faults.filter fun r => p r.kind) = s.biu.faults.filter fun r => p r.kind) :
    t.faultCount k = s.faultCount k := by
  unfold State.faultCount
  rw [← find_filter_kind p hk, h, find_filter_kind p hk]

theorem State.faultCount_raise_other {k j : FaultKind} (ne : j ≠ k) (s : State) (d : Option FaultDetail) :
    (s.raise k d).faultCount j = s.faultCount j :=
  State.faultCount_of_filter (fun x => x == j) (by simp)
    (raiseIn_filter (fun x => x == j) (by simpa using ne.symm) _ _ d)

/-- A raise counts one more of its kind, saturating (R185). -/
theorem State.faultCount_raise_same (k : FaultKind) (s : State) (d : Option FaultDetail) :
    (s.raise k d).faultCount k = min 65535 (s.faultCount k + 1) := by
  unfold State.faultCount
  rw [State.raise_biu]
  generalize s.biu.faults = fs
  dsimp only
  unfold raiseIn
  split
  · rename_i h
    induction fs with
    | nil => simp at h
    | cons r rest ih =>
      by_cases hr : r.kind = k
      · simp [hr, satInc]
      · simp only [List.map_cons, if_neg hr]
        have nb : (r.kind == k) = false := by simpa using hr
        simp only [List.find?_cons, nb]
        exact ih (by simpa [hr] using h)
  · rename_i h
    have none_ : fs.find? (fun r => r.kind == k) = none := by simpa using h
    simp [List.find?_append, none_]

theorem State.faulted_raise (k : FaultKind) (s : State) (d : Option FaultDetail) : (s.raise k d).faulted k = true := by
  unfold State.faulted
  rw [State.raise_biu]
  dsimp only
  unfold raiseIn
  split
  · rename_i h
    rw [List.any_map]
    obtain ⟨r, hr, e⟩ := List.any_eq_true.mp h
    refine List.any_eq_true.mpr ⟨r, hr, ?_⟩
    have : r.kind = k := by simpa using e
    simp [this]
  · simp

/-! ## The content map (spec/06) -/

/-- The kinds of fault that lookups and page changes do not raise. -/
def FaultKind.offMap : FaultKind → Bool
  | .storeFull | .pageUnavailable => false
  | _ => true

/-- The state without what lookups and page changes write. -/
def State.unmapped (s : State) : State :=
  { s with cm := {}, liu := { s.liu with fetchQ := [], contentQ := [] }, smc := s.smc.outer,
           biu := { s.biu with faults := s.biu.faults.filter fun r => r.kind.offMap } }

/-- Nor what the fills of the audio cache write. -/
def State.unfilled (s : State) : State :=
  { s.unmapped with au := { s.au with slots := Vector.replicate 32 {}, fill := none, passed := [] } }

/-- Nor what becomes of the voices. -/
def State.unsounded (s : State) : State := { s.unmapped with au := {} }

section
variable {s t : State}

theorem State.unfilled_of_unmapped (h : t.unmapped = s.unmapped) : t.unfilled = s.unfilled := by
  have e : ∀ x : State, x.unfilled =
      { x.unmapped with au := { x.unmapped.au with slots := Vector.replicate 32 {}, fill := none, passed := [] } } :=
    fun _ => rfl
  rw [e, e, h]

theorem State.unsounded_of_unfilled (h : t.unfilled = s.unfilled) : t.unsounded = s.unsounded := by
  have e : ∀ x : State, x.unsounded = { x.unfilled with au := {} } := fun _ => rfl
  rw [e, e, h]

theorem State.unsounded_of_unmapped (h : t.unmapped = s.unmapped) : t.unsounded = s.unsounded :=
  State.unsounded_of_unfilled (State.unfilled_of_unmapped h)

theorem State.au_of_unmapped (h : t.unmapped = s.unmapped) : t.au = s.au := congrArg (fun x => x.au) h
theorem State.voices_of_unfilled (h : t.unfilled = s.unfilled) :
    t.au.a = s.au.a ∧ t.au.b = s.au.b ∧ t.au.holdFrame = s.au.holdFrame :=
  ⟨congrArg (fun x => x.au.a) h, congrArg (fun x => x.au.b) h, congrArg (fun x => x.au.holdFrame) h⟩
theorem State.tbu_of_unsounded (h : t.unsounded = s.unsounded) : t.tbu = s.tbu := congrArg (fun x => x.tbu) h
theorem State.ce_of_unsounded (h : t.unsounded = s.unsounded) : t.ce = s.ce := congrArg (fun x => x.ce) h
theorem State.lu_of_unsounded (h : t.unsounded = s.unsounded) : t.lu = s.lu := congrArg (fun x => x.lu) h
theorem State.pt_of_unsounded (h : t.unsounded = s.unsounded) : t.pt = s.pt := congrArg (fun x => x.pt) h
theorem State.st_of_unsounded (h : t.unsounded = s.unsounded) : t.st = s.st := congrArg (fun x => x.st) h
theorem State.faultCount_of_unsounded (h : t.unsounded = s.unsounded) {k : FaultKind} (hk : k.offMap = true) :
    t.faultCount k = s.faultCount k :=
  State.faultCount_of_filter FaultKind.offMap hk (congrArg (fun x => x.biu.faults) h)
end

section
variable (s : State)

@[simp] theorem State.onCm_unmapped (g : Cm → Cm) : (s.onCm g).unmapped = s.unmapped := rfl
@[simp] theorem State.onAu_unsounded (g : Au → Au) : (s.onAu g).unsounded = s.unsounded := rfl
@[simp] theorem State.onCm_unsounded (g : Cm → Cm) : (s.onCm g).unsounded = s.unsounded := rfl

theorem State.raise_unmapped {k : FaultKind} (hk : k.offMap = false) (d : Option FaultDetail) :
    (s.raise k d).unmapped = s.unmapped := by
  unfold State.unmapped
  simp only [State.raise_biu, raiseIn_filter FaultKind.offMap hk]
  rfl

@[simp] theorem State.arrive_unmapped (c : ReqClass) (r : Request) :
    (s.onSmc fun m => m.arrive c r).unmapped = s.unmapped := by
  unfold State.unmapped
  simp only [State.onSmc_smc, Smc.arrive_outer]
  rfl

@[simp] theorem State.issueMap_unmapped : s.issueMap.unmapped = s.unmapped := by
  unfold State.issueMap
  split
  · split
    · rw [State.onCm_unmapped, State.arrive_unmapped]
    · rfl
  · rfl

@[simp] theorem State.popMap_unmapped : s.popMap.unmapped = s.unmapped := by simp [State.popMap]

@[simp] theorem State.raiseStoreFull_unmapped (g q : Nat) : (s.raiseStoreFull g q).unmapped = s.unmapped := by
  rw [State.raiseStoreFull, State.onCm_unmapped, State.raise_unmapped s rfl]

@[simp] theorem State.openFill_unmapped (g q p : Nat) (f : Bool) : (s.openFill g q p f).unmapped = s.unmapped := by
  simp [State.openFill]

@[simp] theorem State.queueRequest_unmapped : s.queueRequest.unmapped = s.unmapped := by
  unfold State.queueRequest
  split
  · split <;> rfl
  · rfl

@[simp] theorem State.queueRequests_unmapped : s.queueRequests.unmapped = s.unmapped := by simp [State.queueRequests]

@[simp] theorem State.freeFill_unmapped (id : Nat) : (s.freeFill id).unmapped = s.unmapped := rfl
@[simp] theorem State.dropServe_unmapped (id : Nat) : (s.dropServe id).unmapped = s.unmapped := rfl

theorem State.dropServes_unmapped (l : List Serve) :
    (l.foldl (fun s r => s.dropServe r.id) s).unmapped = s.unmapped :=
  foldl_keeps State.unmapped (fun (s : State) (r : Serve) => s.dropServe r.id) (fun _ _ => rfl) l s

/-- A release reaches the voices besides the content map (R110, R122). -/
@[simp] theorem State.releaseOne_unsounded (g : Nat) : (s.releaseOne g).unsounded = s.unsounded := by
  unfold State.releaseOne
  simp only [State.onAu_unsounded, State.onCm_unsounded]
  refine State.unsounded_of_unmapped ?_
  rw [State.dropServes_unmapped, foldl_keeps State.unmapped (fun (s : State) (f : Fill) => s.freeFill f.id) fun _ _ => rfl]
  rfl

@[simp] theorem State.release_unsounded (gs : List Nat) : (s.release gs).unsounded = s.unsounded := by
  unfold State.release
  rw [State.unsounded_of_unmapped (State.issueMap_unmapped _), State.onCm_unsounded,
    foldl_keeps State.unsounded _ fun t g => t.releaseOne_unsounded g]

@[simp] theorem State.startFetch_unmapped (g q : Nat) : (s.startFetch g q).unmapped = s.unmapped := by
  unfold State.startFetch
  split
  · rfl
  · split <;> simp

/-- A lookup touches the content map, the memory controller's slots and STORE_FULL alone (R115). -/
@[simp] theorem State.lookup_unmapped (who : Asker) (g off : Nat) (k : SegType) :
    (s.lookup who g off k).1.unmapped = s.unmapped := by
  unfold State.lookup
  split
  · rfl
  · split
    · rfl
    · split
      · rfl
      · dsimp only
        split
        · split <;> simp
        · simp
        · rfl
        · rfl

@[simp] theorem State.applyChange_unmapped (x : Change) : (s.applyChange x).unmapped = s.unmapped := by
  unfold State.applyChange
  split
  · split <;> simp
  · split
    · rw [State.issueMap_unmapped, State.raise_unmapped _ rfl, State.freeFill_unmapped, State.onCm_unmapped]
    · rfl

@[simp] theorem State.makeChange_unmapped (x : Change) : (s.makeChange x).unmapped = s.unmapped := by
  unfold State.makeChange
  split <;> simp

@[simp] theorem State.initMap_unmapped : s.initMap.unmapped = s.unmapped := by
  unfold State.initMap
  split <;> simp

@[simp] theorem State.serveAnswer_unmapped (id : Nat) (a : Answer) : (s.serveAnswer id a).unmapped = s.unmapped := by
  unfold State.serveAnswer
  split <;> rfl

@[simp] theorem State.serveLookup_unmapped (r : Serve) : (s.serveLookup r).1.unmapped = s.unmapped :=
  s.lookup_unmapped _ _ _ _

@[simp] theorem State.cueLookup_unmapped (p : ReadPos) : (s.cueLookup p).1.unmapped = s.unmapped := by
  unfold State.cueLookup
  split
  · rfl
  · exact s.lookup_unmapped _ _ _ _

@[simp] theorem State.mapAccessDone_unmapped : s.mapAccessDone.unmapped = s.unmapped := by
  unfold State.mapAccessDone
  split
  · simp
  · split <;> simp
  · rfl

/-! ## The audio unit (spec/05) -/

@[simp] theorem Au.nextFill_unfilled (a : Au) (ws l : List Want) :
    ({ (a.nextFill ws l).1 with slots := Vector.replicate 32 {}, fill := none, passed := [] } : Au) =
      { a with slots := Vector.replicate 32 {}, fill := none, passed := [] } := by
  induction l generalizing a with
  | nil => rfl
  | cons w rest ih =>
    unfold Au.nextFill
    split
    · exact ih a
    · split
      · rfl
      · exact ih _

theorem State.onAu_unfilled {g : Au → Au}
    (h : ({ g s.au with slots := Vector.replicate 32 {}, fill := none, passed := [] } : Au) =
      { s.au with slots := Vector.replicate 32 {}, fill := none, passed := [] }) :
    (s.onAu g).unfilled = s.unfilled := by
  show ({ s.unmapped with au := _ } : State) = _
  rw [State.onAu_au, h]
  rfl

@[simp] theorem State.fillAnswer_unfilled (f : AudioFill) (a : Answer) : (s.fillAnswer f a).unfilled = s.unfilled := by
  unfold State.fillAnswer
  split
  · rfl
  · split
    · exact (State.unfilled_of_unmapped (State.arrive_unmapped _ _ _)).trans (s.onAu_unfilled rfl)
    · exact s.onAu_unfilled rfl
  all_goals exact s.onAu_unfilled rfl

@[simp] theorem State.fillLookup_unfilled (f : AudioFill) : (s.fillLookup f).1.unfilled = s.unfilled :=
  State.unfilled_of_unmapped (s.lookup_unmapped _ _ _ _)

@[simp] theorem State.fillLoop_unfilled (n : Nat) : (s.fillLoop n).unfilled = s.unfilled := by
  induction n generalizing s with
  | zero => rfl
  | succ n ih =>
    unfold State.fillLoop
    have found := s.au.nextFill_unfilled s.wantsNow s.wantsNow
    split
    · rfl
    · split
      · rename_i e
        rw [e] at found
        exact s.onAu_unfilled found
      · rename_i e
        rw [e] at found
        rw [ih, State.fillAnswer_unfilled, State.fillLookup_unfilled]
        exact s.onAu_unfilled found

@[simp] theorem State.fillSlots_unfilled : s.fillSlots.unfilled = s.unfilled := s.fillLoop_unfilled 128

@[simp] theorem State.considerFill_unfilled : s.considerFill.unfilled = s.unfilled := by
  rw [State.considerFill, State.unfilled_of_unmapped (State.queueRequests_unmapped _), State.fillSlots_unfilled]

@[simp] theorem State.fillWalkAnswer_unfilled (a : Answer) : (s.fillWalkAnswer a).unfilled = s.unfilled := by
  unfold State.fillWalkAnswer
  split <;> simp

@[simp] theorem State.rowReadDone_unfilled (bytes : List Byte) : (s.rowReadDone bytes).unfilled = s.unfilled := by
  unfold State.rowReadDone
  split
  · split
    · rw [State.considerFill_unfilled]
      exact s.onAu_unfilled rfl
    · rfl
  · simp

@[simp] theorem State.lookAheadStep_unfilled : s.lookAheadStep.unfilled = s.unfilled := by
  rw [State.lookAheadStep, State.fillSlots_unfilled]
  exact s.onAu_unfilled rfl

@[simp] theorem State.takeVoiceAction_unsounded (x : Action) : (s.takeVoiceAction x).unsounded = s.unsounded := by
  unfold State.takeVoiceAction
  dsimp only
  split
  · rw [State.unsounded_of_unfilled (State.fillSlots_unfilled _), State.onAu_unsounded]
  · rfl

@[simp] theorem State.takeVoiceActions_unsounded (acts : List Action) :
    (s.takeVoiceActions acts).unsounded = s.unsounded :=
  foldl_keeps State.unsounded _ (fun t x => t.takeVoiceAction_unsounded x) acts s

/-- The pass of the audio unit reaches the unit and what its lookups write (R101). -/
@[simp] theorem State.auPass_unsounded (now k : Nat) (c : Int) (handed : ShowState) (entered resumed : Bool)
    (acts : List Action) : (s.auPass now k c handed entered resumed acts).unsounded = s.unsounded := by
  unfold State.auPass
  rw [State.unsounded_of_unfilled (State.lookAheadStep_unfilled _), State.onAu_unsounded,
    State.takeVoiceActions_unsounded, State.onAu_unsounded]

/-! ## The hydraulics unit (spec/03) -/

/-- The state without what the hydraulics unit's pass writes: the unit, the claim and PUMP_NO_FEEDBACK. -/
def State.unpumped (s : State) : State :=
  { s with hu := {}, liu := { s.liu with claim := none },
           biu := { s.biu with faults := s.biu.faults.filter fun r => r.kind != .pumpNoFeedback } }

@[simp] theorem State.onHu_unpumped (g : Hu → Hu) : (s.onHu g).unpumped = s.unpumped := rfl

@[simp] theorem State.giveUpClaim_unpumped : s.giveUpClaim.unpumped = s.unpumped := by
  unfold State.giveUpClaim State.unpumped
  have e : ∀ l : Liu, { l.withdrawClaim with claim := none } = { l with claim := none } := by
    intro l
    unfold Liu.withdrawClaim
    split <;> rfl
  simp [e]

@[simp] theorem State.settleClaim_unpumped : s.settleClaim.unpumped = s.unpumped := by
  unfold State.settleClaim
  split
  · rfl
  · split <;> simp

@[simp] theorem State.recheckClaim_unpumped : s.recheckClaim.unpumped = s.unpumped := by
  unfold State.recheckClaim
  split
  · split <;> simp
  · rfl

@[simp] theorem State.queueClaim_unpumped : s.queueClaim.unpumped = s.unpumped := by
  unfold State.queueClaim
  split
  · split <;> rfl
  · rfl

@[simp] theorem State.raiseFeedbackLocks_unpumped (before : Hu) :
    (s.raiseFeedbackLocks before).unpumped = s.unpumped := by
  unfold State.raiseFeedbackLocks
  refine foldl_keeps State.unpumped _ (fun t n => ?_) _ _
  split
  · unfold State.unpumped
    simp only [State.raise_biu, raiseIn_filter (fun k => k != .pumpNoFeedback) (k := .pumpNoFeedback) rfl]
    rfl
  · rfl

/-- The pass of the hydraulics unit reaches the unit, the claim and PUMP_NO_FEEDBACK alone (R51). -/
@[simp] theorem State.huPass_unpumped (now : Nat) (handed : ShowState) (jets : List Action) :
    (s.huPass now handed jets).unpumped = s.unpumped := by
  unfold State.huPass
  simp only [State.queueClaim_unpumped, State.recheckClaim_unpumped, State.settleClaim_unpumped, State.onHu_unpumped,
    State.raiseFeedbackLocks_unpumped]

@[simp] theorem State.huDry_unpumped : s.huDry.unpumped = s.unpumped := by simp [State.huDry]
@[simp] theorem State.huNormal_unpumped : s.huNormal.unpumped = s.unpumped := rfl
@[simp] theorem State.huHalt_unpumped : s.huHalt.unpumped = s.unpumped := by simp [State.huHalt]
@[simp] theorem State.huZeroHeights_unpumped : s.huZeroHeights.unpumped = s.unpumped := rfl

/-- Settling and the checks of a claim move no pump. -/
@[simp] theorem State.giveUpClaim_pumps : s.giveUpClaim.hu.pumps = s.hu.pumps := rfl

@[simp] theorem State.settleClaim_pumps : s.settleClaim.hu.pumps = s.hu.pumps := by
  unfold State.settleClaim
  split
  · rfl
  · split <;> rfl

@[simp] theorem State.recheckClaim_pumps : s.recheckClaim.hu.pumps = s.hu.pumps := by
  unfold State.recheckClaim
  split
  · split <;> rfl
  · rfl

@[simp] theorem State.queueClaim_pumps : s.queueClaim.hu.pumps = s.hu.pumps := by
  unfold State.queueClaim
  split
  · split <;> rfl
  · rfl

@[simp] theorem State.raiseFeedbackLocks_hu (before : Hu) : (s.raiseFeedbackLocks before).hu = s.hu := by
  unfold State.raiseFeedbackLocks
  refine foldl_keeps State.hu _ (fun t n => ?_) _ _
  split <;> rfl
end

section
variable {s t : State}
theorem State.tbu_of_unpumped (h : t.unpumped = s.unpumped) : t.tbu = s.tbu := congrArg (fun x => x.tbu) h
theorem State.ce_of_unpumped (h : t.unpumped = s.unpumped) : t.ce = s.ce := congrArg (fun x => x.ce) h
theorem State.lu_of_unpumped (h : t.unpumped = s.unpumped) : t.lu = s.lu := congrArg (fun x => x.lu) h
theorem State.au_of_unpumped (h : t.unpumped = s.unpumped) : t.au = s.au := congrArg (fun x => x.au) h
theorem State.cm_of_unpumped (h : t.unpumped = s.unpumped) : t.cm = s.cm := congrArg (fun x => x.cm) h
theorem State.pt_of_unpumped (h : t.unpumped = s.unpumped) : t.pt = s.pt := congrArg (fun x => x.pt) h
theorem State.smc_of_unpumped (h : t.unpumped = s.unpumped) : t.smc = s.smc := congrArg (fun x => x.smc) h
theorem State.st_of_unpumped (h : t.unpumped = s.unpumped) : t.st = s.st := congrArg (fun x => x.st) h
theorem State.pending_of_unpumped (h : t.unpumped = s.unpumped) : t.pending = s.pending :=
  congrArg (fun x => x.pending) h
theorem State.faultCount_of_unpumped (h : t.unpumped = s.unpumped) {k : FaultKind} (hk : k ≠ .pumpNoFeedback) :
    t.faultCount k = s.faultCount k :=
  State.faultCount_of_filter (fun k => k != .pumpNoFeedback) (by simpa using hk) (congrArg (fun x => x.biu.faults) h)
theorem Hu.pump_of_pumps {h h' : Hu} (e : h'.pumps = h.pumps) (n : Channel) : h'.pump n = h.pump n := by
  unfold Hu.pump
  rw [e]
end

/-! ## Readings (spec/09, spec/10) -/

/-- The state without what a reading changes: the readings and their sources, the level and wind states with what they do
to the pumps, the claim and the lights. -/
def State.unread (s : State) : State :=
  { s with hu := {}, lu := {}, liu := { s.liu with claim := none }, pt := { peers := s.pt.peers },
           biu := { stopActive := s.biu.stopActive } }

section
variable {s t : State}
theorem State.unread_of_unpumped (h : t.unpumped = s.unpumped) : t.unread = s.unread := by
  have e : ∀ x : State, x.unread = x.unpumped.unread := fun _ => rfl
  rw [e t, e s, h]
theorem State.tbu_of_unread (h : t.unread = s.unread) : t.tbu = s.tbu := congrArg (fun x => x.tbu) h
theorem State.ce_of_unread (h : t.unread = s.unread) : t.ce = s.ce := congrArg (fun x => x.ce) h
theorem State.au_of_unread (h : t.unread = s.unread) : t.au = s.au := congrArg (fun x => x.au) h
theorem State.cm_of_unread (h : t.unread = s.unread) : t.cm = s.cm := congrArg (fun x => x.cm) h
theorem State.smc_of_unread (h : t.unread = s.unread) : t.smc = s.smc := congrArg (fun x => x.smc) h
theorem State.st_of_unread (h : t.unread = s.unread) : t.st = s.st := congrArg (fun x => x.st) h
theorem State.pending_of_unread (h : t.unread = s.unread) : t.pending = s.pending := congrArg (fun x => x.pending) h
theorem State.peers_of_unread (h : t.unread = s.unread) : t.pt.peers = s.pt.peers := congrArg (fun x => x.pt.peers) h
theorem State.liu_of_unread (h : t.unread = s.unread) : { t.liu with claim := none } = { s.liu with claim := none } :=
  congrArg (fun x => x.liu) h
end

section
variable (s : State)

@[simp] theorem State.onHu_unread (g : Hu → Hu) : (s.onHu g).unread = s.unread := rfl
@[simp] theorem State.onLu_unread (g : Lu → Lu) : (s.onLu g).unread = s.unread := rfl
@[simp] theorem State.raise_unread (k : FaultKind) (d : Option FaultDetail) : (s.raise k d).unread = s.unread := rfl

theorem State.onBiu_unread {g : Biu → Biu} (h : (g s.biu).stopActive = s.biu.stopActive) :
    (s.onBiu g).unread = s.unread := by
  show ({ s.unread with biu := { stopActive := (g s.biu).stopActive } } : State) = _
  rw [h]
  rfl

@[simp] theorem Biu.evalWind_stopActive (P : Params) (w : Nat) (b : Biu) : (b.evalWind P w).stopActive = b.stopActive := by
  unfold Biu.evalWind
  repeat' split
  all_goals rfl

@[simp] theorem Biu.stepQuiet_stopActive (P : Params) (b : Biu) : (b.stepQuiet P).stopActive = b.stopActive := by
  unfold Biu.stepQuiet
  repeat' split
  all_goals rfl

@[simp] theorem Biu.sampleLevel_stopActive (P : Params) (i : Nat) (b : Biu) :
    (b.sampleLevel P i).stopActive = b.stopActive := by
  unfold Biu.sampleLevel
  repeat' split
  all_goals rfl

@[simp] theorem Biu.sampleWind_stopActive (P : Params) (i : Nat) (b : Biu) :
    (b.sampleWind P i).stopActive = b.stopActive := by
  unfold Biu.sampleWind
  split
  · rfl
  · dsimp only
    split <;> rfl

@[simp] theorem State.huDry_unread : s.huDry.unread = s.unread := State.unread_of_unpumped s.huDry_unpumped
@[simp] theorem State.huNormal_unread : s.huNormal.unread = s.unread := rfl

@[simp] theorem State.handWind_unread (w : Nat) : (s.handWind w).unread = s.unread :=
  s.onBiu_unread (Biu.evalWind_stopActive _ _ _)

@[simp] theorem State.evalLevel_unread (l : Nat) : (s.evalLevel l).unread = s.unread := by
  have turn : ∀ x : LevelState, (s.onBiu fun b => { b with levelState := x }).unread = s.unread :=
    fun _ => s.onBiu_unread rfl
  unfold State.evalLevel
  split
  · split
    · dsimp only
      split
      · rw [State.huDry_unread, turn]
      · rw [State.raise_unread, State.huDry_unread, turn]
    · rfl
  · split
    · rw [State.huNormal_unread, turn]
    · rfl

@[simp] theorem State.handLevel_unread (l : Nat) : (s.handLevel l).unread = s.unread := by
  rw [State.handLevel, State.onLu_unread, State.evalLevel_unread]
  exact s.onBiu_unread rfl

@[simp] theorem State.recomputeWind_unread : s.recomputeWind.unread = s.unread := by
  unfold State.recomputeWind
  dsimp only
  split <;> split
  · rfl
  · rfl
  · rw [State.handWind_unread]
    rfl
  · rw [State.handWind_unread]
    rfl

@[simp] theorem State.recomputeLevel_unread : s.recomputeLevel.unread = s.unread := by
  unfold State.recomputeLevel
  dsimp only
  split <;> split
  · rfl
  · rfl
  · rw [State.handLevel_unread]
    rfl
  · rw [State.handLevel_unread]
    rfl

@[simp] theorem State.sampleReadings_unread (i : BoundaryInput) : (s.sampleReadings i).unread = s.unread := by
  have level : (s.onBiu (Biu.sampleLevel s.params i.loop)).unread = s.unread :=
    s.onBiu_unread (Biu.sampleLevel_stopActive _ _ _)
  have wind : ∀ x : State, (x.onBiu (Biu.sampleWind s.params i.pulses)).unread = x.unread :=
    fun x => x.onBiu_unread (Biu.sampleWind_stopActive _ _ _)
  unfold State.sampleReadings
  dsimp only
  split <;> split <;> simp [level, wind]

/-- The inputs of a boundary reach the readings and what depends on them (R177, R178, R181). -/
@[simp] theorem State.inputsBoundary_unread (i : BoundaryInput) : (s.inputsBoundary i).unread = s.unread := by
  rw [State.inputsBoundary, State.onBiu_unread _ (Biu.stepQuiet_stopActive _ _), State.sampleReadings_unread]

/-- Every peer record one own beacon boundary older. -/
def Pt.aged (t : Pt) : Vector (Option Peer) 32 := Vector.ofFn fun i => t.peers[i].bind Peer.older

theorem State.recomputeWindIf_unread (p : Prop) [Decidable p] :
    (if p then s.recomputeWind else s).unread = s.unread := by
  split <;> simp

theorem State.recomputeLevelIf_unread (p : Prop) [Decidable p] :
    (if p then s.recomputeLevel else s).unread = s.unread := by
  split <;> simp

theorem State.agePeers_unread : s.agePeers.unread = (s.onPt fun t => { t with peers := t.aged }).unread := by
  unfold State.agePeers
  dsimp only
  rw [State.recomputeLevelIf_unread, State.recomputeWindIf_unread]
  rfl

theorem State.recordBeacon_unread (q : Position) (f : BeaconFields) (sof : Int) :
    (s.recordBeacon q f sof).unread = (s.onPt fun t =>
      { t with peers := s.pt.peers.set q (some (peerOf s.params s.tbu.frameNo f sof)) }).unread := by
  have level : ∀ (x : State) (p : Prop) [Decidable p], (if p then x else x.recomputeLevel).unread = x.unread := by
    intro x p _
    split <;> simp
  have wind : ∀ (x : State) (p : Prop) [Decidable p], (if p then x else x.recomputeWind).unread = x.unread := by
    intro x p _
    split <;> simp
  unfold State.recordBeacon
  dsimp only
  rw [level, wind]
  rfl

@[simp] theorem State.endOfListenReadings_unread : s.endOfListenReadings.unread = s.unread := by
  unfold State.endOfListenReadings
  dsimp only
  split <;> split <;> split <;> simp
end

end Sys2Proof.Machine
end

