-- ==== Sys2Proof/Proofs/Transitions.lean ====
section
/-!
The transitions of the show (spec/01, R11 to R21), block by block: what each makes of a pump, a channel and a voice, and of
the station; and the acceptance of a frame (spec/08, R161, R162).
-/
namespace Sys2Proof.Machine

/-! ## Pumps (R73) -/

@[simp] theorem Pump.halt_height (p : Pump) : p.halt.height = 0 := by
  cases h : p.state <;> simp [Pump.halt, Pump.stop, h]

/-- A halted pump neither turns nor is about to. -/
@[simp] theorem Pump.halt_inactive (p : Pump) : p.halt.state.active = false := by
  cases h : p.state <;> simp [Pump.halt, Pump.stop, PumpState.active, h]

theorem State.huHalt_pump (s : State) (n : Channel) : s.huHalt.hu.pump n = (s.hu.pump n).halt := by
  rw [State.huHalt, Hu.pump_of_pumps (State.settleClaim_pumps _), State.onHu_hu, Hu.mapPumps_pump]

/-! ## Lights (R82, R88 to R90) -/

section
variable (l : Lu) (P : Params)

@[simp] theorem Lu.mapChannels_channel (g : Fin 12 → Fin 4 → LightChannel → LightChannel) (n : Fin 48) :
    (l.mapChannels g).channels[n] = g ⟨n.val / 4, by omega⟩ ⟨n.val % 4, by omega⟩ l.channels[n] := by
  simp [Lu.mapChannels]

@[simp] theorem outputValue_zero (fx : FixtureParams) (t : Nat) (e : Bool) : outputValue fx t e 0 = 0 := by
  simp [outputValue]

/-- The outputs recomputed, every other value of a channel stays. -/
theorem Lu.recompute_channel (n : Fin 48) : ∃ v, (l.recompute P).channels[n] = { l.channels[n] with output := v } ∧
    (l.channels[n].level = 0 → v = 0) := by
  refine ⟨_, Lu.mapChannels_channel l _ n, fun h => ?_⟩
  rw [h, outputValue_zero]

@[simp] theorem Lu.mapChannels_follow (g : Fin 12 → Fin 4 → LightChannel → LightChannel) :
    (l.mapChannels g).follow = l.follow := by
  rw [Lu.mapChannels]

@[simp] theorem Lu.recompute_follow : (l.recompute P).follow = l.follow := Lu.mapChannels_follow _ _
@[simp] theorem Lu.clearFollow_channels : l.clearFollow.channels = l.channels := rfl

@[simp] theorem LightChannel.apply_level_now (t : Nat) (c : LightChannel) : (c.apply t 0).level = t := rfl
@[simp] theorem LightChannel.apply_fade (t n : Nat) (c : LightChannel) : (c.apply t n).fade = n := by
  unfold LightChannel.apply
  split
  · rename_i h
    exact h.symm
  · rfl
@[simp] theorem LightChannel.apply_target (t n : Nat) (c : LightChannel) : (c.apply t n).target = t := by
  unfold LightChannel.apply
  split <;> rfl

/-- Dark (R89, R90): level and output 0. -/
theorem Lu.dark_channel (n : Fin 48) : (l.dark P).channels[n].level = 0 ∧ (l.dark P).channels[n].output = 0 := by
  obtain ⟨v, e, z⟩ := Lu.recompute_channel (l.clearFollow.mapChannels fun _ _ c => c.apply 0 0) P n
  rw [Lu.mapChannels_channel] at e z
  rw [Lu.dark, e]
  exact ⟨rfl, z rfl⟩

/-- The stop fade of `fade` frames (R88). -/
theorem Lu.stopFade_channel (fade : Nat) (n : Fin 48) :
    (l.stopFade P fade).channels[n].target = 0 ∧
      (l.channels[n].level = 0 ∨ fade = 0 →
        (l.stopFade P fade).channels[n].level = 0 ∧ (l.stopFade P fade).channels[n].fade = 0) ∧
      (l.channels[n].level ≠ 0 → fade ≠ 0 → (l.stopFade P fade).channels[n].level = l.channels[n].level ∧
        (l.stopFade P fade).channels[n].start = l.channels[n].level ∧
        (l.stopFade P fade).channels[n].fade = fade ∧ (l.stopFade P fade).channels[n].elapsed = 0) := by
  obtain ⟨v, e, -⟩ := Lu.recompute_channel
    (l.clearFollow.mapChannels fun _ _ c => if c.level = 0 then c.apply 0 0 else c.apply 0 fade) P n
  rw [Lu.mapChannels_channel, Lu.clearFollow_channels] at e
  rw [Lu.stopFade, e]
  refine ⟨?_, ?_, ?_⟩
  · dsimp only
    split <;> simp
  · intro h
    dsimp only
    split
    · exact ⟨rfl, rfl⟩
    · obtain rfl := h.resolve_left ‹_›
      exact ⟨rfl, rfl⟩
  · intro lit n0
    rw [if_neg lit, LightChannel.apply, if_neg n0]
    exact ⟨rfl, rfl, rfl, rfl⟩

/-- Halt levels (R89). -/
theorem Lu.halt_channel {f : Fin 12} {n : Fin 48} (hn : n.val / 4 = f.val) (present : P.fixtures[f].present = true) :
    (l.halt P).channels[n].level = P.fixtures[f].halt * 257 ∧ (l.halt P).channels[n].fade = 0 := by
  obtain ⟨v, e, -⟩ := Lu.recompute_channel (l.clearFollow.mapChannels fun f _ c =>
    if P.fixtures[f].present then c.apply (P.fixtures[f].halt * 257) 0 else c) P n
  have hf : (⟨n.val / 4, by omega⟩ : Fin 12) = f := Fin.ext hn
  rw [Lu.mapChannels_channel, hf, if_pos present] at e
  rw [Lu.halt, e]
  exact ⟨rfl, rfl⟩
end

/-! ## Voices (R105, R106) -/

/-- A voice that ends with the show does not play on, and has no prime record. -/
theorem Voice.endShow_cases (n : Nat) (v : Voice) :
    (v.endShow n).state ≠ .playing ∧ (v.endShow n).state ≠ .priming ∧ (v.endShow n).prime = none := by
  have out : ∀ w : Voice, w.prime = none →
      (w.fadeOut n).state ≠ .playing ∧ (w.fadeOut n).state ≠ .priming ∧ (w.fadeOut n).prime = none := by
    intro w hw
    unfold Voice.fadeOut Voice.rampTo
    split
    · simp [Voice.leave, hw]
    · simp [*]
  unfold Voice.endShow
  dsimp only
  split
  · exact out _ rfl
  · exact out _ rfl
  · rename_i h
    split
    · simp [h]
    · simp [Voice.leave]
  · simp [Voice.leave]
  · simp [Voice.leave]

@[simp] theorem Voice.silence_state (v : Voice) : v.silence.state = .idle := rfl

theorem Au.onVoices_voice (a : Au) (g : Voice → Voice) (v : VoiceId) : (a.onVoices g).voice v = g (a.voice v) := by
  cases v <;> rfl

/-! ## The station (R11 to R21) -/

section
variable (s : State)

theorem State.enterEnding_endsShow (fade : Nat) : s.endsShow fade (s.enterEnding fade) := by
  have ht : (s.enterEnding fade).tbu = { s.tbu with state := .ending, hold := {} } := by
    simp [State.enterEnding, State.huZeroHeights]
  have hc : (s.enterEnding fade).ce = s.ce.giveUp := by simp [State.enterEnding, State.huZeroHeights]
  have hl : (s.enterEnding fade).lu = s.lu.stopFade s.params fade := by simp [State.enterEnding, State.huZeroHeights]
  have hp : ∀ n, (s.enterEnding fade).hu.pump n = { s.hu.pump n with height := 0 } := by
    simp [State.enterEnding, State.huZeroHeights]
  have hv : ∀ v, (s.enterEnding fade).au.voice v = (s.au.voice v).endShow fade := by
    simp [State.enterEnding, State.huZeroHeights, Au.onVoices_voice]
  have dark : ∀ f : Fin 12, (s.lu.stopFade s.params fade).follow[f] = none := by simp [Lu.stopFade, Lu.clearFollow]
  unfold State.endsShow
  rw [ht, hc, hl]
  refine ⟨rfl, rfl, rfl, rfl, rfl, rfl, fun n => ?_, fun n => Lu.stopFade_channel s.lu s.params fade n, dark,
    fun v => ?_, ?_⟩
  · rw [hp]
    exact ⟨rfl, rfl⟩
  · rw [hv]
    exact Voice.endShow_cases fade _
  simp [State.enterEnding, State.huZeroHeights]

@[simp] theorem State.huHalt_tbu : s.huHalt.tbu = s.tbu := State.tbu_of_unpumped s.huHalt_unpumped
@[simp] theorem State.huHalt_ce : s.huHalt.ce = s.ce := State.ce_of_unpumped s.huHalt_unpumped
@[simp] theorem State.huHalt_lu : s.huHalt.lu = s.lu := State.lu_of_unpumped s.huHalt_unpumped
@[simp] theorem State.huHalt_au : s.huHalt.au = s.au := State.au_of_unpumped s.huHalt_unpumped
@[simp] theorem State.huHalt_cm : s.huHalt.cm = s.cm := State.cm_of_unpumped s.huHalt_unpumped
@[simp] theorem State.huHalt_pt : s.huHalt.pt = s.pt := State.pt_of_unpumped s.huHalt_unpumped
@[simp] theorem State.huHalt_smc : s.huHalt.smc = s.smc := State.smc_of_unpumped s.huHalt_unpumped
@[simp] theorem State.huHalt_st : s.huHalt.st = s.st := State.st_of_unpumped s.huHalt_unpumped
@[simp] theorem State.huHalt_pending : s.huHalt.pending = s.pending := State.pending_of_unpumped s.huHalt_unpumped
@[simp] theorem State.huHalt_params : s.huHalt.params = s.params := by simp [State.params]

@[simp] theorem State.settleClaim_biu : s.settleClaim.biu = s.biu := by
  unfold State.settleClaim
  split
  · rfl
  · split <;> rfl

@[simp] theorem State.huHalt_biu : s.huHalt.biu = s.biu := by
  rw [State.huHalt, State.settleClaim_biu, State.onHu_biu]

@[simp] theorem Liu.withdrawClaim_claimBegun (l : Liu) : l.withdrawClaim.claimBegun = l.claimBegun := by
  unfold Liu.withdrawClaim
  split <;> rfl

/-- No halted pump keeps the claim slot (R66, R73): a claim not begun is withdrawn with it. -/
theorem State.huHalt_claim : s.huHalt.hu.claimHolder = none ∧
    s.huHalt.liu = (if s.hu.claimHolder.isSome then s.liu.withdrawClaim else s.liu) := by
  have gone : ∀ n : Channel, ((s.hu.mapPumps fun _ p => p.halt).pump n).state.active = false := by
    intro n
    rw [Hu.mapPumps_pump]
    exact Pump.halt_inactive _
  unfold State.huHalt State.settleClaim
  rw [State.onHu_hu]
  cases h : s.hu.claimHolder with
  | none => simp [h]
  | some n =>
    have idle := gone n
    simp only [Hu.mapPumps_claimHolder, h]
    split
    · rename_i e
      rw [e] at idle
      cases idle
    · rename_i e
      rw [e] at idle
      cases idle
    · exact ⟨rfl, rfl⟩

theorem State.enterHalted_haltsTo : s.haltsTo s.enterHalted := by
  have ht : s.enterHalted.tbu = s.tbu.discardShow .halted := by simp [State.enterHalted]
  have hc : s.enterHalted.ce = s.ce.giveUp := by simp [State.enterHalted]
  have hl : s.enterHalted.lu = s.lu.halt s.params := by simp [State.enterHalted]
  have hp : ∀ n, s.enterHalted.hu.pump n = (s.hu.pump n).halt := by simp [State.enterHalted, State.huHalt_pump]
  have hv : ∀ v, s.enterHalted.au.voice v = (s.au.voice v).endShow 1 := by
    simp [State.enterHalted, Au.onVoices_voice]
  unfold State.haltsTo
  rw [ht, hc, hl]
  refine ⟨rfl, rfl, rfl, rfl, rfl, rfl, rfl, rfl, rfl, rfl, fun n => ?_, fun f n hn present => ?_, fun v => ?_,
    by simp [State.enterHalted], by simp [State.enterHalted], by simp [State.enterHalted], by simp [State.enterHalted],
    by simp [State.enterHalted]⟩
  · rw [hp]
    exact ⟨Pump.halt_inactive _, Pump.halt_height _⟩
  · exact Lu.halt_channel s.lu s.params hn present
  · rw [hv]
    exact ⟨(Voice.endShow_cases 1 _).1, (Voice.endShow_cases 1 _).2.2⟩

@[simp] theorem State.enterHalted_biu : s.enterHalted.biu = s.biu := by simp [State.enterHalted]

@[simp] theorem State.enterStandby_tbu : s.enterStandby.tbu = s.tbu.discardShow .standby := by simp [State.enterStandby]
@[simp] theorem State.enterStandby_ce : s.enterStandby.ce = s.ce := by simp [State.enterStandby]
@[simp] theorem State.enterStandby_lu : s.enterStandby.lu = s.lu.dark s.params := by simp [State.enterStandby]
@[simp] theorem State.enterStandby_au : s.enterStandby.au = s.au.onVoices Voice.silence := by simp [State.enterStandby]
@[simp] theorem State.enterStandby_cm : s.enterStandby.cm = s.cm := by simp [State.enterStandby]
@[simp] theorem State.enterStandby_pt : s.enterStandby.pt = s.pt := by simp [State.enterStandby]
@[simp] theorem State.enterStandby_smc : s.enterStandby.smc = s.smc := by simp [State.enterStandby]
@[simp] theorem State.enterStandby_biu : s.enterStandby.biu = s.biu := by simp [State.enterStandby]
@[simp] theorem State.enterStandby_st : s.enterStandby.st = s.st := by simp [State.enterStandby]
@[simp] theorem State.enterStandby_pending : s.enterStandby.pending = s.pending := by simp [State.enterStandby]
@[simp] theorem State.enterStandby_pump (n : Channel) : s.enterStandby.hu.pump n = (s.hu.pump n).halt := by
  simp [State.enterStandby, State.huHalt_pump]
theorem State.enterStandby_claim : s.enterStandby.hu.claimHolder = none ∧
    s.enterStandby.liu = (if s.hu.claimHolder.isSome then s.liu.withdrawClaim else s.liu) := by
  simp only [State.enterStandby, State.onAu_hu, State.onLu_hu, State.onAu_liu, State.onLu_liu]
  exact State.huHalt_claim (s.onTbu fun t => t.discardShow .standby)
end

/-! ## Acceptance of a frame (R161, R162) -/

section
variable (s : State)

@[simp] theorem State.afterFrame_tbu : s.afterFrame.tbu = s.tbu := rfl
@[simp] theorem State.afterFrame_ce : s.afterFrame.ce = s.ce := rfl
@[simp] theorem State.afterFrame_hu : s.afterFrame.hu = s.hu := rfl
@[simp] theorem State.afterFrame_lu : s.afterFrame.lu = s.lu := rfl
@[simp] theorem State.afterFrame_au : s.afterFrame.au = s.au := rfl
@[simp] theorem State.afterFrame_cm : s.afterFrame.cm = s.cm := rfl
@[simp] theorem State.afterFrame_pt : s.afterFrame.pt = s.pt := rfl
@[simp] theorem State.afterFrame_smc : s.afterFrame.smc = s.smc := rfl
@[simp] theorem State.afterFrame_biu : s.afterFrame.biu = s.biu := rfl
@[simp] theorem State.afterFrame_st : s.afterFrame.st = s.st := rfl
@[simp] theorem State.afterFrame_pending : s.afterFrame.pending = s.pending := rfl
@[simp] theorem State.afterFrame_own : s.afterFrame.own = s.own := rfl
@[simp] theorem State.afterFrame_params : s.afterFrame.params = s.params := rfl
@[simp] theorem State.afterFrame_live : s.afterFrame.live = s.live := rfl
@[simp] theorem State.afterFrame_liu : s.afterFrame.liu = s.liu.frameHeard := rfl

variable {s} {p : Position}

/-- A frame of another station is delivered. -/
theorem State.received_of_hears (h : s.hears p) (deliver : State → State) :
    s.received p deliver = deliver s.afterFrame := by
  obtain ⟨live, other⟩ := h
  simp [State.received, live, other, State.afterFrame]

/-- A frame of own position is not. -/
theorem State.received_own (live : s.live = true) (deliver : State → State) :
    s.received s.own deliver = s.afterFrame.positionConflict := by
  simp [State.received, live, State.afterFrame]

/-- A station that does not receive ignores it. -/
theorem State.received_deaf (h : s.live = false) (deliver : State → State) : s.received p deliver = s := by
  simp [State.received, h]

/-- The cases of an acceptance. -/
theorem State.received_cases (s : State) (p : Position) (deliver : State → State) :
    s.received p deliver = s ∨ s.received p deliver = s.afterFrame.positionConflict ∨
      s.received p deliver = deliver s.afterFrame := by
  unfold State.received
  dsimp only
  split
  · exact .inl rfl
  · split
    · exact .inr (.inl rfl)
    · exact .inr (.inr rfl)

/-- Every frame command is the acceptance of a frame of its sender. -/
theorem exec_eq_received {c : Instr} (h : sender? c = some p) (s : State) :
    ∃ deliver : State → State, exec c s = .next (s.received p deliver) := by
  cases c <;> simp only [sender?, Option.some.injEq, reduceCtorEq] at h
  all_goals
    subst h
    exact ⟨_, rfl⟩
end

end Sys2Proof.Machine
end

