-- ==== Sys2Proof/Proofs/Control.lean ====
section
/-!
The control frames (spec/01, R10 to R22) and the stop input (spec/10, R183): what is taken and what is ignored.
-/
namespace Sys2Proof.Machine

/-- Settles O1. -/
theorem stepRunsFrontCommand : Obligations.StepRunsFrontCommand := by
  refine ⟨fun c rest s => rfl, fun s h => ?_⟩
  unfold step
  rw [h]

/-- Settles O2: power-on keeps of the state before it the queue alone. -/
theorem powerOnStartsFromNothing : Obligations.PowerOnStartsFromNothing := by
  intro strap stopOpen contacts s
  refine ⟨s.powerUp strap stopOpen contacts, rfl, rfl, rfl, rfl, rfl, rfl, fun n => ?_, fun n => ?_, rfl, rfl, rfl, rfl,
    rfl, rfl, fun c => ?_, rfl, rfl, rfl, fun n => ?_, rfl⟩
  · simp [State.driveOutput, State.powerUp, State.reset, Hu.pump]
  · simp [State.dimmingOutput, State.powerUp, State.reset]
  · cases c <;> rfl
  · simp [State.powerUp]

section
variable {s : State} {p : Position}

/-- A frame command heard runs the delivery on the state in which the reception is over. -/
theorem next_received_of_hears (h : s.hears p) (deliver : State → State) :
    (.next (s.received p deliver) : Answered) = .next (deliver s.afterFrame) :=
  congrArg _ (State.received_of_hears h deliver)

/-! ## WAKE, STANDBY and CLEAR_HALT (R11, R21) -/

theorem exec_standby_taken (h : s.hears p) (idle : s.tbu.state = .idle) :
    exec (.standby p) s = .next s.afterFrame.enterStandby :=
  (next_received_of_hears h _).trans (by simp [State.hearStandby, idle])

theorem State.clearable_iff : s.clearable = true ↔ s.tbu.state = .halted ∧ s.biu.stopActive = false ∧
    (∀ x, s.tbu.lastStop = some x → 2 ≤ x.boundaries) ∧ s.tbu.conflict = false := by
  have old : (s.tbu.lastStop.all fun x => decide (2 ≤ x.boundaries)) = true ↔
      ∀ x, s.tbu.lastStop = some x → 2 ≤ x.boundaries := by
    cases s.tbu.lastStop <;> simp
  simp [State.clearable, and_assoc, ← old]

theorem exec_clearHalt (h : s.hears p) : exec (.clearHalt p) s = .next s.afterFrame.hearClearHalt :=
  next_received_of_hears h _
end

/-- Settles O14. -/
theorem wakeStandbyClearHalt : Obligations.WakeStandbyClearHalt := by
  refine ⟨?_, ?_, ?_, ?_, ?_, ?_⟩
  · intro p s h standby valid conflict
    refine (next_received_of_hears h _).trans ?_
    simp [State.hearWake, State.wakeable, standby, valid, conflict, State.enterWarmup, State.onTbu]
  · intro p s h ignored
    refine (next_received_of_hears h _).trans ?_
    have : s.afterFrame.wakeable = false := by
      rcases ignored with h | h | h <;> simp [State.wakeable, h]
    simp [State.hearWake, this]
  · intro p s h idle
    refine ⟨_, exec_standby_taken h idle, ?_⟩
    have pumps : ∀ n, s.afterFrame.enterStandby.hu.pump n = (s.hu.pump n).halt := by simp
    have lights : s.afterFrame.enterStandby.lu = s.lu.dark s.params := by simp
    have voices : s.afterFrame.enterStandby.au = s.au.onVoices Voice.silence := by simp
    simp only [pumps, lights, voices, State.dimmingOutput]
    refine ⟨by simp [Tbu.discardShow], by simp [Tbu.discardShow], by simp [Tbu.discardShow], by simp [Tbu.discardShow],
      fun n => ⟨Pump.halt_inactive _, Pump.halt_height _⟩, fun n => Lu.dark_channel _ _ n, rfl, rfl, ?_⟩
    simp
  · intro p s h busy
    refine (next_received_of_hears h _).trans ?_
    simp [State.hearStandby, busy]
  · intro p s h halted input conflict old
    have clear : s.afterFrame.clearable = true := State.clearable_iff.mpr ⟨halted, input, old, conflict⟩
    refine ⟨s.afterFrame.haltedToIdle, (exec_clearHalt h).trans (by simp [State.hearClearHalt, clear]), rfl, ?_,
      rfl, rfl, rfl, rfl, rfl, rfl, rfl, rfl, rfl, rfl⟩
    exact fun n => Lu.dark_channel s.lu s.params n
  · intro p s h ignored
    have unclear : s.afterFrame.clearable = false := by
      rw [Bool.eq_false_iff, Ne, State.clearable_iff]
      rintro ⟨halted, input, old, conflict⟩
      rcases ignored with ne | active | held | ⟨x, e, young⟩
      · exact ne halted
      · exact absurd (active.symm.trans input) (by decide)
      · exact absurd (held.symm.trans conflict) (by decide)
      · exact absurd (old x e) (by omega)
    exact (exec_clearHalt h).trans (by simp [State.hearClearHalt, unclear])

/-! ## T0, END, HOLD and RESUME (R15 to R17, R34) -/

/-- An END action is due when one stands in the queue whose dispatch time has come. -/
theorem Ce.endDue_iff (c : Ce) (now : Nat) :
    c.endDue now = true ↔ ∃ a ∈ c.queue, a.deed = .endShow ∧ a.dispatch ≤ now := by
  simp [Ce.endDue]

theorem State.takeEnd_due {s : State} {now : Nat} (running : s.tbu.state = .running) (due : s.ce.endDue now = true) :
    s.takeEnd now = s.enterEnding s.params.endFade := by
  simp [State.takeEnd, running, due]

theorem State.takeEnd_not {s : State} {now : Nat} (h : s.tbu.state ≠ .running ∨ s.ce.endDue now = false) :
    s.takeEnd now = s := by
  rcases h with h | h <;> simp [State.takeEnd, h]

theorem State.takeT0_reached {s : State} {now : Nat} {r : ArmedRecord} (armed : s.tbu.state = .armed)
    (rec_ : s.tbu.armed = some r) (t0 : r.t0 ≤ now) :
    s.takeT0 now = (s.onTbu fun t => { t with state := .running }).takeEnd now := by
  simp [State.takeT0, armed, rec_, t0]

theorem State.takeT0_not {s : State} {now : Nat}
    (h : s.tbu.state ≠ .armed ∨ ∀ r, s.tbu.armed = some r → now < r.t0) : s.takeT0 now = s := by
  unfold State.takeT0
  rw [if_neg]
  rintro ⟨armed, reached⟩
  rcases h with h | h
  · exact h armed
  · cases e : s.tbu.armed with
    | none => simp [e] at reached
    | some r =>
      have : r.t0 ≤ now := by simpa [e] using reached
      exact absurd (h r e) (by omega)

/-- The station has come to RUNNING at T0 with nothing else changed. -/
theorem State.endsShow_of_running {s t : State} {fade : Nat}
    (h : (s.onTbu fun t => { t with state := .running }).endsShow fade t) : s.endsShow fade t := h

/-- Settles O17. -/
theorem showTimesTaken : Obligations.ShowTimesTaken := by
  have t0 : ∀ s : State, s.live = true → exec .t0Reached s = .next (s.takeT0 s.tbu.basinTime) := fun s live =>
    congrArg Host.Outcome.next (if_pos live)
  have end_ : ∀ s : State, s.live = true → exec .endActionDue s = .next (s.takeEnd s.tbu.basinTime) := fun s live =>
    congrArg Host.Outcome.next (if_pos live)
  refine ⟨?_, ?_, ?_, ?_, ?_, ?_, ?_, ?_, ?_⟩
  · intro s r live armed rec_ reached noEnd
    rw [t0 s live, State.takeT0_reached armed rec_ reached,
      State.takeEnd_not (s := s.onTbu fun t => { t with state := .running }) (.inr noEnd)]
    rfl
  · intro s live h
    rw [t0 s live, State.takeT0_not h]
  · intro s r live armed rec_ reached due
    refine ⟨_, (t0 s live).trans (congrArg _ (State.takeT0_reached armed rec_ reached)), ?_⟩
    rw [State.takeEnd_due (s := s.onTbu fun t => { t with state := .running }) rfl due]
    exact State.endsShow_of_running (State.enterEnding_endsShow _ _)
  · intro s a live running ha deed reached
    refine ⟨_, end_ s live, ?_⟩
    rw [State.takeEnd_due running ((Ce.endDue_iff _ _).mpr ⟨a, ha, deed, reached⟩)]
    exact s.enterEnding_endsShow _
  · intro s live h
    rw [end_ s live, State.takeEnd_not]
    refine h.imp_right fun h => ?_
    rw [Bool.eq_false_iff, Ne, Ce.endDue_iff]
    rintro ⟨a, ha, deed, reached⟩
    exact absurd (h a ha deed) (by omega)
  · intro p th s h running new
    refine (next_received_of_hears h _).trans ?_
    simp [State.hearHold, running, new, State.onTbu]
  · intro p th s h ignored
    refine (next_received_of_hears h _).trans ?_
    rcases ignored with h | h <;> simp [State.hearHold, h]
  · intro p tr s h held new
    refine (next_received_of_hears h _).trans ?_
    simp [State.hearResume, held, new, State.onTbu]
  · intro p tr s h ignored
    refine (next_received_of_hears h _).trans ?_
    rcases ignored with h | h <;> simp [State.hearResume, h]

/-! ## STOP and HALT (R18, R20, R183) -/

/-- Settles O18. -/
theorem stopEndsShow : Obligations.StopEndsShow := by
  refine ⟨?_, ?_, ?_⟩
  · intro p fade s h playing
    refine ⟨s.afterFrame.enterEnding (min 500 fade.toNat), (next_received_of_hears h _).trans ?_, ?_⟩
    · rcases playing with h | h <;> simp [State.hearStop, h]
    · exact s.afterFrame.enterEnding_endsShow _
  · intro p fade s h armed
    refine ⟨s.afterFrame.armedToIdle, (next_received_of_hears h _).trans (by simp [State.hearStop, armed]), ?_⟩
    have pumps : ∀ n, s.afterFrame.armedToIdle.hu.pump n = { s.hu.pump n with height := 0 } := by
      simp [State.armedToIdle, State.huZeroHeights]
    have lights : s.afterFrame.armedToIdle.lu = s.lu.dark s.params := by simp [State.armedToIdle, State.huZeroHeights]
    simp only [pumps, lights, State.dimmingOutput]
    refine ⟨rfl, rfl, rfl, rfl, rfl, fun n => ⟨trivial, trivial⟩, fun n => Lu.dark_channel _ _ n, rfl, rfl, ?_⟩
    simp [State.armedToIdle, State.huZeroHeights]
  · intro p fade s h armed running held
    refine (next_received_of_hears h _).trans ?_
    unfold State.hearStop
    split
    · exact absurd ‹_› armed
    · exact absurd ‹_› running
    · exact absurd ‹_› held
    · rfl

theorem State.haltRequest_halts {s : State} (up : s.tbu.state ≠ .standby) (new : s.tbu.state ≠ .halted) :
    s.haltRequest = s.enterHalted := by
  unfold State.haltRequest
  split
  · exact absurd ‹_› up
  · exact absurd ‹_› new
  · rfl

theorem State.haltRequest_still {s : State} (h : s.tbu.state = .standby ∨ s.tbu.state = .halted) :
    s.haltRequest = s := by
  rcases h with h | h <;> simp [State.haltRequest, h]

@[simp] theorem Tbu.discardShow_lastStop (t : Tbu) (x : ShowState) : (t.discardShow x).lastStop = t.lastStop := rfl

theorem State.powered_of_live {s : State} (live : s.live = true) : s.powered = true := by
  unfold State.live at live
  unfold State.powered
  split at live <;> simp_all

/-- The own stop input becoming active halts and offers a STOP_ASSERT. -/
theorem exec_stopInputActive {s : State} (live : s.live = true) (inactive : s.biu.stopActive = false) :
    exec .stopInputActive s =
      .next ((s.onBiu fun b => { b with stopActive := true }).haltRequest.onLiu Liu.offerStop) := by
  have e : execStopInputActive s = _ := congrArg Host.Outcome.next
    (if_pos (by simp [State.powered_of_live live, inactive]))
  exact e.trans (congrArg Host.Outcome.next (if_pos live))

theorem State.haltsTo_onLiu {s t : State} (h : s.haltsTo t) (g : Liu → Liu) : s.haltsTo (t.onLiu g) := h

theorem State.haltsTo_of_onBiu {s t : State} {g : Biu → Biu} (h : (s.onBiu g).haltsTo t) : s.haltsTo t := h

/-- Settles O19. -/
theorem haltStopsEverything : Obligations.HaltStopsEverything := by
  refine ⟨?_, ?_, ?_, ?_⟩
  · intro p s h up new
    let x := s.afterFrame.onTbu fun t => { t with lastStop := some { frame := t.frameNo, boundaries := 0 } }
    have e : exec (.stopAssert p) s = .next x.enterHalted :=
      (next_received_of_hears h _).trans (congrArg _ (State.haltRequest_halts (s := x) up new))
    refine ⟨_, e, State.enterHalted_haltsTo x, ?_, State.enterHalted_biu x⟩
    simp [State.enterHalted, x]
  · intro p s h still
    refine (next_received_of_hears h _).trans ?_
    exact congrArg _ (State.haltRequest_still
      (s := s.afterFrame.onTbu fun t => { t with lastStop := some { frame := t.frameNo, boundaries := 0 } }) still)
  · intro s live inactive up new
    let x := s.onBiu fun b => { b with stopActive := true }
    have e := (exec_stopInputActive live inactive).trans (congrArg (fun y : State => (.next (y.onLiu Liu.offerStop) : Answered))
      (State.haltRequest_halts (s := x) up new))
    refine ⟨_, e, State.haltsTo_onLiu (State.haltsTo_of_onBiu (State.enterHalted_haltsTo x)) _, ?_, ?_⟩
    · simp [Liu.offerStop]
    · simp [x]
  · intro s live inactive still
    exact (exec_stopInputActive live inactive).trans (congrArg (fun y : State => (.next (y.onLiu Liu.offerStop) : Answered))
      (State.haltRequest_still (s := s.onBiu fun b => { b with stopActive := true }) still))

end Sys2Proof.Machine
end

