-- ==== Sys2Proof/Proofs/Frames.lean ====
section
/-!
The other frames (spec/08): content frames and the serve records they end (R120, R131, R133), status queries (R163), frames
that carry own position (R161), and beacons (R167).
-/
namespace Sys2Proof.Machine

/-! ## Serve records dropped (R133, R155) -/

theorem withdrawFrom_true {α : Type} (begun : Bool) (q : List α) : withdrawFrom begun (fun _ => true) q = q := by
  cases begun <;> cases q <;> simp [withdrawFrom]

/-- Two withdrawals from a queue are one. -/
theorem withdrawFrom_withdrawFrom {α : Type} (begun : Bool) (p p' : α → Bool) (q : List α) :
    withdrawFrom begun p (withdrawFrom begun p' q) = withdrawFrom begun (fun x => p' x && p x) q := by
  cases begun with
  | false => simp [withdrawFrom, List.filter_filter, Bool.and_comm]
  | true =>
    cases q with
    | nil => rfl
    | cons x q => simp [withdrawFrom, List.filter_filter, Bool.and_comm]

/-- Serve records dropped one after another: none of their numbers is left, and none of their PAGE_DATA frames. -/
theorem State.dropServes_eq (l : List Serve) (s : State) :
    l.foldl (fun s r => s.dropServe r.id) s = { s with
      cm := { s.cm with serves := s.cm.serves.filter fun x => l.all fun r => x.id != r.id }
      liu := { s.liu with
        contentQ := withdrawFrom s.liu.contentBegun (fun x => l.all fun r => x.serve != r.id) s.liu.contentQ } } := by
  induction l generalizing s with
  | nil => simp [withdrawFrom_true]
  | cons r l ih =>
    rw [List.foldl_cons, ih]
    have begun : (s.dropServe r.id).liu.contentBegun = s.liu.contentBegun := rfl
    simp only [begun, List.all_cons]
    simp only [State.dropServe, State.onLiu, State.onCm, Liu.withdrawContent, List.filter_filter,
      withdrawFrom_withdrawFrom, Bool.and_comm]

/-! ## The content intake (R120) -/

theorem State.intoIntake_room {s : State} {f : ContentFrame} (h : s.cm.intake.length < 4) :
    s.intoIntake f = { s with cm := { s.cm with intake := s.cm.intake ++ [f] } } := by
  rw [State.intoIntake, if_neg (by omega)]
  rfl

theorem State.intoIntake_full {s : State} {f : ContentFrame} (h : 4 ≤ s.cm.intake.length) :
    s.intoIntake f = { s with liu := { s.liu with rxErrors := min 65535 (s.liu.rxErrors + 1) } } := by
  rw [State.intoIntake, if_pos h]
  rfl

/-- Which serve records a PAGE_DATA ends (R131, R133). -/
theorem Serve.endedBy_iff (own sender : Position) (g q : Nat) (r : Serve) : r.endedBy own sender g q = true ↔
    r.segment = g ∧ r.page = q ∧ ((∃ n, r.stage = .delay n) ∨ sender.val < own.val) := by
  cases e : r.stage <;> simp [Serve.endedBy, e, and_assoc]

/-- The serve records a PAGE_DATA of sender `p` leaves. -/
def State.servesLeft (s : State) (p : Position) (f : PageDataFields) : List Serve :=
  s.cm.serves.filter fun x =>
    (s.cm.serves.filter (Serve.endedBy s.own p f.segment.toNat f.page.toNat)).all fun r => x.id != r.id

section
variable {s : State} {p : Position} {f : PageDataFields}

theorem State.servesLeft_not_ended {r : Serve} (h : r ∈ s.servesLeft p f) : r ∈ s.cm.serves ∧
    ¬(r.segment = f.segment.toNat ∧ r.page = f.page.toNat ∧ ((∃ n, r.stage = .delay n) ∨ p.val < s.own.val)) := by
  obtain ⟨hr, kept⟩ := List.mem_filter.mp h
  refine ⟨hr, fun ended => ?_⟩
  have : r ∈ s.cm.serves.filter (Serve.endedBy s.own p f.segment.toNat f.page.toNat) :=
    List.mem_filter.mpr ⟨hr, (Serve.endedBy_iff _ _ _ _ _).mpr ended⟩
  have := List.all_eq_true.mp kept r this
  simp at this

theorem State.mem_servesLeft {r : Serve} (ids : (s.cm.serves.map fun r => r.id).Nodup) (hr : r ∈ s.cm.serves)
    (goesOn : ¬(r.segment = f.segment.toNat ∧ r.page = f.page.toNat ∧
      ((∃ n, r.stage = .delay n) ∨ p.val < s.own.val))) : r ∈ s.servesLeft p f := by
  refine List.mem_filter.mpr ⟨hr, List.all_eq_true.mpr fun x hx => ?_⟩
  obtain ⟨hx, ended⟩ := List.mem_filter.mp hx
  rw [bne_iff_ne]
  intro same
  obtain rfl := List.inj_on_of_nodup_map ids hr hx same
  exact goesOn ((Serve.endedBy_iff _ _ _ _ _).mp ended)

theorem exec_pageData (h : s.hears p) :
    exec (.pageData p f) s = .next (({ s.afterFrame with
      cm := { s.cm with serves := s.servesLeft p f }
      liu := { s.afterFrame.liu with
        contentQ := withdrawFrom s.liu.contentBegun
          (fun x => (s.cm.serves.filter (Serve.endedBy s.own p f.segment.toNat f.page.toNat)).all fun r =>
            x.serve != r.id) s.liu.contentQ } } : State).intoIntake (.data f)) :=
  (next_received_of_hears h _).trans (congrArg (fun x : State => (.next (x.intoIntake (.data f)) : Answered))
    (State.dropServes_eq _ _))
end

/-- Settles O15. -/
theorem contentFramesTakenIn : Obligations.ContentFramesTakenIn := by
  refine ⟨?_, ?_, fun p f s h => next_received_of_hears h _, fun s f => State.intoIntake_room,
    fun s f => State.intoIntake_full, ?_, ?_⟩
  · intro p n s h free
    refine (next_received_of_hears h _).trans ?_
    rcases free with h | h <;> simp [State.hearShowSelect, h]
  · intro p n s h idle standby
    refine (next_received_of_hears h _).trans ?_
    unfold State.hearShowSelect
    split
    · exact absurd ‹_› idle
    · exact absurd ‹_› standby
    · rfl
  · intro p f s h room
    refine ⟨_, (exec_pageData h).trans (congrArg _ (State.intoIntake_room room)), rfl,
      fun r hr => State.servesLeft_not_ended hr, fun ids r hr goesOn => State.mem_servesLeft ids hr goesOn, rfl, rfl, rfl,
      rfl, rfl⟩
  · intro p f s h full
    exact ⟨_, (exec_pageData h).trans (congrArg _ (State.intoIntake_full full)), rfl, rfl,
      fun r hr => State.servesLeft_not_ended hr, rfl⟩

/-! ## Own position heard (R13, R161) -/

/-- The conflict recorded, the REPLY queue emptied and the serve records dropped. -/
def State.conflicted (s : State) : State :=
  { s.raise .positionConflict with
    tbu := { s.tbu with conflict := true }
    cm := { s.cm with serves := [] }
    liu := { s.liu with
      conflict := true, replies := []
      contentQ := withdrawFrom s.liu.contentBegun (fun x => s.cm.serves.all fun r => x.serve != r.id) s.liu.contentQ } }

theorem State.positionConflict_eq (s : State) : s.positionConflict = s.conflicted.enterStandby.onCe Ce.giveUp := by
  have gone : (s.cm.serves.filter fun x => s.cm.serves.all fun r => x.id != r.id) = [] := by
    refine List.filter_eq_nil_iff.mpr fun x hx all => ?_
    have := List.all_eq_true.mp all x hx
    simp at this
  unfold State.positionConflict
  dsimp only
  rw [State.dropServes_eq]
  simp only [State.onTbu_cm, State.onLiu_cm, State.raise_cm, gone]
  rfl

/-- A withdrawal of the claim leaves the link's other slots and queues. -/
theorem Liu.withdrawClaim_eq (l : Liu) :
    l.withdrawClaim = { l with claim := if l.claimBegun then l.claim else none } := by
  unfold Liu.withdrawClaim
  split <;> rfl

/-- Settles O44: every frame of own position is the acceptance that ends in a position conflict. -/
theorem ownPositionHeardIsConflict : Obligations.OwnPositionHeardIsConflict := by
  refine ⟨?_, ?_⟩
  · intro c s own live
    obtain ⟨deliver, e⟩ := exec_eq_received own s
    rw [State.received_own live, State.positionConflict_eq] at e
    refine ⟨_, e, ?_⟩
    obtain ⟨holder, liu⟩ := State.enterStandby_claim s.afterFrame.conflicted
    have pumps : ∀ n, (s.afterFrame.conflicted.enterStandby.onCe Ce.giveUp).hu.pump n = (s.hu.pump n).halt := by
      intro n
      rw [State.onCe_hu, State.enterStandby_pump]
      rfl
    have lights : (s.afterFrame.conflicted.enterStandby.onCe Ce.giveUp).lu = s.lu.dark s.params := by
      rw [State.onCe_lu, State.enterStandby_lu]
      rfl
    have liu' : (s.afterFrame.conflicted.enterStandby.onCe Ce.giveUp).liu =
        { s.afterFrame.conflicted.liu with
          claim := if s.hu.claimHolder.isSome && !s.liu.claimBegun then none else s.liu.claim } := by
      rw [State.onCe_liu, liu]
      have begun : s.afterFrame.conflicted.liu.claimBegun = s.liu.claimBegun := rfl
      have holder : s.afterFrame.conflicted.hu.claimHolder = s.hu.claimHolder := rfl
      rw [Liu.withdrawClaim_eq, begun, holder]
      cases s.hu.claimHolder.isSome <;> cases s.liu.claimBegun <;> rfl
    have biu : (s.afterFrame.conflicted.enterStandby.onCe Ce.giveUp).biu = (s.raise .positionConflict).biu := by
      rw [State.onCe_biu, State.enterStandby_biu]
      rfl
    simp only [pumps, lights, liu', State.dimmingOutput, State.faulted, State.faultCount, biu]
    refine ⟨by simp [Tbu.discardShow], by simp [Tbu.discardShow, State.conflicted], rfl, rfl, by simp [State.conflicted],
      s.faulted_raise _ _, s.faultCount_raise_same _ _, fun n => Pump.halt_inactive _,
      fun n => (Lu.dark_channel _ _ n).2, holder, ?_, ?_, ?_, ?_, rfl, rfl, rfl, by simp [Au.onVoices],
      by simp [Au.onVoices], rfl, rfl, ?_⟩
    · intro held begun
      simp [held, begun]
    · intro h
      rcases h with h | h <;> simp [h]
    · exact fun begun => (congrArg (fun b => withdrawFrom b _ _) begun).trans rfl
    · exact fun begun => (congrArg (fun b => withdrawFrom b _ _) begun).trans rfl
    · simp [State.conflicted, Tbu.discardShow]
  · intro c p s sender deaf
    obtain ⟨deliver, e⟩ := exec_eq_received sender s
    rw [e, State.received_deaf deaf]

/-! ## Beacons (R3, R167) -/

/-- Settles O45. -/
theorem beaconRecorded : Obligations.BeaconRecorded := by
  intro p f elapsed s h
  refine ⟨_, next_received_of_hears h _, ?_⟩
  have e := s.afterFrame.recordBeacon_unread p f (s.frameStamp elapsed)
  have liu := State.liu_of_unread e
  rw [State.peers_of_unread e, State.onPt_pt]
  refine ⟨?_, fun q ne => ?_, congrArg (fun l : Liu => l.rxStamp) liu, congrArg (fun l : Liu => l.yieldCount) liu,
    (State.tbu_of_unread e :), (State.cm_of_unread e :), (State.smc_of_unread e :), (State.ce_of_unread e :), (State.au_of_unread e :),
    (State.st_of_unread e :), (State.pending_of_unread e :)⟩
  · simp [peerOf, BeaconFields.windOf, BeaconFields.levelOf, State.frameStamp]
  · exact Vector.getElem_set_ne p.isLt q.isLt fun e => ne (Fin.ext e.symm)

/-! ## Status queries (R163, R199) -/

section
variable {s : State} {p : Position} {target tag : Byte}

/-- A query answered queues one reply. -/
theorem received_query (h : s.hears p) (own : target.toNat = s.own.val) (free : s.liu.conflict = false)
    (room : s.liu.replies.length < 4) (sel : Nat) (snapshot : State → List Byte) :
    (.next (s.received p fun x => x.answerQuery target tag sel snapshot) : Answered) =
      .next { s.afterFrame with liu := { s.afterFrame.liu with
        replies := s.liu.replies ++
          [{ tag := tag, selector := sel, snapshot := snapshot s.afterFrame, next := 0 }] } } := by
  refine (next_received_of_hears h _).trans ?_
  have answered : ¬(target.toNat ≠ s.afterFrame.own.val ∨ s.afterFrame.liu.conflict = true ∨
      4 ≤ s.afterFrame.liu.replies.length) := by
    rintro (h | h | h)
    · exact h own
    · exact absurd (h.symm.trans free) (by decide)
    · exact absurd (show 4 ≤ s.liu.replies.length from h) (by omega)
  rw [State.answerQuery, if_neg answered]
  rfl

/-- Any other leaves the reception's end. -/
theorem received_query_not (h : s.hears p)
    (refused : target.toNat ≠ s.own.val ∨ s.liu.conflict = true ∨ 4 ≤ s.liu.replies.length) (sel : Nat)
    (snapshot : State → List Byte) :
    (.next (s.received p fun x => x.answerQuery target tag sel snapshot) : Answered) = .next s.afterFrame := by
  refine (next_received_of_hears h _).trans ?_
  exact congrArg _ (if_pos (c := target.toNat ≠ s.afterFrame.own.val ∨ s.afterFrame.liu.conflict = true ∨
    4 ≤ s.afterFrame.liu.replies.length) refused)
end

theorem put1_eq (n : Nat) : put1 n = [BitVec.ofNat 8 n] := by
  simp [put1, beBytes]

theorem take_of_eq_append {α : Type} {l h : List α} {n : Nat} (e : ∃ r, l = h ++ r) (len : h.length = n) :
    l.take n = h := by
  obtain ⟨r, e⟩ := e
  rw [e, List.take_left' len]

theorem eq_two_cons_drop {α : Type} (l : List α) (h : 2 ≤ l.length) : l = l[0] :: l[1] :: l.drop 2 := by
  match l, h with
  | a :: b :: l, _ => rfl

/-- The lowest position other than `own` comes first among the others' records. -/
theorem Pt.others_head (v : Vector (Option Peer) 32) (own : Position) :
    ∃ rest, v.toList.eraseIdx own.val = (if own = 0 then v[(1 : Position)] else v[(0 : Position)]) :: rest := by
  have e := eq_two_cons_drop v.toList (by simp)
  rw [e]
  by_cases h : own = 0
  · subst h
    exact ⟨v.toList.drop 2, by simp⟩
  · obtain ⟨k, hk⟩ : ∃ k, own.val = k + 1 := Nat.exists_eq_succ_of_ne_zero fun z => h (Fin.ext z)
    rw [hk, if_neg h]
    exact ⟨_, by simp [List.eraseIdx_cons_succ]; rfl⟩

/-- Settles O43. -/
theorem queriesAnswered : Obligations.QueriesAnswered := by
  refine ⟨?_, ?_, ?_, ?_, fun s => ⟨?_, ?_, ?_, ?_, ?_, ?_⟩⟩
  · intro p target tag s h own free room queued
    exact ⟨received_query h own free room 0 _, received_query h own free room 1 _, received_query h own free room 2 _,
      received_query h own free room 3 _, received_query h own free room 4 _, received_query h own free room 5 _⟩
  · intro p target tag s h refused
    exact ⟨received_query_not h refused 0 _, received_query_not h refused 1 _, received_query_not h refused 2 _,
      received_query_not h refused 3 _, received_query_not h refused 4 _, received_query_not h refused 5 _⟩
  · intro p target n tag s h own unknown
    refine (next_received_of_hears h _).trans ?_
    rw [State.targeted, if_pos (by exact own), if_pos unknown]
    rfl
  · intro p target n tag s h other
    refine (next_received_of_hears h _).trans ?_
    rw [State.targeted, if_neg (by exact other)]
  · refine take_of_eq_append ?_ rfl
    simp only [State.generalSnapshot, Tbu.snapshot, put6, put1_eq, List.append_assoc]
    exact ⟨_, rfl⟩
  · refine take_of_eq_append ?_ rfl
    simp only [State.pumpsSnapshot, allChannels, List.flatMap_cons, Pump.snapshot, putFlag, put1_eq, List.append_assoc]
    exact ⟨_, rfl⟩
  · refine take_of_eq_append ?_ rfl
    simp only [State.fixturesSnapshot, allFixtures, List.flatMap_cons, Lu.fixtureSnapshot, putFlag, put1_eq, put4,
      List.append_assoc]
    exact ⟨_, rfl⟩
  · obtain ⟨rest, e⟩ := Pt.others_head s.pt.peers s.own
    refine take_of_eq_append ?_ rfl
    simp only [State.peersSnapshot, e, List.flatMap_cons, peerSnapshot, put1_eq, List.append_assoc]
    exact ⟨_, rfl⟩
  · refine take_of_eq_append ?_ rfl
    obtain ⟨rest, e⟩ : ∃ rest, s.au.slots.toList = s.au.slots[0] :: rest :=
      ⟨_, eq_two_cons_drop s.au.slots.toList (by simp)⟩
    simp only [State.memorySnapshot, Au.cacheSnapshot, e, List.flatMap_cons, put1_eq, List.append_assoc]
    exact ⟨_, rfl⟩
  · refine take_of_eq_append ?_ rfl
    simp only [State.faultsSnapshot, putList, put1_eq, List.append_assoc, List.length_map]
    exact ⟨_, rfl⟩

end Sys2Proof.Machine
end

