-- ==== Sys2Proof/Proofs/Tick.lean ====
section
/-!
The tick of the local oscillator (spec/01, R1; spec/05, R97 to R104): the pair presented, and the timers counted on.
-/
namespace Sys2Proof.Machine

/-! ## The mixer (R102) -/

theorem sat16_bounds (x : Int) : -32768 ≤ sat16 x ∧ sat16 x ≤ 32767 := by
  unfold sat16
  omega

/-- A factor of at most 1 keeps a 16-bit value within its range. -/
theorem shr15_mul_bounds {m : Int} {f : Nat} (lo : -32768 ≤ m) (hi : m ≤ 32767) (hf : f ≤ 32768) :
    -32768 ≤ shr15 (m * f) ∧ shr15 (m * f) ≤ 32767 := by
  unfold shr15
  have low : (-32768 : Int) * 32768 ≤ m * f := by nlinarith
  have high : m * f ≤ 32767 * 32768 := by nlinarith
  omega

theorem mixOne_bounds (oos : Bool) {f : Nat} (hf : f ≤ 32768) (x y : Int) :
    -32768 ≤ mixOne oos f x y ∧ mixOne oos f x y ≤ 32767 := by
  obtain ⟨lo, hi⟩ := sat16_bounds (x + y)
  have ducked := shr15_mul_bounds (f := 3277) lo hi (by decide)
  unfold mixOne
  dsimp only
  split
  · exact shr15_mul_bounds ducked.1 ducked.2 hf
  · exact shr15_mul_bounds lo hi hf

@[simp] theorem mixOne_zero (oos : Bool) (f : Nat) : mixOne oos f 0 0 = 0 := by
  cases oos <;> simp [mixOne, sat16, shr15]

theorem mixOne_eq (oos : Bool) (f : Nat) (x y : Int) : mixOne oos f x y =
    (if oos then max (-32768) (min 32767 (x + y)) * 3277 / 32768 else max (-32768) (min 32767 (x + y))) * f / 32768 := by
  cases oos <;> rfl

/-! ## A voice's value (R97 to R99) -/

theorem Au.voiceOut_silent {a : Au} {held : Bool} {tau : Nat} {v : Voice} (h : v.sounding tau = none) :
    a.voiceOut held tau v = (0, 0) := by
  simp [Au.voiceOut, Au.voiceSample, h]

theorem Voice.sounding_mute {tau : Nat} {v : Voice} (h : v.maySound = false) : v.sounding tau = none := by
  unfold Voice.sounding
  split <;> simp [h]

theorem Au.voiceOut_idle {a : Au} {held : Bool} {tau : Nat} {v : Voice} (h : v.state = .idle ∨ v.state = .priming) :
    a.voiceOut held tau v = (0, 0) :=
  Au.voiceOut_silent (Voice.sounding_mute (by rcases h with h | h <;> simp [Voice.maySound, h]))

theorem Voice.sounding_eq {tau : Nat} {v : Voice} {c : Content} (hc : v.content = some c) :
    v.sounding tau =
      if v.maySound && decide (c.ts ≤ tau) && !c.endedAt (c.item.start + (tau - c.ts)) then
        some (c, c.item.start + (tau - c.ts))
      else none := by
  simp [Voice.sounding, hc, Content.reached]

/-- A content that has not begun, or has ended, does not sound; nor one whose block is missing. -/
theorem Au.voiceOut_absent {a : Au} {held : Bool} {tau : Nat} {v : Voice} {c : Content} (hc : v.content = some c)
    (h : tau < c.ts ∨ (c.item.kind.isSome = true ∧ c.item.count ≤ c.item.start + (tau - c.ts)) ∨
      ∀ k, c.item.kind = some k → a.find? c.item.segment (blockOf k (c.item.start + (tau - c.ts))) = none) :
    a.voiceOut held tau v = (0, 0) := by
  by_cases ok : (v.maySound && decide (c.ts ≤ tau) && !c.endedAt (c.item.start + (tau - c.ts))) = true
  · have e : v.sounding tau = some (c, c.item.start + (tau - c.ts)) := by
      rw [Voice.sounding_eq hc, if_pos ok]
    simp only [Bool.and_eq_true, decide_eq_true_eq, Bool.not_eq_true'] at ok
    obtain ⟨⟨-, begun⟩, goes⟩ := ok
    have missing : ∀ k, c.item.kind = some k →
        a.find? c.item.segment (blockOf k (c.item.start + (tau - c.ts))) = none := by
      rcases h with early | ⟨known, past⟩ | missing
      · omega
      · simp [Content.endedAt, known, past] at goes
      · exact missing
    cases kind : c.item.kind with
    | none => simp [Au.voiceOut, Au.voiceSample, e, kind]
    | some k => simp [Au.voiceOut, Au.voiceSample, e, kind, missing k kind]
  · exact Au.voiceOut_silent ((Voice.sounding_eq hc).trans (if_neg ok))

/-- The factor a tick's gain moves toward is that of the ramp's next step. -/
theorem Voice.stepRamp_gain (v : Voice) : v.stepRamp.gain = v.nextGain := by
  unfold Voice.stepRamp Voice.nextGain
  split <;> rfl

/-- A voice that sounds gives its sample under gain and envelope (R99, R104). -/
theorem Au.voiceOut_found {a : Au} {held : Bool} {tau : Nat} {v : Voice} {c : Content} {k : SegType} {i : Fin 32}
    (hc : v.content = some c) (kind : c.item.kind = some k) (on : v.state = .playing ∨ v.state = .fading)
    (begun : c.ts ≤ tau) (goes : c.item.start + (tau - c.ts) < c.item.count)
    (found : a.find? c.item.segment (blockOf k (c.item.start + (tau - c.ts))) = some i) :
    a.voiceOut held tau v =
      (shr15 (shr15 ((samplePair k a.slots[i].data (c.item.start + (tau - c.ts))).1 * v.factorAt held a.frameTick) *
          v.envelope.factor),
        shr15 (shr15 ((samplePair k a.slots[i].data (c.item.start + (tau - c.ts))).2 * v.factorAt held a.frameTick) *
          v.envelope.factor)) := by
  have may : v.maySound = true := by rcases on with h | h <;> simp [Voice.maySound, h]
  have e : v.sounding tau = some (c, c.item.start + (tau - c.ts)) := by
    simp [Voice.sounding_eq hc, may, begun, Content.endedAt, Nat.not_le.mpr goes]
  simp [Au.voiceOut, Au.voiceSample, e, kind, found]

/-! ## The tick (R1, R102) -/

theorem State.countUnderruns_eq (s : State) (tau : Nat) :
    s.countUnderruns tau = s.onBiu fun b => { b with faults := (s.countUnderruns tau).biu.faults } := by
  unfold State.countUnderruns
  dsimp only
  split <;> split <;> rfl

/-- What a tick makes of the station. -/
theorem State.oscTick_eq {s : State} (powered : s.powered = true) : ∃ faults, s.oscTick = { s with
    biu := { s.biu with faults := faults }
    au := s.au.tick (s.au.tau s.tbu.basinTime) s.pairNow
    tbu := { s.tbu with basinTime := (s.tbu.basinTime + 1) % 2 ^ 48, shift := 0 }
    hu := { s.hu with spacing := s.hu.spacing - 1 }
    cm := { s.cm with fills := s.cm.fills.map Fill.tick, serves := s.cm.serves.map Serve.tick }
    smc := s.smc.tick (s.st.oscTicks + 1)
    st := { s.st with oscTicks := s.st.oscTicks + 1 } } := by
  refine ⟨(s.countUnderruns (s.au.tau s.tbu.basinTime)).biu.faults, ?_⟩
  rw [State.oscTick, if_neg (by simp [powered])]
  dsimp only
  rw [s.countUnderruns_eq]
  rfl

theorem Serve.tick_delay {r : Serve} {n : Nat} (h : r.stage = .delay n) : r.tick = { r with stage := .delay (n - 1) } := by
  simp [Serve.tick, h]

theorem Serve.tick_other {r : Serve} (h : ∀ n, r.stage ≠ .delay n) : r.tick = r := by
  unfold Serve.tick
  split
  · exact absurd ‹_› (h _)
  · rfl

/-- Settles O28. -/
theorem tickPresentsPair : Obligations.TickPresentsPair := by
  intro s powered
  obtain ⟨faults, e⟩ := State.oscTick_eq powered
  refine ⟨_, congrArg Host.Outcome.next e, rfl, rfl, ?_, ?_, ?_, rfl, rfl, by simp, by simp, ?_, ?_, ?_, ?_, ?_, rfl, rfl,
    rfl, rfl, rfl, rfl, rfl, rfl⟩
  · intro unread
    show s.pairNow = _
    simp [State.pairNow, unread]
  · intro a b
    show s.pairNow = _
    have a := Au.voiceOut_idle (a := s.au) (held := s.tbu.state == .held) (tau := s.au.tau s.tbu.basinTime) (.inl a)
    have b := Au.voiceOut_idle (a := s.au) (held := s.tbu.state == .held) (tau := s.au.tau s.tbu.basinTime) (.inl b)
    unfold State.pairNow
    split
    · simp [Au.mix, a, b]
    · rfl
  · intro trim
    show -32768 ≤ s.pairNow.1 ∧ s.pairNow.1 ≤ 32767 ∧ -32768 ≤ s.pairNow.2 ∧ s.pairNow.2 ≤ 32767
    unfold State.pairNow
    split
    · obtain ⟨lo, hi⟩ := mixOne_bounds s.tbu.outOfStep trim
        (s.au.voiceOut (s.tbu.state == .held) (s.au.tau s.tbu.basinTime) s.au.a).1
        (s.au.voiceOut (s.tbu.state == .held) (s.au.tau s.tbu.basinTime) s.au.b).1
      obtain ⟨lo', hi'⟩ := mixOne_bounds s.tbu.outOfStep trim
        (s.au.voiceOut (s.tbu.state == .held) (s.au.tau s.tbu.basinTime) s.au.a).2
        (s.au.voiceOut (s.tbu.state == .held) (s.au.tau s.tbu.basinTime) s.au.b).2
      exact ⟨lo, hi, lo', hi'⟩
    · decide
  · intro k f h
    simp [h, Fill.tick]
  · intro k r n h stage
    simp [h, Serve.tick_delay stage]
  · intro k r h stage
    simp [h, Serve.tick_other stage]
  · intro read x y out
    show s.pairNow = _
    rw [State.pairNow, if_pos read]
    exact Prod.ext (mixOne_eq _ _ _ _) (mixOne_eq _ _ _ _)
  · intro held tau v
    refine ⟨?_, ?_⟩
    · rintro (idle | priming | ⟨c, hc, h⟩)
      · exact Au.voiceOut_idle (.inl idle)
      · exact Au.voiceOut_idle (.inr priming)
      · exact Au.voiceOut_absent hc h
    · intro c k i hc kind on begun goes found at? p close f out
      have factor : ((v.factorAt held s.au.frameTick : Nat) : Int) = f := by
        simp only [Voice.factorAt, lerp, f, close, Voice.stepRamp_gain]
        rfl
      rw [Au.voiceOut_found hc kind on begun goes found, factor]
      cases k <;> rfl

end Sys2Proof.Machine
end

