-- ==== Sys2Proof/Proofs/Boundary.lean ====
section
/-!
The marked boundary in its parts (spec/01, R1): what is common to every boundary, and what its passes make of each block.
-/
namespace Sys2Proof.Machine

/-! ## What no boundary reaches -/

/-- The link's transmission and counts. -/
def Liu.counts (l : Liu) : Liu :=
  { l with halt := false, beacon := none, claim := none, fetchQ := [], contentQ := [], rxStamp := none }

/-- What no part of a boundary before its passes reaches: show memory and its controller's clock, the parameters and the
position, the link's transmission and counts, the queue. -/
def State.lasting (s : State) : State :=
  { s.outer with
    tbu := {}, pt := {}, biu := {}, liu := s.liu.counts, st := { s.st with phase := .off, listen := 0 } }

section
variable {s t : State}

theorem State.lasting_of_outer (h : t.outer = s.outer) : t.lasting = s.lasting := by
  have e : ∀ x : State, x.lasting = x.outer.lasting := fun _ => rfl
  rw [e t, e s, h]

theorem State.lasting_of_unread (h : t.unread = s.unread) : t.lasting = s.lasting := by
  have e : ∀ x : State, x.lasting = x.unread.lasting := fun _ => rfl
  rw [e t, e s, h]

theorem State.mem_of_lasting (h : t.lasting = s.lasting) : t.smc.mem = s.smc.mem := congrArg (fun x => x.smc.mem) h
theorem State.pending_of_lasting (h : t.lasting = s.lasting) : t.pending = s.pending := congrArg (fun x => x.pending) h
theorem State.counts_of_lasting (h : t.lasting = s.lasting) : t.liu.counts = s.liu.counts := congrArg (fun x => x.liu) h
end

section
variable (s : State)

@[simp] theorem State.onTbu_lasting (g : Tbu → Tbu) : (s.onTbu g).lasting = s.lasting := rfl
@[simp] theorem State.onCe_lasting (g : Ce → Ce) : (s.onCe g).lasting = s.lasting := rfl
@[simp] theorem State.onPt_lasting (g : Pt → Pt) : (s.onPt g).lasting = s.lasting := rfl

theorem State.onLiu_lasting {g : Liu → Liu} (h : ∀ l, (g l).counts = l.counts) : (s.onLiu g).lasting = s.lasting := by
  show ({ s.lasting with liu := (g s.liu).counts } : State) = s.lasting
  rw [h]
  rfl

theorem State.onSt_lasting {g : StartUp → StartUp}
    (h : ∀ t, ({ g t with phase := .off, listen := 0 } : StartUp) = { t with phase := .off, listen := 0 }) :
    (s.onSt g).lasting = s.lasting := by
  show ({ s.lasting with st := _ } : State) = s.lasting
  rw [State.onSt_st, h]
  rfl

theorem State.atReading_lasting {f : State → State} (h : ∀ x : State, (f x).lasting = x.lasting) (bt : Nat) :
    (s.atReading bt f).lasting = s.lasting := by
  rw [State.atReading, State.onTbu_lasting, h, State.onTbu_lasting]

@[simp] theorem State.beginBoundary_lasting (k : Nat) : (s.beginBoundary k).lasting = s.lasting := rfl

@[simp] theorem State.correct_lasting (k : Nat) (c : Int) : (s.correct k c).lasting = s.lasting := rfl

@[simp] theorem State.agePeers_lasting : s.agePeers.lasting = s.lasting :=
  (State.lasting_of_unread s.agePeers_unread).trans (s.onPt_lasting _)

@[simp] theorem State.beaconBoundary_lasting (k : Nat) : (s.beaconBoundary k).lasting = s.lasting := by
  unfold State.beaconBoundary
  split
  · rfl
  · dsimp only
    split <;> simp

@[simp] theorem State.haltRequest_lasting : s.haltRequest.lasting = s.lasting :=
  State.lasting_of_outer s.haltRequest_outer

@[simp] theorem State.stopRepeat_lasting : s.stopRepeat.lasting = s.lasting := by
  unfold State.stopRepeat
  split
  · exact Eq.trans (State.onLiu_lasting _ fun _ => rfl) s.haltRequest_lasting
  · rfl

@[simp] theorem State.countWarmup_lasting : s.countWarmup.lasting = s.lasting := by
  unfold State.countWarmup
  split
  · split <;> simp
  · rfl

@[simp] theorem State.listenStep_lasting (k : Nat) : (s.listenStep k).lasting = s.lasting := by
  unfold State.listenStep
  split
  · simp
  · split
    · exact State.onLiu_lasting _ fun _ => rfl
    · rfl

@[simp] theorem State.endListen_lasting (k : Nat) : (s.endListen k).lasting = s.lasting := by
  have up : (((s.listenStep k).atReading (k * 960) State.endOfListenReadings).onSt fun t =>
      { t with phase := .up }).lasting = s.lasting := by
    refine Eq.trans (State.onSt_lasting _ fun _ => rfl) ?_
    rw [State.atReading_lasting _ fun x => State.lasting_of_unread x.endOfListenReadings_unread, State.listenStep_lasting]
  unfold State.endListen
  dsimp only
  split
  · rw [State.enterWarmup, State.onTbu_lasting, up]
  · exact up

@[simp] theorem State.countListen_lasting (k : Nat) : (s.countListen k).lasting = s.lasting := by
  unfold State.countListen
  split
  · dsimp only
    split
    · exact Eq.trans (State.endListen_lasting _ k) (State.onSt_lasting _ fun _ => rfl)
    · exact State.onSt_lasting _ fun _ => rfl
  · rfl

@[simp] theorem State.takeHold_lasting (bt : Nat) : (s.takeHold bt).lasting = s.lasting := by
  unfold State.takeHold
  split <;> simp [State.cueHold]

@[simp] theorem State.takeEnd_lasting (now : Nat) : (s.takeEnd now).lasting = s.lasting :=
  State.lasting_of_outer (s.takeEnd_outer now)

@[simp] theorem State.takeResume_lasting (bt : Nat) : (s.takeResume bt).lasting = s.lasting := by
  unfold State.takeResume
  split
  · simp [State.cueResume]
  · rfl

@[simp] theorem State.checkEnding_lasting : s.checkEnding.lasting = s.lasting := by
  unfold State.checkEnding
  split <;> simp [State.endingToIdle]

@[simp] theorem State.transitions_lasting (k bt : Nat) (st : ShowState) : (s.transitions k bt st).lasting = s.lasting := by
  have t0 : ∀ (x : State) (n : Nat), (x.takeT0 n).lasting = x.lasting := fun x n =>
    State.lasting_of_outer (x.takeT0_outer n)
  unfold State.transitions
  dsimp only
  split <;> split <;> split <;> simp [t0]

@[simp] theorem State.placeBeacon_lasting (k : Nat) (up : Bool) : (s.placeBeacon k up).lasting = s.lasting := by
  unfold State.placeBeacon
  split
  · exact s.onLiu_lasting fun _ => rfl
  · rfl

/-- A boundary of a station whose blocks run reaches of all this the mute count alone (R157). -/
theorem State.runBoundary_lasting (k : Nat) (i : BoundaryInput) :
    (s.runBoundary k i).lasting = (s.onLiu Liu.boundary).lasting := by
  have boundary : ∀ x : State, x.lasting = s.lasting → (x.onLiu Liu.boundary).lasting = (s.onLiu Liu.boundary).lasting := by
    intro x h
    have e : ∀ y : State, (y.onLiu Liu.boundary).lasting = { y.lasting with liu := y.lasting.liu.boundary } := fun _ => rfl
    rw [e, e, h]
  unfold State.runBoundary
  dsimp only
  rw [State.lasting_of_outer (State.atReading_passes_outer _ _ _ _ _ _ _)]
  apply boundary
  rw [State.placeBeacon_lasting, State.transitions_lasting, State.beaconBoundary_lasting,
    State.lasting_of_unread (State.inputsBoundary_unread _ i), State.beginBoundary_lasting]
end

/-! ## The boundary in its parts -/

/-- The station as the transitions of the boundary find it: marked, its inputs read and its beacon work done. -/
def State.atTransitions (s : State) (i : BoundaryInput) : State :=
  ((s.beginBoundary s.nextFrame).inputsBoundary i).beaconBoundary s.nextFrame

/-- The station as the passes of the boundary find it but for the beacon placed. -/
def State.afterTransitions (s : State) (i : BoundaryInput) : State :=
  (s.atTransitions i).transitions s.nextFrame s.nextBoundary s.tbu.state

/-- A boundary due in a station whose blocks run: its transitions, the beacon, its passes. -/
theorem State.markBoundary_eq {s : State} (live : s.live = true) (due : s.boundaryDue = true) (i : BoundaryInput) :
    ∃ c, s.markBoundary i = ((s.afterTransitions i).placeBeacon s.nextFrame (s.st.phase == .up)).atReading s.nextBoundary
      fun x => x.passes s.nextFrame s.nextBoundary c (s.afterTransitions i).tbu.state
        ((s.afterTransitions i).tbu.state == .held && s.tbu.state != .held)
        ((s.afterTransitions i).tbu.state == .running && s.tbu.state == .held) := by
  have phase : ((s.beginBoundary s.nextFrame).inputsBoundary i).st = s.st :=
    (State.st_of_unread (State.inputsBoundary_unread (s.beginBoundary s.nextFrame) i) :)
  unfold State.markBoundary
  rw [if_neg (by simp [due]), if_pos live]
  unfold State.runBoundary
  dsimp only
  rw [phase]
  exact ⟨_, rfl⟩

theorem State.markBoundary_not_due {s : State} (h : s.boundaryDue = false) (i : BoundaryInput) :
    s.markBoundary i = s := by
  simp [State.markBoundary, h]

theorem State.markBoundary_lasting {s : State} (live : s.live = true) (due : s.boundaryDue = true) (i : BoundaryInput) :
    (s.markBoundary i).lasting = (s.onLiu Liu.boundary).lasting := by
  rw [State.markBoundary, if_neg (by simp [due]), if_pos live, State.runBoundary_lasting]

/-- Show memory and the queue at a boundary. -/
theorem State.markBoundary_mem {s : State} (live : s.live = true) (due : s.boundaryDue = true) (i : BoundaryInput) :
    (s.markBoundary i).smc.mem = s.smc.mem ∧ (s.markBoundary i).pending = s.pending :=
  ⟨(State.mem_of_lasting (State.markBoundary_lasting live due i)).trans rfl,
    (State.pending_of_lasting (State.markBoundary_lasting live due i)).trans rfl⟩

theorem State.markWhen_due {s : State} {due : Bool} (live : s.live = true) (h : due = true) (i : BoundaryInput) :
    s.markWhen due i = s.markBoundary i := by
  simp [State.markWhen, live, h]

theorem State.live_of_up {s : State} (h : s.st.phase = .up) : s.live = true := by
  simp [State.live, h]

/-! ## Up to the transitions -/

/-- The state without what the inputs and the beacon work of a boundary reach: besides the readings basin time, the frame
number, the correction with the samples and the stamp it moves, OUT_OF_STEP, and the count of R21. -/
def State.unmarked (s : State) : State :=
  { s.unread with
    pt := {}
    liu := { s.liu with claim := none, rxStamp := none }
    tbu := { s.tbu with basinTime := 0, frameNo := 0, lastCorrection := 0, lastMedian := 0, shift := 0,
                        outOfStep := false, lastStop := none } }

section
variable {s t : State}
theorem State.unmarked_of_unread (h : t.unread = s.unread) : t.unmarked = s.unmarked := by
  have e : ∀ x : State, x.unmarked = x.unread.unmarked := fun _ => rfl
  rw [e t, e s, h]
theorem State.showState_of_unmarked (h : t.unmarked = s.unmarked) : t.tbu.state = s.tbu.state :=
  congrArg (fun x => x.tbu.state) h
theorem State.hold_of_unmarked (h : t.unmarked = s.unmarked) : t.tbu.hold = s.tbu.hold := congrArg (fun x => x.tbu.hold) h
theorem State.segBase_of_unmarked (h : t.unmarked = s.unmarked) : t.tbu.segBase = s.tbu.segBase :=
  congrArg (fun x => x.tbu.segBase) h
theorem State.warmup_of_unmarked (h : t.unmarked = s.unmarked) : t.tbu.warmup = s.tbu.warmup :=
  congrArg (fun x => x.tbu.warmup) h
theorem State.conflict_of_unmarked (h : t.unmarked = s.unmarked) : t.tbu.conflict = s.tbu.conflict :=
  congrArg (fun x => x.tbu.conflict) h
theorem State.ce_of_unmarked (h : t.unmarked = s.unmarked) : t.ce = s.ce := congrArg (fun x => x.ce) h
theorem State.au_of_unmarked (h : t.unmarked = s.unmarked) : t.au = s.au := congrArg (fun x => x.au) h
theorem State.st_of_unmarked (h : t.unmarked = s.unmarked) : t.st = s.st := congrArg (fun x => x.st) h
theorem State.stopActive_of_unmarked (h : t.unmarked = s.unmarked) : t.biu.stopActive = s.biu.stopActive :=
  congrArg (fun x => x.biu.stopActive) h
theorem State.beacon_of_unmarked (h : t.unmarked = s.unmarked) : t.liu.beacon = s.liu.beacon :=
  congrArg (fun x => x.liu.beacon) h
theorem State.tx_of_unmarked (h : t.unmarked = s.unmarked) : t.liu.tx = s.liu.tx := congrArg (fun x => x.liu.tx) h
end

section
variable (s : State)

@[simp] theorem State.onPt_unmarked (g : Pt → Pt) : (s.onPt g).unmarked = s.unmarked := rfl
@[simp] theorem State.correct_unmarked (k : Nat) (c : Int) : (s.correct k c).unmarked = s.unmarked := rfl
@[simp] theorem State.beginBoundary_unmarked (k : Nat) : (s.beginBoundary k).unmarked = s.unmarked := rfl

theorem State.onTbu_unmarked {g : Tbu → Tbu} (h : ∀ t, ({ g t with
      basinTime := 0, frameNo := 0, lastCorrection := 0, lastMedian := 0, shift := 0, outOfStep := false,
      lastStop := none } : Tbu) = { t with
      basinTime := 0, frameNo := 0, lastCorrection := 0, lastMedian := 0, shift := 0, outOfStep := false,
      lastStop := none }) : (s.onTbu g).unmarked = s.unmarked := by
  show ({ s.unmarked with tbu := _ } : State) = s.unmarked
  rw [State.onTbu_tbu, h]
  rfl

@[simp] theorem State.agePeers_unmarked : s.agePeers.unmarked = s.unmarked :=
  (State.unmarked_of_unread s.agePeers_unread).trans (s.onPt_unmarked _)

@[simp] theorem State.beaconBoundary_unmarked (k : Nat) : (s.beaconBoundary k).unmarked = s.unmarked := by
  unfold State.beaconBoundary
  split
  · rfl
  · dsimp only
    split
    · rw [State.correct_unmarked]
      exact Eq.trans (State.onTbu_unmarked _ fun _ => rfl) s.agePeers_unmarked
    · exact Eq.trans (State.onTbu_unmarked _ fun _ => rfl) s.agePeers_unmarked

/-- Up to its transitions a boundary moves nothing of the show. -/
@[simp] theorem State.atTransitions_unmarked (i : BoundaryInput) : (s.atTransitions i).unmarked = s.unmarked := by
  rw [State.atTransitions, State.beaconBoundary_unmarked, State.unmarked_of_unread (State.inputsBoundary_unread _ i),
    State.beginBoundary_unmarked]
end

/-! ## The passes -/

theorem State.onLu_faultCount (s : State) (g : Lu → Lu) (j : FaultKind) : (s.onLu g).faultCount j = s.faultCount j := by
  rw [State.faultCount, State.onLu_biu, State.faultCount]

section
variable (s : State) (k bt : Nat) (c : Int) (handed : ShowState) (entered resumed : Bool)

/-- The station as the cue engine's work of the boundary leaves it. -/
def State.cued : State := (s.onLiu Liu.boundary).cueBoundary k handed

/-- The cue engine stages and reads at a boundary handed as ARMED or RUNNING alone (R36, R45). -/
theorem State.cued_idle (armed : handed ≠ .armed) (running : handed ≠ .running) :
    s.cued k handed = s.onLiu Liu.boundary := by
  unfold State.cued State.cueBoundary
  split
  · exact absurd rfl armed
  · exact absurd rfl running
  · rfl

/-- After the cue engine come the passes of pumps, lights and voices, which leave the timebase unit, the cue engine but for
the slate handed over, and the peer table. -/
theorem State.passes_unsounded : ∃ (jets : List Action) (g : Lu → Lu),
    (s.passes k bt c handed entered resumed).unsounded =
      ((((s.cued k handed).takeSlate k).huPass bt handed jets).onLu g).unsounded :=
  ⟨_, _, Eq.trans (State.unsounded_of_unmapped (State.queueRequests_unmapped _)) (State.auPass_unsounded _ _ _ _ _ _ _ _)⟩

theorem State.passes_fields : (s.passes k bt c handed entered resumed).tbu = (s.cued k handed).tbu ∧
    (s.passes k bt c handed entered resumed).ce = (s.cued k handed).ce.setSlate k {} ∧
    (s.passes k bt c handed entered resumed).pt = (s.cued k handed).pt ∧
    (s.passes k bt c handed entered resumed).st = (s.cued k handed).st := by
  obtain ⟨jets, g, e⟩ := s.passes_unsounded k bt c handed entered resumed
  have hu := State.huPass_unpumped ((s.cued k handed).takeSlate k) bt handed jets
  rw [State.tbu_of_unsounded e, State.ce_of_unsounded e, State.pt_of_unsounded e, State.st_of_unsounded e]
  simp only [State.onLu_tbu, State.onLu_ce, State.onLu_pt, State.onLu_st]
  rw [State.tbu_of_unpumped hu, State.ce_of_unpumped hu, State.pt_of_unpumped hu, State.st_of_unpumped hu]
  exact ⟨rfl, rfl, rfl, rfl⟩

/-- The passes count no fault but those of cues, feedback, pages and underruns. -/
theorem State.passes_faultCount {j : FaultKind} (map : j.offMap = true) (pump : j ≠ .pumpNoFeedback) :
    (s.passes k bt c handed entered resumed).faultCount j = (s.cued k handed).faultCount j := by
  obtain ⟨jets, g, e⟩ := s.passes_unsounded k bt c handed entered resumed
  have hu := State.huPass_unpumped ((s.cued k handed).takeSlate k) bt handed jets
  rw [State.faultCount_of_unsounded e map, State.onLu_faultCount, State.faultCount_of_unpumped hu pump]
  rfl
end

/-! ### The light unit's pass (R79, R87) -/

section
variable (l : Lu) (P : Params)

@[simp] theorem Lu.mapChannels_holdFrame (g : Fin 12 → Fin 4 → LightChannel → LightChannel) :
    (l.mapChannels g).holdFrame = l.holdFrame := by
  rw [Lu.mapChannels]

@[simp] theorem Lu.applyLight_holdFrame (d : LightDeed) : (l.applyLight P d).holdFrame = l.holdFrame := by
  simp [Lu.applyLight]

@[simp] theorem Lu.enterFollow_holdFrame (d : LightDeed) (j : Nat) : (l.enterFollow P d j).holdFrame = l.holdFrame := by
  rw [Lu.enterFollow]

@[simp] theorem Lu.takeSlate_holdFrame (lights : List Action) : (l.takeSlate P lights).holdFrame = l.holdFrame := by
  unfold Lu.takeSlate
  refine foldl_keeps Lu.holdFrame _ (fun l a => ?_) lights l
  split
  · split <;> simp
  · rfl

@[simp] theorem Lu.releaseFollow_holdFrame (h : Hu) (k : Nat) : (l.releaseFollow h k).holdFrame = l.holdFrame := by
  simp [Lu.releaseFollow]

@[simp] theorem Lu.interlock_holdFrame (level : Nat) : (l.interlock P level).holdFrame = l.holdFrame := by
  simp [Lu.interlock, Lu.recompute]

/-- The hold frame is recorded as HELD is entered, and goes at the resume (R87). -/
theorem Lu.pass_holdFrame (h : Hu) (level k : Nat) (handed : ShowState) (entered resumed : Bool) (lights : List Action) :
    (l.pass P h level k handed entered resumed lights).holdFrame =
      if entered then some k else if resumed then none else l.holdFrame := by
  have run : ∀ x : Lu, ((if handed = .held then (if handed = .held then x else x.mapChannels fun _ _ c => c.step).takeSlate
      P lights else ((if handed = .held then x else x.mapChannels fun _ _ c => c.step).takeSlate P lights).releaseFollow h
      k).interlock P level).holdFrame = x.holdFrame := by
    intro x
    split <;> simp
  unfold Lu.pass
  dsimp only
  rw [run]
  cases entered <;> cases resumed <;> rfl
end

theorem State.passes_lu_holdFrame (s : State) (k bt : Nat) (c : Int) (handed : ShowState) (entered resumed : Bool) :
    (s.passes k bt c handed entered resumed).lu.holdFrame =
      if entered then some k else if resumed then none else (s.cued k handed).lu.holdFrame := by
  unfold State.passes
  dsimp only
  rw [State.lu_of_unsounded ((State.unsounded_of_unmapped (State.queueRequests_unmapped _)).trans
    (State.auPass_unsounded _ _ _ _ _ _ _ _)), State.onLu_lu, Lu.pass_holdFrame,
    State.lu_of_unpumped (State.huPass_unpumped _ _ _ _)]
  rfl

/-! ### The audio unit's pass (R101, R104) -/

theorem Voice.pause_silent (v : Voice) : v.pause.state.sounds = false := by
  cases h : v.state <;> simp [Voice.pause, h, VoiceState.sounds]

/-- As HELD is entered the unit records the frame and no voice plays on; at the resume the record goes (R104). -/
theorem State.passes_held_voices (s : State) (k bt : Nat) (c : Int) (handed : ShowState) :
    (s.passes k bt c handed true false).au.holdFrame = some k ∧
      ∀ v : VoiceId, ((s.passes k bt c handed true false).au.voice v).state.sounds = false := by
  unfold State.passes State.auPass
  dsimp only
  rw [State.au_of_unmapped (State.queueRequests_unmapped _)]
  obtain ⟨a, b, frame⟩ := State.voices_of_unfilled (State.lookAheadStep_unfilled _)
  refine ⟨frame.trans rfl, fun v => ?_⟩
  cases v
  · exact (congrArg (fun v : Voice => v.state.sounds) a).trans (Voice.pause_silent _)
  · exact (congrArg (fun v : Voice => v.state.sounds) b).trans (Voice.pause_silent _)

theorem State.passes_resumed_holdFrame (s : State) (k bt : Nat) (c : Int) (handed : ShowState) :
    (s.passes k bt c handed false true).au.holdFrame = none := by
  unfold State.passes State.auPass
  dsimp only
  rw [State.au_of_unmapped (State.queueRequests_unmapped _)]
  obtain ⟨-, -, frame⟩ := State.voices_of_unfilled (State.lookAheadStep_unfilled _)
  exact frame.trans rfl

end Sys2Proof.Machine
end

