-- ==== Sys2Proof/Proofs/Standing.lean ====
section
/-!
The commands of the link, the memory controller and the content map leave the timebase unit, the cue engine and the pumps
(spec/06 to spec/08): the part of the state that none of them reaches, command by command.
-/
namespace Sys2Proof.Machine

/-- What stands over the work of link, memory controller and content map: the timebase unit, the cue engine, the pumps, the
parameters, the position and the queue. -/
def State.standing (s : State) : State :=
  { tbu := s.tbu, ce := s.ce, hu := { pumps := s.hu.pumps }, pending := s.pending
    st := { params := s.st.params, valid := s.st.valid, position := s.st.position } }

section
variable {s t : State}
theorem State.tbu_of_standing (h : t.standing = s.standing) : t.tbu = s.tbu := congrArg (fun x => x.tbu) h
theorem State.ce_of_standing (h : t.standing = s.standing) : t.ce = s.ce := congrArg (fun x => x.ce) h
theorem State.pumps_of_standing (h : t.standing = s.standing) : t.hu.pumps = s.hu.pumps :=
  congrArg (fun x => x.hu.pumps) h

theorem State.standing_of_unsounded (h : t.unsounded = s.unsounded) : t.standing = s.standing := by
  have e : ∀ x : State, x.standing = x.unsounded.standing := fun _ => rfl
  rw [e t, e s, h]

theorem State.standing_of_unmapped (h : t.unmapped = s.unmapped) : t.standing = s.standing :=
  State.standing_of_unsounded (State.unsounded_of_unmapped h)

theorem State.standing_of_unfilled (h : t.unfilled = s.unfilled) : t.standing = s.standing :=
  State.standing_of_unsounded (State.unsounded_of_unfilled h)
end

section
variable (s : State)

@[simp] theorem State.onLu_standing (g : Lu → Lu) : (s.onLu g).standing = s.standing := rfl
@[simp] theorem State.onAu_standing (g : Au → Au) : (s.onAu g).standing = s.standing := rfl
@[simp] theorem State.onCm_standing (g : Cm → Cm) : (s.onCm g).standing = s.standing := rfl
@[simp] theorem State.onLiu_standing (g : Liu → Liu) : (s.onLiu g).standing = s.standing := rfl
@[simp] theorem State.onPt_standing (g : Pt → Pt) : (s.onPt g).standing = s.standing := rfl
@[simp] theorem State.onSmc_standing (g : Smc → Smc) : (s.onSmc g).standing = s.standing := rfl
@[simp] theorem State.onBiu_standing (g : Biu → Biu) : (s.onBiu g).standing = s.standing := rfl
@[simp] theorem State.raise_standing (k : FaultKind) (d : Option FaultDetail) : (s.raise k d).standing = s.standing := rfl
@[simp] theorem State.afterFrame_standing : s.afterFrame.standing = s.standing := rfl

/-! ## The content map -/

@[simp] theorem State.queueRequests_standing : s.queueRequests.standing = s.standing :=
  State.standing_of_unmapped s.queueRequests_unmapped

@[simp] theorem State.release_standing (gs : List Nat) : (s.release gs).standing = s.standing :=
  State.standing_of_unsounded (s.release_unsounded gs)

@[simp] theorem State.openFill_standing (g q p : Nat) (f : Bool) : (s.openFill g q p f).standing = s.standing :=
  State.standing_of_unmapped (s.openFill_unmapped g q p f)

@[simp] theorem State.makeChange_standing (x : Change) : (s.makeChange x).standing = s.standing :=
  State.standing_of_unmapped (s.makeChange_unmapped x)

@[simp] theorem State.initMap_standing : s.initMap.standing = s.standing := State.standing_of_unmapped s.initMap_unmapped

@[simp] theorem State.dropServes_standing (l : List Serve) :
    (l.foldl (fun s r => s.dropServe r.id) s).standing = s.standing :=
  State.standing_of_unmapped (s.dropServes_unmapped l)

@[simp] theorem State.feed_standing (x : Fill) (chunk : Nat) (data : List Byte) :
    (s.feed x chunk data).standing = s.standing := by
  unfold State.feed
  dsimp only
  split <;> simp

@[simp] theorem State.feedPage_standing (g q : Nat) (f : PageDataFields) : (s.feedPage g q f).standing = s.standing := by
  unfold State.feedPage
  split <;> simp

@[simp] theorem State.popIntake_standing : s.popIntake.standing = s.standing := rfl

theorem State.takeSelect_standing (n : Nat) : (s.takeSelect n).standing = s.standing := by
  unfold State.takeSelect
  split
  · rfl
  · split
    · rfl
    · split <;> simp

@[simp] theorem State.releaseIfDefined_standing (g : Nat) : (s.releaseIfDefined g).standing = s.standing := by
  unfold State.releaseIfDefined
  split <;> simp

theorem State.takeDefine_standing (f : SegmentDefineFields) : (s.takeDefine f).standing = s.standing := by
  have define : ∀ (x : State) (g : Nat) (e : DirEntry), (x.define g e).standing = x.standing := fun x g e =>
    (State.standing_of_unmapped (State.issueMap_unmapped _)).trans (x.onCm_standing _)
  unfold State.takeDefine
  dsimp only
  split
  · rfl
  · split
    · rfl
    · split
      · simp
      · split
        · rfl
        · rw [define, State.releaseIfDefined_standing]

theorem State.takePageData_standing (f : PageDataFields) : (s.takePageData f).standing = s.standing := by
  unfold State.takePageData
  dsimp only
  split
  · rfl
  · split
    · rfl
    · split
      · rfl
      · split
        · rfl
        · split
          · rfl
          · simp
          · split
            · rfl
            · split
              · rfl
              · simp
          · split
            · rfl
            · split
              · rfl
              · simp

theorem State.fetchExpired_standing (f : Fill) : (s.fetchExpired f).standing = s.standing := by
  unfold State.fetchExpired
  split
  · exact State.standing_of_unmapped (State.queueRequest_unmapped _)
  · simp

theorem State.startSending_standing (r : Serve) : (s.startSending r).standing = s.standing :=
  State.standing_of_unmapped ((State.serveAnswer_unmapped _ _ _).trans (State.serveLookup_unmapped _ _))

theorem State.issueServeRead_standing (r : Serve) : (s.issueServeRead r).standing = s.standing := by
  unfold State.issueServeRead
  split <;> rfl

theorem State.chunkDone_standing : s.chunkDone.standing = s.standing := by
  unfold State.chunkDone
  dsimp only
  split <;> simp

theorem State.serveReadDone_standing (id : Nat) (bytes : List Byte) : (s.serveReadDone id bytes).standing = s.standing := by
  unfold State.serveReadDone
  split
  · split <;> rfl
  · rfl

theorem State.completion_standing (c : ReqClass) {act : State → Report → State}
    (h : ∀ x r, (act x r).standing = x.standing) : (s.completion c act).standing = s.standing := by
  unfold State.completion
  split
  · rw [h, State.onSmc_standing]
  · rfl

/-! ## The link -/

theorem State.abortTransmission_standing : s.abortTransmission.standing = s.standing := by
  unfold State.abortTransmission
  dsimp only
  split <;> simp

theorem State.requestOut_standing : s.requestOut.standing = s.standing := by
  unfold State.requestOut
  split <;> rfl

theorem State.dataOut_standing : s.dataOut.standing = s.standing := by
  unfold State.dataOut
  split
  · dsimp only
    split <;> simp
  · rfl

theorem State.intoIntake_standing (f : ContentFrame) : (s.intoIntake f).standing = s.standing := by
  unfold State.intoIntake
  split <;> rfl

theorem State.hearShowSelect_standing (n : Byte) : (s.hearShowSelect n).standing = s.standing := by
  unfold State.hearShowSelect
  split
  · exact s.intoIntake_standing _
  · exact s.intoIntake_standing _
  · rfl

theorem State.huPeerClaim_standing : s.huPeerClaim.standing = s.standing := by
  unfold State.huPeerClaim
  dsimp only
  split <;> rfl

theorem State.hearPageData_standing (p : Position) (f : PageDataFields) : (s.hearPageData p f).standing = s.standing := by
  unfold State.hearPageData
  rw [State.intoIntake_standing, State.dropServes_standing]

theorem State.hearPageRequest_standing (p : Position) (n g q : Nat) :
    (s.hearPageRequest p n g q).standing = s.standing := by
  unfold State.hearPageRequest
  split <;> rfl

theorem State.answerQuery_standing (target tag : Byte) (sel : Nat) (snap : State → List Byte) :
    (s.answerQuery target tag sel snap).standing = s.standing := by
  unfold State.answerQuery
  split <;> rfl

theorem State.countSelector_standing (target selector : Byte) :
    (s.targeted target fun s => if 5 < selector.toNat then s.onLiu Liu.countRxError else s).standing = s.standing := by
  unfold State.targeted
  split
  · split <;> rfl
  · rfl

/-! ## Other units -/

theorem State.queueClaim_standing : s.queueClaim.standing = s.standing := by
  unfold State.queueClaim
  split
  · split <;> rfl
  · rfl

theorem State.answerDefinition_standing : s.answerDefinition.standing = s.standing := by
  unfold State.answerDefinition
  split
  · rfl
  · dsimp only
    split <;> rfl

theorem State.handWords_standing : s.handWords.standing = s.standing := by
  obtain ⟨g, e⟩ := s.handWords_onAu
  rw [e, State.onAu_standing]

theorem State.memoryReady_standing : s.memoryReady.standing = s.standing := by
  unfold State.memoryReady
  dsimp only
  split <;> split
  · exact State.initMap_standing _
  · rfl
  · exact State.initMap_standing _
  · rfl
end

/-! ## Commands -/

/-- A branch taken or not. -/
theorem State.standing_ite {s t : State} {p : Prop} [Decidable p] (h : t.standing = s.standing) :
    (if p then t else s).standing = s.standing := by
  split
  · exact h
  · rfl

/-- The commands of link, memory controller and content map, and the frames that reach these alone. -/
def standing? : Instr → Bool
  | .spacingTimerExpiry | .definitionAnswer | .contentEnd _ | .rowReadComplete | .mapRegionAccessComplete
  | .queuedChangeApply | .showSelectTaken | .segmentDefineTaken | .pageDataTaken | .chunkWriteComplete
  | .fetchTimerExpiry | .pageRequestQueue | .pageRequestGoneOut | .serveDelayEnd | .serveReadIssue | .serveReadComplete
  | .pageDataGoneOut | .initWaitEnd | .initPrechargeEnd | .initRefreshEnd | .initModeEnd | .grantPoint | .debtRise
  | .bankActivateDone _ | .bankPrechargeDone _ | .transmitStart _ | .transmitError | .beaconGoneOut | .stopAssertGoneOut
  | .statusReplyGoneOut | .yieldIdleExpiry | .frameDiscarded _ | .stopInputInactive | .feedbackChange .. => true
  | _ => false

theorem exec_standing {c : Instr} (h : standing? c = true) {s t : State} (e : exec c s = .next t) :
    t.standing = s.standing := by
  cases c <;> simp only [standing?, reduceCtorEq] at h
  case grantPoint =>
    simp only [exec, execGrantPoint] at e
    split at e
    · cases e
    · cases e
      rw [State.onSmc_standing, State.handWords_standing]
  all_goals cases e
  case spacingTimerExpiry => exact State.standing_ite s.queueClaim_standing
  case definitionAnswer => exact State.standing_ite s.answerDefinition_standing
  case contentEnd => rfl
  case rowReadComplete =>
    exact s.completion_standing _ fun x r => State.standing_of_unfilled (x.rowReadDone_unfilled _)
  case mapRegionAccessComplete =>
    exact State.standing_ite (s.completion_standing _ fun x _ => State.standing_of_unmapped x.mapAccessDone_unmapped)
  case queuedChangeApply =>
    split
    · exact State.standing_ite (State.standing_of_unmapped (State.applyChange_unmapped _ _))
    · rfl
  case showSelectTaken =>
    split
    · exact State.standing_ite (State.takeSelect_standing _ _)
    · rfl
  case segmentDefineTaken =>
    split
    · exact State.standing_ite (State.takeDefine_standing _ _)
    · rfl
  case pageDataTaken =>
    split
    · exact State.standing_ite (State.takePageData_standing _ _)
    · rfl
  case chunkWriteComplete => exact s.completion_standing _ fun x _ => x.chunkDone_standing
  case fetchTimerExpiry =>
    split
    · exact State.standing_ite (State.fetchExpired_standing _ _)
    · rfl
  case pageRequestQueue => exact State.standing_ite (State.standing_of_unmapped s.queueRequest_unmapped)
  case pageRequestGoneOut =>
    split
    · exact s.requestOut_standing
    · rfl
  case serveDelayEnd =>
    split
    · exact State.standing_ite (State.startSending_standing _ _)
    · rfl
  case serveReadIssue =>
    split
    · exact State.standing_ite (State.issueServeRead_standing _ _)
    · rfl
  case serveReadComplete => exact s.completion_standing _ fun x _ => x.serveReadDone_standing _ _
  case pageDataGoneOut =>
    split
    · exact s.dataOut_standing
    · rfl
  case initWaitEnd => exact State.standing_ite rfl
  case initModeEnd => exact State.standing_ite (State.memoryReady_standing _)
  case transmitStart => exact State.standing_ite rfl
  case transmitError => exact State.standing_ite s.abortTransmission_standing
  case yieldIdleExpiry => exact State.standing_ite rfl
  case stopInputInactive => exact State.standing_ite rfl
  case feedbackChange => exact State.standing_ite rfl
  case frameDiscarded =>
    split
    · exact State.standing_ite rfl
    all_goals rfl
  case initPrechargeEnd | initRefreshEnd | debtRise | bankActivateDone | bankPrechargeDone => rfl
  case beaconGoneOut | stopAssertGoneOut | statusReplyGoneOut => split <;> rfl

end Sys2Proof.Machine
end

