-- ==== Sys2Proof/Proofs/Stillness.lean ====
section
/-!
In HALTED and STANDBY no pump turns, and outside ARMED, RUNNING and HELD no list is read (spec/01, R20; spec/02, R46;
spec/03, R73): the condition kept by each part of a step.
-/
namespace Sys2Proof.Machine

/-! ## The two halves of the condition -/

/-- No pump is CLAIMING, STARTING or RUNNING. -/
def Hu.still (h : Hu) : Prop := ∀ n : Channel, (h.pump n).state.active = false

/-- The engine reads no list and holds no action. -/
def Ce.idle (c : Ce) : Prop :=
  c.readState = .none ∧ c.pos = none ∧ c.queue = [] ∧ c.waiting = none ∧ c.scan = none

/-- The states in which a list is read or held. -/
def ShowState.lists : ShowState → Bool
  | .armed | .running | .held => true
  | _ => false

/-- The states in which no pump turns. -/
def ShowState.rests : ShowState → Bool
  | .halted | .standby => true
  | _ => false

theorem State.stilled_iff (s : State) : s.stilled ↔
    (s.tbu.state.rests = true → s.hu.still) ∧ (s.tbu.state.lists = false → s.ce.idle) := by
  unfold State.stilled Hu.still Ce.idle
  cases s.tbu.state <;> simp [ShowState.lists, ShowState.rests]

/-- A station with its list asks nothing more. -/
theorem State.stilled_of_lists {s : State} (h : s.tbu.state.lists = true) : s.stilled := by
  rw [State.stilled_iff]
  cases e : s.tbu.state <;> simp_all [ShowState.lists, ShowState.rests]

theorem State.stilled_of_idle {s : State} (still : s.tbu.state.rests = true → s.hu.still) (idle : s.ce.idle) :
    s.stilled := (State.stilled_iff s).mpr ⟨still, fun _ => idle⟩

/-- What keeps the show state, the engine's idleness and the pumps' stillness keeps the condition. -/
theorem State.stilled_of_keeps {s t : State} (h : s.stilled) (state : t.tbu.state = s.tbu.state)
    (idle : s.ce.idle → t.ce.idle) (still : s.hu.still → t.hu.still) : t.stilled := by
  rw [State.stilled_iff] at h ⊢
  rw [state]
  exact ⟨fun x => still (h.1 x), fun x => idle (h.2 x)⟩

theorem Hu.still_of_pumps {h h' : Hu} (e : h'.pumps = h.pumps) : h.still → h'.still := by
  unfold Hu.still Hu.pump
  rw [e]
  exact id

theorem State.stilled_of_standing {s t : State} (h : s.stilled) (e : t.standing = s.standing) : t.stilled :=
  State.stilled_of_keeps h (congrArg Tbu.state (State.tbu_of_standing e)) (fun x => State.ce_of_standing e ▸ x)
    (Hu.still_of_pumps (State.pumps_of_standing e))

theorem Ce.giveUp_idle (c : Ce) : c.giveUp.idle := ⟨rfl, rfl, rfl, rfl, rfl⟩

theorem Ce.setSlate_idle {c : Ce} (h : c.idle) (k : Nat) (x : Slate) : (c.setSlate k x).idle := by
  unfold Ce.setSlate
  split <;> exact h

/-- Stillness pump by pump. -/
theorem Hu.mapPumps_still {h : Hu} {g : Channel → Pump → Pump} (still : h.still)
    (keep : ∀ n p, p.state.active = false → (g n p).state.active = false) : (h.mapPumps g).still := by
  intro n
  rw [Hu.mapPumps_pump]
  exact keep n _ (still n)

theorem Hu.onPump_still {h : Hu} {g : Pump → Pump} (still : h.still) (n : Channel)
    (keep : (h.pump n).state.active = false → (g (h.pump n)).state.active = false) : (h.onPump n g).still := by
  intro m
  by_cases e : m = n
  · rw [e, Hu.onPump_same]
    exact keep (still n)
  · rw [Hu.onPump_other h g e]
    exact still m

/-! ## Pumps -/

/-- A pump that does not turn is OFF, RESTING, STOPPING or LOCKED. -/
theorem PumpState.inactive_iff (x : PumpState) :
    x.active = false ↔ x = .off ∨ x = .resting ∨ x = .stopping ∨ x = .locked := by
  cases x <;> simp [PumpState.active]

section
variable {p : Pump} (h : p.state.active = false)
include h

theorem Pump.dry_inactive : p.dry.state.active = false := by
  rcases (PumpState.inactive_iff _).mp h with e | e | e | e <;> simp [Pump.dry, e, PumpState.active]

theorem Pump.unlockIfFree_inactive (pp : PumpParams) : (p.unlockIfFree pp).state.active = false := by
  unfold Pump.unlockIfFree
  split
  · rfl
  · exact h

theorem Pump.undry_inactive (pp : PumpParams) : (p.undry pp).state.active = false :=
  Pump.unlockIfFree_inactive (p := { p with lockDry := false, lockPending := false }) h pp

theorem Pump.clearFeedback_inactive (pp : PumpParams) : (p.clearFeedback pp).state.active = false := by
  unfold Pump.clearFeedback
  split
  · exact Pump.unlockIfFree_inactive (p := { p with lockFeedback := false }) h pp
  · exact h

/-- Without a requested drive no pump begins to turn (R61, R62). -/
theorem Pump.event_inactive (pp : PumpParams) (fb : Bool) (zero : p.requested = 0) :
    (p.event pp fb).state.active = false := by
  rcases (PumpState.inactive_iff _).mp h with e | e | e | e
  · simp [Pump.event, e, zero, PumpState.active]
  · unfold Pump.event
    rw [e]
    dsimp only
    split
    · rfl
    · simp [PumpState.active]
  · simp [Pump.event, e, PumpState.active]
  · simp [Pump.event, e, PumpState.active]

theorem Pump.ramp_inactive (pp : PumpParams) : (p.ramp pp).state.active = false := by
  rcases (PumpState.inactive_iff _).mp h with e | e | e | e
  · simp [Pump.ramp, e, PumpState.active]
  · simp [Pump.ramp, e, PumpState.active]
  · unfold Pump.ramp
    rw [e]
    dsimp only
    split
    · split <;> rfl
    · rfl
  · simp [Pump.ramp, e, PumpState.active]
end

theorem Pump.arrive_state (pp : PumpParams) (now : Nat) (p : Pump) : (p.arrive pp now).state = p.state := by
  unfold Pump.arrive
  split <;> rfl

theorem driveFor_zero (pp : PumpParams) : driveFor pp 0 = 0 := by simp [driveFor]

theorem deratedHeight_zero (P : Params) (pp : PumpParams) (ws : WindState) (w : Nat) :
    deratedHeight P pp ws w 0 = 0 := by
  cases ws <;> simp [deratedHeight]

/-! ## The pass of the pumps (R51) -/

section
variable {h : Hu} {P : Params}

/-- Handed as HALTED or STANDBY the pass takes every height to 0. -/
theorem Hu.takeHeights_zero {handed : ShowState} (rests : handed.rests = true) (jets : List Action) (n : Channel) :
    ((h.takeHeights P handed jets).pump n).height = 0 := by
  unfold Hu.takeHeights
  cases handed <;> simp [ShowState.rests] at rests <;> simp

theorem Hu.takeHeights_still (still : h.still) (handed : ShowState) (jets : List Action) :
    (h.takeHeights P handed jets).still := by
  obtain ⟨x, hx, e⟩ : ∃ x : Hu, x.still ∧ h.takeHeights P handed jets =
      match handed with
      | .armed | .running | .held => x
      | _ => x.mapPumps fun _ p => { p with height := 0 } := by
    refine ⟨_, List.foldlRecOn (motive := Hu.still) jets _ still fun x hx a _ => ?_, rfl⟩
    split
    · refine Hu.mapPumps_still hx fun n p hp => ?_
      split <;> exact hp
    · exact hx
  rw [e]
  split
  · exact hx
  · exact hx
  · exact hx
  · exact Hu.mapPumps_still hx fun _ _ hp => hp

theorem Hu.request_still (still : h.still) (ws : WindState) (w : Nat) : (h.request P ws w).still := by
  refine Hu.mapPumps_still still fun n p hp => ?_
  split <;> exact hp

theorem Hu.request_zero (ws : WindState) (w : Nat) {n : Channel} (zero : (h.pump n).height = 0)
    (present : P.pumps[n].present = true) : ((h.request P ws w).pump n).requested = 0 := by
  rw [Hu.request, Hu.mapPumps_pump, if_pos present, zero, deratedHeight_zero, driveFor_zero]

theorem Hu.events_still (still : h.still) (fb : Channel → Bool)
    (zero : ∀ n : Channel, P.pumps[n].present = true → (h.pump n).requested = 0) : (h.events P fb).still := by
  intro n
  rw [Hu.events, Hu.mapPumps_pump]
  split
  · exact Pump.event_inactive (still n) _ _ (zero n ‹_›)
  · exact still n

theorem Hu.abortStarts_still (still : h.still) : (h.abortStarts P).still := by
  unfold Hu.abortStarts
  generalize allChannels.reverse = l
  induction l generalizing h with
  | nil => exact still
  | cons n l ih =>
    refine ih ?_
    dsimp only
    split
    · exact Hu.onPump_still still n fun _ => rfl
    · exact still

theorem Hu.scaleTargets_still (still : h.still) : (h.scaleTargets P).still := by
  have turned := Hu.mapPumps_still (g := fun n p =>
    if p.state = .running then
      let t := p.stageDrive P.pumps[n] *
        largestUpTo (fun f => decide (h.scaledPower P f ≤ h.share - h.startAllowance P)) 1024 / 1024
      { p with committed := t, arrival := if t = p.committed then p.arrival else .pending }
    else p) still fun n p hp => by
      dsimp only
      split <;> exact hp
  exact turned

theorem Hu.shed_still (still : h.still) : (h.shed P).still := by
  refine Hu.mapPumps_still still fun n p hp => ?_
  split
  · rfl
  · exact hp

theorem Hu.rampAll_still (still : h.still) (now : Nat) : (h.rampAll P now).still := by
  refine Hu.mapPumps_still still fun n p hp => ?_
  rw [Pump.arrive_state]
  exact Pump.ramp_inactive hp _
end

/-- A pass handed as HALTED or STANDBY starts no pump (R51, R61, R73). -/
theorem State.huPass_still {s : State} (still : s.hu.still) {handed : ShowState} (rests : handed.rests = true)
    (now : Nat) (jets : List Action) : (s.huPass now handed jets).hu.still := by
  unfold State.huPass
  dsimp only
  refine Hu.still_of_pumps ((State.queueClaim_pumps _).trans ((State.recheckClaim_pumps _).trans
    (State.settleClaim_pumps _))) ?_
  rw [State.onHu_hu, State.raiseFeedbackLocks_hu, State.onHu_hu, State.onHu_hu]
  have asked := Hu.request_still (P := s.params) (Hu.takeHeights_still (P := s.params) still handed jets) s.biu.windState
    s.biu.effWind
  refine Hu.rampAll_still (Hu.shed_still (Hu.scaleTargets_still (Hu.abortStarts_still ?_))) now
  exact Hu.events_still asked _ fun n present => Hu.request_zero _ _ (Hu.takeHeights_zero rests jets n) present

/-! ## Readings -/

/-- A condition that the readings cannot break: it holds through every change of peer table and basin input unit, and
through what level state and cover make of pumps and lights. -/
structure KeptByReadings (I : State → Prop) : Prop where
  onPt : ∀ (s : State) (g : Pt → Pt), I s → I (s.onPt g)
  onBiu : ∀ (s : State) (g : Biu → Biu), I s → I (s.onBiu g)
  dry : ∀ s : State, I s → I s.huDry
  normal : ∀ s : State, I s → I s.huNormal
  interlock : ∀ (s : State) (P : Params) (l : Nat), I s → I (s.onLu (Lu.interlock P l))

namespace KeptByReadings
variable {I : State → Prop} (kept : KeptByReadings I) {s : State} (h : I s)
include kept h

theorem raise (k : FaultKind) : I (s.raise k) := kept.onBiu s _ h

theorem raiseIf (p : Prop) [Decidable p] (k : FaultKind) : I (if p then s.raise k else s) := by
  split
  · exact kept.raise h k
  · exact h

theorem evalLevel (l : Nat) : I (s.evalLevel l) := by
  unfold State.evalLevel
  split
  · split
    · have dry := kept.dry _ (kept.onBiu s (fun b => { b with levelState := .dry }) h)
      dsimp only
      split
      · exact dry
      · exact kept.raise dry _
    · exact h
  · split
    · exact kept.normal _ (kept.onBiu s _ h)
    · exact h

theorem recomputeLevel : I s.recomputeLevel := by
  unfold State.recomputeLevel
  dsimp only
  split
  · exact kept.raiseIf (kept.onPt s _ h) _ _
  · exact kept.interlock _ _ _ (kept.evalLevel (kept.onBiu _ _ (kept.raiseIf (kept.onPt s _ h) _ _)) _)

theorem recomputeWind : I s.recomputeWind := by
  unfold State.recomputeWind
  dsimp only
  split
  · exact kept.raiseIf (kept.onPt s _ h) _ _
  · exact kept.onBiu _ _ (kept.raiseIf (kept.onPt s _ h) _ _)

theorem recomputeLevelIf (p : Prop) [Decidable p] : I (if p then s.recomputeLevel else s) := by
  split
  · exact kept.recomputeLevel h
  · exact h

theorem recomputeWindIf (p : Prop) [Decidable p] : I (if p then s.recomputeWind else s) := by
  split
  · exact kept.recomputeWind h
  · exact h

theorem inputsBoundary (i : BoundaryInput) : I (s.inputsBoundary i) := by
  unfold State.inputsBoundary State.sampleReadings
  dsimp only
  refine kept.onBiu _ _ ?_
  rw [← ite_not]
  refine kept.recomputeWindIf (kept.onBiu _ _ ?_) _
  rw [← ite_not]
  exact kept.recomputeLevelIf (kept.onBiu s _ h) _

theorem agePeers : I s.agePeers := by
  unfold State.agePeers
  exact kept.recomputeLevelIf (kept.recomputeWindIf (kept.onPt s _ h) _) _

theorem recordBeacon (q : Position) (f : BeaconFields) (sof : Int) : I (s.recordBeacon q f sof) := by
  unfold State.recordBeacon
  dsimp only
  rw [← ite_not, ← ite_not (p := Option.bind _ _ = _)]
  exact kept.recomputeLevelIf (kept.recomputeWindIf (kept.onPt s _ h) _) _

theorem endOfListenReadings : I s.endOfListenReadings := by
  unfold State.endOfListenReadings
  exact kept.raiseIf (kept.raiseIf (kept.raiseIf (kept.recomputeLevel (kept.recomputeWind h)) _ _) _ _) _ _
end KeptByReadings

section
variable {s : State}

/-- What a change of the level state makes of the pumps, pump by pump. -/
theorem State.huDry_pump (n : Channel) : s.huDry.hu.pump n = s.hu.pump n ∨ s.huDry.hu.pump n = (s.hu.pump n).dry := by
  rw [State.huDry, Hu.pump_of_pumps (State.settleClaim_pumps _), State.onHu_hu, Hu.mapPumps_pump]
  split
  · exact .inr rfl
  · exact .inl rfl

theorem State.huNormal_pump (n : Channel) :
    s.huNormal.hu.pump n = s.hu.pump n ∨ s.huNormal.hu.pump n = (s.hu.pump n).undry s.params.pumps[n] := by
  rw [State.huNormal, State.onHu_hu, Hu.mapPumps_pump]
  split
  · exact .inr rfl
  · exact .inl rfl

theorem Hu.still_keptByReadings : KeptByReadings fun s => s.hu.still where
  onPt s g h := by rwa [State.onPt_hu]
  onBiu s g h := by rwa [State.onBiu_hu]
  dry s h n := by
    rcases s.huDry_pump n with e | e <;> rw [e]
    · exact h n
    · exact Pump.dry_inactive (h n)
  normal s h n := by
    rcases s.huNormal_pump n with e | e <;> rw [e]
    · exact h n
    · exact Pump.undry_inactive (h n) _
  interlock s P l h := by rwa [State.onLu_hu]

/-- A reading keeps the condition when it starts no pump. -/
theorem State.stilled_of_unread {t : State} (h : s.stilled) (e : t.unread = s.unread) (still : s.hu.still → t.hu.still) :
    t.stilled :=
  State.stilled_of_keeps h (congrArg Tbu.state (State.tbu_of_unread e)) (fun x => State.ce_of_unread e ▸ x) still
end

/-! ## The show transitions -/

section
variable {s : State}

theorem State.enterEnding_stilled (s : State) (fade : Nat) : (s.enterEnding fade).stilled := by
  refine State.stilled_of_idle (fun h => ?_) ?_
  · rw [(s.enterEnding_endsShow fade).1] at h
    cases h
  · rw [show (s.enterEnding fade).ce = s.ce.giveUp by simp [State.enterEnding, State.huZeroHeights]]
    exact Ce.giveUp_idle _

theorem State.armedToIdle_stilled (s : State) : s.armedToIdle.stilled := by
  refine State.stilled_of_idle (fun h => ?_) (Ce.giveUp_idle s.ce)
  cases h

theorem State.enterHalted_stilled (s : State) : s.enterHalted.stilled := by
  refine State.stilled_of_idle (fun _ n => ?_) ?_
  · have e : s.enterHalted.hu.pump n = (s.hu.pump n).halt := by simp [State.enterHalted, State.huHalt_pump]
    rw [e]
    exact Pump.halt_inactive _
  · rw [show s.enterHalted.ce = s.ce.giveUp by simp [State.enterHalted]]
    exact Ce.giveUp_idle _

theorem State.enterStandby_still (s : State) : s.enterStandby.hu.still := by
  intro n
  rw [State.enterStandby_pump]
  exact Pump.halt_inactive _

theorem State.giveUp_stilled (h : s.tbu.state.rests = true → s.hu.still) : (s.onCe Ce.giveUp).stilled :=
  State.stilled_of_idle h (Ce.giveUp_idle s.ce)

theorem State.positionConflict_stilled (s : State) : s.positionConflict.stilled := by
  rw [State.positionConflict_eq]
  exact State.giveUp_stilled fun _ => State.enterStandby_still _

theorem State.haltRequest_stilled (h : s.stilled) : s.haltRequest.stilled := by
  unfold State.haltRequest
  split
  · exact h
  · exact h
  · exact State.enterHalted_stilled s

/-- The engine's half of the condition, in a state without a list. -/
theorem State.idle_of_stilled (h : s.stilled) (e : s.tbu.state.lists = false) : s.ce.idle := ((State.stilled_iff s).mp h).2 e

theorem State.takeEnd_stilled (h : s.stilled) (now : Nat) : (s.takeEnd now).stilled := by
  unfold State.takeEnd
  split
  · exact State.enterEnding_stilled s _
  · exact h

theorem State.takeT0_stilled (h : s.stilled) (now : Nat) : (s.takeT0 now).stilled := by
  unfold State.takeT0
  split
  · exact State.takeEnd_stilled (State.stilled_of_lists rfl) now
  · exact h

theorem State.takeHold_stilled (h : s.stilled) (bt : Nat) : (s.takeHold bt).stilled := by
  unfold State.takeHold
  split
  · exact State.stilled_of_lists rfl
  · exact h

theorem State.takeResume_stilled (h : s.stilled) (bt : Nat) : (s.takeResume bt).stilled := by
  unfold State.takeResume
  split
  · exact State.takeEnd_stilled (State.stilled_of_lists rfl) bt
  · exact h

theorem State.checkEnding_stilled (h : s.stilled) : s.checkEnding.stilled := by
  unfold State.checkEnding
  split
  · rename_i ending
    refine State.stilled_of_idle (fun x => ?_) (State.idle_of_stilled (s := s) h (by simp [ending.1, ShowState.lists]))
    cases x
  · exact h

theorem State.enterWarmup_stilled (h : s.stilled) (wake : s.wakeable = true) : s.enterWarmup.stilled := by
  have standby : s.tbu.state = .standby := by
    simp only [State.wakeable, Bool.and_eq_true, beq_iff_eq] at wake
    exact wake.1.1
  refine State.stilled_of_idle (fun x => ?_) (State.idle_of_stilled (s := s) h (by simp [standby, ShowState.lists]))
  cases x

theorem State.countWarmup_stilled (h : s.stilled) : s.countWarmup.stilled := by
  unfold State.countWarmup
  split
  · rename_i warmup
    split
    · refine State.stilled_of_idle (fun x => ?_) (State.idle_of_stilled (s := s) h (by simp [warmup, ShowState.lists]))
      cases x
    · exact h
  · exact h

theorem State.listenStep_stilled (h : s.stilled) (k : Nat) : (s.listenStep k).stilled := by
  unfold State.listenStep
  split
  · exact h
  · split <;> exact h

theorem State.endOfListenReadings_stilled (h : s.stilled) : s.endOfListenReadings.stilled :=
  State.stilled_of_unread h s.endOfListenReadings_unread Hu.still_keptByReadings.endOfListenReadings

theorem State.atReading_stilled {f : State → State} (h : s.stilled) (keep : ∀ x : State, x.stilled → (f x).stilled)
    (bt : Nat) : (s.atReading bt f).stilled :=
  keep (s.onTbu fun t => { t with basinTime := bt }) h

theorem State.onSt_stilled (h : s.stilled) (g : StartUp → StartUp) : (s.onSt g).stilled :=
  State.stilled_of_keeps h rfl id id

theorem State.countListen_stilled (h : s.stilled) (k : Nat) : (s.countListen k).stilled := by
  have ended : ∀ x : State, x.stilled → (x.endListen k).stilled := by
    intro x hx
    have read : ((x.listenStep k).atReading (k * 960) State.endOfListenReadings).stilled :=
      State.atReading_stilled (State.listenStep_stilled hx k) (fun _ => State.endOfListenReadings_stilled) _
    have up := State.onSt_stilled read fun t => { t with phase := .up }
    unfold State.endListen
    dsimp only
    split
    · rename_i wake
      exact State.enterWarmup_stilled up (Bool.and_eq_true_iff.mp wake).2
    · exact up
  unfold State.countListen
  split
  · dsimp only
    split
    · exact ended _ (State.onSt_stilled h _)
    · exact State.onSt_stilled h _
  · exact h

theorem State.stopRepeat_stilled (h : s.stilled) : s.stopRepeat.stilled := by
  unfold State.stopRepeat
  split
  · exact State.haltRequest_stilled h
  · exact h

theorem State.transitions_stilled (h : s.stilled) (k bt : Nat) (st : ShowState) : (s.transitions k bt st).stilled := by
  have counted : ((if st = .warmup then s.stopRepeat.countWarmup else s.stopRepeat).countListen k).stilled := by
    refine State.countListen_stilled ?_ k
    split
    · exact State.countWarmup_stilled (State.stopRepeat_stilled h)
    · exact State.stopRepeat_stilled h
  unfold State.transitions
  dsimp only
  generalize (if st = .warmup then s.stopRepeat.countWarmup else s.stopRepeat).countListen k = x at counted
  have timed : ((x.takeT0 (max bt x.tbu.basinTime)).takeEnd (max bt x.tbu.basinTime)).stilled :=
    State.takeEnd_stilled (State.takeT0_stilled counted _) _
  generalize (x.takeT0 (max bt x.tbu.basinTime)).takeEnd (max bt x.tbu.basinTime) = y at timed
  have held : (if st = .held then y.takeResume bt else y.takeHold bt).stilled := by
    split
    · exact State.takeResume_stilled timed bt
    · exact State.takeHold_stilled timed bt
  generalize (if st = .held then y.takeResume bt else y.takeHold bt) = z at held
  split
  · exact State.checkEnding_stilled held
  · exact held
end

end Sys2Proof.Machine
end

