-- ==== Sys2Proof/Proofs/StillSteps.lean ====
section
/-!
The cue engine's work and every command keep the pumps of HALTED and STANDBY still and the engine without a list idle
(spec/02, R46; spec/03, R73).
-/
namespace Sys2Proof.Machine

/-! ## The cue engine -/

/-- The timebase unit but for the segment base. -/
def Tbu.unbased (t : Tbu) : Tbu := { t with segBase := none }

/-- The engine's work from `s` to `t`: the timebase unit stays but for the segment base, or the show has ended (R29) and the
engine is idle. -/
def State.carriesOn (s t : State) : Prop :=
  t.tbu.unbased = s.tbu.unbased ∨
    (t.tbu.unbased = s.tbu.unbased.discardShow .idle ∨
      s.tbu.state = .running ∧ t.tbu.unbased = { s.tbu.unbased with state := .ending, hold := {} }) ∧ t.ce.idle

section
variable {s t u : State}

theorem Tbu.state_of_unbased {t u : Tbu} (h : t.unbased = u.unbased) : t.state = u.state :=
  congrArg (fun x => x.state) h

theorem State.carriesOn_of_tbu (h : t.tbu = s.tbu) : s.carriesOn t := .inl (congrArg Tbu.unbased h)

/-- From a state with the same timebase unit. -/
theorem State.carriesOn_from (e : s.tbu.unbased = u.tbu.unbased) (h : u.carriesOn t) : s.carriesOn t := by
  unfold State.carriesOn at h ⊢
  rwa [e, Tbu.state_of_unbased e]

/-- The show states that the engine's work leads to. -/
theorem State.showState_of_carriesOn (h : s.carriesOn t) :
    t.tbu.state = s.tbu.state ∨ (t.tbu.state = .idle ∨ t.tbu.state = .ending) ∧ t.ce.idle := by
  rcases h with same | ⟨idle | ⟨-, ending⟩, quiet⟩
  · exact .inl (Tbu.state_of_unbased same)
  · exact .inr ⟨.inl (congrArg (fun x => x.state) idle), quiet⟩
  · exact .inr ⟨.inr (congrArg (fun x => x.state) ending), quiet⟩

/-- While a list is played, the engine's work keeps the condition. -/
theorem State.stilled_of_carriesOn (lists : s.tbu.state.lists = true) (h : s.carriesOn t) : t.stilled := by
  rcases State.showState_of_carriesOn h with same | ⟨ended, idle⟩
  · exact State.stilled_of_lists (same ▸ lists)
  · refine State.stilled_of_idle (fun rests => ?_) idle
    rcases ended with e | e <;> simp [e, ShowState.rests] at rests

/-- It leads from no state into HALTED or STANDBY. -/
theorem State.rests_of_carriesOn (h : s.carriesOn t) (rests : t.tbu.state.rests = true) :
    t.tbu.state = s.tbu.state := by
  rcases State.showState_of_carriesOn h with same | ⟨ended, -⟩
  · exact same
  · rcases ended with e | e <;> simp [e, ShowState.rests] at rests
end

section
variable (s : State)

theorem State.cueEndShow_carriesOn : s.carriesOn s.cueEndShow := by
  unfold State.cueEndShow
  split
  · have tbu := (s.enterEnding_endsShow s.params.endFade).1
    refine .inr ⟨.inr ⟨‹_›, congrArg Tbu.unbased tbu⟩, ?_⟩
    exact State.idle_of_stilled (s.enterEnding_stilled _) (congrArg ShowState.lists (congrArg Tbu.state tbu))
  · exact .inr ⟨.inl rfl, State.idle_of_stilled s.armedToIdle_stilled rfl⟩
  · exact .inl rfl

theorem State.produce_tbu (d : Deed) (n : Nat) : (s.produce d n).tbu = s.tbu := State.tbu_of_aside (s.produce_aside d n)

theorem State.openTimed_unbased : s.openTimed.tbu.unbased = s.tbu.unbased := by
  unfold State.openTimed
  split <;> rfl

theorem State.endOfList_unbased : s.endOfList.tbu.unbased = s.tbu.unbased := by
  unfold State.endOfList
  dsimp only
  split
  · exact s.openTimed_unbased
  · rw [State.onCe_tbu, State.produce_tbu, State.openTimed_unbased]

theorem State.cueEnd_carriesOn : s.carriesOn s.cueEnd.state := by
  unfold State.cueEnd
  split
  · exact .inl rfl
  · exact .inl s.endOfList_unbased

theorem State.cueAnswer_carriesOn (p : ReadPos) (a : Answer) : s.carriesOn (s.cueAnswer p a).state := by
  unfold State.cueAnswer
  dsimp only
  split
  · split
    · exact s.cueEnd_carriesOn
    · split <;> exact .inl rfl
  · exact .inl rfl
  · exact .inl rfl
  · exact .inl rfl
  · exact s.cueEnd_carriesOn
  · exact State.carriesOn_from rfl (State.cueEndShow_carriesOn _)
  · exact State.carriesOn_from rfl (State.cueEndShow_carriesOn _)

theorem State.produceAll_tbu (l : List (Deed × Nat)) :
    (l.foldl (fun (s : State) (a : Deed × Nat) => s.produce a.1 a.2) s).tbu = s.tbu :=
  foldl_keeps State.tbu (fun (s : State) (a : Deed × Nat) => s.produce a.1 a.2) (fun t a => t.produce_tbu a.1 a.2) l s

theorem State.takeCue_tbu (p : ReadPos) (r : List Byte) (c : Cue) (t : Nat) : (s.takeCue p r c t).state.tbu = s.tbu := by
  have malformed : (if cueTime r < s.ce.lastCue then s.countMalformed p else s).tbu = s.tbu := by
    split <;> rfl
  unfold State.takeCue
  dsimp only
  split
  · rfl
  · cases c with
    | waitTrigger => rfl
    | _ =>
      simp only [Progress.state_stop, Progress.state_more, State.onCe_tbu]
      rw [State.produceAll_tbu, malformed]

theorem State.readRecord_go_tbu (p : ReadPos) (r : List Byte) (c : Option Cue) :
    (State.readRecord.go s p r c).state.tbu = s.tbu := by
  unfold State.readRecord.go
  dsimp only
  split
  · rfl
  · split
    · rfl
    · exact s.takeCue_tbu _ _ _ _

theorem State.readRecord_unbased (p : ReadPos) (r : List Byte) :
    (s.readRecord p r).state.tbu.unbased = s.tbu.unbased := by
  unfold State.readRecord
  dsimp only
  split
  · split <;> split
    · exact s.openTimed_unbased
    · exact congrArg Tbu.unbased (s.readRecord_go_tbu _ _ _)
    · exact s.openTimed_unbased
    · exact congrArg Tbu.unbased (s.readRecord_go_tbu _ _ _)
    · exact s.openTimed_unbased
    · exact congrArg Tbu.unbased (s.readRecord_go_tbu _ _ _)
  · exact congrArg Tbu.unbased (s.readRecord_go_tbu _ _ _)

theorem State.scanRecord_unbased (x : ScanRecord) (r : List Byte) :
    (s.scanRecord x r).state.tbu.unbased = s.tbu.unbased := by
  unfold State.scanRecord
  dsimp only
  split
  · split <;> rfl
  all_goals rfl

/-- A step of reading is none outside ARMED and RUNNING, and there carries on. -/
theorem State.cueStep_cases : s.cueStep = .stop s ∨
    (s.tbu.state = .armed ∨ s.tbu.state = .running) ∧ s.carriesOn s.cueStep.state := by
  unfold State.cueStep
  dsimp only
  split
  · exact .inl rfl
  · rename_i goes
    have plays : s.tbu.state = .armed ∨ s.tbu.state = .running := by
      by_contra no
      exact goes (.inl fun x => no x.2)
    refine .inr ⟨plays, ?_⟩
    split
    · exact .inl rfl
    · split
      · split
        · exact s.cueEnd_carriesOn
        · split
          · exact .inl (s.scanRecord_unbased _ _)
          · exact .inl (s.readRecord_unbased _ _)
      · split
        · exact .inl rfl
        · exact State.carriesOn_from (congrArg Tbu.unbased (State.tbu_of_aside (s.cueLookup_aside _))).symm
            (State.cueAnswer_carriesOn _ _ _)

theorem State.cueLoop_of_not_playing (armed : s.tbu.state ≠ .armed) (running : s.tbu.state ≠ .running) (n : Nat) :
    s.cueLoop n = s := by
  cases n with
  | zero => rfl
  | succ n =>
    have stop : s.cueStep = .stop s := by
      rcases s.cueStep_cases with stop | ⟨plays | plays, -⟩
      · exact stop
      · exact absurd plays armed
      · exact absurd plays running
    rw [State.cueLoop, stop]

/-- Reading begun while a list is played carries on; after the show's end it does nothing. -/
theorem State.cueLoop_carriesOn (n : Nat) : s.carriesOn (s.cueLoop n) := by
  induction n generalizing s with
  | zero => exact .inl rfl
  | succ n ih =>
    have step := s.cueStep_cases
    unfold State.cueLoop
    split
    · rename_i t e
      rw [e] at step
      rcases step with stop | ⟨-, on⟩
      · cases stop
        exact .inl rfl
      · exact on
    · rename_i t e
      rw [e, Progress.state_more] at step
      rcases step with stop | ⟨plays, on⟩
      · cases stop
      · by_cases goes : t.tbu.state = .armed ∨ t.tbu.state = .running
        · have same : t.tbu.unbased = s.tbu.unbased := by
            rcases on with same | ⟨idle | ⟨-, ending⟩, -⟩
            · exact same
            · have e : t.tbu.state = .idle := congrArg (fun x => x.state) idle
              simp [e] at goes
            · have e : t.tbu.state = .ending := congrArg (fun x => x.state) ending
              simp [e] at goes
          exact State.carriesOn_from same.symm (ih t)
        · rw [t.cueLoop_of_not_playing (fun x => goes (.inl x)) (fun x => goes (.inr x)) n]
          exact on

variable {s}

theorem State.cueRead_stilled (h : s.stilled) : s.cueRead.stilled := by
  by_cases lists : s.tbu.state.lists = true
  · exact State.stilled_of_carriesOn lists (s.cueLoop_carriesOn 256)
  · have e : s.cueRead = s :=
      State.cueLoop_of_not_playing s (fun x => lists (by simp [x, ShowState.lists]))
        (fun x => lists (by simp [x, ShowState.lists])) 256
    rw [e]
    exact h

theorem State.cueRun_stilled (h : s.stilled) : s.cueRun.stilled :=
  State.stilled_of_standing (State.cueRead_stilled h) (State.queueRequests_standing _)

theorem Progress.run_stilled {x : Progress} (h : x.state.stilled) : x.run.stilled := by
  cases x with
  | more s => exact State.cueRun_stilled h
  | stop s => exact h

theorem State.onCe_stilled (h : s.stilled) {g : Ce → Ce} (keep : s.ce.idle → (g s.ce).idle) : (s.onCe g).stilled :=
  State.stilled_of_keeps h rfl keep id

theorem State.cueReadDone_stilled (h : s.stilled) (bytes : List Byte) : (s.cueReadDone bytes).stilled := by
  unfold State.cueReadDone
  split
  · exact h
  · exact State.cueRun_stilled (State.onCe_stilled h id)

/-- A walk's answer finds a read position while a list stands alone (R46). -/
theorem State.cueWalkAnswer_stilled (h : s.stilled) (a : Answer) : (s.cueWalkAnswer a).stilled := by
  unfold State.cueWalkAnswer
  split
  · exact h
  · split
    · exact h
    · have dropped : (s.onCe fun c => { c with fetch := none }).stilled := State.onCe_stilled h id
      dsimp only
      split
      · rename_i p e
        have lists : s.tbu.state.lists = true := by
          by_contra no
          have none_ := (State.idle_of_stilled h (by simpa using no)).2.1
          rw [State.onCe_ce] at e
          rw [none_] at e
          cases e
        split
        · exact Progress.run_stilled (State.stilled_of_carriesOn (s := s.onCe fun c => { c with fetch := none }) lists
            (State.cueAnswer_carriesOn _ _ _))
        · exact State.cueRun_stilled dropped
      · exact dropped

theorem State.answerAsker_stilled (h : s.stilled) (ans : Answer) (a : Asker) : (s.answerAsker ans a).stilled := by
  unfold State.answerAsker
  split
  · exact State.cueWalkAnswer_stilled h ans
  · exact State.stilled_of_standing h (State.standing_of_unfilled (State.fillWalkAnswer_unfilled _ _))
  · exact State.stilled_of_standing h (State.standing_of_unmapped (State.serveAnswer_unmapped _ _ _))

theorem State.answerAfresh_stilled (h : s.stilled) (a : Asker) : (s.answerAfresh a).stilled := by
  unfold State.answerAfresh
  split
  · split
    · exact State.cueWalkAnswer_stilled
        (State.stilled_of_standing h (State.standing_of_unmapped (State.cueLookup_unmapped _ _))) _
    · exact h
  · split
    · exact State.stilled_of_standing h (State.standing_of_unfilled
        ((State.fillWalkAnswer_unfilled _ _).trans (State.fillLookup_unfilled _ _)))
    · exact h
  · split
    · exact State.stilled_of_standing h (State.standing_of_unmapped
        ((State.serveAnswer_unmapped _ _ _).trans (State.serveLookup_unmapped _ _)))
    · exact h

theorem State.walkDone_stilled (h : s.stilled) (w : Walk) (bytes : List Byte) : (s.walkDone w bytes).stilled := by
  have popped : s.popMap.stilled := State.stilled_of_standing h (State.standing_of_unmapped s.popMap_unmapped)
  unfold State.walkDone
  dsimp only
  split
  · refine State.stilled_of_standing ?_ (State.queueRequests_standing _)
    exact List.foldlRecOn (motive := State.stilled) _ _ popped fun _ hx a _ => State.answerAfresh_stilled hx a
  · exact List.foldlRecOn (motive := State.stilled) _ _ (State.stilled_of_standing popped (State.onCm_standing _ _))
      fun _ hx a _ => State.answerAsker_stilled hx _ a

theorem State.cueTrigger_stilled (running : s.tbu.state = .running) (n p : Nat) : (s.cueTrigger n p).stilled := by
  have goes : ∀ x : State, x.tbu.state = .running → x.stilled := fun x e =>
    State.stilled_of_lists (by simp [e, ShowState.lists])
  have scans : ∀ f g : Ce → Ce, ((s.onCe f).onCe g).cueRun.stilled := fun f g =>
    State.cueRun_stilled (goes ((s.onCe f).onCe g) running)
  have opens : ∀ (g : Ce → Ce) (w : WaitingRecord), ((s.onCe g).openTriggered p w).cueRun.stilled := fun g w =>
    State.cueRun_stilled (State.stilled_of_lists ((congrArg ShowState.lists
      (show ((s.onCe g).openTriggered p w).tbu.state = .running from running)).trans rfl))
  unfold State.cueTrigger
  split
  · exact goes s running
  · split
    · exact goes s running
    · dsimp only
      split
      · split
        · split
          · exact opens _ _
          · exact goes s running
        · exact goes s running
      · split
        · split
          · exact scans _ _
          · exact goes s running
        · exact goes s running
      · split
        · split
          · exact scans _ _
          · exact goes s running
        · exact goes s running
      · exact goes s running
      · exact goes s running

theorem State.cueGo_stilled (lists : s.tbu.state.lists = true) (n : Nat) : (s.cueGo n).stilled := by
  unfold State.cueGo
  dsimp only
  split
  · exact State.stilled_of_carriesOn lists (State.carriesOn_from rfl (State.cueEndShow_carriesOn _))
  · exact State.cueRun_stilled (State.stilled_of_lists (s := State.onCe _ _) lists)

/-! ## Boundaries -/

theorem State.cued_carriesOn (k : Nat) (handed : ShowState) : s.carriesOn (s.cued k handed) := by
  have staged : s.carriesOn ((((s.onLiu Liu.boundary).stagePass k).onCe fun c => { c with pageWait := false }).cueRead) :=
    State.carriesOn_from (congrArg Tbu.unbased (State.tbu_of_aside ((s.onLiu Liu.boundary).stagePass_aside k)).symm)
      (State.carriesOn_from rfl (State.cueLoop_carriesOn _ 256))
  unfold State.cued State.cueBoundary
  split
  · exact staged
  · exact staged
  · exact .inl rfl

theorem State.passes_stilled (h : s.stilled) (k bt : Nat) (c : Int) (entered resumed : Bool) :
    (s.passes k bt c s.tbu.state entered resumed).stilled := by
  have on := State.cued_carriesOn (s := s) k s.tbu.state
  have cued : (s.cued k s.tbu.state).stilled := by
    by_cases lists : s.tbu.state.lists = true
    · exact State.stilled_of_carriesOn lists on
    · rw [State.cued_idle s k _ (fun x => lists (by simp [x, ShowState.lists]))
        (fun x => lists (by simp [x, ShowState.lists]))]
      exact State.stilled_of_standing h (State.onLiu_standing _ _)
  obtain ⟨jets, g, e⟩ := s.passes_unsounded k bt c s.tbu.state entered resumed
  refine State.stilled_of_standing ?_ (State.standing_of_unsounded e)
  refine State.stilled_of_standing ?_ (State.onLu_standing _ g)
  have hu := State.huPass_unpumped ((s.cued k s.tbu.state).takeSlate k) bt s.tbu.state jets
  have state := congrArg Tbu.state (State.tbu_of_unpumped hu)
  rw [State.stilled_iff] at cued ⊢
  refine ⟨fun rests => ?_, fun lists => ?_⟩
  · rw [state] at rests
    have same : (s.cued k s.tbu.state).tbu.state = s.tbu.state := State.rests_of_carriesOn on rests
    exact State.huPass_still (s := (s.cued k s.tbu.state).takeSlate k) (cued.1 rests) (same ▸ rests) bt jets
  · rw [state] at lists
    rw [State.ce_of_unpumped hu]
    exact Ce.setSlate_idle (cued.2 lists) k {}

theorem State.beaconBoundary_stilled (h : s.stilled) (k : Nat) : (s.beaconBoundary k).stilled := by
  have aged : s.agePeers.stilled := State.stilled_of_keeps h
    (State.showState_of_unmarked s.agePeers_unmarked) (fun x => State.ce_of_unmarked s.agePeers_unmarked ▸ x)
    Hu.still_keptByReadings.agePeers
  unfold State.beaconBoundary
  split
  · exact h
  · dsimp only
    split
    · exact State.stilled_of_keeps aged rfl id id
    · exact State.stilled_of_keeps aged rfl id id

theorem State.afterTransitions_stilled (h : s.stilled) (i : BoundaryInput) : (s.afterTransitions i).stilled := by
  have begun : (s.beginBoundary s.nextFrame).stilled := h
  have read : ((s.beginBoundary s.nextFrame).inputsBoundary i).stilled :=
    State.stilled_of_unread begun (State.inputsBoundary_unread _ i) fun x => Hu.still_keptByReadings.inputsBoundary x i
  exact State.transitions_stilled (State.beaconBoundary_stilled read _) _ _ _

theorem State.markBoundary_stilled (h : s.stilled) (i : BoundaryInput) : (s.markBoundary i).stilled := by
  by_cases due : s.boundaryDue = true
  · by_cases live : s.live = true
    · obtain ⟨c, e⟩ := State.markBoundary_eq live due i
      have placed : ((s.afterTransitions i).placeBeacon s.nextFrame (s.st.phase == .up)).standing =
          (s.afterTransitions i).standing := by
        unfold State.placeBeacon
        split <;> rfl
      have state := congrArg Tbu.state (State.tbu_of_standing placed)
      have still := State.stilled_of_standing (State.afterTransitions_stilled h i) placed
      rw [e, ← state]
      generalize (s.afterTransitions i).placeBeacon s.nextFrame (s.st.phase == .up) = x at still
      have timed : (x.onTbu fun t => { t with basinTime := s.nextBoundary }).stilled :=
        State.stilled_of_keeps still rfl id id
      rw [State.atReading]
      exact State.stilled_of_keeps (State.passes_stilled timed s.nextFrame s.nextBoundary c _ _) rfl id id
    · rw [State.markBoundary, if_neg (by simp [due]), if_neg live]
      exact h
  · rw [State.markBoundary_not_due (by simpa using due)]
    exact h

theorem State.markWhen_stilled (h : s.stilled) (due : Bool) (i : BoundaryInput) : (s.markWhen due i).stilled := by
  rcases s.markWhen_cases due i with e | e <;> rw [e]
  · exact State.markBoundary_stilled h i
  · exact h

theorem State.markAsPumpGoes_stilled (h : s.stilled) (p : Channel) (before : List PumpState) (after : Pump → Bool)
    (i : BoundaryInput) : (s.markAsPumpGoes p before after i).stilled := by
  rcases s.markAsPumpGoes_cases p before after i with e | e <;> rw [e]
  · exact State.markBoundary_stilled h i
  · exact h

/-! ## Frames heard -/

theorem State.received_stilled (h : s.stilled) (p : Position) {deliver : State → State}
    (keep : ∀ x : State, x.stilled → (deliver x).stilled) : (s.received p deliver).stilled := by
  rcases s.received_cases p deliver with e | e | e <;> rw [e]
  · exact h
  · exact State.positionConflict_stilled _
  · exact keep s.afterFrame h

theorem State.received_stilled_of_standing (h : s.stilled) (p : Position) {deliver : State → State}
    (keep : ∀ x : State, (deliver x).standing = x.standing) : (s.received p deliver).stilled :=
  State.received_stilled h p fun x hx => State.stilled_of_standing hx (keep x)

theorem State.targeted_stilled (h : s.stilled) (target : Byte) {deliver : State → State}
    (keep : ∀ x : State, x.stilled → (deliver x).stilled) : (s.targeted target deliver).stilled := by
  unfold State.targeted
  split
  · exact keep s h
  · exact h

theorem State.hearWake_stilled (h : s.stilled) : s.hearWake.stilled := by
  unfold State.hearWake
  split
  · exact State.enterWarmup_stilled h ‹_›
  · exact h

theorem State.hearStandby_stilled (h : s.stilled) : s.hearStandby.stilled := by
  unfold State.hearStandby
  split
  · rename_i idle
    refine State.stilled_of_idle (fun _ => s.enterStandby_still) ?_
    rw [State.enterStandby_ce]
    exact State.idle_of_stilled h (by simp [idle, ShowState.lists])
  · exact h

theorem State.hearGo_stilled (h : s.stilled) (n t0 : Nat) : (s.hearGo n t0).stilled := by
  unfold State.hearGo
  split
  · refine State.cueGo_stilled ?_ n
    rw [State.onTbu_tbu]
    dsimp only
    split <;> rfl
  · exact h

theorem State.hearHold_stilled (h : s.stilled) (th : Nat) : (s.hearHold th).stilled := by
  unfold State.hearHold
  split
  · exact State.stilled_of_keeps h rfl id id
  · exact h

theorem State.hearResume_stilled (h : s.stilled) (tr : Nat) : (s.hearResume tr).stilled := by
  unfold State.hearResume
  split
  · exact State.stilled_of_keeps h rfl id id
  · exact h

theorem State.hearStop_stilled (h : s.stilled) (fade : Nat) : (s.hearStop fade).stilled := by
  unfold State.hearStop
  split
  · exact s.armedToIdle_stilled
  · exact s.enterEnding_stilled _
  · exact s.enterEnding_stilled _
  · exact h

theorem State.hearStopAssert_stilled (h : s.stilled) : s.hearStopAssert.stilled :=
  State.haltRequest_stilled (State.stilled_of_keeps h rfl id id)

theorem State.hearClearHalt_stilled (h : s.stilled) : s.hearClearHalt.stilled := by
  unfold State.hearClearHalt
  split
  · rename_i clear
    refine State.stilled_of_idle (fun x => ?_) (State.idle_of_stilled (s := s) h ?_)
    · cases x
    · rw [(State.clearable_iff.mp clear).1]
      rfl
  · exact h

theorem State.hearTrigger_stilled (h : s.stilled) (n p : Nat) : (s.hearTrigger n p).stilled := by
  unfold State.hearTrigger
  split
  · exact State.cueTrigger_stilled ‹_› n p
  · exact h

theorem State.clearFaultList_stilled (h : s.stilled) : s.clearFaultList.stilled :=
  State.stilled_of_keeps h rfl id fun still =>
    Hu.mapPumps_still still fun _ _ hp => Pump.clearFeedback_inactive hp _

theorem State.recordBeacon_stilled (h : s.stilled) (q : Position) (f : BeaconFields) (sof : Int) :
    (s.recordBeacon q f sof).stilled := by
  have e := s.recordBeacon_unread q f sof
  refine State.stilled_of_keeps h ?_ (fun x => ?_) fun x => Hu.still_keptByReadings.recordBeacon x q f sof
  · rw [State.tbu_of_unread e, State.onPt_tbu]
  · rw [State.ce_of_unread e, State.onPt_ce]
    exact x

/-! ## Power, the oscillator, and the claim gone out -/

theorem State.resetPoint_stilled (h : s.stilled) (cause : ResetCause) (next : Phase) :
    (s.resetPoint cause next).stilled := by
  unfold State.resetPoint
  refine State.onSt_stilled ?_ _
  unfold State.quiesce
  refine State.giveUp_stilled fun rests => ?_
  simp only [State.onCm_tbu, State.onLiu_tbu, State.onAu_tbu, State.onLu_tbu, State.onHu_tbu] at rests
  rw [State.onCm_hu, State.onLiu_hu, State.onAu_hu, State.onLu_hu, State.onHu_hu]
  exact Hu.mapPumps_still (((State.stilled_iff s).mp h).1 rests) fun _ _ hp => hp

theorem State.takeConfig_stilled (s : State) (r : List Byte) : (s.takeConfig r).stilled := by
  have fresh : ∀ P v c, (s.takeResetValues P v c).stilled := by
    intro P v c
    refine State.stilled_of_idle (fun _ n => ?_) ⟨rfl, rfl, rfl, rfl, rfl⟩
    show ((Hu.afterReset P s.st.cold).pump n).state.active = false
    simp only [Hu.afterReset, Hu.pump, Fin.getElem_fin, Vector.getElem_ofFn]
    split <;> rfl
  have read : ∀ x : State, x.stilled → ∀ l, (x.evalLevel l).issueMap.stilled := fun x hx l =>
    State.stilled_of_standing (State.stilled_of_unread hx (x.evalLevel_unread l) fun y => Hu.still_keptByReadings.evalLevel y l)
      (State.standing_of_unmapped (State.issueMap_unmapped _))
  unfold State.takeConfig
  dsimp only
  have done := read _ (fresh (paramsTaken r s.own) (recordValid r) (recWord r 254)) 0
  generalize ((s.takeResetValues (paramsTaken r s.own) (recordValid r) (recWord r 254)).evalLevel 0).issueMap = x at done
  have listened : (if x.st.phase = .listening then x.initMap else x).stilled := by
    split
    · exact State.stilled_of_standing done x.initMap_standing
    · exact done
  split
  · exact listened
  · exact State.stilled_of_standing listened (State.raise_standing _ _ _)

theorem State.countUnderruns_standing (s : State) (tau : Nat) : (s.countUnderruns tau).standing = s.standing := by
  unfold State.countUnderruns
  dsimp only
  split <;> split <;> rfl

theorem State.oscTick_stilled (h : s.stilled) : s.oscTick.stilled := by
  unfold State.oscTick
  split
  · exact h
  · exact State.stilled_of_keeps (State.stilled_of_standing h (s.countUnderruns_standing _)) rfl id id

/-- A claim that goes out starts a pump that is CLAIMING, and so turning already (R68). -/
theorem State.huClaimOut_stilled (h : s.stilled) (n : Channel) : (s.huClaimOut n).stilled := by
  unfold State.huClaimOut
  dsimp only
  split
  · rename_i claims
    split
    · refine State.stilled_of_keeps h rfl id fun still => ?_
      have claiming : (s.hu.pump n).state = .claiming := claims.2
      have := still n
      rw [claiming] at this
      cases this
    · exact State.stilled_of_keeps h rfl id id
  · exact State.stilled_of_keeps h rfl id id
end

/-! ## Commands -/

theorem exec_stilled {c : Instr} {s t : State} (h : s.stilled) (e : exec c s = .next t) : t.stilled := by
  refine (Bool.eq_false_or_eq_true (standing? c)).elim
    (fun stands => State.stilled_of_standing h (exec_standing stands e)) fun stands => ?_
  cases c <;> simp only [standing?, reduceCtorEq] at stands
  all_goals cases e
  case powerOn =>
    exact State.stilled_of_idle (fun _ n => by simp [State.powerUp, State.reset, Hu.pump, PumpState.active])
      ⟨rfl, rfl, rfl, rfl, rfl⟩
  case configReadComplete =>
    split
    · exact s.takeConfig_stilled _
    · exact h
  case resetPinAssert =>
    split
    · exact State.resetPoint_stilled h _ _
    · exact h
  case resetPinRelease =>
    split
    · exact State.onSt_stilled h _
    · exact h
  case resetStation =>
    exact State.received_stilled h _ fun x hx => State.targeted_stilled hx _ fun y hy =>
      State.onSt_stilled (State.resetPoint_stilled hy _ _) _
  case t0Reached =>
    split
    · exact State.takeT0_stilled h _
    · exact h
  case endActionDue =>
    split
    · exact State.takeEnd_stilled h _
    · exact h
  case frameBoundary => exact State.markBoundary_stilled h _
  case listenEnd | warmupEnd | enterHeld | resumeBoundary | endingComplete | softStartEnd | minimumRunEnd
      | feedbackAbsenceLock | muteEnd | levelReadingValid | windReadingValid | cutoutEnd =>
    exact State.markWhen_stilled h _ _
  case restExpiry | stoppingDriveZero => exact State.markAsPumpGoes_stilled h _ _ _ _
  case wake => exact State.received_stilled h _ fun _ => State.hearWake_stilled
  case standby => exact State.received_stilled h _ fun _ => State.hearStandby_stilled
  case go => exact State.received_stilled h _ fun _ hx => State.hearGo_stilled hx _ _
  case hold => exact State.received_stilled h _ fun _ hx => State.hearHold_stilled hx _
  case resume => exact State.received_stilled h _ fun _ hx => State.hearResume_stilled hx _
  case stop => exact State.received_stilled h _ fun _ hx => State.hearStop_stilled hx _
  case stopAssert => exact State.received_stilled h _ fun _ => State.hearStopAssert_stilled
  case clearHalt => exact State.received_stilled h _ fun _ => State.hearClearHalt_stilled
  case trigger => exact State.received_stilled h _ fun _ hx => State.hearTrigger_stilled hx _ _
  case clearFaults =>
    exact State.received_stilled h _ fun x hx => State.targeted_stilled hx _ fun _ => State.clearFaultList_stilled
  case beacon => exact State.received_stilled h _ fun _ hx => State.recordBeacon_stilled hx _ _ _
  case showSelect => exact State.received_stilled_of_standing h _ fun x => x.hearShowSelect_standing _
  case startClaim => exact State.received_stilled_of_standing h _ fun x => x.huPeerClaim_standing
  case segmentDefine => exact State.received_stilled_of_standing h _ fun x => x.intoIntake_standing _
  case pageData => exact State.received_stilled_of_standing h _ fun x => x.hearPageData_standing _ _
  case pageRequest => exact State.received_stilled_of_standing h _ fun x => x.hearPageRequest_standing _ _ _ _
  case statusReply => exact State.received_stilled h _ fun _ => id
  case statusQueryGeneral | statusQueryPumps | statusQueryFixtures | statusQueryPeers | statusQueryMemory
      | statusQueryFaults =>
    exact State.received_stilled_of_standing h _ fun x => x.answerQuery_standing _ _ _ _
  case statusQueryUnknownSelector =>
    exact State.received_stilled_of_standing h _ fun x => x.countSelector_standing _ _
  case cueReadComplete =>
    unfold State.completion
    split
    · exact State.cueReadDone_stilled (State.stilled_of_standing h (State.onSmc_standing _ _)) _
    · exact h
  case walkComplete =>
    split
    · unfold State.completion
      split
      · exact State.walkDone_stilled (State.stilled_of_standing h (State.onSmc_standing _ _)) _ _
      · exact h
    · exact h
  case claimGoneOut =>
    split
    · exact State.huClaimOut_stilled (State.stilled_of_standing h (State.onLiu_standing _ _)) _
    · exact h
  case outputPair => exact State.oscTick_stilled h
  case stopInputActive =>
    split
    · have active := State.stilled_of_standing h (s.onBiu_standing fun b => { b with stopActive := true })
      dsimp only
      split
      · exact State.stilled_of_standing (State.haltRequest_stilled active) (State.onLiu_standing _ _)
      · exact active
    · exact h

/-- Settles O58: each command keeps the condition, and a step runs one. -/
theorem haltedStaysStill : Obligations.HaltedStaysStill := by
  intro s t h e
  unfold step at e
  split at e
  · cases e
    exact h
  · rename_i rest _
    exact exec_stilled (s := { s with pending := rest }) h e

end Sys2Proof.Machine
end

