-- ==== Sys2Proof/Proofs/Causes.lean ====
section
/-!
What changes the parameters, the position and basin time (spec/01, R1, R5; spec/11, R190, R191), command by command.
-/
namespace Sys2Proof.Machine

/-- The parameters, the position and the queue. -/
def State.rooted (s : State) : State :=
  { st := { params := s.st.params, valid := s.st.valid, position := s.st.position }, pending := s.pending }

/-- With them basin time. -/
def State.anchored (s : State) : State := { s.rooted with tbu := { basinTime := s.tbu.basinTime } }

section
variable {s t : State}
theorem State.rooted_of_anchored (h : t.anchored = s.anchored) : t.rooted = s.rooted := by
  have e : ∀ x : State, x.rooted = { x.anchored with tbu := {} } := fun _ => rfl
  rw [e t, e s, h]

theorem State.anchored_of_standing (h : t.standing = s.standing) : t.anchored = s.anchored := by
  have e : ∀ x : State, x.anchored = x.standing.anchored := fun _ => rfl
  rw [e t, e s, h]

theorem State.anchored_of_outer (h : t.outer = s.outer) : t.anchored = s.anchored := by
  have e : ∀ x : State, x.anchored = x.outer.anchored := fun _ => rfl
  rw [e t, e s, h]

theorem State.anchored_of_aside (h : t.aside = s.aside) : t.anchored = s.anchored :=
  State.anchored_of_outer (State.outer_of_aside h)

theorem State.anchored_of_unread (h : t.unread = s.unread) : t.anchored = s.anchored := by
  have e : ∀ x : State, x.anchored = x.unread.anchored := fun _ => rfl
  rw [e t, e s, h]

theorem State.rooted_of_lasting (h : t.lasting = s.lasting) : t.rooted = s.rooted := by
  have e : ∀ x : State, x.rooted = x.lasting.rooted := fun _ => rfl
  rw [e t, e s, h]

theorem State.rooted_iff : t.rooted = s.rooted ↔ t.st.params = s.st.params ∧ t.st.valid = s.st.valid ∧
    t.st.position = s.st.position ∧ t.pending = s.pending := by
  unfold State.rooted
  simp only [State.mk.injEq, StartUp.mk.injEq, true_and, and_true, and_assoc]
  tauto

theorem State.basinTime_of_anchored (h : t.anchored = s.anchored) : t.tbu.basinTime = s.tbu.basinTime :=
  congrArg (fun x => x.tbu.basinTime) h
end

/-! ## Boundaries and the tick move basin time alone -/

section
variable (s : State)

theorem State.markBoundary_rooted (i : BoundaryInput) : (s.markBoundary i).rooted = s.rooted := by
  unfold State.markBoundary
  split
  · rfl
  · split
    · exact (State.rooted_of_lasting (t := s.runBoundary s.nextFrame i) (s := s.onLiu Liu.boundary)
        (s.runBoundary_lasting _ i)).trans rfl
    · rfl

theorem State.markWhen_rooted (due : Bool) (i : BoundaryInput) : (s.markWhen due i).rooted = s.rooted := by
  rcases s.markWhen_cases due i with e | e <;> rw [e]
  exact s.markBoundary_rooted i

theorem State.markAsPumpGoes_rooted (p : Channel) (before : List PumpState) (after : Pump → Bool) (i : BoundaryInput) :
    (s.markAsPumpGoes p before after i).rooted = s.rooted := by
  rcases s.markAsPumpGoes_cases p before after i with e | e <;> rw [e]
  exact s.markBoundary_rooted i

theorem exec_boundary_rooted {c : Instr} (b : boundary? c = true) {s t : State} (e : exec c s = .next t) :
    t.rooted = s.rooted := by
  cases c <;> simp only [boundary?, reduceCtorEq] at b
  all_goals cases e
  case frameBoundary => exact s.markBoundary_rooted _
  case restExpiry | stoppingDriveZero => exact s.markAsPumpGoes_rooted _ _ _ _
  all_goals exact s.markWhen_rooted _ _

theorem State.oscTick_rooted : s.oscTick.rooted = s.rooted := by
  unfold State.oscTick
  split
  · rfl
  · exact State.rooted_of_anchored (t := s.countUnderruns (s.au.tau s.tbu.basinTime))
      (State.anchored_of_standing (s.countUnderruns_standing _))

/-! ## Frames heard -/

@[simp] theorem State.positionConflict_anchored : s.positionConflict.anchored = s.anchored := by
  rw [State.positionConflict_eq]
  exact (State.anchored_of_outer ((State.onCe_outer _ _).trans (State.enterStandby_outer s.conflicted))).trans rfl

theorem State.received_anchored (p : Position) {deliver : State → State}
    (keep : ∀ x : State, (deliver x).anchored = x.anchored) : (s.received p deliver).anchored = s.anchored := by
  rcases s.received_cases p deliver with e | e | e <;> rw [e]
  · rw [State.positionConflict_anchored]
    rfl
  · exact keep s.afterFrame

theorem State.received_anchored_of_standing (p : Position) {deliver : State → State}
    (keep : ∀ x : State, (deliver x).standing = x.standing) : (s.received p deliver).anchored = s.anchored :=
  s.received_anchored p fun x => State.anchored_of_standing (keep x)

theorem State.received_anchored_of_outer (p : Position) {deliver : State → State}
    (keep : ∀ x : State, (deliver x).outer = x.outer) : (s.received p deliver).anchored = s.anchored :=
  s.received_anchored p fun x => State.anchored_of_outer (keep x)

theorem State.hearWake_outer : s.hearWake.outer = s.outer := by
  unfold State.hearWake
  split <;> simp

theorem State.hearStandby_outer : s.hearStandby.outer = s.outer := by
  unfold State.hearStandby
  split <;> simp

theorem State.hearGo_anchored (n t0 : Nat) : (s.hearGo n t0).anchored = s.anchored := by
  unfold State.hearGo
  split
  · rw [State.anchored_of_outer (State.cueGo_outer _ n)]
    rfl
  · rfl

theorem State.hearHold_anchored (th : Nat) : (s.hearHold th).anchored = s.anchored := by
  unfold State.hearHold
  split <;> rfl

theorem State.hearResume_anchored (tr : Nat) : (s.hearResume tr).anchored = s.anchored := by
  unfold State.hearResume
  split <;> rfl

theorem State.hearStop_outer (fade : Nat) : (s.hearStop fade).outer = s.outer := by
  unfold State.hearStop
  split <;> simp

theorem State.hearStopAssert_anchored : s.hearStopAssert.anchored = s.anchored := by
  rw [State.hearStopAssert, State.anchored_of_outer (State.haltRequest_outer _)]
  rfl

theorem State.hearClearHalt_outer : s.hearClearHalt.outer = s.outer := by
  unfold State.hearClearHalt
  split <;> simp

theorem State.hearTrigger_outer (n p : Nat) : (s.hearTrigger n p).outer = s.outer := by
  unfold State.hearTrigger
  split <;> simp

theorem State.clearFaultList_anchored (target : Byte) :
    (s.targeted target State.clearFaultList).anchored = s.anchored := by
  unfold State.targeted
  split <;> rfl

theorem State.recordBeacon_anchored (q : Position) (f : BeaconFields) (sof : Int) :
    (s.recordBeacon q f sof).anchored = s.anchored := by
  rw [State.anchored_of_unread (s.recordBeacon_unread q f sof)]
  rfl

/-! ## Resets -/

theorem State.resetPoint_anchored (cause : ResetCause) (next : Phase) :
    (s.resetPoint cause next).anchored = s.anchored := rfl

/-- The configuration read gives new parameters and leaves position, basin time and queue. -/
theorem State.takeConfig_keeps (r : List Byte) : (s.takeConfig r).st.position = s.st.position ∧
    (s.takeConfig r).tbu.basinTime = s.tbu.basinTime ∧ (s.takeConfig r).pending = s.pending := by
  have taken : ∀ x : State, (x.evalLevel 0).issueMap.anchored = x.anchored := fun x =>
    (State.anchored_of_aside (State.issueMap_aside _)).trans (State.anchored_of_unread (x.evalLevel_unread 0))
  have anchored : (s.takeConfig r).anchored =
      (s.takeResetValues (paramsTaken r s.own) (recordValid r) (recWord r 254)).anchored := by
    unfold State.takeConfig
    dsimp only
    rw [← taken (s.takeResetValues _ _ _)]
    generalize ((s.takeResetValues (paramsTaken r s.own) (recordValid r) (recWord r 254)).evalLevel 0).issueMap = x
    have listened : (if x.st.phase = .listening then x.initMap else x).anchored = x.anchored := by
      split
      · exact State.anchored_of_aside x.initMap_aside
      · rfl
    split
    · exact listened
    · exact (State.anchored_of_aside (State.raise_aside _ _ _)).trans listened
  obtain ⟨-, -, position, pending⟩ := State.rooted_iff.mp (State.rooted_of_anchored anchored)
  exact ⟨position, (State.basinTime_of_anchored anchored :), pending⟩
end

/-! ## Commands -/

/-- What stays anchored when the strap is read. -/
def State.unplaced (s : State) : State := { s.anchored with st := { s.anchored.st with position := 0 } }

theorem State.unplaced_of_anchored {s t : State} (h : t.anchored = s.anchored) : t.unplaced = s.unplaced := by
  unfold State.unplaced
  rw [h]

theorem State.unplaced_iff {s t : State} : t.unplaced = s.unplaced ↔ t.st.params = s.st.params ∧
    t.st.valid = s.st.valid ∧ t.tbu.basinTime = s.tbu.basinTime ∧ t.pending = s.pending := by
  unfold State.unplaced State.anchored State.rooted
  simp only [State.mk.injEq, StartUp.mk.injEq, Tbu.mk.injEq, true_and, and_true]
  tauto

theorem exec_configReadComplete_keeps {r : List Byte} {s t : State} (e : exec (.configReadComplete r) s = .next t) :
    t.st.position = s.st.position ∧ t.tbu.basinTime = s.tbu.basinTime ∧ t.pending = s.pending := by
  cases e
  split
  · exact s.takeConfig_keeps r
  · exact ⟨rfl, rfl, rfl⟩

theorem exec_resetPinRelease_unplaced {x : Position} {s t : State} (e : exec (.resetPinRelease x) s = .next t) :
    t.unplaced = s.unplaced := by
  cases e
  split <;> rfl

theorem exec_resetStation_unplaced {p : Position} {n : Byte} {x : Position} {s t : State}
    (e : exec (.resetStation p n x) s = .next t) : t.unplaced = s.unplaced := by
  cases e
  rcases s.received_cases p _ with h | h | h <;> rw [h]
  · exact State.unplaced_of_anchored (State.positionConflict_anchored s.afterFrame)
  · unfold State.targeted
    split <;> rfl

/-- The commands that are neither a boundary's nor the tick, and read neither strap nor configuration. -/
theorem exec_anchored {c : Instr} {s t : State} (e : exec c s = .next t) (b : boundary? c = false)
    (tick : c ≠ .outputPair) (power : ∀ a b d, c ≠ .powerOn a b d) (config : ∀ r, c ≠ .configReadComplete r)
    (release : ∀ x, c ≠ .resetPinRelease x) (reset : ∀ p n x, c ≠ .resetStation p n x) :
    t.anchored = s.anchored := by
  refine (Bool.eq_false_or_eq_true (standing? c)).elim
    (fun stands => State.anchored_of_standing (exec_standing stands e)) fun stands => ?_
  cases c <;> simp only [standing?, boundary?, reduceCtorEq] at stands b
  all_goals cases e
  case powerOn => exact absurd rfl (power _ _ _)
  case configReadComplete => exact absurd rfl (config _)
  case resetPinRelease => exact absurd rfl (release _)
  case resetStation => exact absurd rfl (reset _ _ _)
  case outputPair => exact absurd rfl tick
  case resetPinAssert =>
    split
    · exact s.resetPoint_anchored _ _
    · rfl
  case t0Reached =>
    split
    · exact State.anchored_of_outer (s.takeT0_outer _)
    · rfl
  case endActionDue =>
    split
    · exact State.anchored_of_outer (s.takeEnd_outer _)
    · rfl
  case wake => exact s.received_anchored_of_outer _ State.hearWake_outer
  case standby => exact s.received_anchored_of_outer _ State.hearStandby_outer
  case go => exact s.received_anchored _ fun x => x.hearGo_anchored _ _
  case hold => exact s.received_anchored _ fun x => x.hearHold_anchored _
  case resume => exact s.received_anchored _ fun x => x.hearResume_anchored _
  case stop => exact s.received_anchored_of_outer _ fun x => x.hearStop_outer _
  case stopAssert => exact s.received_anchored _ State.hearStopAssert_anchored
  case clearHalt => exact s.received_anchored_of_outer _ State.hearClearHalt_outer
  case trigger => exact s.received_anchored_of_outer _ fun x => x.hearTrigger_outer _ _
  case clearFaults => exact s.received_anchored _ fun x => x.clearFaultList_anchored _
  case beacon => exact s.received_anchored _ fun x => x.recordBeacon_anchored _ _ _
  case showSelect => exact s.received_anchored_of_standing _ fun x => x.hearShowSelect_standing _
  case startClaim => exact s.received_anchored_of_standing _ State.huPeerClaim_standing
  case segmentDefine => exact s.received_anchored_of_standing _ fun x => x.intoIntake_standing _
  case pageData => exact s.received_anchored_of_standing _ fun x => x.hearPageData_standing _ _
  case pageRequest => exact s.received_anchored_of_standing _ fun x => x.hearPageRequest_standing _ _ _ _
  case statusReply => exact s.received_anchored _ fun _ => rfl
  case statusQueryGeneral | statusQueryPumps | statusQueryFixtures | statusQueryPeers | statusQueryMemory
      | statusQueryFaults =>
    exact s.received_anchored_of_standing _ fun x => x.answerQuery_standing _ _ _ _
  case statusQueryUnknownSelector => exact s.received_anchored_of_standing _ fun x => x.countSelector_standing _ _
  case cueReadComplete =>
    unfold State.completion
    split
    · exact (State.anchored_of_outer (State.cueReadDone_outer _ _)).trans rfl
    · rfl
  case walkComplete =>
    split
    · unfold State.completion
      split
      · exact (State.anchored_of_outer (State.walkDone_outer _ _ _)).trans rfl
      · rfl
    · rfl
  case claimGoneOut =>
    split
    · unfold State.huClaimOut
      dsimp only
      split
      · split <;> rfl
      · rfl
    · rfl
  case stopInputActive =>
    split
    · dsimp only
      split
      · exact (State.anchored_of_outer (State.haltRequest_outer _)).trans rfl
      · rfl
    · rfl

/-- Settles O48. -/
theorem changesHaveTheirCauses : Obligations.ChangesHaveTheirCauses := by
  have all : ∀ {s t : State}, t.anchored = s.anchored → t.st.params = s.st.params ∧ t.st.valid = s.st.valid ∧
      t.st.position = s.st.position ∧ t.tbu.basinTime = s.tbu.basinTime ∧ t.pending = s.pending := by
    intro s t h
    obtain ⟨params, valid, position, pending⟩ := State.rooted_iff.mp (State.rooted_of_anchored h)
    exact ⟨params, valid, position, State.basinTime_of_anchored h, pending⟩
  intro c s t e power
  refine (Bool.eq_false_or_eq_true (boundary? c)).elim (fun b => ?_) fun b => ?_
  · obtain ⟨params, valid, position, pending⟩ := State.rooted_iff.mp (exec_boundary_rooted b e)
    exact ⟨fun _ => ⟨params, valid⟩, fun _ _ => position, fun _ no => absurd (b.symm.trans no) (by decide), pending⟩
  by_cases tick : c = .outputPair
  · subst tick
    cases e
    obtain ⟨params, valid, position, pending⟩ := State.rooted_iff.mp s.oscTick_rooted
    exact ⟨fun _ => ⟨params, valid⟩, fun _ _ => position, fun no => absurd rfl no, pending⟩
  by_cases config : ∃ r, c = .configReadComplete r
  · obtain ⟨r, rfl⟩ := config
    obtain ⟨position, basin, pending⟩ := exec_configReadComplete_keeps e
    exact ⟨fun no => absurd rfl (no r), fun _ _ => position, fun _ _ => basin, pending⟩
  by_cases release : ∃ x, c = .resetPinRelease x
  · obtain ⟨x, rfl⟩ := release
    obtain ⟨params, valid, basin, pending⟩ := State.unplaced_iff.mp (exec_resetPinRelease_unplaced e)
    exact ⟨fun _ => ⟨params, valid⟩, fun no => absurd rfl (no x), fun _ _ => basin, pending⟩
  by_cases reset : ∃ p n x, c = .resetStation p n x
  · obtain ⟨p, n, x, rfl⟩ := reset
    obtain ⟨params, valid, basin, pending⟩ := State.unplaced_iff.mp (exec_resetStation_unplaced e)
    exact ⟨fun _ => ⟨params, valid⟩, fun _ no => absurd rfl (no p n x), fun _ _ => basin, pending⟩
  obtain ⟨params, valid, position, basin, pending⟩ := all (exec_anchored e b tick power (fun r h => config ⟨r, h⟩)
    (fun x h => release ⟨x, h⟩) fun p n x h => reset ⟨p, n, x, h⟩)
  exact ⟨fun _ => ⟨params, valid⟩, fun _ _ => position, fun _ _ => basin, pending⟩

end Sys2Proof.Machine
end

