-- ==== Sys2Proof/Proofs/MarkedBoundary.lean ====
section
/-!
The boundary of a station that is up, seen from basin time (spec/01, R1 to R7): the frame number, the correction, the samples,
OUT_OF_STEP and the beacon.
-/
namespace Sys2Proof.Machine

/-! ## What the transitions and passes leave -/

/-- What stands over the transitions and passes of a station that is up: what the show does not reach, but for the offer of a
STOP_ASSERT, the beacon and the mute count. -/
def State.timed (s : State) : State :=
  { s.outer with liu := { s.liu.outer with halt := false, beacon := none, mute := 0 } }

section
variable {s t : State}
theorem State.timed_of_outer (h : t.outer = s.outer) : t.timed = s.timed := by
  have e : ∀ x : State, x.timed = { x.outer with liu := { x.outer.liu with halt := false, beacon := none, mute := 0 } } :=
    fun _ => rfl
  rw [e t, e s, h]

theorem State.tbu_of_timed (h : t.timed = s.timed) : t.tbu.outer = s.tbu.outer := congrArg (fun x => x.tbu) h
theorem State.pt_of_timed (h : t.timed = s.timed) : t.pt = s.pt := congrArg (fun x => x.pt) h
theorem State.st_of_timed (h : t.timed = s.timed) : t.st = s.st := congrArg (fun x => x.st) h
theorem State.rxStamp_of_timed (h : t.timed = s.timed) : t.liu.rxStamp = s.liu.rxStamp :=
  congrArg (fun x => x.liu.rxStamp) h
theorem State.tx_of_timed (h : t.timed = s.timed) : t.liu.tx = s.liu.tx := congrArg (fun x => x.liu.tx) h
end

section
variable (s : State)

theorem State.onLiu_timed {g : Liu → Liu} (h : ∀ l, ({ (g l).outer with halt := false, beacon := none, mute := 0 } : Liu) =
    { l.outer with halt := false, beacon := none, mute := 0 }) : (s.onLiu g).timed = s.timed := by
  show ({ s.timed with liu := { (g s.liu).outer with halt := false, beacon := none, mute := 0 } } : State) = s.timed
  rw [h]
  rfl

theorem State.stopRepeat_timed : s.stopRepeat.timed = s.timed := by
  unfold State.stopRepeat
  split
  · rw [State.onLiu_timed (g := Liu.offerStop) _ fun _ => rfl]
    exact State.timed_of_outer s.haltRequest_outer
  · rfl

theorem State.countWarmup_outer : s.countWarmup.outer = s.outer := by
  unfold State.countWarmup
  split
  · split <;> rfl
  · rfl

theorem State.countListen_up (up : s.st.phase = .up) (k : Nat) : s.countListen k = s := by
  simp [State.countListen, up]

theorem State.takeHold_outer (bt : Nat) : (s.takeHold bt).outer = s.outer := by
  unfold State.takeHold
  split <;> rfl

theorem State.takeResume_outer (bt : Nat) : (s.takeResume bt).outer = s.outer := by
  unfold State.takeResume
  split
  · rw [State.takeEnd_outer]
    rfl
  · rfl

theorem State.checkEnding_outer : s.checkEnding.outer = s.outer := by
  unfold State.checkEnding
  split <;> rfl

variable {s}

/-- The transitions of a station that is up: the listen does not count. -/
theorem State.transitions_timed (up : s.st.phase = .up) (k bt : Nat) (st : ShowState) :
    (s.transitions k bt st).timed = s.timed := by
  have counted : (if st = .warmup then s.stopRepeat.countWarmup else s.stopRepeat).timed = s.timed := by
    rw [← s.stopRepeat_timed]
    split
    · exact State.timed_of_outer (State.countWarmup_outer _)
    · rfl
  have phase := congrArg StartUp.phase (State.st_of_timed counted)
  unfold State.transitions
  dsimp only
  generalize (if st = .warmup then s.stopRepeat.countWarmup else s.stopRepeat) = x at counted phase
  rw [State.countListen_up x (phase.trans up), ← counted]
  refine State.timed_of_outer ?_
  split <;> split <;>
    simp only [State.checkEnding_outer, State.takeResume_outer, State.takeHold_outer, State.takeEnd_outer,
      State.takeT0_outer]

theorem State.placeBeacon_timed (k : Nat) (up : Bool) : (s.placeBeacon k up).timed = s.timed := by
  unfold State.placeBeacon
  split
  · exact State.onLiu_timed _ fun _ => rfl
  · rfl

theorem State.atTransitions_st (i : BoundaryInput) : (s.atTransitions i).st = s.st :=
  State.st_of_unmarked (State.atTransitions_unmarked s i)

theorem State.afterTransitions_timed (up : s.st.phase = .up) (i : BoundaryInput) :
    (s.afterTransitions i).timed = (s.atTransitions i).timed := by
  refine State.transitions_timed ?_ _ _ _
  rw [State.atTransitions_st, up]

/-- A boundary of a station that is up, after its beacon work. -/
theorem State.markBoundary_timed (up : s.st.phase = .up) (due : s.boundaryDue = true) (i : BoundaryInput) :
    (s.markBoundary i).timed = (s.atTransitions i).timed := by
  obtain ⟨c, e⟩ := State.markBoundary_eq (State.live_of_up up) due i
  rw [e, State.timed_of_outer (State.atReading_passes_outer _ _ _ _ _ _ _),
    State.onLiu_timed (g := Liu.boundary) _ fun _ => rfl,
    State.placeBeacon_timed, State.afterTransitions_timed up]

/-- The beacon stands from where the transitions leave it, or a new one is placed (R2). -/
theorem State.markBoundary_beacon (up : s.st.phase = .up) (due : s.boundaryDue = true) (i : BoundaryInput) :
    (s.markBoundary i).liu.beacon =
      if s.ownBeaconFrame s.nextFrame then some (s.afterTransitions i).composeBeacon
      else (s.afterTransitions i).liu.beacon := by
  obtain ⟨c, e⟩ := State.markBoundary_eq (State.live_of_up up) due i
  have own : (s.afterTransitions i).ownBeaconFrame s.nextFrame = s.ownBeaconFrame s.nextFrame := by
    have st : (s.afterTransitions i).st = s.st :=
      (State.st_of_timed (State.afterTransitions_timed up i)).trans (State.atTransitions_st i)
    unfold State.ownBeaconFrame State.own
    rw [st]
  rw [e, State.beacon_of_outer (State.atReading_passes_outer _ _ _ _ _ _ _)]
  show ((s.afterTransitions i).placeBeacon s.nextFrame (s.st.phase == .up)).liu.beacon = _
  unfold State.placeBeacon
  rw [own, up]
  cases s.ownBeaconFrame s.nextFrame <;> rfl

theorem State.transitions_beacon (up : s.st.phase = .up) (k bt : Nat) (st : ShowState) :
    (s.transitions k bt st).liu.beacon = s.liu.beacon := by
  have repeated : s.stopRepeat.liu.beacon = s.liu.beacon := by
    unfold State.stopRepeat
    split
    · exact State.beacon_of_outer (t := s.haltRequest) s.haltRequest_outer
    · rfl
  have counted : (if st = .warmup then s.stopRepeat.countWarmup else s.stopRepeat).liu.beacon = s.liu.beacon := by
    rw [← repeated]
    split
    · exact State.beacon_of_outer (State.countWarmup_outer _)
    · rfl
  have phase : (if st = .warmup then s.stopRepeat.countWarmup else s.stopRepeat).st.phase = .up := by
    have st_ : s.stopRepeat.st = s.st := State.st_of_timed s.stopRepeat_timed
    split
    · rw [State.st_of_outer (State.countWarmup_outer _), st_, up]
    · rw [st_, up]
  unfold State.transitions
  dsimp only
  generalize (if st = .warmup then s.stopRepeat.countWarmup else s.stopRepeat) = x at counted phase
  rw [State.countListen_up x phase, ← counted]
  refine State.beacon_of_outer ?_
  split <;> split <;>
    simp only [State.checkEnding_outer, State.takeResume_outer, State.takeHold_outer, State.takeEnd_outer,
      State.takeT0_outer]

theorem State.boundaryDue_le (due : s.boundaryDue = true) : s.nextBoundary ≤ s.tbu.basinTime := by
  simp only [State.boundaryDue, Bool.and_eq_true, decide_eq_true_eq] at due
  exact due.2

/-! ## The boundary without a correction -/

theorem State.beaconBoundary_other {k : Nat} (other : s.ownBeaconFrame k = false) : s.beaconBoundary k = s := by
  simp [State.beaconBoundary, other]

theorem State.inputs_ownBeaconFrame (i : BoundaryInput) (k : Nat) :
    ((s.beginBoundary s.nextFrame).inputsBoundary i).ownBeaconFrame k = s.ownBeaconFrame k := by
  unfold State.ownBeaconFrame State.own
  rw [State.st_of_unread (State.inputsBoundary_unread _ i)]
  rfl

theorem State.atTransitions_other (other : s.ownBeaconFrame s.nextFrame = false) (i : BoundaryInput) :
    s.atTransitions i = (s.beginBoundary s.nextFrame).inputsBoundary i := by
  rw [State.atTransitions, State.beaconBoundary_other]
  rw [State.inputs_ownBeaconFrame, other]
end

/-- Settles O6. -/
theorem boundaryMarksNextFrame : Obligations.BoundaryMarksNextFrame := by
  refine ⟨?_, ?_, ?_⟩
  · intro i s due
    exact congrArg Host.Outcome.next (State.markBoundary_not_due due i)
  · intro i s up due other
    refine ⟨_, rfl, ?_⟩
    have timed := State.markBoundary_timed up due i
    have mem := State.markBoundary_mem (State.live_of_up up) due i
    have beacon := State.markBoundary_beacon up due i
    have unread := State.inputsBoundary_unread (s.beginBoundary s.nextFrame) i
    have unmarked := State.atTransitions_unmarked s i
    rw [State.afterTransitions, State.transitions_beacon ((congrArg StartUp.phase (State.atTransitions_st i)).trans up),
      State.beacon_of_unmarked unmarked] at beacon
    rw [State.atTransitions_other other] at timed unmarked
    have tbu := (State.tbu_of_timed timed).trans (congrArg Tbu.outer (State.tbu_of_unread unread))
    refine ⟨congrArg (fun x => x.frameNo) tbu, congrArg (fun x => x.basinTime) tbu,
      congrArg (fun x => x.lastCorrection) tbu, ?_, ?_, ?_, ?_, mem⟩
    · exact (State.tx_of_timed timed).trans (State.tx_of_unmarked unmarked)
    · exact beacon.trans (if_neg (by rw [State.nextFrame, other]; decide))
    · rw [State.pt_of_timed timed, State.peers_of_unread unread]
      rfl
    · exact (State.st_of_timed timed).trans (State.st_of_unmarked unmarked)
  · intro i s dead due
    refine ⟨s.beginBoundary s.nextFrame, congrArg Host.Outcome.next ?_, rfl, rfl⟩
    simp [State.markBoundary, due, dead]

end Sys2Proof.Machine
end

