-- ==== Sys2Proof/Proofs/Correction.lean ====
section
/-!
The correction of an own beacon boundary (spec/01, R4 to R7): the median, the correction applied, the samples it moves, and
OUT_OF_STEP.
-/
namespace Sys2Proof.Machine

/-! ## The median (R4) -/

theorem insertInt_length (x : Int) (l : List Int) : (insertInt x l).length = l.length + 1 := by
  induction l with
  | nil => rfl
  | cons y ys ih =>
    unfold insertInt
    split
    · rfl
    · rw [List.length_cons, ih, List.length_cons]

theorem sortInt_length (l : List Int) : (sortInt l).length = l.length := by
  induction l with
  | nil => rfl
  | cons x xs ih =>
    show (insertInt x (sortInt xs)).length = _
    rw [insertInt_length, ih, List.length_cons]

/-- A list that holds a value has a lower median. -/
theorem lowerMedian_cons (x : Int) (l : List Int) : ∃ m, lowerMedian (x :: l) = some m := by
  unfold lowerMedian
  refine ⟨_, List.getElem?_eq_getElem ?_⟩
  rw [sortInt_length, List.length_cons]
  omega

theorem lowerMedian_nil : lowerMedian [] = none := rfl

theorem State.median_eq (s : State) : lowerMedian (0 :: s.pt.freshSamples) = some s.median := by
  obtain ⟨m, e⟩ := lowerMedian_cons 0 s.pt.freshSamples
  rw [State.median, e]
  rfl

/-- The records after the ageing, in ascending position. -/
theorem Pt.aged_toList (t : Pt) : t.aged.toList = t.peers.toList.map fun p => p.bind Peer.older := by
  refine List.ext_getElem (by simp) fun i h _ => ?_
  simp [Pt.aged]

/-- The samples that the median takes after the ageing. -/
theorem Pt.freshSamples_of_aged {t u : Pt} (h : u.peers = t.aged) : u.freshSamples =
    (t.peers.toList.filterMap fun p => p.bind Peer.older).filterMap fun p => if p.fresh then p.sample else none := by
  rw [Pt.freshSamples, h, Pt.aged_toList, List.filterMap_map, List.filterMap_filterMap]
  congr 1
  funext p
  show (Option.filter (·.fresh) (p.bind Peer.older)).bind (·.sample) = _
  generalize p.bind Peer.older = q
  cases q with
  | none => rfl
  | some q => cases hq : q.fresh <;> simp [Option.filter, hq]

/-! ## The correction applied (R5) -/

section
variable {basin slew : Nat} {c m : Int}

theorem appliedCorrection_floor (h : (basin : Int) + c < 0) : appliedCorrection basin c = -(basin : Int) := by
  simp [appliedCorrection, h]

theorem appliedCorrection_whole (h : 0 ≤ (basin : Int) + c) : appliedCorrection basin c = c := by
  simp [appliedCorrection, Int.not_lt.mpr h]

theorem appliedCorrection_le (basin : Nat) (c : Int) : 0 ≤ (basin : Int) + appliedCorrection basin c := by
  unfold appliedCorrection
  split <;> omega

theorem correctedTime_eq (basin : Nat) (c : Int) :
    (correctedTime basin c : Int) = ((basin : Int) + appliedCorrection basin c) % 2 ^ 48 := by
  have := appliedCorrection_le basin c
  unfold correctedTime basinRange
  omega

theorem clampInt_natAbs (slew : Nat) (m : Int) : (clampInt slew m).natAbs ≤ slew := by
  unfold clampInt
  omega

/-- A correction clamped to the slew is not above it, where basin time meets 0 too. -/
theorem appliedCorrection_natAbs (h : c.natAbs ≤ slew) : (appliedCorrection basin c).natAbs ≤ slew := by
  unfold appliedCorrection
  split <;> omega
end

section
variable (s : State) (k : Nat) (c : Int)

theorem State.correct_lastCorrection :
    (s.correct k c).tbu.lastCorrection = appliedCorrection s.tbu.basinTime c := rfl

theorem State.correct_basinTime : (s.correct k c).tbu.basinTime = correctedTime s.tbu.basinTime c := rfl

theorem State.correct_frameNo : (s.correct k c).tbu.frameNo =
    if (s.correct k c).tbu.lastCorrection.natAbs < 960 then k else (s.correct k c).tbu.basinTime / 960 := by
  show (if -960 < appliedCorrection s.tbu.basinTime c ∧ appliedCorrection s.tbu.basinTime c < 960 then k
    else correctedTime s.tbu.basinTime c / 960) = _
  rw [State.correct_lastCorrection, State.correct_basinTime]
  congr 1
  exact propext (by omega)

/-- Every sample moves against the correction (R6). -/
theorem State.correct_sample (q : Position) : ((s.correct k c).pt.peers[q].bind fun p => p.sample) =
    (s.pt.peers[q].bind fun p => p.sample).map (· - (s.correct k c).tbu.lastCorrection) := by
  have e : (s.correct k c).pt.peers = Vector.ofFn fun i : Fin 32 => s.pt.peers[i].map fun p =>
      { p with sample := p.sample.map (· - (s.correct k c).tbu.lastCorrection) } := rfl
  rw [e]
  simp only [Fin.getElem_fin, Vector.getElem_ofFn]
  cases s.pt.peers[q.val] <;> rfl

theorem State.correct_rxStamp : (s.correct k c).liu.rxStamp =
    s.liu.rxStamp.map (· + (s.correct k c).tbu.lastCorrection) := rfl

/-- A correction of 0 leaves the records. -/
theorem State.correct_zero : (s.correct k 0).pt = s.pt ∧ (s.correct k 0).tbu.basinTime = s.tbu.basinTime % 2 ^ 48 := by
  have none_ : appliedCorrection s.tbu.basinTime 0 = 0 := appliedCorrection_whole (by omega)
  refine ⟨?_, ?_⟩
  · show Pt.reduceSamples (appliedCorrection s.tbu.basinTime 0) s.pt = s.pt
    have same : ∀ p : Option Peer, p.map (fun p => { p with sample := p.sample.map (· - (0 : Int)) }) = p := by
      intro p
      cases p with
      | none => rfl
      | some p => simp
    rw [none_, Pt.reduceSamples]
    simp only [same]
    rw [show (Vector.ofFn fun i : Fin 32 => s.pt.peers[i]) = s.pt.peers from Vector.ext fun i hi => by simp]
  · rw [State.correct_basinTime, correctedTime, none_]
    simp [basinRange]
end

/-! ## OUT_OF_STEP (R7) -/

/-- From `s` to `t` OUT_OF_STEP stays with the show, or goes with it. -/
def State.keepsStep (s t : State) : Prop :=
  t.tbu.outOfStep = s.tbu.outOfStep ∧ t.tbu.state.bearing = s.tbu.state.bearing ∨
    t.tbu.outOfStep = false ∧ t.tbu.state.bearing = false

section
variable {s t u : State}

theorem State.keepsStep_refl (s : State) : s.keepsStep s := .inl ⟨rfl, rfl⟩

theorem State.keepsStep_trans (h : s.keepsStep t) (g : t.keepsStep u) : s.keepsStep u := by
  rcases g with ⟨step, bearing⟩ | gone
  · unfold State.keepsStep
    rw [step, bearing]
    exact h
  · exact .inr gone

theorem State.keepsStep_of_carriesOn (h : s.carriesOn t) : s.keepsStep t := by
  rcases h with same | ⟨idle | ⟨running, ending⟩, -⟩
  · exact .inl ⟨congrArg (fun x => x.outOfStep) same, congrArg (fun x => x.state.bearing) same⟩
  · exact .inr ⟨congrArg (fun x => x.outOfStep) idle, congrArg (fun x => x.state.bearing) idle⟩
  · refine .inl ⟨congrArg (fun x => x.outOfStep) ending, ?_⟩
    rw [running]
    exact congrArg (fun x => x.state.bearing) ending

theorem State.stopRepeat_keepsStep (s : State) : s.keepsStep s.stopRepeat := by
  unfold State.stopRepeat
  split
  · unfold State.haltRequest
    split
    · exact s.keepsStep_refl
    · exact s.keepsStep_refl
    · obtain ⟨halted, -, -, -, step, -⟩ := s.enterHalted_haltsTo
      exact .inr ⟨step, (congrArg ShowState.bearing halted).trans rfl⟩
  · exact s.keepsStep_refl

theorem State.countWarmup_keepsStep (s : State) : s.keepsStep s.countWarmup := by
  unfold State.countWarmup
  split
  · rename_i warmup
    split
    · refine .inl ⟨rfl, ?_⟩
      rw [warmup]
      rfl
    · exact .inl ⟨rfl, rfl⟩
  · exact s.keepsStep_refl

theorem State.takeEnd_keepsStep (s : State) (now : Nat) : s.keepsStep (s.takeEnd now) := by
  unfold State.takeEnd
  split
  · rename_i due
    refine .inl ?_
    rw [(s.enterEnding_endsShow _).1, due.1]
    exact ⟨rfl, rfl⟩
  · exact s.keepsStep_refl

theorem State.takeT0_keepsStep (s : State) (now : Nat) : s.keepsStep (s.takeT0 now) := by
  unfold State.takeT0
  split
  · rename_i reached
    refine State.keepsStep_trans ?_ (State.takeEnd_keepsStep _ now)
    refine .inl ⟨rfl, ?_⟩
    rw [reached.1]
    rfl
  · exact s.keepsStep_refl

theorem State.takeHold_keepsStep (s : State) (bt : Nat) : s.keepsStep (s.takeHold bt) := by
  unfold State.takeHold
  split
  · rename_i reached
    refine .inl ⟨rfl, ?_⟩
    rw [reached.1]
    rfl
  · exact s.keepsStep_refl

theorem State.takeResume_keepsStep (s : State) (bt : Nat) : s.keepsStep (s.takeResume bt) := by
  unfold State.takeResume
  split
  · rename_i reached
    refine State.keepsStep_trans ?_ (State.takeEnd_keepsStep _ bt)
    refine .inl ⟨rfl, ?_⟩
    rw [reached.1]
    rfl
  · exact s.keepsStep_refl

theorem State.checkEnding_keepsStep (s : State) : s.keepsStep s.checkEnding := by
  unfold State.checkEnding
  split
  · exact .inr ⟨rfl, rfl⟩
  · exact s.keepsStep_refl

theorem State.transitions_keepsStep (up : s.st.phase = .up) (k bt : Nat) (st : ShowState) :
    s.keepsStep (s.transitions k bt st) := by
  have counted : s.keepsStep (if st = .warmup then s.stopRepeat.countWarmup else s.stopRepeat) := by
    split
    · exact State.keepsStep_trans s.stopRepeat_keepsStep (State.countWarmup_keepsStep _)
    · exact s.stopRepeat_keepsStep
  have phase : (if st = .warmup then s.stopRepeat.countWarmup else s.stopRepeat).st.phase = .up := by
    have st_ : s.stopRepeat.st = s.st := State.st_of_timed s.stopRepeat_timed
    split
    · rw [State.st_of_outer (State.countWarmup_outer _), st_, up]
    · rw [st_, up]
  unfold State.transitions
  dsimp only
  generalize (if st = .warmup then s.stopRepeat.countWarmup else s.stopRepeat) = x at counted phase
  rw [State.countListen_up x phase]
  refine State.keepsStep_trans counted ?_
  generalize max bt x.tbu.basinTime = now
  have timed := State.keepsStep_trans (x.takeT0_keepsStep now) ((x.takeT0 now).takeEnd_keepsStep now)
  generalize (x.takeT0 now).takeEnd now = y at timed
  refine State.keepsStep_trans timed ?_
  have held : y.keepsStep (if st = .held then y.takeResume bt else y.takeHold bt) := by
    split
    · exact y.takeResume_keepsStep bt
    · exact y.takeHold_keepsStep bt
  generalize (if st = .held then y.takeResume bt else y.takeHold bt) = z at held
  refine State.keepsStep_trans held ?_
  split
  · exact z.checkEnding_keepsStep
  · exact z.keepsStep_refl

theorem State.passes_keepsStep (s : State) (k bt : Nat) (c : Int) (handed : ShowState) (entered resumed : Bool) :
    s.keepsStep (s.passes k bt c handed entered resumed) := by
  have on := State.keepsStep_of_carriesOn (State.cued_carriesOn (s := s) k handed)
  obtain ⟨tbu, -⟩ := s.passes_fields k bt c handed entered resumed
  unfold State.keepsStep
  rw [tbu]
  exact on

/-- OUT_OF_STEP from the beacon work of a boundary to its end. -/
theorem State.markBoundary_keepsStep (up : s.st.phase = .up) (due : s.boundaryDue = true) (i : BoundaryInput) :
    (s.atTransitions i).keepsStep (s.markBoundary i) := by
  obtain ⟨c, e⟩ := State.markBoundary_eq (State.live_of_up up) due i
  rw [e]
  have after : (s.atTransitions i).keepsStep (s.afterTransitions i) :=
    State.transitions_keepsStep ((congrArg StartUp.phase (State.atTransitions_st i)).trans up) _ _ _
  refine State.keepsStep_trans after ?_
  have placed : ((s.afterTransitions i).placeBeacon s.nextFrame (s.st.phase == .up)).tbu = (s.afterTransitions i).tbu := by
    unfold State.placeBeacon
    split <;> rfl
  generalize (s.afterTransitions i).placeBeacon s.nextFrame (s.st.phase == .up) = x at placed
  refine State.keepsStep_trans (t := x) (.inl ⟨congrArg Tbu.outOfStep placed, congrArg (fun t => t.state.bearing) placed⟩) ?_
  have passed := State.passes_keepsStep (x.onTbu fun t => { t with basinTime := s.nextBoundary }) s.nextFrame
    s.nextBoundary c (s.afterTransitions i).tbu.state
    ((s.afterTransitions i).tbu.state == .held && s.tbu.state != .held)
    ((s.afterTransitions i).tbu.state == .running && s.tbu.state == .held)
  unfold State.atReading
  unfold State.keepsStep at passed ⊢
  rw [State.onTbu_tbu (State.passes _ _ _ _ _ _ _)]
  exact passed
end

/-! ## The own beacon boundary -/

section
variable {s : State}

/-- The station as the correction of an own beacon boundary finds it: the records aged, the median taken. -/
def State.judged (s : State) (i : BoundaryInput) : State :=
  let x := ((s.beginBoundary s.nextFrame).inputsBoundary i).agePeers
  x.onTbu fun t => { t with lastMedian := x.median, outOfStep := outOfStepAfter s.tbu.state x.median t.outOfStep }

theorem State.atTransitions_own (up : s.st.phase = .up) (own : s.ownBeaconFrame s.nextFrame = true) (i : BoundaryInput) :
    s.atTransitions i =
      (s.judged i).correct s.nextFrame (correctionFor s.params s.tbu.state (s.judged i).tbu.lastMedian) := by
  have unread := State.inputsBoundary_unread (s.beginBoundary s.nextFrame) i
  have aged := State.agePeers_unmarked ((s.beginBoundary s.nextFrame).inputsBoundary i)
  have st : ((s.beginBoundary s.nextFrame).inputsBoundary i).agePeers.st = s.st :=
    (State.st_of_unmarked aged).trans (State.st_of_unread unread :)
  have state : ((s.beginBoundary s.nextFrame).inputsBoundary i).tbu.state = s.tbu.state :=
    (congrArg Tbu.state (State.tbu_of_unread unread) :)
  unfold State.atTransitions State.beaconBoundary State.judged
  rw [State.inputs_ownBeaconFrame, own]
  dsimp only
  rw [st, up, state, State.params, st]
  rfl

/-- What the correction of an own beacon boundary finds of `s`. -/
theorem State.judged_fields (i : BoundaryInput) :
    (s.judged i).tbu.basinTime = s.tbu.basinTime ∧
      (s.judged i).tbu.outOfStep =
        outOfStepAfter s.tbu.state (s.judged i).tbu.lastMedian s.tbu.outOfStep ∧
      (s.judged i).tbu.state = s.tbu.state ∧ (s.judged i).pt.peers = s.pt.aged ∧
      (s.judged i).liu.rxStamp = s.liu.rxStamp ∧
      lowerMedian (0 :: (s.judged i).pt.freshSamples) = some (s.judged i).tbu.lastMedian := by
  have unread := State.inputsBoundary_unread (s.beginBoundary s.nextFrame) i
  have aged := State.agePeers_unread ((s.beginBoundary s.nextFrame).inputsBoundary i)
  have tbu : ((s.beginBoundary s.nextFrame).inputsBoundary i).agePeers.tbu = (s.beginBoundary s.nextFrame).tbu := by
    rw [State.tbu_of_unread aged, State.onPt_tbu, State.tbu_of_unread unread]
  have peers : ((s.beginBoundary s.nextFrame).inputsBoundary i).agePeers.pt.peers = s.pt.aged := by
    rw [State.peers_of_unread aged, State.onPt_pt]
    show Pt.aged _ = _
    unfold Pt.aged
    rw [State.peers_of_unread unread]
    rfl
  have liu : ((s.beginBoundary s.nextFrame).inputsBoundary i).agePeers.liu.rxStamp = s.liu.rxStamp :=
    (congrArg Liu.rxStamp (State.liu_of_unread aged) :).trans (congrArg Liu.rxStamp (State.liu_of_unread unread) :)
  unfold State.judged
  dsimp only
  generalize ((s.beginBoundary s.nextFrame).inputsBoundary i).agePeers = x at tbu peers liu
  rw [State.onTbu_tbu, State.onTbu_pt, State.onTbu_liu, tbu]
  exact ⟨rfl, rfl, rfl, peers, liu, x.median_eq⟩
end

/-- A sample after the ageing: a record keeps it while it is FRESH (R168). -/
theorem Peer.older_sample (p : Option Peer) : ((p.bind Peer.older).bind fun p => p.sample) =
    p.bind fun p => if p.age + 1 < 3 then p.sample else none := by
  cases p with
  | none => rfl
  | some p =>
    show (p.older.bind fun p => p.sample) = if p.age + 1 < 3 then p.sample else none
    unfold Peer.older
    by_cases gone : 32 ≤ p.age + 1
    · rw [if_pos gone, if_neg (by omega)]
      rfl
    · rw [if_neg gone]
      split <;> rfl

/-- Settles O7. -/
theorem ownBeaconBoundaryCorrects : Obligations.OwnBeaconBoundaryCorrects := by
  refine ⟨?_, fun s k c q => s.correct_sample k c q, fun s k c => ⟨rfl, rfl, rfl, rfl, rfl, rfl, rfl, rfl⟩,
    fun s k => s.correct_zero k⟩
  intro i s up due own
  refine ⟨_, rfl, ?_⟩
  have timed := State.markBoundary_timed up due i
  have step := State.markBoundary_keepsStep up due i
  have at_ := State.atTransitions_own up own i
  obtain ⟨basin, outOfStep, state, peers, rxStamp, median⟩ := s.judged_fields i
  rw [at_] at timed step
  have tbu := State.tbu_of_timed timed
  have pt := State.pt_of_timed timed
  have stamp := State.rxStamp_of_timed timed
  have pending := (State.markBoundary_mem (State.live_of_up up) due i).2
  have beacon := (State.markBoundary_beacon up due i).trans (if_pos own)
  generalize s.markBoundary i = t at timed step tbu pt stamp pending beacon ⊢
  have last : t.tbu.lastMedian = (s.judged i).tbu.lastMedian := (congrArg (fun x => x.lastMedian) tbu :)
  have applied : t.tbu.lastCorrection = appliedCorrection s.tbu.basinTime
      (correctionFor s.params s.tbu.state t.tbu.lastMedian) := by
    rw [← basin, last]
    exact congrArg (fun x => x.lastCorrection) tbu
  have moved : t.tbu.lastCorrection = ((s.judged i).correct s.nextFrame (correctionFor s.params s.tbu.state
      (s.judged i).tbu.lastMedian)).tbu.lastCorrection := congrArg (fun x => x.lastCorrection) tbu
  have timeHere : t.tbu.basinTime = ((s.judged i).correct s.nextFrame (correctionFor s.params s.tbu.state
      (s.judged i).tbu.lastMedian)).tbu.basinTime := congrArg (fun x => x.basinTime) tbu
  have frame : t.tbu.frameNo = _ := (congrArg (fun x => x.frameNo) tbu).trans (State.correct_frameNo _ _ _)
  have reached : 960 ≤ s.tbu.basinTime := (Nat.le_mul_of_pos_left _ (Nat.succ_pos _)).trans (State.boundaryDue_le due)
  refine ⟨?_, ?_, ?_, ?_, ?_, ?_, ?_, ?_, ?_, ?_, ?_, ?_, pending⟩
  · rw [last, ← median, Pt.freshSamples_of_aged peers]
  · intro bearing
    rw [applied, correctionFor, if_pos bearing]
    exact appliedCorrection_natAbs (clampInt_natAbs _ _)
  · intro bearing slow
    have := clampInt_natAbs s.params.slew t.tbu.lastMedian
    rw [applied, correctionFor, if_pos bearing, appliedCorrection_whole (by omega)]
    rfl
  · intro free whole
    rw [applied, correctionFor, if_neg (by simp [free]), appliedCorrection_whole whole]
  · intro free floor
    rw [applied, correctionFor, if_neg (by simp [free]), appliedCorrection_floor floor]
  · rw [timeHere, State.correct_basinTime, correctedTime_eq, ← State.correct_lastCorrection _ s.nextFrame, ← moved, basin]
  · rw [frame, ← moved, ← timeHere]
    rfl
  · intro bearing still
    rcases step with ⟨step, -⟩ | ⟨-, gone⟩
    · rw [step]
      refine outOfStep.trans ?_
      rw [← last, outOfStepAfter, if_pos bearing]
      congr 1
      split <;> split
      · omega
      · rfl
      · rfl
      · omega
    · rw [still] at gone
      cases gone
  · intro dark
    rcases step with ⟨step, same⟩ | ⟨step, -⟩
    · have free : s.tbu.state.bearing = false := dark.elim id fun x =>
        (congrArg ShowState.bearing state).symm.trans (same.symm.trans x)
      rw [step]
      refine outOfStep.trans ?_
      rw [outOfStepAfter, if_neg (by simp [free])]
    · exact step
  · intro q
    have aged : s.pt.aged[q] = s.pt.peers[q].bind Peer.older := by simp [Pt.aged]
    rw [pt, State.correct_sample, ← moved, peers, aged, Peer.older_sample]
  · rw [stamp, State.correct_rxStamp, ← moved, rxStamp]
  · rw [beacon, Option.isSome_some]

end Sys2Proof.Machine
end

