-- ==== Sys2Proof/Proofs/HoldAndEnd.lean ====
section
/-!
The transitions that a boundary of a station that is up brings about: HELD, the resume, and the end of ENDING (spec/01, R16
to R19; spec/02, R45).
-/
namespace Sys2Proof.Machine

/-! ## The boundary from its transitions on -/

section
variable {s z : State}

/-- A boundary of a station that is up, from the state `z` in which its transitions leave it: the beacon placed, and the
passes. -/
theorem State.markBoundary_passes (up : s.st.phase = .up) (due : s.boundaryDue = true) (i : BoundaryInput)
    (after : s.afterTransitions i = z) {st handed : ShowState} (before : s.tbu.state = st) (state : z.tbu.state = handed)
    {entered resumed : Bool} (enters : (handed == .held && st != .held) = entered)
    (resumes : (handed == .running && st == .held) = resumed) :
    ∃ (g : Liu → Liu) (c : Int), s.markBoundary i = (z.onLiu g).atReading s.nextBoundary fun x =>
      x.passes s.nextFrame s.nextBoundary c handed entered resumed := by
  obtain ⟨c, e⟩ := State.markBoundary_eq (State.live_of_up up) due i
  rw [after, state, before, enters, resumes] at e
  have placed : ∃ g : Liu → Liu, z.placeBeacon s.nextFrame (s.st.phase == .up) = z.onLiu g := by
    unfold State.placeBeacon
    split
    · exact ⟨_, rfl⟩
    · exact ⟨id, rfl⟩
  obtain ⟨g, placed⟩ := placed
  rw [placed] at e
  exact ⟨g, c, e⟩

/-- Work done at a boundary's reading that leaves the timebase unit as it finds it. -/
theorem State.atReading_tbu {f : State → State} (bt : Nat)
    (h : (f (s.onTbu fun t => { t with basinTime := bt })).tbu = (s.onTbu fun t => { t with basinTime := bt }).tbu) :
    (s.atReading bt f).tbu = s.tbu := by
  rw [State.atReading, State.onTbu_tbu, h]
  rfl

/-- Handed as neither ARMED nor RUNNING, the passes leave timebase unit and cue engine but for the slate handed over. -/
theorem State.atReading_passes_still {handed : ShowState} (armed : handed ≠ .armed) (running : handed ≠ .running)
    (k bt : Nat) (c : Int) (entered resumed : Bool) :
    (s.atReading bt fun x => x.passes k bt c handed entered resumed).tbu = s.tbu ∧
      (s.atReading bt fun x => x.passes k bt c handed entered resumed).ce = s.ce.setSlate k {} := by
  obtain ⟨tbu, ce, -⟩ :=
    (s.onTbu fun t => { t with basinTime := bt }).passes_fields k bt c handed entered resumed
  rw [State.cued_idle _ k _ armed running] at tbu ce
  exact ⟨State.atReading_tbu bt tbu, ce⟩
end

theorem Ce.setSlate_queue (c : Ce) (k : Nat) (x : Slate) : (c.setSlate k x).queue = c.queue := by
  unfold Ce.setSlate
  split <;> rfl

theorem Ce.setSlate_readState (c : Ce) (k : Nat) (x : Slate) : (c.setSlate k x).readState = c.readState := by
  unfold Ce.setSlate
  split <;> rfl

theorem Ce.setSlate_running (c : Ce) (k : Nat) (x : Slate) : (c.setSlate k x).running = c.running := by
  unfold Ce.setSlate
  split <;> rfl

/-! ## The transitions of a show -/

section
variable {y : State} (steady : y.biu.stopActive = false) (up : y.st.phase = .up)
include steady up

/-- Without the stop input and the counts of listen and WARMUP the transitions are those of the show's times. -/
theorem State.transitions_show {st : ShowState} (warm : st ≠ .warmup) (k bt : Nat) : y.transitions k bt st =
    (let z := (y.takeT0 (max bt y.tbu.basinTime)).takeEnd (max bt y.tbu.basinTime)
     let w := if st = .held then z.takeResume bt else z.takeHold bt
     if st = .ending then w.checkEnding else w) := by
  have repeats : y.stopRepeat = y := by simp [State.stopRepeat, steady]
  unfold State.transitions
  dsimp only
  rw [repeats, if_neg warm, State.countListen_up y up]

/-- A show that plays and does not end at the boundary takes its hold. -/
theorem State.transitions_running (running : y.tbu.state = .running) {k bt : Nat}
    (noEnd : y.ce.endDue (max bt y.tbu.basinTime) = false) : y.transitions k bt .running = y.takeHold bt := by
  rw [State.transitions_show steady up (by decide)]
  simp [State.takeT0_not (.inl (show y.tbu.state ≠ .armed by simp [running])), State.takeEnd_not (.inr noEnd)]

theorem State.transitions_held (held : y.tbu.state = .held) (k bt : Nat) :
    y.transitions k bt .held = y.takeResume bt := by
  rw [State.transitions_show steady up (by decide)]
  simp [State.takeT0_not (.inl (show y.tbu.state ≠ .armed by simp [held])),
    State.takeEnd_not (.inl (show y.tbu.state ≠ .running by simp [held]))]

theorem State.transitions_ending (ending : y.tbu.state = .ending) (k bt : Nat) :
    y.transitions k bt .ending = y.checkEnding := by
  have still : y.takeHold bt = y := by simp [State.takeHold, ending]
  rw [State.transitions_show steady up (by decide)]
  simp [State.takeT0_not (.inl (show y.tbu.state ≠ .armed by simp [ending])),
    State.takeEnd_not (.inl (show y.tbu.state ≠ .running by simp [ending])), still]
end

section
variable {s : State} (ready : s.atBoundary) (i : BoundaryInput)

/-- What the transitions of a boundary find of the show. -/
theorem State.atTransitions_show : (s.atTransitions i).tbu.state = s.tbu.state ∧
    (s.atTransitions i).tbu.hold = s.tbu.hold ∧ (s.atTransitions i).tbu.segBase = s.tbu.segBase ∧
    (s.atTransitions i).ce = s.ce ∧ (s.atTransitions i).au = s.au := by
  have e := State.atTransitions_unmarked s i
  exact ⟨State.showState_of_unmarked e, State.hold_of_unmarked e, State.segBase_of_unmarked e, State.ce_of_unmarked e,
    State.au_of_unmarked e⟩

include ready
theorem State.atTransitions_steady : (s.atTransitions i).biu.stopActive = false :=
  (State.stopActive_of_unmarked (State.atTransitions_unmarked s i)).trans ready.2.2

theorem State.atTransitions_up : (s.atTransitions i).st.phase = .up :=
  (congrArg StartUp.phase (State.atTransitions_st i)).trans ready.1

theorem State.afterTransitions_held (held : s.tbu.state = .held) :
    s.afterTransitions i = (s.atTransitions i).takeResume s.nextBoundary := by
  rw [State.afterTransitions, held]
  exact State.transitions_held (State.atTransitions_steady ready i) (State.atTransitions_up ready i)
    (held ▸ (State.atTransitions_show i).1) _ _

theorem State.afterTransitions_ending (ending : s.tbu.state = .ending) :
    s.afterTransitions i = (s.atTransitions i).checkEnding := by
  rw [State.afterTransitions, ending]
  exact State.transitions_ending (State.atTransitions_steady ready i) (State.atTransitions_up ready i)
    (ending ▸ (State.atTransitions_show i).1) _ _
end

/-! ## ENDING completed (R19) -/

/-- A pump at rest stays at rest through changes of the level state. -/
theorem Pump.atRest_iff (p : Pump) : (p.state == .off || p.state == .resting || p.state == .locked) = true ↔
    p.state = .off ∨ p.state = .resting ∨ p.state = .locked := by
  simp [or_assoc]

theorem Hu.atRest_iff (h : Hu) : h.atRest = true ↔
    ∀ n : Channel, (h.pump n).state = .off ∨ (h.pump n).state = .resting ∨ (h.pump n).state = .locked := by
  unfold Hu.atRest Hu.pump
  simp only [List.all_eq_true, Vector.mem_toList_iff, Pump.atRest_iff]
  constructor
  · exact fun all n => all _ (by simp)
  · intro all p hp
    obtain ⟨n, hn, rfl⟩ := Vector.mem_iff_getElem.mp hp
    exact all ⟨n, hn⟩

theorem Lu.still_iff (l : Lu) : l.still = true ↔ ∀ n : Fin 48, l.channels[n].fade ≤ l.channels[n].elapsed := by
  unfold Lu.still
  simp only [List.all_eq_true, Vector.mem_toList_iff]
  constructor
  · intro all n
    have := all l.channels[n] (by simp)
    simpa [LightChannel.fading] using this
  · intro all c hc
    obtain ⟨n, hn, rfl⟩ := Vector.mem_iff_getElem.mp hc
    simpa [LightChannel.fading] using all ⟨n, hn⟩

theorem Lu.interlock_still {l : Lu} (h : l.still = true) (P : Params) (level : Nat) :
    (l.interlock P level).still = true := by
  rw [Lu.still_iff] at h ⊢
  intro n
  unfold Lu.interlock
  obtain ⟨v, e, -⟩ := Lu.recompute_channel
    { l with level := level, exposed := Vector.ofFn fun f : Fin 12 =>
        if P.fixtures[f].present && P.fixtures[f].submerged then decide (level < P.fixtures[f].cover)
        else l.exposed[f] } P n
  rw [e]
  exact h n

theorem Pump.dry_atRest {p : Pump} (h : p.state = .off ∨ p.state = .resting ∨ p.state = .locked) :
    p.dry.state = .off ∨ p.dry.state = .resting ∨ p.dry.state = .locked := by
  rcases h with e | e | e <;> simp [Pump.dry, e]

theorem Pump.undry_atRest {p : Pump} (h : p.state = .off ∨ p.state = .resting ∨ p.state = .locked) (pp : PumpParams) :
    (p.undry pp).state = .off ∨ (p.undry pp).state = .resting ∨ (p.undry pp).state = .locked := by
  unfold Pump.undry Pump.unlockIfFree
  split
  · exact .inr (.inl rfl)
  · exact h

/-- The readings of a boundary do not put off the end of ENDING. -/
theorem State.endingDone_keptByReadings : KeptByReadings fun s => s.hu.atRest = true ∧ s.lu.still = true where
  onPt s g h := by rwa [State.onPt_hu, State.onPt_lu]
  onBiu s g h := by rwa [State.onBiu_hu, State.onBiu_lu]
  dry s h := by
    refine ⟨(Hu.atRest_iff _).mpr fun n => ?_, State.lu_of_unpumped s.huDry_unpumped ▸ h.2⟩
    have rest := (Hu.atRest_iff _).mp h.1 n
    rcases s.huDry_pump n with e | e <;> rw [e]
    · exact rest
    · exact Pump.dry_atRest rest
  normal s h := by
    refine ⟨(Hu.atRest_iff _).mpr fun n => ?_, State.lu_of_unpumped s.huNormal_unpumped ▸ h.2⟩
    have rest := (Hu.atRest_iff _).mp h.1 n
    rcases s.huNormal_pump n with e | e <;> rw [e]
    · exact rest
    · exact Pump.undry_atRest rest _
  interlock s P l h := by
    rw [State.onLu_hu, State.onLu_lu]
    exact ⟨h.1, Lu.interlock_still h.2 P l⟩

theorem State.beaconBoundary_hu_lu (s : State) (k : Nat) :
    ((s.beaconBoundary k).hu = s.hu ∧ (s.beaconBoundary k).lu = s.lu) ∨
      (s.beaconBoundary k).hu = s.agePeers.hu ∧ (s.beaconBoundary k).lu = s.agePeers.lu := by
  unfold State.beaconBoundary
  split
  · exact .inl ⟨rfl, rfl⟩
  · dsimp only
    split
    · rw [State.correct_hu, State.correct_lu, State.onTbu_hu, State.onTbu_lu]
      exact .inr ⟨rfl, rfl⟩
    · exact .inr ⟨rfl, rfl⟩

theorem State.atTransitions_endingDone {s : State} (h : s.endingDone = true) (i : BoundaryInput) :
    (s.atTransitions i).endingDone = true := by
  simp only [State.endingDone, Bool.and_eq_true] at h ⊢
  obtain ⟨⟨rest, still⟩, idle⟩ := h
  refine ⟨?_, by rwa [(State.atTransitions_show i).2.2.2.2]⟩
  have read : ((s.beginBoundary s.nextFrame).inputsBoundary i).hu.atRest = true ∧
      ((s.beginBoundary s.nextFrame).inputsBoundary i).lu.still = true :=
    State.endingDone_keptByReadings.inputsBoundary (s := s.beginBoundary s.nextFrame) ⟨rest, still⟩ i
  unfold State.atTransitions
  rcases State.beaconBoundary_hu_lu ((s.beginBoundary s.nextFrame).inputsBoundary i) s.nextFrame with e | e <;>
    rw [e.1, e.2]
  · exact read
  · exact State.endingDone_keptByReadings.agePeers read

/-- Settles O11. -/
theorem endingCompletes : Obligations.EndingCompletes := by
  intro i s ready ending rest still a b
  obtain ⟨up, due, input⟩ := ready
  have live := State.live_of_up up
  have done : s.endingDone = true := by
    simp only [State.endingDone, Bool.and_eq_true]
    refine ⟨⟨(Hu.atRest_iff _).mpr rest, (Lu.still_iff _).mpr still⟩, ?_⟩
    simp [Au.idle, a, b]
  have marked : exec (.endingComplete i) s = .next (s.markBoundary i) :=
    congrArg Host.Outcome.next (State.markWhen_due live (by simp [ending, done, input]) i)
  have checked : (s.atTransitions i).checkEnding = (s.atTransitions i).endingToIdle := by
    rw [State.checkEnding, if_pos]
    exact ⟨(State.atTransitions_show i).1.trans ending, State.atTransitions_endingDone done i⟩
  obtain ⟨g, c, e⟩ := State.markBoundary_passes up due i
    ((State.afterTransitions_ending ⟨up, due, input⟩ i ending).trans checked) ending (handed := .idle) rfl
    (entered := false) (resumed := false) rfl rfl
  have tbu : (s.markBoundary i).tbu = (s.atTransitions i).endingToIdle.tbu := by
    rw [e]
    exact (State.atReading_passes_still (s := (s.atTransitions i).endingToIdle.onLiu g) (handed := .idle)
      (by decide) (by decide) s.nextFrame s.nextBoundary c false false).1
  refine ⟨_, marked, ?_, ?_, ?_, ?_, State.markBoundary_mem live due i⟩ <;> rw [tbu] <;> rfl

/-! ## HELD entered (R16) -/

theorem Ce.endDue_mono {c : Ce} {m n : Nat} (le : m ≤ n) (h : c.endDue n = false) : c.endDue m = false := by
  rw [Bool.eq_false_iff] at h ⊢
  intro due
  obtain ⟨a, ha, deed, reached⟩ := (Ce.endDue_iff _ _).mp due
  exact h ((Ce.endDue_iff _ _).mpr ⟨a, ha, deed, reached.trans le⟩)

theorem correctedTime_le {basin slew : Nat} {c : Int} (h : c.natAbs ≤ slew) : correctedTime basin c ≤ basin + slew := by
  have whole := appliedCorrection_le basin c
  have small := appliedCorrection_natAbs (basin := basin) h
  unfold correctedTime
  refine (Nat.mod_le _ _).trans ?_
  omega

/-- A show's correction takes basin time on by the slew at most (R5). -/
theorem State.atTransitions_basinTime {s : State} (up : s.st.phase = .up) (bearing : s.tbu.state.bearing = true)
    (i : BoundaryInput) : (s.atTransitions i).tbu.basinTime ≤ s.tbu.basinTime + s.params.slew := by
  cases own : s.ownBeaconFrame s.nextFrame with
  | false =>
    rw [State.atTransitions_other own, State.tbu_of_unread (State.inputsBoundary_unread _ i)]
    exact Nat.le_add_right _ _
  | true =>
    obtain ⟨basin, -⟩ := s.judged_fields i
    rw [State.atTransitions_own up own, State.correct_basinTime, basin, correctionFor, if_pos bearing]
    exact correctedTime_le (clampInt_natAbs _ _)

@[simp] theorem Ce.scanFail_queue (c : Ce) : c.scanFail.queue = c.queue := by
  unfold Ce.scanFail
  split <;> rfl

/-- The hold of boundary time `bt` taken (R16). -/
def State.holdTaken (s : State) (bt : Nat) : State :=
  (s.onTbu fun t => { t with state := .held, hold := { t.hold with boundary := some bt } }).cueHold

theorem State.takeHold_reached {s : State} {bt th : Nat} (running : s.tbu.state = .running)
    (pending : s.tbu.hold.th = some th) (reached : th ≤ bt) : s.takeHold bt = s.holdTaken bt := by
  rw [State.takeHold, if_pos]
  · rfl
  · simp [running, pending, reached]

/-- The hold frame of the light unit after a boundary's passes. -/
theorem State.atReading_passes_holdFrame (s : State) (k bt : Nat) (c : Int) (handed : ShowState)
    (entered resumed : Bool) (armed : handed ≠ .armed) (running : handed ≠ .running) :
    (s.atReading bt fun x => x.passes k bt c handed entered resumed).lu.holdFrame =
      if entered then some k else if resumed then none else s.lu.holdFrame := by
  rw [State.atReading, State.onTbu_lu, State.passes_lu_holdFrame, State.cued_idle _ k _ armed running]
  rfl

/-- Settles O9. -/
theorem holdEntered : Obligations.HoldEntered := by
  intro i s th ready running pending reached noEnd
  obtain ⟨up, due, input⟩ := ready
  have live := State.live_of_up up
  obtain ⟨state, hold, segBase, ce, -⟩ := State.atTransitions_show (s := s) i
  have early : (s.atTransitions i).ce.endDue (max s.nextBoundary (s.atTransitions i).tbu.basinTime) = false := by
    rw [ce]
    refine Ce.endDue_mono (Nat.max_le.mpr ⟨?_, ?_⟩) noEnd
    · exact (State.boundaryDue_le due).trans (Nat.le_add_right _ _)
    · exact State.atTransitions_basinTime up (by rw [running]; rfl) i
  have marked : exec (.enterHeld i) s = .next (s.markBoundary i) := by
    refine congrArg Host.Outcome.next (State.markWhen_due live ?_ i)
    have notYet := Ce.endDue_mono ((State.boundaryDue_le due).trans (Nat.le_add_right _ s.params.slew)) noEnd
    simp [running, pending, reached, notYet, input]
  have after : s.afterTransitions i = (s.atTransitions i).holdTaken s.nextBoundary := by
    rw [State.afterTransitions, running, State.transitions_running (State.atTransitions_steady ⟨up, due, input⟩ i)
      (State.atTransitions_up ⟨up, due, input⟩ i) (state.trans running) early]
    exact State.takeHold_reached (state.trans running) ((congrArg HoldRecord.th hold).trans pending) reached
  obtain ⟨g, c, e⟩ := State.markBoundary_passes up due i after running (handed := .held) rfl
    (entered := true) (resumed := false) rfl rfl
  obtain ⟨tbu, ce'⟩ := State.atReading_passes_still (s := ((s.atTransitions i).holdTaken s.nextBoundary).onLiu g)
    (handed := .held) (by decide) (by decide) s.nextFrame s.nextBoundary c true false
  obtain ⟨frame, silent⟩ := State.passes_held_voices
    ((((s.atTransitions i).holdTaken s.nextBoundary).onLiu g).onTbu fun t => { t with basinTime := s.nextBoundary })
    s.nextFrame s.nextBoundary c .held
  refine ⟨s.markBoundary i, marked, ?_⟩
  have mem := State.markBoundary_mem live due i
  have tbu : (s.markBoundary i).tbu = ((s.atTransitions i).holdTaken s.nextBoundary).tbu := by
    rw [e]
    exact tbu
  have queue : (s.markBoundary i).ce.queue = s.ce.queue := by
    rw [e]
    refine (congrArg Ce.queue ce').trans ?_
    rw [Ce.setSlate_queue, ← ce]
    exact Ce.scanFail_queue _
  have light : (s.markBoundary i).lu.holdFrame = some s.nextFrame := by
    rw [e]
    exact State.atReading_passes_holdFrame _ _ _ c .held true false (by decide) (by decide)
  have au : (s.markBoundary i).au = (State.passes ((((s.atTransitions i).holdTaken s.nextBoundary).onLiu g).onTbu
      fun t => { t with basinTime := s.nextBoundary }) s.nextFrame s.nextBoundary c .held true false).au := by
    rw [e, State.atReading, State.onTbu_au]
  rw [tbu, queue, light, au]
  exact ⟨rfl, rfl, (congrArg HoldRecord.th hold).trans pending, segBase, rfl, rfl, frame, silent, mem⟩

end Sys2Proof.Machine
end

