-- ==== Sys2Proof/Proofs/Resume.lean ====
section
/-!
The resume boundary (spec/01, R17; spec/02, R45): the show's times moved, and what the passes then find.
-/
namespace Sys2Proof.Machine

/-! ## The resume taken -/

/-- The resume after `d` ticks held (R17, R45), an END action left aside. -/
def State.resumed (s : State) (d : Nat) : State :=
  (s.onTbu fun t => { t with state := .running, segBase := t.segBase.map (· + d), hold := {} }).cueResume d

theorem State.takeResume_reached {s : State} {bt tr h : Nat} (held : s.tbu.state = .held)
    (pending : s.tbu.hold.tr = some tr) (boundary : s.tbu.hold.boundary = some h) (reached : tr ≤ bt) :
    s.takeResume bt = (s.resumed (bt - h)).takeEnd bt := by
  rw [State.takeResume, if_pos]
  · rw [boundary]
    rfl
  · simp [held, pending, reached]

theorem Action.moved_endShow (d : Nat) (a : Action) : (a.moved d).deed = .endShow ↔ a.deed = .endShow := by
  unfold Action.moved
  cases a.deed <;> simp

theorem State.resumed_endDue (s : State) (bt d : Nat) : (s.resumed d).ce.endDue bt = true ↔
    ∃ a ∈ s.ce.queue, a.deed = .endShow ∧ a.dispatch + d ≤ bt := by
  rw [Ce.endDue_iff]
  simp only [State.resumed, State.cueResume, State.onCe_ce, State.onTbu_ce, List.mem_map]
  constructor
  · rintro ⟨_, ⟨a, ha, rfl⟩, deed, due⟩
    exact ⟨a, ha, (Action.moved_endShow d a).mp deed, due⟩
  · rintro ⟨a, ha, deed, due⟩
    exact ⟨_, ⟨a, ha, rfl⟩, (Action.moved_endShow d a).mpr deed, due⟩

/-! ## The staging pass -/

/-- The staging pass takes actions from the queue into the slates, and changes nothing else of the engine (R36). -/
def Ce.stagedFrom (c d : Ce) : Prop :=
  d = { c with queue := d.queue, slateEven := d.slateEven, slateOdd := d.slateOdd } ∧ ∀ a ∈ d.queue, a ∈ c.queue

theorem State.stage_ce {s t : State} {k : Nat} {a : Action} (h : s.stage k a = some t) :
    t.ce = { s.ce with slateEven := t.ce.slateEven, slateOdd := t.ce.slateOdd } := by
  unfold State.stage at h
  split at h
  · cases h
  · cases h
    have set : ∀ (c : Ce) (k : Nat) (x : Slate), c.setSlate k x =
        { c with slateEven := (c.setSlate k x).slateEven, slateOdd := (c.setSlate k x).slateOdd } := by
      intro c k x
      unfold Ce.setSlate
      split <;> rfl
    split
    · exact set _ _ _
    · exact set _ _ _

theorem State.stagePass_ce (s : State) (k : Nat) : s.ce.stagedFrom (s.stagePass k).ce := by
  unfold State.stagePass
  refine List.foldlRecOn (motive := fun t : State => s.ce.stagedFrom t.ce) _ _ ⟨rfl, fun _ => id⟩ fun t ht a _ => ?_
  split
  · split
    · rename_i u h
      have e := State.stage_ce h
      obtain ⟨rest, mem⟩ := ht
      refine ⟨?_, fun b hb => mem b ?_⟩
      · rw [State.onCe_ce, e, rest]
      · rw [State.onCe_ce, e] at hb
        exact List.mem_of_mem_erase hb
    · exact ht
  · exact ht

/-- Where no list is being read, the engine's work in RUNNING is the staging pass alone (R27, R36). -/
theorem State.cued_unread {s : State} (k : Nat) (reading : s.ce.readState ≠ .reading) (scanning : s.ce.readState ≠ .scanning) :
    s.cued k .running = ((s.onLiu Liu.boundary).stagePass k).onCe fun c => { c with pageWait := false } := by
  have staged := (State.stagePass_ce (s.onLiu Liu.boundary) k).1
  generalize e : ((s.onLiu Liu.boundary).stagePass k).onCe (fun c => { c with pageWait := false }) = x
  have same : x.ce.readState = s.ce.readState := by
    rw [← e, State.onCe_ce]
    exact congrArg (fun c => c.readState) staged
  have stop : x.cueStep = .stop x := by
    unfold State.cueStep
    rw [same]
    simp [reading, scanning]
  show State.cueRead (State.onCe _ _) = x
  rw [e, State.cueRead, State.cueLoop, stop]

theorem State.atReading_passes_resumed (s : State) (k bt : Nat) (c : Int) (handed : ShowState) :
    (s.atReading bt fun x => x.passes k bt c handed false true).lu.holdFrame = none ∧
      (s.atReading bt fun x => x.passes k bt c handed false true).au.holdFrame = none := by
  rw [State.atReading, State.onTbu_lu, State.onTbu_au, State.passes_lu_holdFrame, State.passes_resumed_holdFrame]
  exact ⟨rfl, rfl⟩

/-- The passes of a boundary in RUNNING at which no list is being read: the timebase unit and the running record stay, and no
action joins the queue. -/
theorem State.atReading_passes_unread {s : State} {k bt : Nat} {c : Int} {entered resumed : Bool}
    (reading : s.ce.readState ≠ .reading) (scanning : s.ce.readState ≠ .scanning) :
    (s.atReading bt fun x => x.passes k bt c .running entered resumed).tbu = s.tbu ∧
      (s.atReading bt fun x => x.passes k bt c .running entered resumed).ce.running = s.ce.running ∧
      ∀ a ∈ (s.atReading bt fun x => x.passes k bt c .running entered resumed).ce.queue, a ∈ s.ce.queue := by
  generalize hy : (s.onTbu fun t => { t with basinTime := bt }) = y
  have y_ce : y.ce = s.ce := by rw [← hy, State.onTbu_ce]
  obtain ⟨tbu, ce, -⟩ := y.passes_fields k bt c .running entered resumed
  obtain ⟨rest, mem⟩ := (y.onLiu Liu.boundary).stagePass_ce k
  rw [State.cued_unread k (y_ce ▸ reading) (y_ce ▸ scanning)] at tbu ce
  rw [State.onCe_tbu, State.tbu_of_aside (State.stagePass_aside _ k)] at tbu
  rw [State.onCe_ce] at ce
  refine ⟨State.atReading_tbu bt (hy ▸ tbu), ?_, ?_⟩
  · rw [State.atReading, hy, State.onTbu_ce, ce, Ce.setSlate_running, ← y_ce]
    exact congrArg (fun c => c.running) rest
  · rw [State.atReading, hy, State.onTbu_ce, ce, Ce.setSlate_queue, ← y_ce]
    exact mem

section
variable {i : BoundaryInput} {s : State} {tr h : Nat} (ready : s.atBoundary) (held : s.tbu.state = .held)
  (pending : s.tbu.hold.tr = some tr) (boundary : s.tbu.hold.boundary = some h) (reached : tr ≤ s.nextBoundary)
include ready held pending boundary reached

omit boundary in
theorem exec_resumeBoundary : exec (.resumeBoundary i) s = .next (s.markBoundary i) := by
  refine congrArg Host.Outcome.next (State.markWhen_due (State.live_of_up ready.1) ?_ i)
  simp [held, pending, reached, ready.2.2]

theorem State.afterTransitions_resume : s.afterTransitions i =
    ((s.atTransitions i).resumed (s.nextBoundary - h)).takeEnd s.nextBoundary := by
  obtain ⟨state, hold, -⟩ := State.atTransitions_show (s := s) i
  rw [State.afterTransitions_held ready i held]
  exact State.takeResume_reached (state.trans held) ((congrArg HoldRecord.tr hold).trans pending)
    ((congrArg HoldRecord.boundary hold).trans boundary) reached

/-- Without an END action due, the passes of the boundary find the show resumed. -/
theorem State.markBoundary_resumed (noEnd : ∀ a ∈ s.ce.queue, a.deed = .endShow →
      s.nextBoundary < a.dispatch + (s.nextBoundary - h)) : ∃ (g : Liu → Liu) (c : Int),
    s.markBoundary i = (((s.atTransitions i).resumed (s.nextBoundary - h)).onLiu g).atReading
      s.nextBoundary fun x => x.passes s.nextFrame s.nextBoundary c .running false true := by
  refine State.markBoundary_passes ready.1 ready.2.1 i
    ((State.afterTransitions_resume ready held pending boundary reached).trans (State.takeEnd_not (.inr ?_))) held
    (handed := .running) rfl (entered := false) (resumed := true) rfl rfl
  rw [Bool.eq_false_iff, Ne, State.resumed_endDue, (State.atTransitions_show (s := s) i).2.2.2.1]
  rintro ⟨a, ha, deed, due⟩
  have := noEnd a ha deed
  omega
end

/-- What the passes find of a show resumed. -/
theorem State.resumed_show {s : State} {base : Nat} (segBase : s.tbu.segBase = some base) (i : BoundaryInput) (d : Nat) :
    ((s.atTransitions i).resumed d).tbu.state = .running ∧ ((s.atTransitions i).resumed d).tbu.hold = {} ∧
      ((s.atTransitions i).resumed d).tbu.segBase = some (base + d) ∧
      ((s.atTransitions i).resumed d).ce = { s.ce with
        queue := s.ce.queue.map (Action.moved d)
        running := s.ce.running.map fun r => { r with rearmEnd := r.rearmEnd + d } } := by
  obtain ⟨-, -, base', ce, -⟩ := State.atTransitions_show (s := s) i
  refine ⟨rfl, rfl, ?_, ?_⟩
  · show (s.atTransitions i).tbu.segBase.map (· + d) = _
    rw [base', segBase]
    rfl
  · rw [← ce]
    rfl

/-- Settles O10. -/
theorem resumeShiftsShow : Obligations.ResumeShiftsShow := by
  refine ⟨?_, ?_, ?_⟩
  · intro i s tr h base ready held pending boundary segBase reached reading scanning noEnd
    have never : ∀ a ∈ s.ce.queue, a.deed = .endShow → s.nextBoundary < a.dispatch + (s.nextBoundary - h) := by
      intro a ha deed
      have := List.any_eq_false.mp noEnd a ha
      simp [deed] at this
    obtain ⟨g, c, e⟩ := State.markBoundary_resumed (i := i) ready held pending boundary reached never
    obtain ⟨state, hold, base', ce⟩ := State.resumed_show segBase i (s.nextBoundary - h)
    obtain ⟨light, audio⟩ := State.atReading_passes_resumed
      (((s.atTransitions i).resumed (s.nextBoundary - h)).onLiu g) s.nextFrame s.nextBoundary c .running
    refine ⟨_, exec_resumeBoundary ready held pending reached, ?_⟩
    have mem := State.markBoundary_mem (State.live_of_up ready.1) ready.2.1 i
    generalize (s.atTransitions i).resumed (s.nextBoundary - h) = x at e state hold base' ce light audio
    obtain ⟨tbu, running, queue⟩ := State.atReading_passes_unread (s := x.onLiu g) (k := s.nextFrame)
      (bt := s.nextBoundary) (c := c) (entered := false) (resumed := true)
      (by rw [State.onLiu_ce, ce]; exact reading) (by rw [State.onLiu_ce, ce]; exact scanning)
    rw [← e, State.onLiu_tbu] at tbu
    rw [← e, State.onLiu_ce, ce] at running
    rw [← e, State.onLiu_ce, ce] at queue
    rw [tbu]
    refine ⟨state, hold, base', fun a ha => ?_, running, e ▸ light, e ▸ audio, mem⟩
    obtain ⟨b, hb, rfl⟩ := List.mem_map.mp (queue a ha)
    exact ⟨b, hb, rfl⟩
  · intro i s tr h base ready held pending boundary segBase reached never
    obtain ⟨g, c, e⟩ := State.markBoundary_resumed (i := i) ready held pending boundary reached never
    obtain ⟨state, hold, base', ce⟩ := State.resumed_show segBase i (s.nextBoundary - h)
    obtain ⟨light, audio⟩ := State.atReading_passes_resumed
      (((s.atTransitions i).resumed (s.nextBoundary - h)).onLiu g) s.nextFrame s.nextBoundary c .running
    exact ⟨((s.atTransitions i).resumed (s.nextBoundary - h)).onLiu g, s.markBoundary i, c,
      exec_resumeBoundary ready held pending reached, e, state, hold, base', ce, e ▸ light, e ▸ audio,
      State.markBoundary_mem (State.live_of_up ready.1) ready.2.1 i⟩
  · intro i s tr h a ready held pending boundary reached ha deed due
    have ended : (((s.atTransitions i).resumed (s.nextBoundary - h)).takeEnd s.nextBoundary) =
        ((s.atTransitions i).resumed (s.nextBoundary - h)).enterEnding
          ((s.atTransitions i).resumed (s.nextBoundary - h)).params.endFade := by
      refine State.takeEnd_due rfl ((State.resumed_endDue _ _ _).mpr ⟨a, ?_, deed, due⟩)
      rwa [(State.atTransitions_show (s := s) i).2.2.2.1]
    have shows := State.enterEnding_endsShow ((s.atTransitions i).resumed (s.nextBoundary - h))
      ((s.atTransitions i).resumed (s.nextBoundary - h)).params.endFade
    obtain ⟨tbu, read, -, queue, -⟩ := shows
    obtain ⟨g, c, e⟩ := State.markBoundary_passes ready.1 ready.2.1 i
      ((State.afterTransitions_resume ready held pending boundary reached).trans ended) held (handed := .ending)
      (congrArg Tbu.state tbu) (entered := false) (resumed := false) rfl rfl
    refine ⟨_, exec_resumeBoundary ready held pending reached, ?_⟩
    have mem := State.markBoundary_mem (State.live_of_up ready.1) ready.2.1 i
    generalize ((s.atTransitions i).resumed (s.nextBoundary - h)).enterEnding _ = x at e tbu read queue
    obtain ⟨tbu', ce'⟩ := State.atReading_passes_still (s := x.onLiu g) (handed := .ending) (by decide) (by decide)
      s.nextFrame s.nextBoundary c false false
    rw [← e, State.onLiu_tbu, tbu] at tbu'
    rw [← e, State.onLiu_ce] at ce'
    rw [tbu', ce', Ce.setSlate_readState, Ce.setSlate_queue, read, queue]
    exact ⟨rfl, rfl, rfl, rfl, mem⟩

end Sys2Proof.Machine
end

