-- ==== Sys2Proof/Proofs/Triggers.lean ====
section
/-!
Triggers, the WAIT_TRIGGER record, and cut scans (spec/02, R42 to R44).
-/
namespace Sys2Proof.Machine

/-! ## TRIGGER -/

section
variable {s : State} {n press : Nat}

/-- What a trigger must pass before the engine looks at its read state (R10, R42). -/
theorem State.cueTrigger_fresh (new : s.ce.lastTrigger ≠ some press)
    (rearmed : ∀ r, s.ce.running = some r → r.rearmEnd ≤ press) :
    s.ce.lastTrigger ≠ some press ∧ (s.ce.running.any fun r => decide (press < r.rearmEnd)) = false := by
  refine ⟨new, ?_⟩
  cases e : s.ce.running with
  | none => rfl
  | some r => simpa using rearmed r e

theorem State.cueTrigger_opens {w : WaitingRecord} (waiting : s.ce.readState = .waiting) (record : s.ce.waiting = some w)
    (number : w.number = n) (new : s.ce.lastTrigger ≠ some press)
    (rearmed : ∀ r, s.ce.running = some r → r.rearmEnd ≤ press) :
    s.cueTrigger n press =
      ((s.onCe fun c => { c with lastTrigger := some press }).openTriggered press w).cueRun := by
  obtain ⟨new, rearmed⟩ := State.cueTrigger_fresh new rearmed
  simp [State.cueTrigger, new, rearmed, waiting, record, number]

/-- The scan that a trigger starts at `q` (R43). -/
def State.scansFrom (s : State) (n press : Nat) (q : ReadPos) : State :=
  (s.onCe fun c => { c with lastTrigger := some press }).onCe fun c => { c with
    readState := .scanning
    scan := some { number := n, press := press, returnPos := q, returnState := c.readState, returnClosed := c.closed,
                   afterEnd := c.closed.isSome, passed := 0 } }

theorem State.cueTrigger_scans {r : RunningRecord} {q : ReadPos}
    (reads : s.ce.readState = .reading ∨ s.ce.readState = .ended) (running : s.ce.running = some r)
    (pos : s.ce.pos = some q) (cuttable : r.interruptible = true) (index : r.index = s.ce.index)
    (new : s.ce.lastTrigger ≠ some press) (rearmed : r.rearmEnd ≤ press) :
    s.cueTrigger n press = (s.scansFrom n press q).cueRun := by
  rcases reads with e | e <;>
    simp [State.cueTrigger, new, Nat.not_lt.mpr rearmed, e, running, pos, cuttable, index, State.scansFrom]

theorem State.cueTrigger_ignored (h : s.ce.lastTrigger = some press ∨
      (∃ r, s.ce.running = some r ∧ press < r.rearmEnd) ∨
      (s.ce.readState = .waiting ∧ ∀ w, s.ce.waiting = some w → w.number ≠ n) ∨
      ((s.ce.readState = .reading ∨ s.ce.readState = .ended) ∧
        ∀ r, s.ce.running = some r → r.interruptible = false ∨ r.index ≠ s.ce.index) ∨
      s.ce.readState = .scanning ∨ s.ce.readState = .none) : s.cueTrigger n press = s := by
  unfold State.cueTrigger
  split
  · rfl
  · rename_i new
    split
    · rfl
    · rename_i rearmed
      rcases h with old | ⟨r, running, early⟩ | ⟨waiting, other⟩ | ⟨reads, uncut⟩ | scanning | none_
      · exact absurd old new
      · simp [running, early] at rearmed
      · rw [waiting]
        dsimp only
        split
        · rename_i w record
          rw [if_neg (other w record)]
        · rfl
      · have shut : ∀ r, s.ce.running = some r → ¬(r.interruptible = true ∧ r.index = s.ce.index) := by
          rintro r running ⟨cuttable, index⟩
          rcases uncut r running with shut | other
          · exact absurd (cuttable.symm.trans shut) (by decide)
          · exact other index
        rcases reads with e | e <;> rw [e] <;> dsimp only <;> split
        · rw [if_neg (shut _ ‹_›)]
        · rfl
        · rw [if_neg (shut _ ‹_›)]
        · rfl
      · rw [scanning]
      · rw [none_]
end

/-! ## The WAIT_TRIGGER record -/

theorem cueBody_waitTrigger {r : List Byte} {kind flags mask n a : Nat} {i : Bool}
    (h : cueBody r kind flags mask = some (.waitTrigger n a i)) : kind = 7 := by
  unfold cueBody at h
  split at h
  case h_7 => rfl
  case h_1 | h_8 | h_9 | h_10 => cases h
  case h_2 | h_3 =>
    split at h <;> cases h
  case h_4 =>
    split at h
    · split at h <;> cases h
    · cases h
  case h_5 | h_6 =>
    obtain ⟨v, -, e⟩ := Option.map_eq_some_iff.mp h
    cases e

theorem cueKind_of_waitTrigger {r : List Byte} {n a : Nat} {i : Bool} (h : decodeCue r = some (.waitTrigger n a i)) :
    cueKind r = 7 := by
  unfold decodeCue at h
  dsimp only at h
  split at h
  · cases h
  · split at h
    · cases h
    · split at h
      · cases h
      · exact cueBody_waitTrigger h

/-- A WAIT_TRIGGER is taken at once: it makes no action, and the horizon does not hold it (R27, R42). -/
theorem State.readRecord_waitTrigger {s : State} {p : ReadPos} {r : List Byte} {n a : Nat} {i : Bool}
    (h : decodeCue r = some (.waitTrigger n a i)) (room : s.ce.queue.length ≤ 32) :
    s.readRecord p r = .stop (s.onCe fun c => { c.advance with
      waiting := some { number := n, rearm := a, interruptible := i }, closed := none, readState := .waiting }) := by
  have taken : ∀ t, s.takeCue p r (.waitTrigger n a i) t = .stop (s.onCe fun c => { c.advance with
      waiting := some { number := n, rearm := a, interruptible := i }, closed := none, readState := .waiting }) := by
    intro t
    unfold State.takeCue State.actionsOf
    rw [if_neg (by simpa using room)]
  have go : State.readRecord.go s p r (some (.waitTrigger n a i)) = .stop (s.onCe fun c => { c.advance with
      waiting := some { number := n, rearm := a, interruptible := i }, closed := none, readState := .waiting }) := by
    unfold State.readRecord.go
    dsimp only
    rw [if_neg (by simp [cueKind_of_waitTrigger h]), taken]
  unfold State.readRecord
  rw [h]
  dsimp only
  split
  · rw [if_neg (by decide), go]
  · exact go

/-! ## Cut scans -/

section
variable {s : State} {p : ReadPos} {r : List Byte} {x : ScanRecord} (plays : s.tbu.state = .armed ∨ s.tbu.state = .running)
  (scanning : s.ce.readState = .scanning) (scan : s.ce.scan = some x) (ready : s.ce.pageWait = false)
  (pos : s.ce.pos = some p) (found : s.ce.recordAt p = some r) (whole : p.offset + 16 ≤ s.cm.lengthOf p.segment)

include scan in
theorem State.scanFail_eq : s.onCe Ce.scanFail = s.scanGivenUp x := by
  simp [State.onCe, Ce.scanFail, scan, State.scanGivenUp]

include plays scanning scan ready pos found whole
/-- A step of a scan acts on the record at its position (R43). -/
theorem State.cueStep_scans : s.cueStep = s.scanRecord x r := by
  unfold State.cueStep
  dsimp only
  rw [if_neg (by simp [scanning, plays, ready]), pos]
  dsimp only
  rw [found]
  dsimp only
  rw [if_neg (by omega), scan]
end

theorem State.scanRecord_passes {s : State} {p : ReadPos} {r : List Byte} (x : ScanRecord) (pos : s.ce.pos = some p)
    (wait : cueKind r ≠ 7) (last : cueKind r ≠ 9) : s.scanRecord x r = .more { s with ce := { s.ce with
      pos := some { p with offset := p.offset + 16 }
      scan := some { x with passed := x.passed + (if x.afterEnd then 1 else 0), afterEnd := decide (cueKind r = 8) } } } := by
  unfold State.scanRecord
  dsimp only
  split
  · exact absurd ‹_› wait
  · exact absurd ‹_› last
  · rename_i e
    simp [State.onCe, Ce.advance, pos, e]
  · rename_i e
    simp [State.onCe, Ce.advance, pos, show cueKind r ≠ 8 from e]

/-- A WAIT_TRIGGER of the trigger's number makes the cut (R43). -/
theorem State.scanRecord_cuts {s : State} {p : ReadPos} {r : List Byte} {x : ScanRecord} {k : RunningRecord}
    (pos : s.ce.pos = some p) (running : s.ce.running = some k) (wait : cueKind r = 7) (number : recByte r 8 = x.number) :
    s.scanRecord x r = .more { s with
      tbu := { s.tbu with segBase := some (x.press + 3840) }
      ce := { s.ce with
        pos := some { p with offset := p.offset + 16 }
        queue := s.ce.queue.filter fun a => a.deed == .endShow || a.index != k.index
        index := s.ce.index + x.passed + 1, lastCue := 0, closed := none, waiting := none, readState := .reading
        scan := none
        running := some { index := s.ce.index + x.passed + 1, interruptible := decide (recByte r 5 % 2 = 1)
                          rearmEnd := x.press + 3840 + recWord r 9 * 960 } } } := by
  have others : ∀ a : Action, (!(k.index == a.index)) = (a.index != k.index) := fun a => by
    rw [bne, Bool.beq_comm]
  unfold State.scanRecord
  rw [wait]
  dsimp only
  rw [if_pos number]
  simp [State.onCe, State.onTbu, State.openTriggered, State.openSegment, Ce.advance, pos, running, others]

theorem State.scanRecord_fails {s : State} {r : List Byte} {x : ScanRecord} (scan : s.ce.scan = some x)
    (h : (cueKind r = 7 ∧ recByte r 8 ≠ x.number) ∨ cueKind r = 9) : s.scanRecord x r = .more (s.scanGivenUp x) := by
  rw [← State.scanFail_eq scan]
  unfold State.scanRecord
  rcases h with ⟨wait, other⟩ | last
  · rw [wait]
    dsimp only
    rw [if_neg other]
    rfl
  · rw [last]
    rfl

/-- Settles O22. -/
theorem triggerOpensOrCuts : Obligations.TriggerOpensOrCuts := by
  have heard : ∀ {p : Position} {n : Byte} {press : BitVec 48} {s : State}, s.hears p →
      exec (.trigger p n press) s = .next (s.afterFrame.hearTrigger n.toNat press.toNat) := fun h =>
    next_received_of_hears h _
  refine ⟨?_, ?_, ?_, ?_, ?_, ?_⟩
  · intro p n press s w h running waiting record number new rearmed
    refine ⟨_, (heard h).trans ?_, rfl⟩
    rw [State.hearTrigger, if_pos (show s.afterFrame.tbu.state = .running from running),
      State.cueTrigger_opens (s := s.afterFrame) waiting record number new rearmed]
    rfl
  · intro p n press s r q h running reads record pos cuttable index rearmed new
    refine ⟨s.afterFrame.scansFrom n.toNat press.toNat q, (heard h).trans ?_, rfl, rfl, rfl, pos, rfl, rfl, rfl, rfl, rfl,
      rfl⟩
    rw [State.hearTrigger, if_pos (show s.afterFrame.tbu.state = .running from running),
      State.cueTrigger_scans (s := s.afterFrame) reads record pos cuttable index new rearmed]
  · intro p n press s h ignored
    refine (heard h).trans (congrArg _ ?_)
    unfold State.hearTrigger
    split
    · rename_i running
      exact State.cueTrigger_ignored (s := s.afterFrame) (ignored.resolve_left fun no => no running)
    · rfl
  · intro s p r n a i h room
    rw [State.readRecord_waitTrigger h room]
    rfl
  · intro s p r x plays scanning scan ready pos found whole
    have step := State.cueStep_scans plays scanning scan ready pos found whole
    refine ⟨fun wait last => ?_, fun k running wait number => ?_, fun h => ?_, ?_⟩
    · exact step.trans (State.scanRecord_passes x pos wait last)
    · exact step.trans (State.scanRecord_cuts pos running wait number)
    · exact step.trans (State.scanRecord_fails scan h)
    · rw [← State.scanFail_eq scan]
      simp [State.cueAnswer, State.cueEnd, scanning]
  · intro s x scan
    exact State.scanFail_eq scan

end Sys2Proof.Machine
end

