-- ==== Sys2Proof/Proofs/Go.lean ====
section
/-!
GO: the reading of a list from its beginning (spec/01 R14, spec/02 R23, R27 to R29).
-/
namespace Sys2Proof.Machine

/-! ## A list read from its beginning -/

/-- The engine without its read state and place, its buffer and what it has queued. -/
def Ce.unplaced (c : Ce) : Ce :=
  { c with readState := .none, pos := c.pos.map fun p => { p with offset := 0 }, buffer := none, fetch := none,
           pageWait := false, queue := [], nextOrder := 0 }

/-- The state without what the reading of a list changes before a record of it is there. -/
def State.unlisted (s : State) : State := { s.unmapped with ce := s.ce.unplaced }

/-- The engine reads segment `g`, a CUE segment, and holds no record of it. -/
structure State.begins (g : Nat) (s : State) : Prop where
  reading : s.ce.readState = .reading
  place : ∃ o, s.ce.pos = some ⟨g, o⟩
  buffer : s.ce.buffer = none
  closed : s.ce.closed = none
  list : ∃ e, s.cm.entry g = some e ∧ e.kind = .cue

section
variable {s t : State} {g : Nat}

theorem State.unlisted_of_unmapped (h : t.unmapped = s.unmapped) : t.unlisted = s.unlisted := by
  have e : ∀ x : State, x.unlisted = { x.unmapped with ce := x.unmapped.ce.unplaced } := fun _ => rfl
  rw [e, e, h]

theorem State.onCe_unlisted {f : Ce → Ce} (h : (f s.ce).unplaced = s.ce.unplaced) :
    (s.onCe f).unlisted = s.unlisted :=
  congrArg (fun c => ({ s.unmapped with ce := c } : State)) h

/-- A lookup in a CUE segment finds the segment and its type, and leaves the state where the page is UNAVAILABLE. -/
theorem State.cueLookup_list {p : ReadPos} (list : ∃ e, s.cm.entry p.segment = some e ∧ e.kind = .cue) :
    (s.cueLookup p).2 ≠ .mapFault ∧ (s.cueLookup p).2 ≠ .typeMismatch ∧
      ((s.cueLookup p).2 = .unavailable → (s.cueLookup p).1 = s) := by
  obtain ⟨e, found, kind⟩ := list
  unfold State.cueLookup
  split
  · simp
  · unfold State.lookup
    rw [found]
    dsimp only
    rw [if_neg (by simp [kind])]
    split
    · simp
    · split
      · split <;> simp
      · simp
      · simp
      · simp

/-- The end of a list of which no record was taken: the END action joins the queue (R34). -/
theorem State.endOfList_unlisted (closed : s.ce.closed = none) : s.endOfList.unlisted = s.unlisted := by
  unfold State.endOfList State.openTimed
  rw [closed]
  dsimp only
  split
  · rfl
  · unfold State.produce
    dsimp only
    rw [if_neg (by simp [Action.stageable])]
    rfl

/-- What an answer for a CUE segment does before a record is there: the engine waits, ends, or passes a page over. -/
theorem State.cueAnswer_begins {p : ReadPos} {a : Answer} (reading : s.ce.readState = .reading)
    (closed : s.ce.closed = none) (found : a ≠ .mapFault) (typed : a ≠ .typeMismatch) :
    (∃ t, s.cueAnswer p a = .stop t ∧ t.unlisted = s.unlisted) ∨
      a = .unavailable ∧ s.cueAnswer p a =
        .more ((s.raise .pageUnavailable (some (.page p.segment (p.offset / 16384)))).onCe fun c =>
          { c with pos := some { p with offset := (p.offset / 16384 + 1) * 16384 } }) := by
  have ends : s.cueEnd = .stop s.endOfList := by simp [State.cueEnd, reading]
  cases a with
  | address phys =>
    refine .inl ?_
    unfold State.cueAnswer
    dsimp only
    split
    · exact ⟨_, ends, State.endOfList_unlisted closed⟩
    · split
      · refine ⟨_, rfl, (State.onCe_unlisted ?_).trans (State.unlisted_of_unmapped (State.arrive_unmapped s _ _))⟩
        rfl
      · exact ⟨_, rfl, rfl⟩
  | walking => exact .inl ⟨_, rfl, rfl⟩
  | wait => exact .inl ⟨_, rfl, rfl⟩
  | unavailable => exact .inr ⟨rfl, rfl⟩
  | endOf => exact .inl ⟨_, ends, State.endOfList_unlisted closed⟩
  | mapFault => exact absurd rfl found
  | typeMismatch => exact absurd rfl typed

theorem State.cueStep_begins (h : s.begins g) : (∃ t, s.cueStep = .stop t ∧ t.unlisted = s.unlisted) ∨
    ∃ t, s.cueStep = .more t ∧ t.unlisted = s.unlisted ∧ t.begins g := by
  obtain ⟨o, pos⟩ := h.place
  unfold State.cueStep
  dsimp only
  split
  · exact .inl ⟨_, rfl, rfl⟩
  · rw [pos]
    dsimp only
    rw [show s.ce.recordAt ⟨g, o⟩ = none by simp [Ce.recordAt, h.buffer]]
    dsimp only
    split
    · exact .inl ⟨_, rfl, rfl⟩
    · obtain ⟨found, typed, stays⟩ := State.cueLookup_list (s := s) (p := ⟨g, o⟩) h.list
      have same := State.cueLookup_unmapped (s := s) ⟨g, o⟩
      have ce := State.ce_of_unsounded (State.unsounded_of_unmapped same)
      obtain ⟨t, stops, placed⟩ | ⟨gone, goes⟩ := State.cueAnswer_begins (s := (s.cueLookup ⟨g, o⟩).1)
        (p := ⟨g, o⟩) ((congrArg Ce.readState ce).trans h.reading) ((congrArg Ce.closed ce).trans h.closed) found typed
      · exact .inl ⟨t, stops, placed.trans (State.unlisted_of_unmapped same)⟩
      · refine .inr ⟨_, goes, ?_, ?_⟩
        · refine (State.onCe_unlisted ?_).trans
            ((State.unlisted_of_unmapped (State.raise_unmapped _ rfl _)).trans (State.unlisted_of_unmapped same))
          rw [State.raise_ce, stays gone]
          simp [Ce.unplaced, pos]
        · rw [stays gone]
          exact ⟨h.reading, ⟨_, rfl⟩, h.buffer, h.closed, h.list⟩

theorem State.cueLoop_begins (n : Nat) : ∀ {s : State}, s.begins g → (s.cueLoop n).unlisted = s.unlisted := by
  induction n with
  | zero => exact fun _ => rfl
  | succ n ih =>
    intro s h
    rw [State.cueLoop]
    obtain ⟨t, stops, same⟩ | ⟨t, goes, same, begins⟩ := State.cueStep_begins h
    · rw [stops]
      exact same
    · rw [goes]
      exact (ih begins).trans same

theorem State.cueRun_begins (h : s.begins g) : s.cueRun.unlisted = s.unlisted :=
  (State.unlisted_of_unmapped (State.queueRequests_unmapped _)).trans (State.cueLoop_begins 256 h)

end

/-! ## GO -/

section
variable {s : State} {n t0 : Nat}

/-- The show clock of a GO of show `n` at `t0` taken (R14). -/
def State.withGo (s : State) (n t0 : Nat) : State :=
  s.onTbu fun t =>
    { t with state := if t.frameNo < t0 / 960 then .armed else .running, armed := some { showId := n, t0 := t0 },
             segBase := some t0, hold := {}, lastGo := some t0 }

theorem State.hearGo_taken (h : s.takesGo n t0 = true) : s.hearGo n t0 = (s.withGo n t0).cueGo n := by
  rw [State.hearGo, if_pos h]
  rfl

theorem State.takesGo_iff : s.takesGo n t0 = true ↔ s.tbu.state = .idle ∧ s.tbu.lastGo ≠ some t0 ∧
    (n = s.cm.showId ∨ n = 0) ∧ s.tbu.frameNo ≤ t0 / 960 + 100 := by
  simp [State.takesGo, and_assoc]

end

/-- The state from which a list begins to be read at segment `g` (R23). -/
def State.listed (s : State) (g : Nat) : State :=
  (s.onCe fun c => { c with lastTrigger := none }).onCe fun c =>
    { c with readState := .reading, pos := some { segment := g, offset := 0 }, buffer := none, pageWait := false,
             index := 0, lastCue := 0, closed := none, waiting := none, running := none, scan := none }

theorem State.listed_begins {s : State} {g : Nat} (list : ∃ e, s.cm.entry g = some e ∧ e.kind = .cue) :
    (s.listed g).begins g := ⟨rfl, ⟨0, rfl⟩, rfl, rfl, list⟩

theorem State.cueGo_listed {s : State} {n g : Nat} (h : s.cm.resolve n s.own.val = some g) :
    s.cueGo n = (s.listed g).cueRun := by
  unfold State.cueGo
  dsimp only
  rw [show (s.onCe fun c => { c with lastTrigger := none }).cm.resolve n
    (s.onCe fun c => { c with lastTrigger := none }).own.val = some g from h]
  rfl

theorem State.cueGo_unresolved {s : State} {n : Nat} (h : s.cm.resolve n s.own.val = none) :
    s.cueGo n = ((s.onCe fun c => { c with lastTrigger := none }).raise .mapFault (some (.showNo n))).cueEndShow := by
  unfold State.cueGo
  dsimp only
  rw [show (s.onCe fun c => { c with lastTrigger := none }).cm.resolve n
    (s.onCe fun c => { c with lastTrigger := none }).own.val = none from h]

/-- A show taken and ended at once on a fault of the map, before T0 and after it (R23, R29). -/
theorem State.withGo_cueEndShow (s : State) (n t0 : Nat) (d : Option FaultDetail) (t : State)
    (h : t = (((s.withGo n t0).onCe fun c => { c with lastTrigger := none }).raise .mapFault d).cueEndShow) :
    t.tbu.state = (if s.tbu.frameNo < t0 / 960 then .idle else .ending) ∧ t.tbu.lastGo = some t0 ∧
      t.ce.readState = .none ∧ t.faulted .mapFault = true ∧ t.smc = s.smc ∧ t.cm = s.cm ∧ t.pending = s.pending := by
  subst h
  obtain ⟨r, found⟩ := List.any_eq_true.mp (State.faulted_raise .mapFault s d)
  have raised : ∃ x ∈ raiseIn s.biu.faults s.tbu.basinTime .mapFault d, x.kind = .mapFault :=
    ⟨r, found.1, by simpa using found.2⟩
  by_cases early : s.tbu.frameNo < t0 / 960
  · simp [State.cueEndShow, State.withGo, early, State.armedToIdle, State.huZeroHeights, State.faulted, Tbu.discardShow,
      Ce.giveUp, raised]
  · simp [State.cueEndShow, State.withGo, early, State.enterEnding, State.huZeroHeights, State.faulted, Ce.giveUp,
      raised]

/-- Settles O16. -/
theorem goTaken : Obligations.GoTaken := by
  have heard : ∀ {p : Position} {n : Byte} {t0 : BitVec 48} {s : State}, s.hears p →
      exec (.go p n t0) s = .next (s.afterFrame.hearGo n.toNat t0.toNat) := fun h => next_received_of_hears h _
  refine ⟨?_, ?_, ?_⟩
  · intro p n t0 s g e h idle new shown inTime resolved found cue
    have takes : s.afterFrame.takesGo n.toNat t0.toNat = true := State.takesGo_iff.mpr ⟨idle, new, shown, inTime⟩
    refine ⟨_, heard h, ?_⟩
    rw [State.hearGo_taken takes, State.cueGo_listed (s := s.afterFrame.withGo n.toNat t0.toNat) (g := g) resolved]
    have kept : _ = ((s.afterFrame.withGo n.toNat t0.toNat).listed g).unlisted :=
      State.cueRun_begins (State.listed_begins ⟨e, found, cue⟩)
    generalize ((s.afterFrame.withGo n.toNat t0.toNat).listed g).cueRun = t at kept
    have tbu : t.tbu = (s.afterFrame.withGo n.toNat t0.toNat).tbu := congrArg (fun x => x.tbu) kept
    have ce : t.ce.unplaced = ((s.afterFrame.withGo n.toNat t0.toNat).listed g).ce.unplaced :=
      congrArg (fun x => x.ce) kept
    have place : t.ce.unplaced.pos.map (fun x => x.segment) = some g := congrArg (fun c => c.pos.map (·.segment)) ce
    rw [tbu]
    refine ⟨rfl, rfl, rfl, rfl, rfl, congrArg Ce.index ce, congrArg Ce.waiting ce, congrArg Ce.running ce,
      congrArg Ce.lastTrigger ce, ?_, congrArg (fun x => x.hu) kept, congrArg (fun x => x.lu) kept,
      congrArg (fun x => x.au) kept, congrArg (fun x => x.smc.mem) kept, congrArg (fun x => x.pt) kept,
      congrArg (fun x => x.st) kept, congrArg (fun x => x.pending) kept⟩
    simpa [Ce.unplaced, Option.map_map, Function.comp_def] using place
  · intro p n t0 s h takes unlisted
    have takes : s.afterFrame.takesGo n.toNat t0.toNat = true := takes
    refine ⟨_, heard h, ?_⟩
    rw [State.hearGo_taken takes, State.cueGo_unresolved (s := s.afterFrame.withGo n.toNat t0.toNat) unlisted]
    exact State.withGo_cueEndShow s.afterFrame n.toNat t0.toNat _ _ rfl
  · intro p n t0 s h ignored
    refine (heard h).trans (congrArg _ ?_)
    rw [State.hearGo, if_neg]
    rw [State.takesGo_iff]
    rintro ⟨idle, new, shown, inTime⟩
    rcases ignored with h | h | h | h
    · exact h idle
    · exact new h
    · exact shown.elim h.1 h.2
    · exact absurd inTime (Nat.not_le.mpr h)

end Sys2Proof.Machine
end

