-- ==== Sys2Proof/Proofs/CountedBoundaries.lean ====
section
/-!
Boundaries that end a count: the 15th of a listen (spec/01 R9, spec/11 R193), the 8th in WARMUP (spec/01 R12), the last in
MUTE (spec/08 R157).
-/
namespace Sys2Proof.Machine

/-! ## Before the end of the listen the readings raise nothing (R173, R182) -/

section
variable {s t : State} {j : FaultKind}

theorem State.startingUp_of_unread (h : t.unread = s.unread) : t.startingUp = s.startingUp := by
  rw [State.startingUp, State.st_of_unread h]
  rfl

theorem State.onBiu_faultCount {g : Biu → Biu} (h : (g s.biu).faults = s.biu.faults) :
    (s.onBiu g).faultCount j = s.faultCount j := by
  rw [State.faultCount, State.onBiu_biu, h]
  rfl

theorem State.onPt_faultCount (g : Pt → Pt) : (s.onPt g).faultCount j = s.faultCount j := rfl

theorem Biu.evalWind_faults (P : Params) (w : Nat) (b : Biu) : (b.evalWind P w).faults = b.faults := by
  unfold Biu.evalWind
  split
  · split
    · rfl
    · split <;> rfl
  · split
    · rfl
    · split <;> rfl
  · split <;> rfl

theorem Biu.stepQuiet_faults (P : Params) (b : Biu) : (b.stepQuiet P).faults = b.faults := by
  unfold Biu.stepQuiet
  split
  · split
    · split <;> rfl
    · rfl
  · rfl

theorem Biu.sampleLevel_faults (P : Params) (i : Nat) (b : Biu) : (b.sampleLevel P i).faults = b.faults := by
  unfold Biu.sampleLevel
  split
  · rfl
  · split <;> rfl

theorem Biu.sampleWind_faults (P : Params) (n : Nat) (b : Biu) : (b.sampleWind P n).faults = b.faults := by
  unfold Biu.sampleWind
  split
  · rfl
  · dsimp only
    split <;> rfl

theorem State.handWind_faultCount (w : Nat) : (s.handWind w).faultCount j = s.faultCount j :=
  State.onBiu_faultCount (Biu.evalWind_faults s.params w { s.biu with effWind := w })

/-- From `s` to `t` the station is starting up as before, and the count of `j` stays while it is. -/
def State.silent (j : FaultKind) (s t : State) : Prop :=
  t.startingUp = s.startingUp ∧ (s.startingUp = true → t.faultCount j = s.faultCount j)

theorem State.silent_trans {u : State} (h : s.silent j t) (h' : t.silent j u) : s.silent j u :=
  ⟨h'.1.trans h.1, fun up => (h'.2 (h.1.trans up)).trans (h.2 up)⟩

theorem State.silent_of_unread (h : t.unread = s.unread) (count : s.startingUp = true → t.faultCount j = s.faultCount j) :
    s.silent j t := ⟨State.startingUp_of_unread h, count⟩

theorem State.onBiu_silent {g : Biu → Biu} (h : (g s.biu).faults = s.biu.faults) : s.silent j (s.onBiu g) :=
  ⟨rfl, fun _ => State.onBiu_faultCount h⟩

variable (s j) in
theorem State.recomputeWind_silent : s.silent j s.recomputeWind := by
  refine State.silent_of_unread s.recomputeWind_unread fun up => ?_
  unfold State.recomputeWind
  simp only [up, Bool.not_true, Bool.and_false, Bool.false_eq_true, if_false]
  split
  · rfl
  · rw [State.handWind_faultCount, State.onPt_faultCount]

variable (pump : j ≠ .pumpNoFeedback)
include pump

variable (s) in
theorem State.evalLevel_silent (l : Nat) : s.silent j (s.evalLevel l) := by
  refine State.silent_of_unread (s.evalLevel_unread l) fun up => ?_
  unfold State.evalLevel
  split
  · split
    · have still : ∀ x : State, x.huDry.faultCount j = x.faultCount j := fun x =>
        State.faultCount_of_unpumped x.huDry_unpumped pump
      have early : (s.onBiu fun b => { b with levelState := .dry }).huDry.startingUp = true :=
        (State.startingUp_of_unread (State.huDry_unread _)).trans up
      dsimp only
      rw [if_pos early, still]
      rfl
    · rfl
  · split
    · exact (State.faultCount_of_unpumped (State.huNormal_unpumped _) pump).trans rfl
    · rfl

theorem State.handLevel_silent (l : Nat) : s.silent j (s.handLevel l) := by
  refine State.silent_of_unread (s.handLevel_unread l) fun up => ?_
  rw [State.handLevel, State.onLu_faultCount, (State.evalLevel_silent _ pump l).2 ((State.onBiu_startingUp s _).trans up)]
  rfl

variable (s) in
theorem State.recomputeLevel_silent : s.silent j s.recomputeLevel := by
  refine State.silent_of_unread s.recomputeLevel_unread fun up => ?_
  unfold State.recomputeLevel
  simp only [up, Bool.not_true, Bool.and_false, Bool.false_eq_true, if_false]
  split
  · rfl
  · rw [(State.handLevel_silent pump _).2 ((State.onPt_startingUp s _).trans up), State.onPt_faultCount]

variable (s) in
theorem State.sampleReadings_silent (i : BoundaryInput) : s.silent j (s.sampleReadings i) := by
  have level := State.onBiu_silent (j := j) (Biu.sampleLevel_faults s.params i.loop s.biu)
  have wind : ∀ x : State, x.silent j (x.onBiu (Biu.sampleWind s.params i.pulses)) := fun x =>
    State.onBiu_silent (Biu.sampleWind_faults s.params i.pulses x.biu)
  have recomputed := State.silent_trans level (State.recomputeLevel_silent _ pump)
  unfold State.sampleReadings
  dsimp only
  split <;> split
  · exact State.silent_trans level (wind _)
  · exact State.silent_trans (State.silent_trans level (wind _)) (State.recomputeWind_silent _ j)
  · exact State.silent_trans recomputed (wind _)
  · exact State.silent_trans (State.silent_trans recomputed (wind _)) (State.recomputeWind_silent _ j)

variable (s) in
theorem State.inputsBoundary_silent (i : BoundaryInput) : s.silent j (s.inputsBoundary i) :=
  State.silent_trans (State.sampleReadings_silent s pump i) (State.onBiu_silent (Biu.stepQuiet_faults _ _))

variable (s) in
theorem State.agePeers_silent : s.silent j s.agePeers := by
  have wind : ∀ (x : State) (p : Prop) [Decidable p], x.silent j (if p then x.recomputeWind else x) := by
    intro x p _
    split
    · exact State.recomputeWind_silent x j
    · exact ⟨rfl, fun _ => rfl⟩
  have level : ∀ (x : State) (p : Prop) [Decidable p], x.silent j (if p then x.recomputeLevel else x) := by
    intro x p _
    split
    · exact State.recomputeLevel_silent x pump
    · exact ⟨rfl, fun _ => rfl⟩
  unfold State.agePeers
  dsimp only
  exact State.silent_trans (t := s.onPt _) ⟨rfl, fun _ => rfl⟩ (State.silent_trans (wind _ _) (level _ _))
end

/-! ## The end of the listen (R173, R182, R193) -/

section
variable {s : State}

/-- A fault raised under a condition. -/
def State.raiseWhen (s : State) (c : Prop) [Decidable c] (k : FaultKind) : State := if c then s.raise k else s

section
variable (s) (c : Prop) [Decidable c] (k : FaultKind)

theorem State.raiseWhen_pt : (s.raiseWhen c k).pt = s.pt := by
  unfold State.raiseWhen
  split <;> rfl

theorem State.raiseWhen_levelState : (s.raiseWhen c k).biu.levelState = s.biu.levelState := by
  unfold State.raiseWhen
  split <;> rfl

theorem State.raiseWhen_same : (s.raiseWhen c k).faultCount k =
    if c then min 65535 (s.faultCount k + 1) else s.faultCount k := by
  unfold State.raiseWhen
  split
  · exact State.faultCount_raise_same k s none
  · rfl

variable {s c k} in
theorem State.raiseWhen_other {j : FaultKind} (ne : j ≠ k) : (s.raiseWhen c k).faultCount j = s.faultCount j := by
  unfold State.raiseWhen
  split
  · exact State.faultCount_raise_other ne s none
  · rfl
end

theorem State.endOfListenReadings_eq : s.endOfListenReadings =
    let x := s.recomputeWind.recomputeLevel
    ((x.raiseWhen (x.pt.windSource = none) .windSourceLost).raiseWhen (x.pt.levelSource = none)
      .levelSourceLost).raiseWhen (x.biu.levelState = .dry) .dryRunLockout := by
  unfold State.endOfListenReadings
  generalize s.recomputeWind.recomputeLevel = x
  have wind : (if x.pt.windSource.isNone then x.raise .windSourceLost else x) =
      x.raiseWhen (x.pt.windSource = none) .windSourceLost := by
    simp [State.raiseWhen]
  have level : ∀ y : State, (if y.pt.levelSource.isNone then y.raise .levelSourceLost else y) =
      y.raiseWhen (y.pt.levelSource = none) .levelSourceLost := by
    simp [State.raiseWhen]
  dsimp only
  rw [wind, level, State.raiseWhen_pt]
  unfold State.raiseWhen
  split <;> split <;> rfl

/-- The recomputations at the end of the listen raise each lost source and DRY once (R173, R182). -/
theorem State.endOfListenReadings_counts (up : s.startingUp = true) :
    let t := s.endOfListenReadings
    t.faultCount .windSourceLost = (if t.pt.windSource = none then min 65535 (s.faultCount .windSourceLost + 1)
      else s.faultCount .windSourceLost) ∧
    t.faultCount .levelSourceLost = (if t.pt.levelSource = none then min 65535 (s.faultCount .levelSourceLost + 1)
      else s.faultCount .levelSourceLost) ∧
    t.faultCount .dryRunLockout = (if t.biu.levelState = .dry then min 65535 (s.faultCount .dryRunLockout + 1)
      else s.faultCount .dryRunLockout) := by
  have count : ∀ j, j ≠ .pumpNoFeedback → s.recomputeWind.recomputeLevel.faultCount j = s.faultCount j := fun j pump =>
    (State.silent_trans (State.recomputeWind_silent s j) (State.recomputeLevel_silent _ pump)).2 up
  have wind := count .windSourceLost (by decide)
  have level := count .levelSourceLost (by decide)
  have dry := count .dryRunLockout (by decide)
  rw [State.endOfListenReadings_eq]
  generalize s.recomputeWind.recomputeLevel = x at wind level dry
  simp only [State.raiseWhen_pt, State.raiseWhen_levelState]
  refine ⟨?_, ?_, ?_⟩
  · rw [State.raiseWhen_other (k := .dryRunLockout) (by decide), State.raiseWhen_other (k := .levelSourceLost) (by decide),
      State.raiseWhen_same, wind]
  · rw [State.raiseWhen_other (k := .dryRunLockout) (by decide), State.raiseWhen_same,
      State.raiseWhen_other (k := .windSourceLost) (by decide), level]
  · rw [State.raiseWhen_same, State.raiseWhen_other (k := .levelSourceLost) (by decide),
      State.raiseWhen_other (k := .windSourceLost) (by decide), dry]
/-! ### The boundary of a station that listens -/

/-- Before a station is up its own beacon boundary ages the records (R168), and no more than OUT_OF_STEP with it. -/
theorem State.beaconBoundary_starting (h : s.startingUp = true) (k : Nat) : s.beaconBoundary k =
    if s.ownBeaconFrame k then s.agePeers.onTbu fun t => { t with outOfStep := outOfStepAfter s.tbu.state 0 t.outOfStep }
    else s := by
  have phase : s.agePeers.st.phase ≠ .up := by
    rw [State.st_of_unread s.agePeers_unread]
    simpa [State.startingUp] using h
  unfold State.beaconBoundary
  cases own : s.ownBeaconFrame k
  · rfl
  · simp [phase]

/-- The records as an own beacon boundary, or another, leaves them (R168). -/
def Pt.agedWhen (t : Pt) (own : Bool) : Vector (Option Peer) 32 := if own then t.aged else t.peers

theorem State.atTransitions_starting (h : s.startingUp = true) (i : BoundaryInput) :
    (s.atTransitions i).tbu.basinTime = s.tbu.basinTime ∧ (s.atTransitions i).tbu.frameNo = s.nextFrame ∧
      (s.atTransitions i).pt.peers = s.pt.agedWhen (s.ownBeaconFrame s.nextFrame) ∧
      ∀ j, j ≠ .pumpNoFeedback → (s.atTransitions i).faultCount j = s.faultCount j := by
  have unread := State.inputsBoundary_unread (s.beginBoundary s.nextFrame) i
  have tbu := State.tbu_of_unread unread
  have peers := State.peers_of_unread unread
  have silent : ∀ j, j ≠ .pumpNoFeedback → (s.beginBoundary s.nextFrame).silent j _ :=
    fun j pump => State.inputsBoundary_silent _ pump i
  have starting := (State.startingUp_of_unread unread).trans h
  rw [State.atTransitions, State.beaconBoundary_starting starting, State.inputs_ownBeaconFrame]
  generalize (s.beginBoundary s.nextFrame).inputsBoundary i = x at tbu peers silent starting
  cases s.ownBeaconFrame s.nextFrame with
  | false =>
    rw [if_neg Bool.false_ne_true]
    exact ⟨(congrArg Tbu.basinTime tbu :), (congrArg Tbu.frameNo tbu :), peers, fun j pump => (silent j pump).2 h⟩
  | true =>
    have aged := State.agePeers_unread x
    have counts : ∀ j, j ≠ .pumpNoFeedback → x.agePeers.faultCount j = s.faultCount j := fun j pump =>
      ((State.agePeers_silent x pump).2 starting).trans ((silent j pump).2 h)
    have older : x.agePeers.pt.peers = s.pt.aged := by
      refine (State.peers_of_unread aged).trans ?_
      show Pt.aged x.pt = Pt.aged s.pt
      unfold Pt.aged
      rw [peers]
      rfl
    have tbu' := State.tbu_of_unread aged
    rw [State.onPt_tbu, tbu] at tbu'
    rw [if_pos rfl]
    generalize x.agePeers = y at tbu' counts older
    rw [State.onTbu_tbu, State.onTbu_pt]
    dsimp only
    exact ⟨(congrArg Tbu.basinTime tbu' :), (congrArg Tbu.frameNo tbu' :), older, counts⟩

/-- The step at the end of the listen moves basin time, the frame number and the samples; the show state stays (R9). -/
theorem State.listenStep_fields (k : Nat) : (s.listenStep k).tbu.state = s.tbu.state ∧
    (s.listenStep k).tbu.conflict = s.tbu.conflict ∧ (s.listenStep k).st = s.st ∧ (s.listenStep k).biu = s.biu ∧
    (s.listenStep k).liu.beacon = s.liu.beacon := by
  unfold State.listenStep
  split
  · exact ⟨rfl, rfl, rfl, rfl, rfl⟩
  · split <;> exact ⟨rfl, rfl, rfl, rfl, rfl⟩

theorem State.listenStep_median {k : Nat} {m : Int} (h : lowerMedian s.pt.storedSamples = some m) :
    s.listenStep k = s.correct k m := by
  rw [State.listenStep, h]

/-- Without a sample basin time becomes 0 after power-on, and is kept after a warm reset (R9). -/
theorem State.listenStep_none {k : Nat} (h : s.pt.storedSamples = []) :
    (s.listenStep k).tbu.basinTime = (if s.st.cold then 0 else s.tbu.basinTime) ∧
      (s.listenStep k).tbu.frameNo = (if s.st.cold then 0 else s.tbu.frameNo) := by
  rw [State.listenStep, h, lowerMedian_nil]
  cases s.st.cold <;> exact ⟨rfl, rfl⟩
end

/-- The readings of the end of the listen, at its boundary. -/
def State.listened (s : State) (k : Nat) : State :=
  ((s.listenStep k).atReading (k * 960) State.endOfListenReadings).onSt fun t => { t with phase := .up }

theorem State.listened_fields (s : State) (k : Nat) : (s.listened k).tbu = (s.listenStep k).tbu ∧
    (s.listened k).st = { s.st with phase := .up } ∧ (s.listened k).pt.peers = (s.listenStep k).pt.peers ∧
    (s.listened k).liu.beacon = s.liu.beacon := by
  obtain ⟨-, -, st, -, beacon⟩ := State.listenStep_fields (s := s) k
  rw [State.listened, State.onSt_tbu, State.onSt_st, State.onSt_pt, State.onSt_liu, ← st, ← beacon]
  generalize s.listenStep k = x
  have unread := State.endOfListenReadings_unread (x.onTbu fun t => { t with basinTime := k * 960 })
  have tbu := State.atReading_tbu (k * 960) (State.tbu_of_unread unread)
  have st' := State.st_of_unread unread
  have peers := State.peers_of_unread unread
  have beacon' := congrArg (fun l : Liu => l.beacon) (State.liu_of_unread unread)
  unfold State.atReading at tbu ⊢
  generalize (x.onTbu fun t => { t with basinTime := k * 960 }).endOfListenReadings = y at tbu st' peers beacon'
  exact ⟨tbu, congrArg (fun t : StartUp => { t with phase := .up }) st', peers, beacon'⟩

theorem State.listened_counts {s : State} (h : s.startingUp = true) (k : Nat) :
    let t := s.listened k
    t.faultCount .windSourceLost = (if t.pt.windSource = none then min 65535 (s.faultCount .windSourceLost + 1)
      else s.faultCount .windSourceLost) ∧
    t.faultCount .levelSourceLost = (if t.pt.levelSource = none then min 65535 (s.faultCount .levelSourceLost + 1)
      else s.faultCount .levelSourceLost) ∧
    t.faultCount .dryRunLockout = (if t.biu.levelState = .dry then min 65535 (s.faultCount .dryRunLockout + 1)
      else s.faultCount .dryRunLockout) := by
  obtain ⟨-, -, st, biu, -⟩ := State.listenStep_fields (s := s) k
  have starting : (s.listenStep k).startingUp = true := by rw [State.startingUp, st]; exact h
  have same : ∀ j, (s.listenStep k).faultCount j = s.faultCount j := fun j => by rw [State.faultCount, biu, State.faultCount]
  rw [State.listened, ← same, ← same, ← same]
  generalize s.listenStep k = x at starting
  have counts := State.endOfListenReadings_counts (s := x.onTbu fun t => { t with basinTime := k * 960 }) starting
  unfold State.atReading
  generalize (x.onTbu fun t => { t with basinTime := k * 960 }).endOfListenReadings = y at counts
  exact counts

/-- The station after the 15th boundary of a listen, awake under the conditions of R11. -/
theorem State.endListen_eq (s : State) (k : Nat) : s.endListen k =
    if (s.listened k).params.autoWake && (s.listened k).wakeable then (s.listened k).enterWarmup else s.listened k := rfl

/-- Those of a listen that ends in STANDBY, with a tally of the conditions of R11. -/
theorem State.endListen_fields {s : State} (standby : s.tbu.state = .standby) (k : Nat) :
    (s.endListen k).tbu.state =
        (if s.params.autoWake && s.st.valid && !s.tbu.conflict then .warmup else .standby) ∧
      (s.endListen k).tbu.outer = (s.listenStep k).tbu.outer ∧
      (s.endListen k).st = { s.st with phase := .up } ∧ (s.endListen k).pt = (s.listened k).pt ∧
      (s.endListen k).biu = (s.listened k).biu ∧ (s.endListen k).liu.beacon = s.liu.beacon := by
  obtain ⟨tbu, st, peers, beacon⟩ := State.listened_fields s k
  obtain ⟨state, conflict, -⟩ := State.listenStep_fields (s := s) k
  have params : (s.listened k).params = s.params := (congrArg StartUp.params st :)
  have wakes : (s.listened k).wakeable = (s.st.valid && !s.tbu.conflict) := by
    simp [State.wakeable, tbu, st, state, conflict, standby]
  rw [State.endListen_eq, params, wakes, ← Bool.and_assoc]
  generalize s.listened k = y at tbu st peers beacon
  have outer : y.tbu.outer = (s.listenStep k).tbu.outer := congrArg Tbu.outer tbu
  split
  · exact ⟨rfl, outer, st, rfl, rfl, beacon⟩
  · exact ⟨(congrArg Tbu.state tbu).trans (state.trans standby), outer, st, rfl, rfl, beacon⟩

/-- The station as the end of its listen finds it. -/
def State.atListenEnd (s : State) (i : BoundaryInput) : State :=
  (s.atTransitions i).onSt fun t => { t with listen := t.listen + 1 }

theorem State.atListenEnd_fields {s : State} (starting : s.startingUp = true) (i : BoundaryInput) :
    (s.atListenEnd i).tbu.basinTime = s.tbu.basinTime ∧ (s.atListenEnd i).tbu.frameNo = s.nextFrame ∧
      (s.atListenEnd i).tbu.state = s.tbu.state ∧ (s.atListenEnd i).tbu.conflict = s.tbu.conflict ∧
      (s.atListenEnd i).st = { s.st with listen := s.st.listen + 1 } ∧
      (s.atListenEnd i).pt.peers = s.pt.agedWhen (s.ownBeaconFrame s.nextFrame) ∧
      (s.atListenEnd i).liu.beacon = s.liu.beacon ∧
      ∀ j, j ≠ .pumpNoFeedback → (s.atListenEnd i).faultCount j = s.faultCount j := by
  have unmarked := State.atTransitions_unmarked s i
  have state := State.showState_of_unmarked unmarked
  have conflict := State.conflict_of_unmarked unmarked
  have st := State.st_of_unmarked unmarked
  have beacon := State.beacon_of_unmarked unmarked
  obtain ⟨basin, frame, peers, silent⟩ := State.atTransitions_starting starting i
  unfold State.atListenEnd
  generalize s.atTransitions i = x at state conflict st beacon basin frame peers silent
  exact ⟨basin, frame, state, conflict, congrArg (fun t : StartUp => { t with listen := t.listen + 1 }) st, peers, beacon,
    silent⟩

/-- The 15th boundary of a listen in STANDBY does nothing between its inputs and its passes but end the listen. -/
theorem State.afterTransitions_listenEnd {s : State} (phase : s.st.phase = .listening) (listen : s.st.listen = 14)
    (standby : s.tbu.state = .standby) (inactive : s.biu.stopActive = false) (i : BoundaryInput) :
    s.afterTransitions i = (s.atListenEnd i).endListen s.nextFrame := by
  have unmarked := State.atTransitions_unmarked s i
  have st := State.st_of_unmarked unmarked
  have state := (State.showState_of_unmarked unmarked).trans standby
  have stop := (State.stopActive_of_unmarked unmarked).trans inactive
  rw [State.afterTransitions, State.atListenEnd, standby]
  generalize s.atTransitions i = x at st state stop
  obtain ⟨ended, -⟩ := State.endListen_fields (s := x.onSt fun t => { t with listen := t.listen + 1 }) state s.nextFrame
  unfold State.transitions
  rw [show x.stopRepeat = x by simp [State.stopRepeat, stop]]
  have counted : x.countListen s.nextFrame =
    (x.onSt fun t => { t with listen := t.listen + 1 }).endListen s.nextFrame := by
    simp [State.countListen, st, phase, listen]
  simp only [reduceCtorEq, if_false, counted]
  generalize (x.onSt fun t => { t with listen := t.listen + 1 }).endListen s.nextFrame = y at ended
  have still : y.tbu.state ≠ .armed ∧ y.tbu.state ≠ .running := by
    rw [ended]
    split <;> decide
  simp [State.takeT0, State.takeEnd, State.takeHold, still]

/-- Handed as neither ARMED nor RUNNING the passes count no fault but those of feedback and of pages. -/
theorem State.atReading_passes_faultCount (s : State) {handed : ShowState} (armed : handed ≠ .armed)
    (running : handed ≠ .running) (k bt : Nat) (c : Int) (entered resumed : Bool) {j : FaultKind}
    (map : j.offMap = true) (pump : j ≠ .pumpNoFeedback) :
    (s.atReading bt fun x => x.passes k bt c handed entered resumed).faultCount j = s.faultCount j := by
  rw [State.atReading, State.faultCount, State.onTbu_biu, ← State.faultCount, State.passes_faultCount _ _ _ _ _ _ _ map pump,
    State.cued_idle _ k _ armed running]
  rfl

/-- The 15th boundary of a listen in STANDBY, but for what its passes leave alone. -/
theorem State.markBoundary_listenEnd {s : State} (phase : s.st.phase = .listening) (listen : s.st.listen = 14)
    (due : s.boundaryDue = true) (standby : s.tbu.state = .standby) (inactive : s.biu.stopActive = false)
    (i : BoundaryInput) :
    let t := s.markBoundary i
    let z := (s.atListenEnd i).endListen s.nextFrame
    t.tbu = z.tbu ∧ t.pt = z.pt ∧ t.st = z.st ∧ t.biu.levelState = z.biu.levelState ∧ t.liu.beacon = z.liu.beacon ∧
      ∀ j : FaultKind, j.offMap = true → j ≠ .pumpNoFeedback → t.faultCount j = z.faultCount j := by
  obtain ⟨c, e⟩ := State.markBoundary_eq (by simp [State.live, phase]) due i
  obtain ⟨-, -, state, -⟩ := State.atListenEnd_fields (s := s) (by simp [State.startingUp, phase]) i
  obtain ⟨ended, -⟩ := State.endListen_fields (s := s.atListenEnd i) (state.trans standby) s.nextFrame
  rw [State.afterTransitions_listenEnd phase listen standby inactive] at e
  dsimp only
  generalize (s.atListenEnd i).endListen s.nextFrame = z at e ended ⊢
  generalize s.markBoundary i = t at e ⊢
  have still : z.tbu.state ≠ .armed ∧ z.tbu.state ≠ .running := by
    rw [ended]
    split <;> decide
  rw [show z.placeBeacon s.nextFrame (s.st.phase == .up) = z by simp [State.placeBeacon, phase]] at e
  generalize z.tbu.state = handed at e still
  generalize (handed == .held && s.tbu.state != .held) = entered at e
  generalize (handed == .running && s.tbu.state == .held) = resumed at e
  have outer := State.atReading_passes_outer z s.nextFrame s.nextBoundary c handed entered resumed
  have tbu := (State.atReading_passes_still (s := z) still.1 still.2 s.nextFrame s.nextBoundary c entered resumed).1
  have counts : ∀ j : FaultKind, j.offMap = true → j ≠ .pumpNoFeedback → _ := fun j map pump =>
    State.atReading_passes_faultCount z still.1 still.2 s.nextFrame s.nextBoundary c entered resumed (j := j) map pump
  rw [← e] at outer tbu counts
  exact ⟨tbu, (State.pt_of_outer outer :), (State.st_of_outer outer :),
    (congrArg Biu.levelState (State.biu_of_outer outer) :), (State.beacon_of_outer outer :), counts⟩

/-- What the 15th boundary of a listen in STANDBY leaves: the step taken, the station up, the faults of R173 and R182. -/
theorem State.listenEnd_leaves {s : State} (phase : s.st.phase = .listening) (listen : s.st.listen = 14)
    (due : s.boundaryDue = true) (standby : s.tbu.state = .standby) (inactive : s.biu.stopActive = false)
    (i : BoundaryInput) :
    let t := s.markBoundary i
    let x := (s.atListenEnd i).listenStep s.nextFrame
    t.tbu.state = (if s.params.autoWake && s.st.valid && !s.tbu.conflict then .warmup else .standby) ∧
      t.tbu.outer = x.tbu.outer ∧ t.st.phase = .up ∧ t.pt.peers = x.pt.peers ∧ t.liu.beacon = s.liu.beacon ∧
      t.faultCount .windSourceLost = (if t.pt.windSource = none then min 65535 (s.faultCount .windSourceLost + 1)
        else s.faultCount .windSourceLost) ∧
      t.faultCount .levelSourceLost = (if t.pt.levelSource = none then min 65535 (s.faultCount .levelSourceLost + 1)
        else s.faultCount .levelSourceLost) ∧
      t.faultCount .dryRunLockout = (if t.biu.levelState = .dry then min 65535 (s.faultCount .dryRunLockout + 1)
        else s.faultCount .dryRunLockout) := by
  have starting : s.startingUp = true := by simp [State.startingUp, phase]
  obtain ⟨tbu, pt, st, dry, beacon, counts⟩ := State.markBoundary_listenEnd phase listen due standby inactive i
  obtain ⟨-, -, state, conflict, st', -, beacon', silent⟩ := State.atListenEnd_fields starting i
  generalize s.markBoundary i = t at tbu pt st dry beacon counts
  generalize s.atListenEnd i = y at tbu pt st dry beacon counts state conflict st' beacon' silent
  obtain ⟨ended, outer, ended_st, ended_pt, ended_biu, ended_beacon⟩ :=
    State.endListen_fields (state.trans standby) s.nextFrame
  obtain ⟨-, -, peers, -⟩ := State.listened_fields y s.nextFrame
  obtain ⟨wind, level, lockout⟩ :=
    State.listened_counts (show y.startingUp = true by rw [State.startingUp, st']; exact starting) s.nextFrame
  have same : ∀ j, (y.endListen s.nextFrame).faultCount j = (y.listened s.nextFrame).faultCount j := fun j => by
    rw [State.faultCount, ended_biu, State.faultCount]
  dsimp only at wind level lockout ⊢
  rw [silent _ (by decide)] at wind level lockout
  rw [counts _ rfl (by decide), counts _ rfl (by decide), counts _ rfl (by decide), same, same, same, pt, dry, ended_pt,
    ended_biu, tbu, st, beacon, ended, outer, ended_st, ended_beacon, peers, beacon', conflict, State.params, st']
  exact ⟨rfl, rfl, rfl, rfl, rfl, wind, level, lockout⟩

/-! ## The samples of the listen -/

/-- The stored samples, position by position. -/
theorem Pt.storedSamples_eq (t : Pt) :
    t.storedSamples = (List.finRange 32).filterMap fun q : Position => t.peers[q].bind fun p => p.sample := by
  have all : t.peers.toList = (List.finRange 32).map fun q => t.peers[q] := by
    refine List.ext_getElem (by simp) fun i h _ => ?_
    simp
  rw [Pt.storedSamples, all, List.filterMap_map]
  rfl

theorem Pt.agedWhen_get (t : Pt) (own : Bool) (q : Position) :
    (t.agedWhen own)[q] = if own then t.peers[q].bind Peer.older else t.peers[q] := by
  cases own
  · rfl
  · simp [Pt.agedWhen, Pt.aged]

theorem Pt.agedWhen_empty {t : Pt} (h : t.peers = Vector.replicate 32 none) (own : Bool) (q : Position) :
    (t.agedWhen own)[q] = none := by
  rw [Pt.agedWhen_get, h]
  cases own <;> simp

/-! ## The end of WARMUP (R12) -/

/-- A listen, counted or ended, leaves an IDLE station IDLE. -/
theorem State.countListen_idle {s : State} (idle : s.tbu.state = .idle) (k : Nat) :
    (s.countListen k).tbu.state = .idle := by
  unfold State.countListen
  split
  · dsimp only
    generalize hx : (s.onSt fun t => { t with listen := t.listen + 1 }) = x
    have state : x.tbu.state = .idle := by rw [← hx, State.onSt_tbu, idle]
    obtain ⟨tbu, -⟩ := State.listened_fields x k
    obtain ⟨step, -⟩ := State.listenStep_fields (s := x) k
    have listened : (x.listened k).tbu.state = .idle := by rw [tbu, step, state]
    split
    · rw [State.endListen_eq, show (x.listened k).wakeable = false by simp [State.wakeable, listened], Bool.and_false,
        if_neg Bool.false_ne_true, listened]
    · exact state
  · exact idle

theorem State.transitions_warmupEnd {x : State} (inactive : x.biu.stopActive = false) (warmup : x.tbu.state = .warmup)
    (last : x.tbu.warmup = 7) (k bt : Nat) : (x.transitions k bt .warmup).tbu.state = .idle := by
  have counted : x.countWarmup.tbu.state = .idle := by simp [State.countWarmup, warmup, last]
  have idle := State.countListen_idle counted k
  unfold State.transitions
  rw [show x.stopRepeat = x by simp [State.stopRepeat, inactive]]
  simp only [if_true, reduceCtorEq, if_false]
  generalize x.countWarmup.countListen k = y at idle
  simp [State.takeT0, State.takeEnd, State.takeHold, idle]

/-- The 8th boundary in WARMUP leads to IDLE (R12). -/
theorem State.markBoundary_warmupEnd {s : State} (live : s.live = true) (due : s.boundaryDue = true)
    (warmup : s.tbu.state = .warmup) (last : s.tbu.warmup = 7) (inactive : s.biu.stopActive = false)
    (i : BoundaryInput) : (s.markBoundary i).tbu.state = .idle := by
  obtain ⟨c, e⟩ := State.markBoundary_eq live due i
  have unmarked := State.atTransitions_unmarked s i
  have idle : (s.afterTransitions i).tbu.state = .idle := by
    rw [State.afterTransitions, warmup]
    exact State.transitions_warmupEnd ((State.stopActive_of_unmarked unmarked).trans inactive)
      ((State.showState_of_unmarked unmarked).trans warmup) ((State.warmup_of_unmarked unmarked).trans last) _ _
  have placed : ((s.afterTransitions i).placeBeacon s.nextFrame (s.st.phase == .up)).tbu.state = .idle := by
    unfold State.placeBeacon
    split
    · exact idle
    · exact idle
  rw [e, idle, (State.atReading_passes_still (by decide) (by decide) _ _ _ _ _).1, placed]

/-- Settles O8. -/
theorem countedBoundariesEnd : Obligations.CountedBoundariesEnd := by
  refine ⟨?_, ?_, ?_⟩
  · intro i s phase listen due standby inactive
    refine ⟨s.markBoundary i, ?_, ?_⟩
    · exact congrArg Host.Outcome.next (State.markWhen_due (by simp [State.live, phase]) (by simp [phase, listen]) i)
    have starting : s.startingUp = true := by simp [State.startingUp, phase]
    have mem := State.markBoundary_mem (show s.live = true by simp [State.live, phase]) due i
    obtain ⟨basin, frame, -, -, st, peers, -, -⟩ := State.atListenEnd_fields starting i
    obtain ⟨state, outer, up, stepped, beacon, wind, level, dry⟩ :=
      State.listenEnd_leaves phase listen due standby inactive i
    generalize s.markBoundary i = t at mem state outer up stepped beacon wind level dry
    generalize s.atListenEnd i = x at basin frame st peers outer stepped
    have now : t.tbu.basinTime = (x.listenStep s.nextFrame).tbu.basinTime := (congrArg (fun y => y.basinTime) outer :)
    have frameNo : t.tbu.frameNo = (x.listenStep s.nextFrame).tbu.frameNo := (congrArg (fun y => y.frameNo) outer :)
    have correction : t.tbu.lastCorrection = (x.listenStep s.nextFrame).tbu.lastCorrection :=
      (congrArg (fun y => y.lastCorrection) outer :)
    have unsampled : x.pt.storedSamples = [] → t.tbu.basinTime = (if s.st.cold then 0 else s.tbu.basinTime) ∧
        t.tbu.frameNo = if s.st.cold then 0 else s.nextFrame := by
      intro none_
      rw [now, frameNo, (State.listenStep_none none_).1, (State.listenStep_none none_).2, st, basin, frame]
      exact ⟨rfl, rfl⟩
    have samples : x.pt.storedSamples = (List.finRange 32).filterMap fun q : Position =>
        (if s.ownBeaconFrame (s.tbu.frameNo + 1) then s.pt.peers[q].bind Peer.older else s.pt.peers[q]).bind
          fun p => p.sample := by
      rw [Pt.storedSamples_eq, peers]
      simp only [Pt.agedWhen_get]
      rfl
    have empty : s.pt.peers = Vector.replicate 32 none → x.pt.storedSamples = [] := by
      intro none_
      rw [Pt.storedSamples_eq, peers]
      simp only [Pt.agedWhen_empty none_]
      rfl
    refine ⟨up, state, ?_, ?_, ⟨?_, ?_⟩, wind, level, dry, beacon, mem⟩
    · intro none_ cold
      have := unsampled (empty none_)
      rwa [cold, if_pos rfl, if_pos rfl] at this
    · intro none_ warm
      have := (unsampled (empty none_)).1
      rwa [warm, if_neg Bool.false_ne_true] at this
    · intro m median
      rw [← samples] at median
      rw [State.listenStep_median median] at now frameNo correction stepped
      refine ⟨?_, ?_, ?_, fun q => ?_⟩
      · rw [correction, State.correct_lastCorrection, basin]
        rfl
      · rw [now, correction, State.correct_basinTime, correctedTime_eq, State.correct_lastCorrection, basin]
      · rw [frameNo, correction, now]
        exact State.correct_frameNo x s.nextFrame m
      · have moved := State.correct_sample x s.nextFrame m q
        rw [← stepped, ← correction, peers, Pt.agedWhen_get] at moved
        exact moved
    · intro none_
      exact (unsampled (samples.trans none_)).1
  · intro i s live due warmup last inactive
    refine ⟨s.markBoundary i, ?_, ?_, State.markBoundary_mem live due i⟩
    · exact congrArg Host.Outcome.next (State.markWhen_due live (by simp [warmup, last, inactive]) i)
    · exact State.markBoundary_warmupEnd live due warmup last inactive i
  · intro i s live due last
    have counts := State.counts_of_lasting (State.markBoundary_lasting live due i)
    refine ⟨s.markBoundary i, ?_, ?_, (congrArg (fun l => l.mutedSince) counts :),
      (congrArg (fun l => l.fails) counts :), State.markBoundary_mem live due i⟩
    · exact congrArg Host.Outcome.next (State.markWhen_due live (by simp [last]) i)
    · have mute : (s.markBoundary i).liu.mute = s.liu.mute - 1 := congrArg (fun l => l.mute) counts
      rw [mute, last]

end Sys2Proof.Machine
end

