-- ==== Sys2Proof/Proofs/WarmMap.lean ====
section
/-!
The content map over a warm reset (spec/06, R135): the FILLING pages dropped, their physical pages given back, their table
writes queued behind those that stood.
-/
namespace Sys2Proof.Machine

/-! ## Tables -/

section
variable {α : Type} {t : List (Nat × α)} {lo : Option Nat}

theorem Table.risesFrom_mem {l : Nat} (h : Table.risesFrom (some l) t = true) {e : Nat × α} (he : e ∈ t) : l < e.1 := by
  induction t generalizing l with
  | nil => cases he
  | cons x rest ih =>
    have tail := Table.risesFrom_tail h
    simp only [Table.risesFrom, Bool.and_eq_true, decide_eq_true_eq] at h
    rcases List.mem_cons.mp he with rfl | he
    · exact h.1
    · exact Nat.lt_trans h.1 (ih tail he)

/-- A table whose keys rise finds what it holds, and nothing else. -/
theorem Table.get?_eq_some_iff (h : Table.risesFrom lo t = true) (k : Nat) (v : α) :
    Table.get? t k = some v ↔ (k, v) ∈ t := by
  induction t generalizing lo with
  | nil => simp [Table.get?]
  | cons x rest ih =>
    obtain ⟨k', v'⟩ := x
    have tail := Table.risesFrom_tail h
    simp only [Table.get?, List.mem_cons, Prod.mk.injEq]
    by_cases same : k' = k
    · subst same
      have absent : (k', v) ∉ rest := fun he => Nat.lt_irrefl _ (Table.risesFrom_mem tail he)
      simp [absent, eq_comm]
    · rw [if_neg same]
      by_cases below : k < k'
      · have absent : (k, v) ∉ rest := fun he => Nat.lt_asymm below (Table.risesFrom_mem tail he)
        simp [below, absent, Ne.symm same]
      · simp [below, Ne.symm same, ih tail]

/-- Keys dropped one after another are gone, and every other key keeps its value. -/
theorem Table.get?_foldl_drop (ks : List Nat) (h : Table.risesFrom lo t = true) (a : Nat) :
    Table.get? (ks.foldl Table.drop t) a = if a ∈ ks then none else Table.get? t a := by
  induction ks generalizing t with
  | nil => simp
  | cons k ks ih =>
    rw [List.foldl_cons, ih (Table.risesFrom_drop k h)]
    by_cases same : a = k
    · subst same
      simp [Table.get?_drop_same a h]
    · simp [same, Table.get?_drop_other h same]
end

/-! ## The blocks of table writes -/

theorem mem_insertNat (x y : Nat) (l : List Nat) : y ∈ insertNat x l ↔ y = x ∨ y ∈ l := by
  induction l with
  | nil => simp [insertNat]
  | cons z zs ih =>
    unfold insertNat
    split
    · simp
    · split
      · rename_i e
        subst e
        simp
      · simp [ih]
        tauto

theorem mem_blocksOf (n : Nat) (xs : List Nat) (b : Nat) : b ∈ blocksOf n xs ↔ ∃ x ∈ xs, x / n = b := by
  induction xs with
  | nil => simp [blocksOf]
  | cons x xs ih =>
    show b ∈ insertNat (x / n) (blocksOf n xs) ↔ _
    rw [mem_insertNat, ih]
    simp [eq_comm]

/-! ## The map-region queue -/

/-- The table write that an entry of the map-region queue is. -/
def MapEntry.write? : MapEntry → Option TableWrite
  | .write w => some w
  | .walk _ => none

theorem Cm.writesQueued_eq (c : Cm) : c.writesQueued = c.mapQ.filterMap MapEntry.write? := by
  refine congrArg (fun f => c.mapQ.filterMap f) (funext fun e => ?_)
  cases e <;> rfl

/-- The writes of changed page table entries join those that stand (R114). -/
theorem Cm.queueWrites_writesQueued (c : Cm) (ks : List Nat) :
    (c.queueWrites [] ks).writesQueued = c.writesQueued ++ (blocksOf 16 ks).map fun k => c.pteWrite ks k := by
  have added : ∀ l : List Nat, (l.map fun k => MapEntry.write (c.pteWrite ks k)).filterMap MapEntry.write? =
      l.map fun k => c.pteWrite ks k := by
    intro l
    rw [List.filterMap_map]
    exact congrFun (List.filterMap_eq_map (f := fun k => c.pteWrite ks k)) l
  rw [Cm.writesQueued_eq, Cm.writesQueued_eq, Cm.queueWrites]
  dsimp only
  rw [List.filterMap_append, List.filterMap_append, added]
  simp [blocksOf]

/-- Where the head of the queue stays but for its askers, and behind it the table writes alone, every table write stays. -/
theorem writes_staying (q : List MapEntry) (issued : Bool) (head : MapEntry → MapEntry) (isWrite : MapEntry → Bool)
    (same : ∀ e, (head e).write? = e.write?) (holds : ∀ e, isWrite e = e.write?.isSome) :
    (if issued then (q.take 1).map head else []).filterMap MapEntry.write? ++
      ((if issued then q.drop 1 else q).filter isWrite).filterMap MapEntry.write? = q.filterMap MapEntry.write? := by
  have writes : ∀ l : List MapEntry, (l.filter isWrite).filterMap MapEntry.write? = l.filterMap MapEntry.write? := by
    intro l
    rw [List.filterMap_filter]
    refine congrArg (fun f => l.filterMap f) (funext fun e => ?_)
    rw [holds]
    cases e <;> rfl
  rw [writes]
  cases issued with
  | false => rfl
  | true =>
    rw [if_pos rfl, if_pos rfl, List.filterMap_map, show MapEntry.write? ∘ head = MapEntry.write? from funext same,
      ← List.filterMap_append, List.take_append_drop]

@[simp] theorem Cm.touch_writesQueued (c : Cm) (g : Nat) : (c.touch g).writesQueued = c.writesQueued := by
  rw [Cm.writesQueued_eq, Cm.writesQueued_eq, Cm.touch, List.filterMap_map]
  refine congrArg (fun f => c.mapQ.filterMap f) (funext fun e => ?_)
  cases e with
  | write w => rfl
  | walk w =>
    simp only [Function.comp]
    split <;> rfl

/-! ## A FILLING page dropped (R135) -/

/-- Page and physical page of a FILLING entry given up. -/
def Cm.dropFilling (c : Cm) (e : Nat × Pte) : Cm := (c.giveBack e.2.phys).setPage (e.1 / 64) (e.1 % 64) .absent 0

section
variable (c : Cm) (e : Nat × Pte) (l : List (Nat × Pte))

@[simp] theorem Cm.dropFilling_dir : (c.dropFilling e).dir = c.dir := rfl
@[simp] theorem Cm.dropFilling_showId : (c.dropFilling e).showId = c.showId := rfl
@[simp] theorem Cm.dropFilling_init : (c.dropFilling e).init = c.init := rfl
@[simp] theorem Cm.dropFilling_taken : (c.dropFilling e).taken = c.taken.erase e.2.phys := rfl
@[simp] theorem Cm.dropFilling_writesQueued : (c.dropFilling e).writesQueued = c.writesQueued :=
  Cm.touch_writesQueued _ _

@[simp] theorem Cm.dropFilling_pages : (c.dropFilling e).pages = Table.drop c.pages e.1 := by
  have key : pageKey (e.1 / 64) (e.1 % 64) = e.1 := by
    unfold pageKey
    omega
  show Table.drop c.pages (pageKey (e.1 / 64) (e.1 % 64)) = _
  rw [key]

/-- What the pages dropped one after another leave of the map. -/
theorem Cm.dropFillings_fields : (l.foldl Cm.dropFilling c).dir = c.dir ∧ (l.foldl Cm.dropFilling c).showId = c.showId ∧
    (l.foldl Cm.dropFilling c).init = c.init ∧ (l.foldl Cm.dropFilling c).writesQueued = c.writesQueued ∧
    (l.foldl Cm.dropFilling c).taken = l.foldl (fun t e => t.erase e.2.phys) c.taken ∧
    (l.foldl Cm.dropFilling c).pages = (l.map fun e => e.1).foldl Table.drop c.pages := by
  induction l generalizing c with
  | nil => exact ⟨rfl, rfl, rfl, rfl, rfl, rfl⟩
  | cons e l ih =>
    obtain ⟨dir, showId, init, writes, taken, pages⟩ := ih (c.dropFilling e)
    simp only [List.foldl_cons, List.map_cons, dir, showId, init, writes, taken, pages]
    simp
end

/-! ## The reset (R135) -/

/-- The FILLING entries of the page tables. -/
def Cm.fillingPages (c : Cm) : List (Nat × Pte) := c.pages.filter fun e => e.2.state == .filling

section
variable (c : Cm)

theorem Cm.afterWarm_cleared : c.afterWarm.cache = [] ∧ c.afterWarm.fills = [] ∧ c.afterWarm.serves = [] ∧
    c.afterWarm.intake = [] ∧ c.afterWarm.chunk = none ∧ c.afterWarm.waiting = [] ∧ c.afterWarm.storeFull = false :=
  ⟨rfl, rfl, rfl, rfl, rfl, rfl, rfl⟩

theorem Cm.afterWarm_kept : c.afterWarm.dir = c.dir ∧ c.afterWarm.showId = c.showId ∧ c.afterWarm.init = c.init ∧
    c.afterWarm.taken = c.fillingPages.foldl (fun t e => t.erase e.2.phys) c.taken ∧
    c.afterWarm.pages = (c.fillingPages.map fun e => e.1).foldl Table.drop c.pages := by
  obtain ⟨dir, showId, init, -, taken, pages⟩ := Cm.dropFillings_fields c c.fillingPages
  exact ⟨dir, showId, init, taken, pages⟩

/-- After a warm reset a page that was FILLING is ABSENT, and every other one is as it was. -/
theorem Cm.afterWarm_pageState (rises : Table.risesFrom none c.pages = true) {g q : Nat} :
    c.afterWarm.pageState g q = if c.pageState g q = .filling then .absent else c.pageState g q := by
  obtain ⟨-, -, -, -, pages⟩ := c.afterWarm_kept
  have filling : pageKey g q ∈ (c.fillingPages.map fun e => e.1) ↔ c.pageState g q = .filling := by
    unfold Cm.pageState Cm.fillingPages
    constructor
    · intro h
      obtain ⟨e, he, key⟩ := List.mem_map.mp h
      obtain ⟨mem, state⟩ := List.mem_filter.mp he
      rw [(Table.get?_eq_some_iff rises _ e.2).mpr (key ▸ mem)]
      simpa using state
    · intro h
      cases found : Table.get? c.pages (pageKey g q) with
      | none => simp [found] at h
      | some v =>
        refine List.mem_map.mpr ⟨(pageKey g q, v), List.mem_filter.mpr ⟨(Table.get?_eq_some_iff rises _ v).mp found, ?_⟩, rfl⟩
        simpa [found] using h
  rw [Cm.pageState, pages, Table.get?_foldl_drop _ rises]
  by_cases h : c.pageState g q = .filling
  · rw [if_pos (filling.mpr h), if_pos h]
    rfl
  · rw [if_neg (fun x => h (filling.mp x)), if_neg h]
    rfl

/-- The table writes that stood stay in their order, and those of the dropped pages join them. -/
theorem Cm.afterWarm_writesQueued : ∃ l, c.afterWarm.writesQueued = c.writesQueued ++ l ∧
    ∀ e ∈ c.pages, e.2.state = .filling → ∃ w ∈ l, w.block = 32 + e.1 / 16 := by
  obtain ⟨-, -, -, writes, -, -⟩ := Cm.dropFillings_fields c c.fillingPages
  obtain ⟨x, after, same⟩ : ∃ x : Cm, c.afterWarm = x.queueWrites [] (c.fillingPages.map fun e => e.1) ∧
      x.writesQueued = c.writesQueued := by
    refine ⟨_, rfl, ?_⟩
    rw [← writes, Cm.writesQueued_eq, Cm.writesQueued_eq, List.filterMap_append]
    refine writes_staying _ _ _ _ (fun e => ?_) fun e => ?_
    · cases e <;> rfl
    · cases e <;> rfl
  rw [after, Cm.queueWrites_writesQueued, same]
  refine ⟨_, rfl, fun e he state => ?_⟩
  refine ⟨_, List.mem_map.mpr ⟨e.1 / 16, (mem_blocksOf _ _ _).mpr ⟨e.1, ?_, rfl⟩, rfl⟩, rfl⟩
  exact List.mem_map.mpr ⟨e, List.mem_filter.mpr ⟨he, by simp [state]⟩, rfl⟩
end

end Sys2Proof.Machine
end

