-- ==== Sys2Proof/Proofs/Configuration.lean ====
section
/-!
The end of the configuration read (spec/11, R191, R192): the values that every block takes.
-/
namespace Sys2Proof.Machine

/-! ## What the map region's work leaves -/

/-- The state without the map-region queue's work: its queue and initialisation, and the controller's requests. -/
def State.unissued (s : State) : State :=
  { s with smc := s.smc.outer, cm := { s.cm with mapQ := [], mapIssued := false, init := .waiting } }

section
variable (s : State)

theorem State.arrive_unissued (c : ReqClass) (r : Request) : (s.onSmc fun m => m.arrive c r).unissued = s.unissued := by
  unfold State.unissued
  simp only [State.onSmc_smc, Smc.arrive_outer]
  rfl

theorem State.issueMap_unissued : s.issueMap.unissued = s.unissued := by
  unfold State.issueMap
  split
  · split
    · exact Eq.trans rfl (s.arrive_unissued .walk _)
    · rfl
  · rfl

theorem State.initMap_unissued : s.initMap.unissued = s.unissued := by
  unfold State.initMap
  split
  · rw [State.issueMap_unissued]
    rfl
  · rfl

/-- The issue of a head leaves the queue. -/
theorem State.issueMap_writesQueued : s.issueMap.cm.writesQueued = s.cm.writesQueued := by
  unfold State.issueMap
  split
  · split <;> rfl
  · rfl

theorem State.issueMap_init : s.issueMap.cm.init = s.cm.init := by
  unfold State.issueMap
  split
  · split <;> rfl
  · rfl
end

/-! ## The blocks after the read -/

/-- The pumps after a reset, before the level state and after it (R75, R182). -/
def Pump.afterReset (pp : PumpParams) (cold dry : Bool) : Pump :=
  if pp.present then
    { state := if dry then .locked else if cold then .off else .resting
      restCount := if cold then 0 else pp.rest * 50
      lockDry := dry }
  else {}

theorem Pump.afterReset_still (pp : PumpParams) (cold dry : Bool) :
    (Pump.afterReset pp cold dry).actual = 0 ∧ (Pump.afterReset pp cold dry).state.active = false ∧
      (Pump.afterReset pp cold dry).arrival = .void ∧ (Pump.afterReset pp cold dry).lockFeedback = false ∧
      (Pump.afterReset pp cold dry).height = 0 ∧ (Pump.afterReset pp cold dry).requested = 0 := by
  unfold Pump.afterReset
  split
  · cases cold <;> cases dry <;> exact ⟨rfl, rfl, rfl, rfl, rfl, rfl⟩
  · exact ⟨rfl, rfl, rfl, rfl, rfl, rfl⟩

/-- The station as the configuration read leaves it, but for the map region's work (R191, R192). -/
def State.configured (s : State) (r : List Byte) : State :=
  let P := paramsTaken r s.own
  { s.takeResetValues P (recordValid r) (recWord r 254) with
    hu := { Hu.afterReset P s.st.cold with
      pumps := Vector.ofFn fun n => Pump.afterReset P.pumps[n] s.st.cold (decide (0 < P.dryRun)) }
    biu := { s.biu.afterReset P with
      levelState := if 0 < P.dryRun then .dry else .normal
      faults := if recordValid r then [] else
        [{ kind := .configInvalid, first := s.tbu.basinTime, count := 1, detail := none }] } }

/-- The pumps of a station that has just reset, brought to the level state (R71, R75). -/
theorem Hu.afterReset_dry (P : Params) (cold dry : Bool) (n : Channel) :
    (if dry && P.pumps[n].present then ((Hu.afterReset P cold).pump n).dry else (Hu.afterReset P cold).pump n) =
      Pump.afterReset P.pumps[n] cold dry := by
  have reset : (Hu.afterReset P cold).pump n =
      if cold || !P.pumps[n].present then ({} : Pump) else ({} : Pump).rest P.pumps[n] := by
    simp [Hu.pump, Hu.afterReset]
  rw [reset]
  unfold Pump.afterReset
  cases cold <;> cases dry <;> cases P.pumps[n].present <;> rfl

/-- The level state evaluated at a reset: DRY under a dry-run level above 0 (R182, R188). -/
theorem State.evalLevel_reset (s : State) (P : Params) (valid : Bool) (check : Nat) :
    (s.takeResetValues P valid check).evalLevel 0 = { s.takeResetValues P valid check with
      hu := { Hu.afterReset P s.st.cold with
        pumps := Vector.ofFn fun n => Pump.afterReset P.pumps[n] s.st.cold (decide (0 < P.dryRun)) }
      biu := { s.biu.afterReset P with levelState := if 0 < P.dryRun then .dry else .normal } } := by
  have pumps : ∀ (h : Hu), (∀ n : Channel, h.pump n = Pump.afterReset P.pumps[n] s.st.cold (decide (0 < P.dryRun))) →
      h.pumps = Vector.ofFn fun n => Pump.afterReset P.pumps[n] s.st.cold (decide (0 < P.dryRun)) := by
    intro h each
    refine Vector.ext fun i hi => ?_
    simpa [Hu.pump] using each ⟨i, hi⟩
  have each := Hu.afterReset_dry P s.st.cold (decide (0 < P.dryRun))
  unfold State.evalLevel
  rw [show (s.takeResetValues P valid check).biu.levelState = .normal from rfl,
    show (s.takeResetValues P valid check).params = P from rfl]
  dsimp only
  by_cases dry : 0 < P.dryRun
  · simp only [dry, decide_true, Bool.true_and] at each pumps ⊢
    rw [if_pos trivial, if_pos trivial]
    have starting : ((s.takeResetValues P valid check).onBiu fun b => { b with levelState := .dry }).huDry.startingUp =
        true := by
      rw [State.startingUp_of_unread (State.huDry_unread _)]
      show (if s.smc.ctl = .ready then Phase.listening else .memory) != .up
      split <;> rfl
    have dried : ((s.takeResetValues P valid check).onBiu fun b => { b with levelState := .dry }).huDry =
        ((s.takeResetValues P valid check).onBiu fun b => { b with levelState := .dry }).onHu fun h =>
          h.mapPumps fun n p => if P.pumps[n].present then p.dry else p := rfl
    rw [if_pos starting, dried, ← pumps ((Hu.afterReset P s.st.cold).mapPumps fun n p =>
      if P.pumps[n].present then p.dry else p) fun n => (Hu.mapPumps_pump _ _ n).trans (each n)]
    rfl
  · simp only [dry, decide_false, Bool.false_and, Bool.false_eq_true, if_false] at each pumps ⊢
    rw [← pumps _ each]
    rfl

theorem State.takeConfig_unissued (s : State) (r : List Byte) :
    (s.takeConfig r).unissued = (s.configured r).unissued := by
  have raise : ∀ x : State, (x.raise .configInvalid).unissued = x.unissued.raise .configInvalid := fun _ => rfl
  have issued : ∀ x : State, (if x.issueMap.st.phase = .listening then x.issueMap.initMap else x.issueMap).unissued =
      x.unissued := by
    intro x
    split
    · rw [State.initMap_unissued, State.issueMap_unissued]
    · exact State.issueMap_unissued x
  unfold State.takeConfig
  dsimp only
  split
  · rename_i valid
    rw [issued, State.evalLevel_reset, State.configured, valid]
    rfl
  · rename_i invalid
    rw [raise, issued, State.evalLevel_reset, State.configured, Bool.eq_false_iff.mpr invalid]
    rfl

section
variable {s t : State} (h : t.unissued = s.unissued)
include h
theorem State.tbu_of_unissued : t.tbu = s.tbu := congrArg (fun x => x.tbu) h
theorem State.ce_of_unissued : t.ce = s.ce := congrArg (fun x => x.ce) h
theorem State.hu_of_unissued : t.hu = s.hu := congrArg (fun x => x.hu) h
theorem State.lu_of_unissued : t.lu = s.lu := congrArg (fun x => x.lu) h
theorem State.au_of_unissued : t.au = s.au := congrArg (fun x => x.au) h
theorem State.liu_of_unissued : t.liu = s.liu := congrArg (fun x => x.liu) h
theorem State.pt_of_unissued : t.pt = s.pt := congrArg (fun x => x.pt) h
theorem State.biu_of_unissued : t.biu = s.biu := congrArg (fun x => x.biu) h
theorem State.st_of_unissued : t.st = s.st := congrArg (fun x => x.st) h
theorem State.pending_of_unissued : t.pending = s.pending := congrArg (fun x => x.pending) h
theorem State.smc_of_unissued : t.smc.outer = s.smc.outer := congrArg (fun x => x.smc) h
theorem State.tables_of_unissued : t.cm.dir = s.cm.dir ∧ t.cm.pages = s.cm.pages ∧ t.cm.taken = s.cm.taken ∧
    t.cm.showId = s.cm.showId :=
  ⟨congrArg (fun x => x.cm.dir) h, congrArg (fun x => x.cm.pages) h, congrArg (fun x => x.cm.taken) h,
    congrArg (fun x => x.cm.showId) h⟩
theorem State.records_of_unissued : t.cm.cache = s.cm.cache ∧ t.cm.fills = s.cm.fills ∧ t.cm.serves = s.cm.serves ∧
    t.cm.intake = s.cm.intake ∧ t.cm.chunk = s.cm.chunk ∧ t.cm.waiting = s.cm.waiting ∧
    t.cm.storeFull = s.cm.storeFull :=
  ⟨congrArg (fun x => x.cm.cache) h, congrArg (fun x => x.cm.fills) h, congrArg (fun x => x.cm.serves) h,
    congrArg (fun x => x.cm.intake) h, congrArg (fun x => x.cm.chunk) h, congrArg (fun x => x.cm.waiting) h,
    congrArg (fun x => x.cm.storeFull) h⟩
end

/-- Table writes that stand when the map region is initialised are followed by what the reset adds (R114, R135). -/
theorem State.takeConfig_writesQueued (s : State) (r : List Byte) (init : (s.cm.afterReset s.st.cold).init ≠ .waiting) :
    (s.takeConfig r).cm.writesQueued = (s.cm.afterReset s.st.cold).writesQueued := by
  have done : ∀ x : State, x.cm.init ≠ .waiting → x.initMap = x := fun x h => by simp [State.initMap, h]
  have cm := State.cm_of_unread (State.evalLevel_unread
    (s.takeResetValues (paramsTaken r s.own) (recordValid r) (recWord r 254)) 0)
  unfold State.takeConfig
  dsimp only
  generalize (s.takeResetValues (paramsTaken r s.own) (recordValid r) (recWord r 254)).evalLevel 0 = x at cm
  have writes : x.issueMap.cm.writesQueued = (s.cm.afterReset s.st.cold).writesQueued := by
    rw [State.issueMap_writesQueued, cm]
    rfl
  rw [done x.issueMap (by rw [State.issueMap_init, cm]; exact init), ite_self]
  split
  · exact writes
  · exact writes

theorem Cm.afterReset_cleared (cold : Bool) (c : Cm) : (c.afterReset cold).cache = [] ∧ (c.afterReset cold).fills = [] ∧
    (c.afterReset cold).serves = [] ∧ (c.afterReset cold).intake = [] ∧ (c.afterReset cold).chunk = none ∧
    (c.afterReset cold).waiting = [] ∧ (c.afterReset cold).storeFull = false := by
  cases cold
  · exact c.afterWarm_cleared
  · exact ⟨rfl, rfl, rfl, rfl, rfl, rfl, rfl⟩

theorem Lu.afterReset_follow (P : Params) : (Lu.afterReset P 0).follow = Vector.replicate 12 none := by
  unfold Lu.afterReset Lu.interlock
  rw [Lu.recompute_follow]

theorem Lu.afterReset_channel (P : Params) (n : Fin 48) :
    (Lu.afterReset P 0).channels[n].level = 0 ∧ (Lu.afterReset P 0).channels[n].output = 0 := by
  have unlit : ∀ l : Lu, l.channels[n].level = 0 →
      (l.recompute P).channels[n].level = 0 ∧ (l.recompute P).channels[n].output = 0 := by
    intro l level
    obtain ⟨v, e, dark⟩ := Lu.recompute_channel l P n
    rw [e]
    exact ⟨level, dark level⟩
  unfold Lu.afterReset Lu.interlock
  refine unlit _ ?_
  simp

/-- CONFIG_READ_COMPLETE while the configuration is read. -/
theorem exec_configReadComplete {s : State} (reading : s.st.phase = .reading) (r : List Byte) :
    exec (.configReadComplete r) s = .next (s.takeConfig r) := by
  show Host.Outcome.next (if s.st.phase = .reading then s.takeConfig r else s) = _
  rw [if_pos reading]

/-- Settles O4. -/
theorem timebaseParametersClamped : Obligations.TimebaseParametersClamped := by
  intro r s reading valid
  have same := s.takeConfig_unissued r
  have params : (s.takeConfig r).params = paramsOf r := by
    rw [State.params, State.st_of_unissued same]
    simp [State.configured, State.takeResetValues, paramsTaken, valid]
  have faults : (s.takeConfig r).biu.faults = [] := by
    rw [State.biu_of_unissued same]
    simp [State.configured, valid]
  refine ⟨_, exec_configReadComplete reading r, faults, ?_⟩
  rw [params]
  exact ⟨fun h => Nat.min_eq_left h.le, fun h => Nat.min_eq_right h, fun h => Nat.min_eq_left h.le,
    fun h => Nat.min_eq_right h, fun h => Nat.min_eq_left h.le, fun h => Nat.min_eq_right h⟩

/-- Settles O3. -/
theorem configurationTaken : Obligations.ConfigurationTaken := by
  intro r s reading
  have same := s.takeConfig_unissued r
  refine ⟨_, exec_configReadComplete reading r, ?_⟩
  have queued := s.takeConfig_writesQueued r
  generalize s.takeConfig r = t at same queued
  have tbu := State.tbu_of_unissued same
  have ce := State.ce_of_unissued same
  have hu := State.hu_of_unissued same
  have lu := State.lu_of_unissued same
  have au := State.au_of_unissued same
  have liu := State.liu_of_unissued same
  have pt := State.pt_of_unissued same
  have biu := State.biu_of_unissued same
  have st := State.st_of_unissued same
  have cm : (s.configured r).cm = s.cm.afterReset s.st.cold := rfl
  obtain ⟨dir, pages, taken, showId⟩ := State.tables_of_unissued same
  obtain ⟨cache, fills, serves, intake, chunk, waiting, full⟩ := State.records_of_unissued same
  rw [cm] at dir pages taken showId cache fills serves intake chunk waiting full
  have smc := State.smc_of_unissued same
  have params : t.params = paramsTaken r s.own := congrArg StartUp.params st
  have pump : ∀ n, t.hu.pump n =
      Pump.afterReset (t.params.pumps[n]) s.st.cold (decide (0 < t.params.dryRun)) := by
    intro n
    rw [hu, params]
    exact Vector.getElem_ofFn n.isLt
  have light : ∀ n : Fin 48, t.lu.channels[n].level = 0 ∧ t.dimmingOutput n = 0 := by
    intro n
    rw [State.dimmingOutput, lu]
    exact Lu.afterReset_channel _ n
  refine ⟨congrArg StartUp.valid st, params, congrArg StartUp.checkWord st, congrArg StartUp.phase st,
    congrArg StartUp.listen st, tbu, congrArg Ce.readState ce, congrArg Ce.queue ce, congrArg Ce.index ce,
    congrArg Ce.lastTrigger ce, ?_, ?_, ?_, ?_, congrArg Hu.demand hu, congrArg Hu.share hu, congrArg Hu.scale hu,
    congrArg Hu.spacing hu, congrArg Hu.claimHolder hu, light, ?_, congrArg (fun a => a.a.state) au,
    congrArg (fun a => a.b.state) au, congrArg Au.slots au, congrArg Au.fill au, liu, congrArg Pt.peers pt, ?_⟩
  · intro n
    rw [State.driveOutput, pump]
    obtain ⟨drive, still, arrival, -⟩ := Pump.afterReset_still t.params.pumps[n] s.st.cold (decide (0 < t.params.dryRun))
    exact ⟨drive, still, arrival⟩
  · intro n fresh
    rw [pump]
    generalize t.params.pumps[n] = pp at fresh ⊢
    rcases fresh with absent | cold
    · simp [Pump.afterReset, absent]
    · cases present : pp.present <;> simp [Pump.afterReset, present, cold]
  · intro n present warm
    rw [pump]
    generalize t.params.pumps[n] = pp at present ⊢
    simp [Pump.afterReset, present, warm]
  · intro n
    rw [pump]
    obtain ⟨-, -, -, feedback, height, requested⟩ :=
      Pump.afterReset_still t.params.pumps[n] s.st.cold (decide (0 < t.params.dryRun))
    refine ⟨?_, feedback, height, requested⟩
    generalize t.params.pumps[n] = pp
    cases present : pp.present <;> simp [Pump.afterReset, present]
  · rw [lu]
    exact Lu.afterReset_follow _
  · have level : t.biu.levelState = if 0 < t.params.dryRun then .dry else .normal := by
      rw [params]
      exact congrArg Biu.levelState biu
    obtain ⟨cache', fills', serves', intake', chunk', waiting', full'⟩ := Cm.afterReset_cleared s.st.cold s.cm
    refine ⟨?_, congrArg Pt.windSource pt, congrArg Pt.level pt, congrArg Pt.levelSource pt,
      cache.trans cache', fills.trans fills', serves.trans serves', intake.trans intake', chunk.trans chunk',
      waiting.trans waiting', full.trans full', ?_, ?_, congrArg Biu.faults biu, level, (congrArg Biu.stopActive biu :),
      (congrArg Biu.feedback biu :),
      (congrArg (fun m : Smc => m.mem) smc :), (congrArg (fun m : Smc => m.ctl) smc :),
      (congrArg (fun m : Smc => m.debt) smc :), (State.pending_of_unissued same :)⟩
    · rw [params]
      exact congrArg Pt.wind pt
    · intro cold
      rw [cold] at dir pages taken showId
      exact ⟨dir, pages, taken, showId⟩
    · intro warm tables
      rw [warm] at dir pages taken showId queued
      obtain ⟨dir', showId', init', taken', -⟩ := s.cm.afterWarm_kept
      obtain ⟨l, writes, blocks⟩ := s.cm.afterWarm_writesQueued
      refine ⟨dir.trans dir', showId.trans showId', fun g q _ => ?_, taken.trans taken', fun done => ⟨l, ?_, blocks⟩⟩
      · rw [← s.cm.afterWarm_pageState tables.2.2, Cm.pageState, pages]
        rfl
      · exact (queued fun waits => done (init'.symm.trans waits)).trans writes

end Sys2Proof.Machine
end

