-- ==== Sys2Proof/Proofs/Capacity.lean ====
section
/-!
The capacities of spec/02 (R35, R40), spec/06 (R114 to R132), spec/07 (R138, R145), spec/08 (R154 to R163) and spec/10 (R185),
block by block, and what the updates of one block ask to keep them.
-/
namespace Sys2Proof.Machine

/-! ## The capacities of each block -/

/-- The pending queue and the voice actions of the slates are within their capacities (R35, R40). -/
structure Ce.Fits (c : Ce) : Prop where
  queue : c.queue.length ≤ 32
  even : c.slateEven.voices.length ≤ 8
  odd : c.slateOdd.voices.length ≤ 8

/-- The reads in flight of the serve records. -/
def Cm.reads (c : Cm) : Nat := (c.serves.filter Serve.reading).length

/-- The content map is within its capacities. A map region still to be initialised holds no page and no fill record
(R135). -/
structure Cm.Fits (c : Cm) : Prop where
  intake : c.intake.length ≤ 4
  cache : c.cache.length ≤ 16
  fills : c.fills.length ≤ 8
  serves : c.serves.length ≤ 2
  writes : c.tableWrites + c.fills.length ≤ 72
  fresh : c.init = .waiting → c.dir = [] ∧ c.pages = [] ∧ c.tableWrites = 0 ∧ c.fills = []
  ids : (c.serves.map fun r => r.id).Nodup
  below : ∀ r ∈ c.serves, r.id < c.nextId

/-- The link's queues and counts but for the CONTENT queue are within their capacities (R154 to R158, R163). -/
structure Liu.Fits (l : Liu) : Prop where
  fetch : l.fetchQ.length ≤ 2
  replies : l.replies.length ≤ 4
  fails : l.fails ≤ 7
  mute : l.mute ≤ 50
  yield : l.yieldCount ≤ 4

/-- The serve reads and the refresh debt are within their capacities (R138, R145). -/
structure Smc.Fits (m : Smc) : Prop where
  serve : m.serve.length ≤ 2
  debt : m.debt ≤ 8

/-- Every block is within its capacities, the fault list holds one record of a kind, and the CONTENT queue has room for the
reads in flight (R132, R185). -/
structure BlocksFit (c : Ce) (m : Cm) (l : Liu) (k : Smc) (fs : List FaultRecord) : Prop where
  ce : c.Fits
  cm : m.Fits
  liu : l.Fits
  smc : k.Fits
  faults : (fs.map (·.kind)).Nodup
  content : l.contentQ.length + 4 * m.reads ≤ 16

/-- What every step keeps: the capacities, and that an uninitialised map region has no fill record. -/
abbrev State.Fits (s : State) : Prop := BlocksFit s.ce s.cm s.liu s.smc s.biu.faults

theorem State.Fits.withinCapacity {s : State} (h : s.Fits) : s.withinCapacity :=
  ⟨h.ce.queue, h.ce.even, h.ce.odd, h.cm.intake, h.cm.cache, h.cm.fills, h.cm.serves, h.cm.writes,
    fun w => (h.cm.fresh w).imp_right fun x => x.imp_right fun y => y.1, h.cm.ids, h.cm.below, h.content, h.liu.fetch,
    h.liu.replies, h.smc.serve, h.liu.fails, h.liu.mute, h.liu.yield, h.smc.debt, h.faults⟩

/-- With the tables conserved, no page means no fill record (R125). -/
theorem State.fits_of_withinCapacity {s : State} (tables : s.pagesConserved) (h : s.withinCapacity) : s.Fits := by
  obtain ⟨-, -, -, -, -, filling, -⟩ := tables
  obtain ⟨queue, even, odd, intake, cache, fills, serves, writes, init, ids, below, content, fetch, replies, serve, fails,
    mute, yield, debt, faults⟩ := h
  refine ⟨⟨queue, even, odd⟩, ⟨intake, cache, fills, serves, writes, fun w => ?_, ids, below⟩,
    ⟨fetch, replies, fails, mute, yield⟩, ⟨serve, debt⟩, faults, content⟩
  obtain ⟨dir, pages, none⟩ := init w
  refine ⟨dir, pages, none, List.eq_nil_iff_forall_not_mem.mpr fun f hf => ?_⟩
  obtain ⟨-, -, held⟩ := filling f hf
  rw [pages] at held
  cases held

/-! ## The fault list (R185) -/

theorem raiseIn_kinds (fs : List FaultRecord) (now : Nat) (k : FaultKind) (d : Option FaultDetail) :
    (raiseIn fs now k d).map (·.kind) =
      if k ∈ fs.map (·.kind) then fs.map (·.kind) else fs.map (·.kind) ++ [k] := by
  have known : fs.any (fun r => r.kind == k) = true ↔ k ∈ fs.map (·.kind) := by simp
  unfold raiseIn
  by_cases h : fs.any (fun r => r.kind == k) = true
  · rw [if_pos h, if_pos (known.mp h), List.map_map]
    refine List.map_congr_left fun r _ => ?_
    simp only [Function.comp]
    split <;> rfl
  · rw [if_neg h, if_neg (fun x => h (known.mpr x)), List.map_append]
    rfl

theorem raiseIn_nodup {fs : List FaultRecord} (h : (fs.map (·.kind)).Nodup) (now : Nat) (k : FaultKind)
    (d : Option FaultDetail) : ((raiseIn fs now k d).map (·.kind)).Nodup := by
  rw [raiseIn_kinds]
  split
  · exact h
  · rw [← List.concat_eq_append]
    exact h.concat ‹_›

/-! ## Single updates -/

namespace BlocksFit
variable {s : State} (h : s.Fits)
include h

theorem onTbu (g : Tbu → Tbu) : (s.onTbu g).Fits := h
theorem onHu (g : Hu → Hu) : (s.onHu g).Fits := h
theorem onLu (g : Lu → Lu) : (s.onLu g).Fits := h
theorem onAu (g : Au → Au) : (s.onAu g).Fits := h
theorem onPt (g : Pt → Pt) : (s.onPt g).Fits := h
theorem onSt (g : StartUp → StartUp) : (s.onSt g).Fits := h

theorem ofCe {c : Ce} (fits : c.Fits) : BlocksFit c s.cm s.liu s.smc s.biu.faults := { h with ce := fits }

theorem onCe {g : Ce → Ce} (fits : (g s.ce).Fits) : (s.onCe g).Fits := { h with ce := fits }

theorem onCm {g : Cm → Cm} (fits : (g s.cm).Fits) (reads : (g s.cm).reads ≤ s.cm.reads) : (s.onCm g).Fits :=
  have content : s.liu.contentQ.length + 4 * (g s.cm).reads ≤ 16 :=
    Nat.le_trans (by omega) h.content
  { h with cm := fits, content := content }

theorem onLiu {g : Liu → Liu} (fits : (g s.liu).Fits) (content : (g s.liu).contentQ.length ≤ s.liu.contentQ.length) :
    (s.onLiu g).Fits :=
  { h with liu := fits, content := Nat.le_trans (Nat.add_le_add_right content _) h.content }

theorem onSmc {g : Smc → Smc} (fits : (g s.smc).Fits) : (s.onSmc g).Fits := { h with smc := fits }

theorem onBiu {g : Biu → Biu} (faults : (g s.biu).faults = s.biu.faults) : (s.onBiu g).Fits :=
  { h with faults := by rw [State.onBiu_biu, faults]; exact h.faults }

theorem raise (k : FaultKind) (d : Option FaultDetail) : (s.raise k d).Fits :=
  { h with faults := raiseIn_nodup h.faults _ _ _ }

theorem raiseIf (p : Prop) [Decidable p] (k : FaultKind) (d : Option FaultDetail) :
    (if p then s.raise k d else s).Fits := by
  split
  · exact h.raise k d
  · exact h
end BlocksFit

/-! ## Queues of the link -/

theorem withdrawFrom_length_le {α : Type} (begun : Bool) (p : α → Bool) (q : List α) :
    (withdrawFrom begun p q).length ≤ q.length := by
  have kept := List.length_filter_le p
  unfold withdrawFrom
  split
  · have := kept (q.drop 1)
    simp only [List.length_append, List.length_take, List.length_drop] at this ⊢
    omega
  · exact kept q

theorem Liu.withdrawFetch_fits {l : Liu} (h : l.Fits) (id : Nat) : (l.withdrawFetch id).Fits :=
  { h with fetch := (withdrawFrom_length_le _ _ _).trans h.fetch }

theorem Liu.withdrawContent_fits {l : Liu} (h : l.Fits) (id : Nat) : (l.withdrawContent id).Fits := { h with }

theorem Liu.withdrawClaim_fits {l : Liu} (h : l.Fits) : l.withdrawClaim.Fits := by
  unfold Liu.withdrawClaim
  split
  · exact h
  · exact { h with }

@[simp] theorem Liu.withdrawClaim_contentQ (l : Liu) : l.withdrawClaim.contentQ = l.contentQ := by
  unfold Liu.withdrawClaim
  split <;> rfl

/-! ## Requests of the memory controller (R138, R140) -/

theorem Smc.fits_of_serve_debt {m m' : Smc} (h : m.Fits) (serve : m'.serve = m.serve) (debt : m'.debt = m.debt) : m'.Fits :=
  ⟨serve ▸ h.serve, debt ▸ h.debt⟩

/-- A grant moves neither a serve read nor the debt. -/
theorem Smc.startBurst_serve (m : Smc) (c : ReqClass) (r : Request) : (m.startBurst c r).serve = m.serve := by
  unfold Smc.startBurst
  dsimp only
  split
  · split <;> rfl
  all_goals rfl

theorem Smc.startRefresh_serve (m : Smc) (f : Bool) : (m.startRefresh f).serve = m.serve := by
  unfold Smc.startRefresh
  split
  · rfl
  · split <;> rfl

theorem Smc.grant_serve (m : Smc) : m.grant.serve = m.serve := by
  unfold Smc.grant
  split
  · exact m.startRefresh_serve true
  · split
    · exact m.startBurst_serve _ _
    · split
      · exact m.startRefresh_serve false
      · rfl

theorem Smc.debt_of_outer {m m' : Smc} (h : m'.outer = m.outer) : m'.debt = m.debt := congrArg (fun x => x.debt) h

section
variable {m : Smc} (h : m.Fits)
include h

theorem Smc.startBurst_fits (c : ReqClass) (r : Request) : (m.startBurst c r).Fits :=
  Smc.fits_of_serve_debt h (m.startBurst_serve c r) (Smc.debt_of_outer (m.startBurst_outer c r))

theorem Smc.startRefresh_fits (f : Bool) : (m.startRefresh f).Fits :=
  Smc.fits_of_serve_debt h (m.startRefresh_serve f) (Smc.debt_of_outer (m.startRefresh_outer f))

theorem Smc.grant_fits : m.grant.Fits := Smc.fits_of_serve_debt h m.grant_serve (Smc.debt_of_outer m.grant_outer)

theorem Smc.grantIfIdle_fits : m.grantIfIdle.Fits := by
  unfold Smc.grantIfIdle
  split
  · exact Smc.grant_fits h
  · exact h

/-- A request arrives; a serve read needs a free place of the two (R138). -/
theorem Smc.arrive_fits {c : ReqClass} (r : Request) (free : c = .serve → m.serve.length < 2) : (m.arrive c r).Fits := by
  unfold Smc.arrive
  refine Smc.grantIfIdle_fits ?_
  cases c with
  | serve =>
    refine ⟨?_, h.debt⟩
    have := free rfl
    simp only [List.length_append, List.length_cons, List.length_nil]
    omega
  | _ => exact ⟨h.serve, h.debt⟩

theorem Smc.setSlot_fits (c : ReqClass) (r : Option Request) : (m.setSlot c r).Fits := by
  cases c with
  | serve =>
    refine ⟨?_, h.debt⟩
    have := h.serve
    have := Option.length_toList_le (o := r)
    simp only [Smc.setSlot, List.length_append, List.length_drop]
    omega
  | _ => exact ⟨h.serve, h.debt⟩

theorem Smc.transfer_fits (r : Request) : (m.transfer r).1.Fits := by
  unfold Smc.transfer
  dsimp only
  split <;> exact ⟨h.serve, h.debt⟩

theorem Smc.endBurst_fits (c : ReqClass) : (m.endBurst c).Fits := by
  unfold Smc.endBurst
  split
  · exact h
  · rename_i r _
    have moved := Smc.transfer_fits h r
    dsimp only
    split
    · exact Smc.setSlot_fits moved _ _
    · have ended := Smc.setSlot_fits moved c none
      split <;> exact ⟨ended.serve, ended.debt⟩

theorem Smc.endRefresh_fits (f : Bool) : (m.endRefresh f).Fits := by
  have := h.debt
  unfold Smc.endRefresh
  split <;> exact ⟨h.serve, by dsimp only; omega⟩

theorem Smc.endOperation_fits : m.endOperation.Fits := by
  have ended : ∀ n, ({ m with clock := n, port := none } : Smc).Fits := fun _ => ⟨h.serve, h.debt⟩
  unfold Smc.endOperation
  split
  · exact Smc.grantIfIdle_fits h
  · split
    · refine Smc.grant_fits ?_
      split
      · exact Smc.endBurst_fits (ended _) _
      · exact Smc.endRefresh_fits (ended _) _
    · exact h

theorem Smc.activateDone_fits (b : Fin 4) : (m.activateDone b).Fits := by
  have moved : ∀ n g, (({ m with clock := n } : Smc).onBank b g).Fits := fun _ _ => ⟨h.serve, h.debt⟩
  unfold Smc.activateDone
  dsimp only
  split
  · split
    · split
      · split
        · exact Smc.startBurst_fits (moved _ _) _ _
        · exact moved _ _
      · exact moved _ _
    · exact moved _ _
  · exact h

theorem Smc.prechargeDone_fits (b : Fin 4) : (m.prechargeDone b).Fits := by
  have moved : ∀ n g, (({ m with clock := n } : Smc).onBank b g).Fits := fun _ _ => ⟨h.serve, h.debt⟩
  unfold Smc.prechargeDone
  dsimp only
  split
  · split
    · split
      · split
        · exact Smc.startBurst_fits (moved _ _) _ _
        · exact moved _ _
      · exact moved _ _
    · split
      · exact moved _ _
      · split
        · exact Smc.startRefresh_fits (moved _ _) _
        · split
          · exact ⟨h.serve, h.debt⟩
          · exact moved _ _
    · exact moved _ _
  · exact h

theorem Smc.debtRise_fits : m.debtRise.Fits := by
  unfold Smc.debtRise
  split
  · exact Smc.grantIfIdle_fits ⟨h.serve, Nat.min_le_left _ _⟩
  · exact h

theorem Smc.initWaitEnd_fits : m.initWaitEnd.Fits := by
  unfold Smc.initWaitEnd
  split
  · exact ⟨h.serve, h.debt⟩
  · exact h

theorem Smc.initPrechargeEnd_fits : m.initPrechargeEnd.Fits := by
  unfold Smc.initPrechargeEnd
  split
  · exact ⟨h.serve, h.debt⟩
  · exact h

theorem Smc.initRefreshEnd_fits : m.initRefreshEnd.Fits := by
  unfold Smc.initRefreshEnd
  split
  · exact ⟨h.serve, h.debt⟩
  · exact h

theorem Smc.initModeEnd_fits : m.initModeEnd.Fits := by
  unfold Smc.initModeEnd
  split
  · exact Smc.grant_fits ⟨h.serve, Nat.zero_le _⟩
  · exact h
end

end Sys2Proof.Machine
end

