-- ==== Sys2Proof/Proofs/CapacityMap.lean ====
section
/-!
The content map keeps its capacities (spec/06, R114 to R135): how many table writes each change queues, and what the fill and
serve records, the intake and the map cache come to hold.
-/
namespace Sys2Proof.Machine

/-! ## Counting table writes -/

theorem Cm.tableWrites_eq_length (c : Cm) : c.tableWrites = c.writesQueued.length := by
  have count : ∀ (l : List MapEntry) (n : Nat), l.foldl (fun n e => n + (match e with
      | .write _ => 1
      | .walk _ => 0)) n = n + (l.filterMap MapEntry.write?).length := by
    intro l
    induction l with
    | nil => intro n; rfl
    | cons e l ih =>
      intro n
      rw [List.foldl_cons, ih]
      cases e
      · exact Nat.add_right_comm n 1 _
      · rfl
  rw [Cm.writesQueued_eq]
  exact (count c.mapQ 0).trans (Nat.zero_add _)

theorem Cm.tableWrites_of_writesQueued {c c' : Cm} (h : c'.writesQueued = c.writesQueued) :
    c'.tableWrites = c.tableWrites := by
  rw [Cm.tableWrites_eq_length, Cm.tableWrites_eq_length, h]

@[simp] theorem Cm.touch_tableWrites (c : Cm) (g : Nat) : (c.touch g).tableWrites = c.tableWrites :=
  Cm.tableWrites_of_writesQueued (c.touch_writesQueued g)

@[simp] theorem Cm.setPage_tableWrites (c : Cm) (g q : Nat) (st : PageState) (p : Nat) :
    (c.setPage g q st p).tableWrites = c.tableWrites := Cm.touch_tableWrites _ _

theorem writes_length (l : List Nat) (f : Nat → TableWrite) :
    ((l.map fun k => MapEntry.write (f k)).filterMap MapEntry.write?).length = l.length := by
  rw [List.filterMap_map]
  exact (congrArg List.length (congrFun (List.filterMap_eq_map (f := f)) l)).trans (List.length_map ..)

/-- A change queues one write for each block it touches (R114). -/
@[simp] theorem Cm.queueWrites_tableWrites (c : Cm) (gs ks : List Nat) :
    (c.queueWrites gs ks).tableWrites = c.tableWrites + (blocksOf 4 gs).length + (blocksOf 16 ks).length := by
  simp only [Cm.tableWrites_eq_length, Cm.writesQueued_eq, Cm.queueWrites, List.filterMap_append, List.length_append,
    writes_length]

/-- A walk joined or queued is no table write (R117). -/
@[simp] theorem Cm.addWalk_tableWrites (c : Cm) (a : Asker) (g q : Nat) : (c.addWalk a g q).tableWrites = c.tableWrites := by
  refine Cm.tableWrites_of_writesQueued ?_
  unfold Cm.addWalk
  dsimp only
  split
  · rw [Cm.writesQueued_eq, Cm.writesQueued_eq, List.filterMap_map]
    refine congrArg (fun f => c.mapQ.filterMap f) (funext fun e => ?_)
    cases e with
    | write w => rfl
    | walk w =>
      simp only [Function.comp]
      split <;> rfl
  · rw [Cm.writesQueued_eq, Cm.writesQueued_eq, List.filterMap_append]
    simp [MapEntry.write?]

/-- The head's leaving queues nothing. -/
theorem Cm.tableWrites_drop_le (c : Cm) (n : Nat) (b : Bool) :
    ({ c with mapQ := c.mapQ.drop n, mapIssued := b } : Cm).tableWrites ≤ c.tableWrites := by
  rw [Cm.tableWrites_eq_length, Cm.tableWrites_eq_length, Cm.writesQueued_eq, Cm.writesQueued_eq]
  exact ((List.drop_sublist n c.mapQ).filterMap _).length_le

/-! ## The blocks touched -/

theorem insertNat_sorted {l : List Nat} (h : l.Pairwise (· < ·)) (x : Nat) : (insertNat x l).Pairwise (· < ·) := by
  induction l with
  | nil => simp [insertNat]
  | cons y ys ih =>
    obtain ⟨above, tail⟩ := List.pairwise_cons.mp h
    unfold insertNat
    split
    · refine List.pairwise_cons.mpr ⟨fun z hz => ?_, h⟩
      rcases List.mem_cons.mp hz with rfl | hz
      · assumption
      · exact Nat.lt_trans ‹x < y› (above z hz)
    · split
      · exact h
      · refine List.pairwise_cons.mpr ⟨fun z hz => ?_, ih tail⟩
        rcases (mem_insertNat x z ys).mp hz with rfl | hz
        · omega
        · exact above z hz

theorem blocksOf_sorted (n : Nat) (xs : List Nat) : (blocksOf n xs).Pairwise (· < ·) := by
  induction xs with
  | nil => exact List.Pairwise.nil
  | cons x xs ih => exact insertNat_sorted ih (x / n)

/-- Keys whose blocks are among `k` in a row touch at most `k`. -/
theorem blocksOf_length_le_of_range {n lo k : Nat} {xs : List Nat} (h : ∀ x ∈ xs, lo ≤ x / n ∧ x / n < lo + k) :
    (blocksOf n xs).length ≤ k := by
  have among : blocksOf n xs ⊆ List.range' lo k := fun b hb => by
    obtain ⟨x, hx, rfl⟩ := (mem_blocksOf n xs b).mp hb
    obtain ⟨above, below⟩ := h x hx
    exact List.mem_range'_1.mpr ⟨above, below⟩
  have distinct : (blocksOf n xs).Nodup := (blocksOf_sorted n xs).imp fun lt => Nat.ne_of_lt lt
  simpa using (distinct.subperm among).length_le

theorem blocksOf_length_le (n : Nat) (xs : List Nat) : (blocksOf n xs).length ≤ xs.length := by
  have inserted : ∀ (x : Nat) (l : List Nat), (insertNat x l).length ≤ l.length + 1 := by
    intro x l
    induction l with
    | nil => exact Nat.le_refl _
    | cons y ys ih =>
      unfold insertNat
      split
      · simp
      · split <;> simp [ih]
  induction xs with
  | nil => exact Nat.le_refl _
  | cons x xs ih => exact (inserted _ _).trans (Nat.succ_le_succ ih)

/-- The segments of a show stand in the first 30 directory blocks. -/
theorem Cm.showSegments_blocks_le (c : Cm) : (blocksOf 4 c.showSegments).length ≤ 30 := by
  refine blocksOf_length_le_of_range (lo := 0) fun x hx => ?_
  obtain ⟨-, house⟩ := List.mem_filter.mp hx
  simp only [isHouse, Bool.not_eq_true', decide_eq_false_iff_not] at house
  omega

/-- The 64 page table entries of a segment stand in four blocks. -/
theorem segmentKeys_blocks_le (g : Nat) : (blocksOf 16 ((List.range 64).map (pageKey g))).length ≤ 4 := by
  refine blocksOf_length_le_of_range (lo := 4 * g) fun x hx => ?_
  obtain ⟨q, hq, rfl⟩ := List.mem_map.mp hx
  have := List.mem_range.mp hq
  unfold pageKey
  omega

/-! ## Parts of the content map that a change leaves -/

/-- The parts that count against a capacity, but for the map-region queue and the tables. -/
def Cm.held (c : Cm) : List ContentFrame × List CacheEntry × List Fill × List Serve × Nat :=
  (c.intake, c.cache, c.fills, c.serves, c.nextId)

theorem Cm.reads_of_held {c c' : Cm} (held : c'.held = c.held) : c'.reads = c.reads :=
  congrArg (fun x => (x.2.2.2.1.filter Serve.reading).length) held

/-- What keeps the records keeps the capacities, when the map-region queue has room for the writes. -/
theorem Cm.fits_of_held {c c' : Cm} (h : c.Fits) (held : c'.held = c.held)
    (writes : c'.tableWrites + c.fills.length ≤ 72)
    (fresh : c'.init = .waiting → c'.dir = [] ∧ c'.pages = [] ∧ c'.tableWrites = 0 ∧ c.fills = []) : c'.Fits := by
  simp only [Cm.held, Prod.mk.injEq] at held
  obtain ⟨intake, cache, fills, serves, nextId⟩ := held
  exact ⟨intake ▸ h.intake, cache ▸ h.cache, fills ▸ h.fills, serves ▸ h.serves, fills ▸ writes, fills ▸ fresh,
    serves ▸ h.ids, serves ▸ nextId ▸ h.below⟩

/-- A region with a DEFINED segment has been initialised. -/
theorem Cm.Fits.init_of_entry {c : Cm} (h : c.Fits) {g : Nat} {e : DirEntry} (entry : c.entry g = some e) :
    c.init ≠ .waiting := fun w => by
  rw [Cm.entry, (h.fresh w).1] at entry
  cases entry

/-- One that fills a page has been initialised, too. -/
theorem Cm.Fits.init_of_fill {c : Cm} (h : c.Fits) {f : Fill} (hf : f ∈ c.fills) : c.init ≠ .waiting := fun w => by
  rw [(h.fresh w).2.2.2] at hf
  cases hf

/-! ## Serve records -/

/-- Fewer serve records of the same kind have no more reads in flight. -/
theorem Cm.serves_sublist_fits {c : Cm} (h : c.Fits) {l : List Serve} (sub : l.Sublist c.serves) :
    ({ c with serves := l } : Cm).Fits ∧ ({ c with serves := l } : Cm).reads ≤ c.reads :=
  ⟨{ h with
      serves := sub.length_le.trans h.serves
      ids := (sub.map _).nodup h.ids
      below := fun r hr => h.below r (sub.subset hr) }, (sub.filter _).length_le⟩

/-- Records changed one by one, their numbers staying, and none with a read in flight that had none. -/
theorem Cm.serves_map_fits {c : Cm} (h : c.Fits) {f : Serve → Serve} (ids : ∀ r, (f r).id = r.id)
    (reading : ∀ r, (f r).reading = true → r.reading = true) :
    ({ c with serves := c.serves.map f } : Cm).Fits ∧ ({ c with serves := c.serves.map f } : Cm).reads ≤ c.reads := by
  refine ⟨{ h with serves := ?_, ids := ?_, below := ?_ }, ?_⟩
  · exact (List.length_map f).le.trans h.serves
  · have same : ((fun r : Serve => r.id) ∘ f) = fun r => r.id := funext ids
    show ((c.serves.map f).map fun r => r.id).Nodup
    rw [List.map_map, same]
    exact h.ids
  · intro r hr
    obtain ⟨r', hr', rfl⟩ := List.mem_map.mp hr
    rw [ids]
    exact h.below r' hr'
  · show ((c.serves.map f).filter Serve.reading).length ≤ (c.serves.filter Serve.reading).length
    rw [List.filter_map, List.length_map, ← List.countP_eq_length_filter, ← List.countP_eq_length_filter]
    exact List.countP_mono_left fun r _ hr => reading r hr

/-! ## Fill records -/

/-- Records changed one by one. -/
theorem Cm.fills_map_fits {c : Cm} (h : c.Fits) (f : Fill → Fill) : ({ c with fills := c.fills.map f } : Cm).Fits := by
  have same : (c.fills.map f).length = c.fills.length := List.length_map f
  refine { h with fills := same.le.trans h.fills, writes := ?_, fresh := fun w => ?_ }
  · exact (congrArg (c.tableWrites + ·) same).le.trans h.writes
  · obtain ⟨dir, pages, writes, fills⟩ := h.fresh w
    exact ⟨dir, pages, writes, by rw [fills]; rfl⟩

theorem Cm.onFill_fits {c : Cm} (h : c.Fits) (id : Nat) (g : Fill → Fill) : (c.onFill id g).Fits := Cm.fills_map_fits h _

theorem Cm.fills_sublist_fits {c : Cm} (h : c.Fits) {l : List Fill} (sub : l.Sublist c.fills) :
    ({ c with fills := l } : Cm).Fits := by
  have fewer := sub.length_le
  refine { h with fills := fewer.trans h.fills, writes := ?_, fresh := fun w => ?_ }
  · exact (Nat.add_le_add_left fewer c.tableWrites).trans h.writes
  · obtain ⟨dir, pages, writes, fills⟩ := h.fresh w
    exact ⟨dir, pages, writes, List.eq_nil_of_length_eq_zero (Nat.le_zero.mp (fewer.trans (by rw [fills]; rfl)))⟩

/-! ## The map cache (R116) -/

/-- An entry used again moves to the front. -/
theorem Cm.useEntry_cache_length {c : Cm} {e : CacheEntry} (he : e ∈ c.cache) :
    (c.useEntry e).cache.length ≤ c.cache.length := by
  have gone := List.length_filter_lt_length_iff_exists
    (p := fun x => !(x.segment == e.segment && x.page == e.page)) (l := c.cache)
  exact gone.mpr ⟨e, he, by simp⟩

theorem Cm.useEntry_fits {c : Cm} (h : c.Fits) {e : CacheEntry} (he : e ∈ c.cache) : (c.useEntry e).Fits :=
  { h with cache := (Cm.useEntry_cache_length he).trans h.cache }

theorem Cm.mem_of_cached {c : Cm} {g q : Nat} {e : CacheEntry} (h : c.cached g q = some e) : e ∈ c.cache :=
  List.mem_of_find?_eq_some h

theorem Cm.install_fits {c : Cm} (h : c.Fits) (e : CacheEntry) : (c.install e).Fits := by
  unfold Cm.install
  split
  · exact Cm.useEntry_fits h (Cm.mem_of_cached ‹_›)
  · exact { h with cache := Nat.succ_le_succ (List.length_take_le 15 _) }

@[simp] theorem Cm.install_reads (c : Cm) (e : CacheEntry) : (c.install e).reads = c.reads := by
  unfold Cm.install
  split <;> rfl

/-! ## Operations of the map on the station -/

namespace BlocksFit
variable {s : State} (h : s.Fits)
include h

theorem arrive {c : ReqClass} (r : Request) (free : c = .serve → s.smc.serve.length < 2) :
    (s.onSmc fun m => m.arrive c r).Fits := h.onSmc (Smc.arrive_fits h.smc r free)

theorem issueMap : s.issueMap.Fits := by
  unfold State.issueMap
  split
  · split
    · exact (h.arrive (c := .walk) _ nofun).onCm { h.cm with } (Nat.le_refl _)
    · exact h
  · exact h

theorem popMap : s.popMap.Fits := by
  refine (h.onCm ?_ (Nat.le_refl _)).issueMap
  have fewer := s.cm.tableWrites_drop_le 1 false
  refine Cm.fits_of_held h.cm rfl ((Nat.add_le_add_right fewer _).trans h.cm.writes) fun w => ?_
  obtain ⟨dir, pages, none, fills⟩ := h.cm.fresh w
  exact ⟨dir, pages, Nat.le_zero.mp (none ▸ fewer), fills⟩

theorem raiseStoreFull (g q : Nat) : (s.raiseStoreFull g q).Fits :=
  (h.raise _ _).onCm { h.cm with } (Nat.le_refl _)

/-- A fill opened: one record and one table write more (R125, R127). -/
theorem openFill (g q p : Nat) (fetch : Bool) (init : s.cm.init ≠ .waiting) (record : s.cm.fills.length < 8)
    (room : s.cm.tableWrites + s.cm.fills.length ≤ 70) : (s.openFill g q p fetch).Fits := by
  have blocks : (blocksOf 16 [pageKey g q]).length = 1 := rfl
  have queued : ((((s.cm.take p).setPage g q .filling p)).queueWrites [] [pageKey g q]).tableWrites =
      s.cm.tableWrites + 1 := by
    rw [Cm.queueWrites_tableWrites, blocks, Cm.setPage_tableWrites]
    rfl
  refine (h.onCm ⟨h.cm.intake, h.cm.cache, ?_, h.cm.serves, ?_, fun w => absurd w init, h.cm.ids, fun r hr => ?_⟩
    (Nat.le_refl _)).issueMap
  · show (s.cm.fills ++ [_]).length ≤ 8
    rw [List.length_append]
    exact record
  · refine Nat.le_trans (Nat.le_of_eq (congrArg₂ (· + ·) queued (List.length_append (as := s.cm.fills)))) ?_
    show s.cm.tableWrites + 1 + (s.cm.fills.length + 1) ≤ 72
    omega
  · exact Nat.lt_succ_of_lt (h.cm.below r hr)

/-- A fetch begins with fewer than 8 records and 64 table writes (R127). -/
theorem startFetch (g q : Nat) (init : s.cm.init ≠ .waiting) : (s.startFetch g q).Fits := by
  unfold State.startFetch
  split
  · exact h
  · rename_i room
    split
    · exact h.raiseStoreFull g q
    · exact h.openFill g q _ true init (by omega) (by omega)

/-- A lookup of a page finds its segment DEFINED before it fetches or walks (R115). -/
theorem lookup (who : Asker) (g off : Nat) (k : SegType) : (s.lookup who g off k).1.Fits := by
  unfold State.lookup
  split
  · exact h
  · rename_i e entry
    have init := h.cm.init_of_entry entry
    split
    · exact h
    · split
      · exact h
      · dsimp only
        split
        · split
          · exact h.onCm (Cm.useEntry_fits h.cm (Cm.mem_of_cached ‹_›)) (Nat.le_refl _)
          · have walks := s.cm.addWalk_tableWrites who g (off / 16384)
            have same : (s.cm.addWalk who g (off / 16384)).held = s.cm.held ∧
                (s.cm.addWalk who g (off / 16384)).init = s.cm.init := by
              unfold Cm.addWalk
              dsimp only
              split <;> exact ⟨rfl, rfl⟩
            exact (h.onCm (Cm.fits_of_held h.cm same.1 (walks.symm ▸ h.cm.writes) fun w => absurd (same.2 ▸ w) init)
              (Cm.reads_of_held same.1).le).issueMap
        · exact h.startFetch g _ init
        · exact h
        · exact h

theorem queueRequest : s.queueRequest.Fits := by
  unfold State.queueRequest
  split
  · split
    · refine (h.onCm (Cm.onFill_fits h.cm _ _) (Nat.le_refl _)).onLiu { h.liu with fetch := ?_ } (Nat.le_refl _)
      rw [List.length_append]
      exact ‹s.liu.fetchQ.length < 2›
    · exact h
  · exact h

theorem queueRequests : s.queueRequests.Fits := h.queueRequest.queueRequest

theorem freeFill (id : Nat) : (s.freeFill id).Fits :=
  (h.onCm (Cm.fills_sublist_fits h.cm List.filter_sublist) (Nat.le_refl _)).onLiu (Liu.withdrawFetch_fits h.liu id)
    (Nat.le_refl _)

theorem dropServe (id : Nat) : (s.dropServe id).Fits := by
  obtain ⟨fits, reads⟩ := Cm.serves_sublist_fits h.cm (l := s.cm.serves.filter fun r => r.id != id) List.filter_sublist
  exact (h.onCm fits reads).onLiu (Liu.withdrawContent_fits h.liu id) (withdrawFrom_length_le _ _ _)

/-- An operation repeated over a list, each time keeping the capacities. -/
theorem foldl {α : Type} {f : State → α → State} (keep : ∀ (x : State) (a : α), x.Fits → (f x a).Fits) (l : List α) :
    (l.foldl f s).Fits := List.foldlRecOn (motive := fun x : State => x.Fits) l f h fun x hx a _ => keep x a hx

theorem freeFills (l : List Fill) : (l.foldl (fun s f => s.freeFill f.id) s).Fits :=
  h.foldl (fun _ f hx => hx.freeFill f.id) l

theorem dropServes (l : List Serve) : (l.foldl (fun s r => s.dropServe r.id) s).Fits :=
  h.foldl (fun _ r hx => hx.dropServe r.id) l
end BlocksFit

end Sys2Proof.Machine
end

