-- ==== Sys2Proof/Proofs/CapacityContent.lean ====
section
/-!
The content map's events keep the capacities (spec/06, R120 to R135): releases and definitions, pages and chunks, changes,
serves, and the map region's initialisation and reset.
-/
namespace Sys2Proof.Machine

/-! ## Table writes left alone -/

/-- From `s` to `t` no table write is queued or leaves, no fill record is opened, and the initialisation stands where it
stood. -/
structure QueuesNothing (s t : State) : Prop where
  init : t.cm.init = s.cm.init
  writes : t.cm.tableWrites = s.cm.tableWrites
  fills : t.cm.fills.length ≤ s.cm.fills.length

theorem QueuesNothing.refl (s : State) : QueuesNothing s s := ⟨rfl, rfl, Nat.le_refl _⟩

theorem QueuesNothing.trans {s t u : State} (h : QueuesNothing s t) (h' : QueuesNothing t u) : QueuesNothing s u :=
  ⟨h'.init.trans h.init, h'.writes.trans h.writes, h'.fills.trans h.fills⟩

theorem QueuesNothing.foldl {α : Type} {f : State → α → State} (keep : ∀ (x : State) (a : α), QueuesNothing x (f x a))
    (l : List α) (s : State) : QueuesNothing s (l.foldl f s) :=
  List.foldlRecOn (motive := QueuesNothing s) l f (.refl s) fun _ hx a _ => hx.trans (keep _ a)

section
variable (s : State)

theorem State.issueMap_queuesNothing : QueuesNothing s s.issueMap := by
  unfold State.issueMap
  split
  · split <;> exact ⟨rfl, rfl, Nat.le_refl _⟩
  · exact .refl s

theorem State.freeFill_queuesNothing (id : Nat) : QueuesNothing s (s.freeFill id) :=
  ⟨rfl, rfl, List.length_filter_le _ _⟩

theorem State.dropServe_queuesNothing (id : Nat) : QueuesNothing s (s.dropServe id) := ⟨rfl, rfl, Nat.le_refl _⟩
end

/-! ## Releases (R122) -/

/-- Physical pages given back reach the free page set and the store-full flag alone. -/
theorem Cm.giveBacks_eq (l : List (Nat × Pte)) (c : Cm) : ∃ taken full,
    l.foldl (fun c e => match e.2.state with
      | .filling | .present => c.giveBack e.2.phys
      | _ => c) c = { c with taken := taken, storeFull := full } := by
  induction l generalizing c with
  | nil => exact ⟨_, _, rfl⟩
  | cons e l ih =>
    rw [List.foldl_cons]
    split
    · exact ih (c.giveBack e.2.phys)
    · exact ih (c.giveBack e.2.phys)
    · exact ih c

/-- The pages of segment `g` gone from the on-chip copy: steps 1 and 2 of a release. -/
def State.pagesDropped (s : State) (g : Nat) : State :=
  (s.onCm fun c => (s.cm.pages.filter fun e => e.1 / 64 == g).foldl (fun c e => match e.2.state with
    | .filling | .present => c.giveBack e.2.phys
    | _ => c) c).onCm fun c => { c with pages := c.pages.filter fun e => e.1 / 64 != g }

/-- The records of segment `g` gone: steps 3 and 4 of a release. -/
def State.recordsDropped (s : State) (g : Nat) : State :=
  let t := (s.cm.fills.filter fun f => f.segment == g).foldl (fun s f => s.freeFill f.id) s
  (t.cm.serves.filter fun r => r.segment == g).foldl (fun s r => s.dropServe r.id) t

theorem State.releaseOne_eq (s : State) (g : Nat) : s.releaseOne g =
    (((s.pagesDropped g).recordsDropped g).onCm fun c =>
      ({ c with cache := c.cache.filter fun e => e.segment != g, dir := Table.drop c.dir g } : Cm).touch g).onAu fun a =>
        a.segmentFreed g := rfl

section
variable {s : State} (h : s.Fits)
include h

theorem State.pagesDropped_fits (g : Nat) : (s.pagesDropped g).Fits ∧ QueuesNothing s (s.pagesDropped g) := by
  obtain ⟨taken, full, e⟩ := Cm.giveBacks_eq (s.cm.pages.filter fun e => e.1 / 64 == g) s.cm
  have cm : (s.pagesDropped g).cm =
      { s.cm with taken := taken, storeFull := full, pages := s.cm.pages.filter fun e => e.1 / 64 != g } :=
    congrArg (fun c : Cm => ({ c with pages := c.pages.filter fun e => e.1 / 64 != g } : Cm)) e
  have fits : (s.pagesDropped g).cm.Fits := by
    rw [cm]
    exact { h.cm with fresh := fun w => (h.cm.fresh w).imp_right fun x => x.imp_left fun none => by rw [none]; rfl }
  refine ⟨{ h with cm := fits, content := ?_ }, ?_⟩
  · rw [cm]
    exact h.content
  · refine ⟨(congrArg Cm.init cm).trans rfl, ?_, (congrArg (fun c => c.fills.length) cm).le⟩
    rw [cm]
    rfl

theorem State.recordsDropped_fits (g : Nat) : (s.recordsDropped g).Fits ∧ QueuesNothing s (s.recordsDropped g) :=
  ⟨(h.freeFills _).dropServes _,
    (QueuesNothing.foldl (fun x (f : Fill) => x.freeFill_queuesNothing f.id) _ s).trans
      (QueuesNothing.foldl (fun x (r : Serve) => x.dropServe_queuesNothing r.id) _ _)⟩

theorem State.releaseOne_fits (g : Nat) : (s.releaseOne g).Fits ∧ QueuesNothing s (s.releaseOne g) := by
  obtain ⟨fits, none⟩ := State.pagesDropped_fits h g
  obtain ⟨fits, none'⟩ := State.recordsDropped_fits fits g
  have before := none.trans none'
  rw [State.releaseOne_eq]
  generalize (s.pagesDropped g).recordsDropped g = x at fits before
  have writes : (({ x.cm with cache := x.cm.cache.filter fun e => e.segment != g, dir := Table.drop x.cm.dir g } : Cm).touch
      g).tableWrites = x.cm.tableWrites := Cm.touch_tableWrites _ g
  refine ⟨(fits.onCm { fits.cm with
    cache := (List.length_filter_le _ _).trans fits.cm.cache
    writes := writes.symm ▸ fits.cm.writes
    fresh := fun w => ?_ } (Nat.le_refl _)).onAu _, before.trans ⟨rfl, writes, Nat.le_refl _⟩⟩
  obtain ⟨dir, pages, none, fills⟩ := fits.cm.fresh w
  refine ⟨?_, pages, writes.trans none, fills⟩
  show Table.drop x.cm.dir g = []
  rw [dir]
  rfl

theorem State.releaseAll_fits (gs : List Nat) :
    (gs.foldl State.releaseOne s).Fits ∧ QueuesNothing s (gs.foldl State.releaseOne s) :=
  List.foldlRecOn (motive := fun x : State => x.Fits ∧ QueuesNothing s x) gs _ ⟨h, .refl s⟩ fun _ hx g _ =>
    ⟨(State.releaseOne_fits hx.1 g).1, hx.2.trans (State.releaseOne_fits hx.1 g).2⟩

/-- A release queues one table write for each directory block (R122). -/
theorem State.release_fits (gs : List Nat) (init : s.cm.init ≠ .waiting)
    (room : s.cm.tableWrites + (blocksOf 4 gs).length + s.cm.fills.length ≤ 72) :
    (s.release gs).Fits ∧ (s.release gs).cm.init = s.cm.init ∧
      (s.release gs).cm.tableWrites = s.cm.tableWrites + (blocksOf 4 gs).length ∧
      (s.release gs).cm.fills.length ≤ s.cm.fills.length := by
  obtain ⟨fits, before⟩ := State.releaseAll_fits h gs
  have issued := ((gs.foldl State.releaseOne s).onCm fun c => c.queueWrites gs []).issueMap_queuesNothing
  have fewer := before.fills
  have writes : ((gs.foldl State.releaseOne s).cm.queueWrites gs []).tableWrites =
      s.cm.tableWrites + (blocksOf 4 gs).length := by
    rw [Cm.queueWrites_tableWrites, before.writes]
    rfl
  refine ⟨(fits.onCm (Cm.fits_of_held fits.cm rfl ?_ fun w => absurd (before.init ▸ w) init) (Nat.le_refl _)).issueMap,
    issued.init.trans before.init, issued.writes.trans writes, issued.fills.trans fewer⟩
  rw [writes]
  omega

/-! ## The intake (R120 to R124) -/

theorem State.popIntake_fits : s.popIntake.Fits :=
  h.onCm { h.cm with intake := (List.drop_sublist 1 _).length_le.trans h.cm.intake } (Nat.le_refl _)

theorem State.takeSelect_fits (n : Nat) (init : s.cm.init ≠ .waiting) (room : s.cm.tableWrites ≤ 32) :
    (s.takeSelect n).Fits := by
  have blocks := s.cm.showSegments_blocks_le
  have fills := h.cm.fills
  unfold State.takeSelect
  split
  · exact h
  · split
    · exact h.raise _ _
    · split
      · exact h
      · have released := (State.release_fits h s.cm.showSegments init (by omega)).1
        exact released.onCm { released.cm with } (Nat.le_refl _)

theorem State.releaseIfDefined_fits (g : Nat) (init : s.cm.init ≠ .waiting) (room : s.cm.tableWrites ≤ 32) :
    (s.releaseIfDefined g).Fits ∧ (s.releaseIfDefined g).cm.init = s.cm.init ∧
      (s.releaseIfDefined g).cm.tableWrites ≤ s.cm.tableWrites + 1 := by
  have block := blocksOf_length_le 4 [g]
  have fills := h.cm.fills
  rw [List.length_singleton] at block
  unfold State.releaseIfDefined
  split
  · obtain ⟨fits, same, writes, -⟩ := State.release_fits h [g] init (by omega)
    exact ⟨fits, same, writes.le.trans (Nat.add_le_add_left block _)⟩
  · exact ⟨h, rfl, Nat.le_succ _⟩

/-- A definition queues the writes of one directory block and four of page table entries (R124). -/
theorem State.define_fits (g : Nat) (e : DirEntry) (init : s.cm.init ≠ .waiting) (room : s.cm.tableWrites ≤ 33) :
    (s.define g e).Fits := by
  have block := blocksOf_length_le 4 [g]
  have keys := segmentKeys_blocks_le g
  have fills := h.cm.fills
  rw [List.length_singleton] at block
  refine (h.onCm (Cm.fits_of_held h.cm rfl ?_ fun w => absurd w init) (Nat.le_refl _)).issueMap
  rw [Cm.queueWrites_tableWrites, Cm.touch_tableWrites]
  show s.cm.tableWrites + _ + _ + _ ≤ 72
  omega

theorem State.takeDefine_fits (f : SegmentDefineFields) (init : s.cm.init ≠ .waiting) (room : s.cm.tableWrites ≤ 32) :
    (s.takeDefine f).Fits := by
  obtain ⟨released, same, writes⟩ := State.releaseIfDefined_fits h (segmentOf f) init room
  unfold State.takeDefine
  dsimp only
  split
  · exact h
  · split
    · exact h.raise _ _
    · split
      · exact released
      · split
        · exact h
        · exact State.define_fits released _ _ (same ▸ init) (by omega)

/-! ## Pages (R125, R126) -/

theorem State.feed_fits (x : Fill) (chunk : Nat) (data : List Byte) : (s.feed x chunk data).Fits := by
  have timed := h.onCm (g := fun c => c.onFill x.id (Fill.startTimer s.tbu.basinTime s.fetchTicks))
    (Cm.onFill_fits h.cm _ _) (Nat.le_refl _)
  unfold State.feed
  dsimp only
  split
  · exact timed
  · exact (timed.onCm { Cm.onFill_fits timed.cm x.id _ with } (Nat.le_refl _)).arrive _ nofun

theorem State.feedPage_fits (g q : Nat) (f : PageDataFields) : (s.feedPage g q f).Fits := by
  unfold State.feedPage
  split
  · exact State.feed_fits h _ _ _
  · exact h

theorem State.takePageData_fits (f : PageDataFields) (init : s.cm.init ≠ .waiting) (room : s.cm.tableWrites ≤ 32) :
    (s.takePageData f).Fits := by
  have opened : (if 8 ≤ s.cm.fills.length then s
      else match s.cm.lowestFree with
        | none => s.raiseStoreFull f.segment.toNat f.page.toNat
        | some p => (s.openFill f.segment.toNat f.page.toNat p false).feedPage f.segment.toNat f.page.toNat f).Fits := by
    split
    · exact h
    · split
      · exact h.raiseStoreFull _ _
      · exact State.feedPage_fits (h.openFill _ _ _ _ init (by omega) (by omega)) _ _ _
  unfold State.takePageData
  dsimp only
  split
  · exact h.raise _ _
  · split
    · exact h
    · split
      · exact h
      · split
        · exact h.raise _ _
        · split
          · exact h
          · exact State.feedPage_fits h _ _ _
          · exact opened
          · exact opened

/-! ## Changes (R114, R126, R129) -/

/-- A change needs one place for its table write. -/
theorem State.applyChange_fits (x : Change) (room : s.cm.tableWrites < 64) : (s.applyChange x).Fits := by
  have fills := h.cm.fills
  have changed : ∀ (c : Cm) (key : Nat), c.held = s.cm.held → c.init = s.cm.init → c.tableWrites = s.cm.tableWrites →
      (c.init ≠ .waiting) → (c.queueWrites [] [key]).Fits := by
    intro c key held init writes begun
    refine Cm.fits_of_held h.cm held ?_ fun w => absurd w begun
    rw [Cm.queueWrites_tableWrites, writes]
    show s.cm.tableWrites + 0 + 1 + _ ≤ 72
    omega
  unfold State.applyChange
  split
  · split
    · rename_i f found
      have init := h.cm.init_of_fill (List.mem_of_find?_eq_some found)
      have made := changed (s.cm.setPage f.segment f.page .present f.phys) (pageKey f.segment f.page) rfl rfl
        (Cm.setPage_tableWrites ..) init
      exact ((h.onCm made (Nat.le_refl _)).freeFill _).issueMap
    · exact h
  · split
    · rename_i f found
      have init := h.cm.init_of_fill (List.mem_of_find?_eq_some found)
      have made := changed ((s.cm.setPage f.segment f.page .unavailable 0).giveBack f.phys) (pageKey f.segment f.page) rfl
        rfl (Cm.setPage_tableWrites ..) init
      exact (((h.onCm made (Nat.le_refl _)).freeFill _).raise _ _).issueMap
    · exact h

theorem State.makeChange_fits (x : Change) : (s.makeChange x).Fits := by
  unfold State.makeChange
  split
  · rename_i now
    exact State.applyChange_fits h x now.2
  · exact h.onCm { h.cm with } (Nat.le_refl _)

theorem State.chunkDone_fits : s.chunkDone.Fits := by
  have free : (s.onCm fun c => { c with chunk := none }).Fits := h.onCm { h.cm with } (Nat.le_refl _)
  unfold State.chunkDone
  dsimp only
  split
  · exact State.makeChange_fits free _
  · exact free

theorem State.fetchExpired_fits (f : Fill) : (s.fetchExpired f).Fits := by
  unfold State.fetchExpired
  split
  · exact (h.onCm (Cm.onFill_fits h.cm _ _) (Nat.le_refl _)).queueRequest
  · exact State.makeChange_fits (h.onCm (Cm.onFill_fits h.cm _ _) (Nat.le_refl _)) _

/-! ## Serves (R130 to R133) -/

theorem State.serveAnswer_fits (id : Nat) (a : Answer) : (s.serveAnswer id a).Fits := by
  unfold State.serveAnswer
  split
  · rename_i p
    obtain ⟨fits, reads⟩ := Cm.serves_map_fits h.cm (f := fun r =>
      match r.stage with
      | .sending none n f => if r.id = id then { r with stage := .sending (some p) n f } else r
      | _ => r)
      (fun r => by split <;> [split; skip] <;> rfl)
      (fun r hr => by
        split at hr
        · split at hr
          · rw [Serve.reading, ‹r.stage = _›]
            exact hr
          · exact hr
        · exact hr)
    exact h.onCm fits reads
  · exact h

theorem State.serveLookup_fits (r : Serve) : (s.serveLookup r).1.Fits := h.lookup _ _ _ _

theorem State.startSending_fits (r : Serve) : (s.startSending r).Fits := by
  obtain ⟨fits, reads⟩ := Cm.serves_map_fits h.cm
    (f := fun x => if x.id = r.id then { x with stage := .sending none 0 false } else x)
    (fun x => by split <;> rfl)
    (fun x hx => by
      split at hx
      · cases hx
      · exact hx)
  exact State.serveAnswer_fits (State.serveLookup_fits (h.onCm fits reads) r) _ _

/-- A PAGE_REQUEST is served under a new number (R130). -/
theorem State.hearPageRequest_fits (p : Position) (n g q : Nat) : (s.hearPageRequest p n g q).Fits := by
  unfold State.hearPageRequest
  split
  · rename_i serves
    have free : s.cm.serves.length < 2 := by
      simp only [State.serves, Bool.and_eq_true, decide_eq_true_eq] at serves
      exact serves.1.2
    refine h.onCm { h.cm with serves := ?_, ids := ?_, below := fun r hr => ?_ } (Nat.le_of_eq ?_)
    · rw [List.length_append]
      exact free
    · rw [List.map_append]
      refine List.nodup_append.mpr ⟨h.cm.ids, List.nodup_singleton _, fun a ha b hb => ?_⟩
      obtain ⟨r, hr, rfl⟩ := List.mem_map.mp ha
      rw [List.mem_singleton.mp hb]
      exact Nat.ne_of_lt (h.cm.below r hr)
    · rcases List.mem_append.mp hr with old | new
      · exact Nat.lt_succ_of_lt (h.cm.below r old)
      · rw [List.mem_singleton.mp new]
        exact Nat.lt_succ_self _
    · show ((s.cm.serves ++ [_]).filter Serve.reading).length = s.cm.reads
      rw [List.filter_append, List.length_append]
      rfl
  · exact h

theorem State.intoIntake_fits (f : ContentFrame) : (s.intoIntake f).Fits := by
  unfold State.intoIntake
  split
  · exact h.onLiu { h.liu with } (Nat.le_refl _)
  · refine h.onCm { h.cm with intake := ?_ } (Nat.le_refl _)
    rw [List.length_append]
    exact Nat.not_le.mp ‹_›

theorem State.hearPageData_fits (p : Position) (f : PageDataFields) : (s.hearPageData p f).Fits :=
  State.intoIntake_fits (h.dropServes _) _

end

/-! ### The reads of a serve record (R132) -/

/-- One record of its number: with it set aside, the reads in flight are those of the other. -/
theorem Cm.reads_eq {c : Cm} (ids : (c.serves.map fun r => r.id).Nodup) {r : Serve} (hr : r ∈ c.serves) :
    c.reads = c.otherReads r.id + r.reading.toNat := by
  unfold Cm.reads Cm.otherReads
  generalize c.serves = l at ids hr
  induction l with
  | nil => cases hr
  | cons x l ih =>
    obtain ⟨new, distinct⟩ := List.nodup_cons.mp ids
    by_cases same : x = r
    · subst same
      have others : (l.filter fun y => y.id != x.id && y.reading) = l.filter Serve.reading := by
        refine List.filter_congr fun y hy => ?_
        have ne : y.id ≠ x.id := fun e => new (List.mem_map.mpr ⟨y, hy, e⟩)
        simp [ne]
      rw [List.filter_cons, List.filter_cons, others]
      cases x.reading <;> simp
    · have mem : r ∈ l := (List.mem_cons.mp hr).resolve_left fun e => same e.symm
      have ne : x.id ≠ r.id := fun e => new (List.mem_map.mpr ⟨r, mem, e.symm⟩)
      have rest := ih distinct mem
      rw [List.filter_cons, List.filter_cons]
      cases x.reading <;> simp [ne] <;> omega

/-- The record changed, the reads in flight of the other stay. -/
theorem Cm.onServe_otherReads (c : Cm) (id : Nat) {g : Serve → Serve} (ids : ∀ x, (g x).id = x.id) :
    (c.onServe id g).otherReads id = c.otherReads id := by
  have skipped : ∀ x : Serve, ((if x.id = id then g x else x).id != id && (if x.id = id then g x else x).reading) =
      (x.id != id && x.reading) := by
    intro x
    by_cases e : x.id = id
    · simp [e, ids]
    · rw [if_neg e]
  unfold Cm.otherReads Cm.onServe
  dsimp only
  rw [← List.countP_eq_length_filter, List.countP_map, ← List.countP_eq_length_filter]
  exact List.countP_congr fun x _ => by rw [Function.comp_apply, skipped]

theorem Cm.onServe_fits {c : Cm} (h : c.Fits) (id : Nat) {g : Serve → Serve} (ids : ∀ x, (g x).id = x.id) :
    (c.onServe id g).Fits := by
  have same : ((c.onServe id g).serves.map fun r => r.id) = c.serves.map fun r => r.id := by
    unfold Cm.onServe
    rw [List.map_map]
    refine List.map_congr_left fun x _ => ?_
    simp only [Function.comp]
    split
    · exact ids x
    · rfl
  refine { h with serves := (List.length_map _).le.trans h.serves, ids := same ▸ h.ids, below := fun r hr => ?_ }
  obtain ⟨x, hx, e⟩ := List.mem_map.mp (same ▸ List.mem_map_of_mem (f := fun r : Serve => r.id) hr)
  exact e ▸ h.below x hx

section
variable {s : State} (h : s.Fits)
include h

/-- The change of a serve record and of the CONTENT queue keeps the capacities when the reads in flight and the queue have
room together. -/
theorem State.onServe_fits {r : Serve} (hr : r ∈ s.cm.serves) {g : Serve → Serve} (ids : ∀ x, (g x).id = x.id)
    {l : Liu} (liu : l.Fits)
    (room : l.contentQ.length + 4 * (s.cm.otherReads r.id + (g r).reading.toNat) ≤ 16) :
    BlocksFit s.ce (s.cm.onServe r.id g) l s.smc s.biu.faults := by
  have fits := Cm.onServe_fits h.cm r.id ids
  have mem : g r ∈ (s.cm.onServe r.id g).serves := List.mem_map.mpr ⟨r, hr, if_pos rfl⟩
  refine { h with cm := fits, liu := liu, content := ?_ }
  rw [Cm.reads_eq fits.ids mem, ids, Cm.onServe_otherReads _ _ ids]
  exact room

theorem State.issueServeRead_fits {r : Serve} (hr : r ∈ s.cm.serves) (may : s.mayRead r = true)
    (free : s.smc.serve.length < 2) : (s.issueServeRead r).Fits := by
  unfold State.issueServeRead
  split
  · rename_i p next f stage
    have room : s.liu.contentQ.length + 4 + 4 * s.cm.otherReads r.id ≤ 16 := by
      rw [State.mayRead, stage] at may
      split at may
      · simp only [Bool.and_eq_true, decide_eq_true_eq] at may
        exact may.2
      · cases may
    have issued : (s.onCm fun c => c.onServe r.id fun x => { x with stage := .sending (some p) next true }).Fits := by
      refine State.onServe_fits h hr (g := fun x => { x with stage := .sending (some p) next true }) (fun _ => rfl) h.liu ?_
      show s.liu.contentQ.length + 4 * (_ + 1) ≤ 16
      omega
    exact issued.arrive _ fun _ => free
  · exact h

theorem State.serveReadDone_fits (id : Nat) (bytes : List Byte) : (s.serveReadDone id bytes).Fits := by
  unfold State.serveReadDone
  split
  · rename_i r found
    have hr := List.mem_of_find?_eq_some found
    have same : r.id = id := by simpa using List.find?_some found
    split
    · rename_i a next stage
      have reading : r.reading = true := by rw [Serve.reading, stage]
      have content : s.liu.contentQ.length + 4 * s.cm.reads ≤ 16 := h.content
      rw [Cm.reads_eq h.cm.ids hr, reading, Bool.toNat_true] at content
      subst same
      refine State.onServe_fits h hr (g := fun x => { x with stage := .sending a (next + 4) false }) (fun _ => rfl)
        (l := { s.liu with contentQ := s.liu.contentQ ++ framesOf (s.cm.showOf r.segment) r next bytes }) { h.liu with } ?_
      rw [List.length_append]
      show s.liu.contentQ.length + 4 + 4 * (_ + 0) ≤ 16
      omega
    · exact h
  · exact h

/-! ## What goes out (R128, R132) -/

theorem State.wentOut_fits : (s.onLiu Liu.wentOut).Fits :=
  h.onLiu { h.liu with fails := Nat.zero_le _ } (Nat.le_refl _)

theorem State.requestOut_fits : s.requestOut.Fits := by
  unfold State.requestOut
  split
  · rename_i f rest queue
    have fetch := h.liu.fetch
    rw [queue, List.length_cons] at fetch
    exact (h.onLiu { h.liu with fails := Nat.zero_le _, fetch := Nat.le_of_succ_le fetch } (Nat.le_refl _)).onCm
      (Cm.onFill_fits h.cm _ _) (Nat.le_refl _)
  · exact State.wentOut_fits h

theorem State.dataOut_fits : s.dataOut.Fits := by
  unfold State.dataOut
  split
  · rename_i p rest queue
    have out := h.onLiu (g := fun l =>
        { l.wentOut with contentQ := rest, yieldCount := min 4 (l.yieldCount + 1) })
      { h.liu with fails := Nat.zero_le _, yield := Nat.min_le_left _ _ } (by
        rw [queue]
        exact Nat.le_succ _)
    dsimp only
    split
    · obtain ⟨fits, reads⟩ := Cm.serves_sublist_fits h.cm (l := s.cm.serves.filter fun r => r.id != p.serve)
        List.filter_sublist
      exact out.onCm fits reads
    · exact out
  · exact State.wentOut_fits h

/-! ## The map-region queue (R114, R135) -/

theorem State.mapAccessDone_fits : s.mapAccessDone.Fits := by
  unfold State.mapAccessDone
  split
  · refine (h.onCm ?_ (Nat.le_of_eq ?_)).popMap
    · split
      · refine { h.cm with fresh := fun w => ?_ }
        dsimp only at w
        split at w
        · cases w
        · exact h.cm.fresh ‹_›
      · exact h.cm
    · split <;> rfl
  · rename_i w rest queue
    split
    · exact h.popMap
    · have same : ({ s.cm with mapQ := .walk { w with second := true } :: rest, mapIssued := false } : Cm).tableWrites =
          s.cm.tableWrites := by
        refine Cm.tableWrites_of_writesQueued ?_
        rw [Cm.writesQueued_eq, Cm.writesQueued_eq, queue]
        rfl
      refine (h.onCm (Cm.fits_of_held h.cm rfl (same ▸ h.cm.writes) fun waits => ?_) (Nat.le_refl _)).issueMap
      obtain ⟨dir, pages, none, fills⟩ := h.cm.fresh waits
      exact ⟨dir, pages, same.trans none, fills⟩
  · exact h

/-- The initialisation queues 32 table writes where none stands. -/
theorem State.initMap_fits : s.initMap.Fits := by
  unfold State.initMap
  split
  · rename_i waits
    obtain ⟨-, -, none, fills⟩ := h.cm.fresh waits.1
    have queued : ({ s.cm with
        mapQ := s.cm.mapQ ++ (List.range 32).map (fun k => .write (s.cm.dirWrite (List.range 128) true k))
        init := .left 32 } : Cm).tableWrites = 32 := by
      rw [Cm.tableWrites_eq_length, Cm.writesQueued_eq] at none ⊢
      dsimp only
      rw [List.filterMap_append, List.length_append, none, writes_length, List.length_range]
    refine (h.onCm (Cm.fits_of_held h.cm rfl ?_ ?_) (Nat.le_refl _)).issueMap
    · rw [queued, fills]
      decide
    · exact nofun
  · exact h
end

/-- A reset point leaves every table write (R149). -/
theorem Cm.abandonAccesses_writesQueued (c : Cm) : c.abandonAccesses.writesQueued = c.writesQueued := by
  rw [Cm.writesQueued_eq, Cm.writesQueued_eq, Cm.abandonAccesses, List.filterMap_map]
  refine congrArg (fun f => c.mapQ.filterMap f) (funext fun e => ?_)
  cases e <;> rfl

/-- A warm reset queues a table write for at most each FILLING page (R135). -/
theorem Cm.afterWarm_tableWrites_le (c : Cm) : c.afterWarm.tableWrites ≤ c.tableWrites + c.fillingPages.length := by
  obtain ⟨-, -, -, writes, -, -⟩ := Cm.dropFillings_fields c c.fillingPages
  obtain ⟨x, after, same⟩ : ∃ x : Cm, c.afterWarm = x.queueWrites [] (c.fillingPages.map fun e => e.1) ∧
      x.writesQueued = c.writesQueued := by
    refine ⟨_, rfl, ?_⟩
    rw [← writes, Cm.writesQueued_eq, Cm.writesQueued_eq, List.filterMap_append]
    exact writes_staying _ _ _ _ (fun e => by cases e <;> rfl) fun e => by cases e <;> rfl
  have blocks := blocksOf_length_le 16 (c.fillingPages.map fun e => e.1)
  rw [List.length_map] at blocks
  rw [after, Cm.queueWrites_tableWrites, Cm.tableWrites_of_writesQueued same]
  exact Nat.add_le_add_left blocks _

/-- Each FILLING page has its fill record (R125). -/
theorem State.fillingPages_length_le {s : State} (tables : s.pagesConserved) :
    s.cm.fillingPages.length ≤ s.cm.fills.length := by
  obtain ⟨-, -, -, rises, -, -, recorded, -, -⟩ := tables
  have keys : (s.cm.pages.map fun e => e.1).Nodup := by
    have sorted : ∀ (t : List (Nat × Pte)) (lo : Option Nat), Table.risesFrom lo t = true →
        (t.map fun e => e.1).Nodup := by
      intro t
      induction t with
      | nil => exact fun _ _ => List.nodup_nil
      | cons e t ih =>
        intro lo up
        have tail := Table.risesFrom_tail up
        refine List.nodup_cons.mpr ⟨fun again => ?_, ih _ tail⟩
        obtain ⟨e', he', same⟩ := List.mem_map.mp again
        exact Nat.ne_of_gt (Table.risesFrom_mem tail he') same
    exact sorted _ _ rises
  have distinct : (s.cm.fillingPages.map fun e => e.1).Nodup := (List.filter_sublist.map _).nodup keys
  have among : (s.cm.fillingPages.map fun e => e.1) ⊆ s.cm.fills.map fun f => pageKey f.segment f.page := by
    intro k hk
    obtain ⟨e, he, rfl⟩ := List.mem_map.mp hk
    obtain ⟨mem, filling⟩ := List.mem_filter.mp he
    obtain ⟨f, hf, key⟩ := recorded e mem (by simpa using filling)
    exact List.mem_map.mpr ⟨f, hf, key⟩
  simpa using (distinct.subperm among).length_le

/-- The content map fits after a warm reset: the pages that were FILLING make up for the fill records. -/
theorem State.afterWarm_fits {s : State} (tables : s.pagesConserved) (h : s.Fits) : s.cm.afterWarm.Fits := by
  obtain ⟨dir, -, init, -, pages⟩ := s.cm.afterWarm_kept
  have writes := s.cm.afterWarm_tableWrites_le
  have filling := State.fillingPages_length_le tables
  have room := h.cm.writes
  refine ⟨Nat.zero_le _, Nat.zero_le _, Nat.zero_le _, Nat.zero_le _, ?_, fun w => ?_, List.nodup_nil, nofun⟩
  · show s.cm.afterWarm.tableWrites + 0 ≤ 72
    omega
  · obtain ⟨noDir, noPages, none, -⟩ := h.cm.fresh (init ▸ w)
    have noFilling : s.cm.fillingPages = [] := by
      rw [Cm.fillingPages, noPages]
      rfl
    refine ⟨dir.trans noDir, ?_, ?_, rfl⟩
    · rw [pages, noFilling]
      exact noPages
    · rw [noFilling, none] at writes
      exact Nat.le_zero.mp writes

end Sys2Proof.Machine
end

