-- ==== Sys2Proof/Proofs/CapacityEngine.lean ====
section
/-!
The cue engine and the audio unit's fills keep the capacities (spec/02, R35 to R44; spec/05, R109), with the walks that answer
their lookups (spec/06, R117).
-/
namespace Sys2Proof.Machine

/-! ## Queue and slates (R35, R40) -/

theorem insertAction_length (a : Action) (q : List Action) : (insertAction a q).length = q.length + 1 := by
  induction q with
  | nil => rfl
  | cons b q ih =>
    unfold insertAction
    split
    · rfl
    · rw [List.length_cons, ih, List.length_cons]

theorem insertByOrder_length (a : Action) (q : List Action) : (insertByOrder a q).length = q.length + 1 := by
  induction q with
  | nil => rfl
  | cons b q ih =>
    unfold insertByOrder
    split
    · rfl
    · rw [List.length_cons, ih, List.length_cons]

/-- A slate takes a voice action only below 8 (R40). -/
theorem Slate.stage_voices_le {x y : Slate} {a : Action} (h : x.stage a = some y) (fits : x.voices.length ≤ 8) :
    y.voices.length ≤ 8 := by
  have taken : ∀ z : Option Slate, z = (if x.voices.length < 8 then
      some { x with voices := insertByOrder a x.voices } else none) → z = some y → y.voices.length ≤ 8 := by
    rintro z rfl h
    split at h
    · cases h
      exact (insertByOrder_length _ _).le.trans ‹x.voices.length < 8›
    · cases h
  unfold Slate.stage at h
  split at h
  · cases h
    exact fits
  · cases h
    exact fits
  · cases h
  · exact taken _ rfl h

theorem Ce.Fits.slate {c : Ce} (h : c.Fits) (k : Nat) : (c.slate k).voices.length ≤ 8 := by
  unfold Ce.slate
  split
  · exact h.even
  · exact h.odd

theorem Ce.setSlate_fits {c : Ce} (h : c.Fits) (k : Nat) {x : Slate} (fits : x.voices.length ≤ 8) : (c.setSlate k x).Fits := by
  unfold Ce.setSlate
  split
  · exact { h with even := fits }
  · exact { h with odd := fits }

theorem Ce.giveUp_fits (c : Ce) : c.giveUp.Fits := ⟨Nat.zero_le _, Nat.zero_le _, Nat.zero_le _⟩

theorem Ce.scanFail_fits {c : Ce} (h : c.Fits) : c.scanFail.Fits := by
  unfold Ce.scanFail
  split
  · exact { h with }
  · exact h

/-- The action that a deed dispatched at `n` becomes when it is produced (R35). -/
def State.newAction (s : State) (d : Deed) (n : Nat) : Action :=
  { deed := d, dispatch := n, order := s.ce.nextOrder, index := s.ce.index }

/-- The state with the next action's list order given out. -/
def State.ordered (s : State) : State := s.onCe fun c => { c with nextOrder := c.nextOrder + 1 }

/-- The state with the action of a deed queued (R35). -/
def State.queuedAction (s : State) (d : Deed) (n : Nat) : State :=
  s.ordered.onCe fun c => { c with queue := insertAction (s.newAction d n) c.queue }

/-- An action produced is staged at once when its frame is the next one or earlier, in ARMED and RUNNING (R37). -/
theorem State.produce_eq (s : State) (d : Deed) (n : Nat) : s.produce d n =
    if (s.newAction d n).stageable s.tbu.frameNo ∧ (s.tbu.state = .armed ∨ s.tbu.state = .running) then
      (s.ordered.stage s.tbu.frameNo (s.newAction d n)).getD (s.queuedAction d n)
    else s.queuedAction d n := rfl

/-- An action produced is staged at once or queued (R35, R37). -/
theorem State.produce_cases (s : State) (d : Deed) (n : Nat) :
    (∃ t, s.ordered.stage s.tbu.frameNo (s.newAction d n) = some t ∧ s.produce d n = t) ∨
      s.produce d n = s.queuedAction d n := by
  rw [State.produce_eq]
  split
  · cases staged : s.ordered.stage s.tbu.frameNo (s.newAction d n) with
    | some t => exact .inl ⟨t, rfl, rfl⟩
    | none => exact .inr rfl
  · exact .inr rfl

/-- A record read opens a timed show segment or is judged itself (R26). -/
theorem State.readRecord_cases (s : State) (p : ReadPos) (r : List Byte) :
    s.readRecord p r = .more s.openTimed ∨ s.readRecord p r = State.readRecord.go s p r (decodeCue r) := by
  unfold State.readRecord
  cases s.ce.closed with
  | none => exact .inr rfl
  | some t => exact ite_eq_or_eq _ _ _

section
variable {s : State} (h : s.Fits)
include h

/-- An action staged leaves the pending queue as it is. -/
theorem State.stage_fits {k : Nat} {a : Action} {t : State} (staged : s.stage k a = some t) :
    t.Fits ∧ t.ce.queue = s.ce.queue := by
  unfold State.stage at staged
  split at staged
  · cases staged
  · rename_i x placed
    cases staged
    have put := h.onCe (g := fun c => c.setSlate (k + 1) x)
      (Ce.setSlate_fits h.ce _ (Slate.stage_voices_le placed (h.ce.slate _)))
    have queue : (s.onCe fun c => c.setSlate (k + 1) x).ce.queue = s.ce.queue := Ce.setSlate_queue _ _ _
    split
    · exact ⟨put.raise _ _, queue⟩
    · exact ⟨put, queue⟩

theorem State.stagePass_fits (k : Nat) : (s.stagePass k).Fits := by
  refine h.foldl (fun x a hx => ?_) _
  split
  · split
    · rename_i t staged
      obtain ⟨fits, -⟩ := State.stage_fits hx staged
      exact fits.onCe { fits.ce with queue := List.erase_sublist.length_le.trans fits.ce.queue }
    · exact hx
  · exact hx

/-- An action produced takes at most one place of the queue (R35). -/
theorem State.produce_fits (d : Deed) (n : Nat) (room : s.ce.queue.length < 32) :
    (s.produce d n).Fits ∧ (s.produce d n).ce.queue.length ≤ s.ce.queue.length + 1 := by
  have ordered : s.ordered.Fits := h.onCe { h.ce with }
  rcases s.produce_cases d n with ⟨t, staged, e⟩ | e <;> rw [e]
  · obtain ⟨fits, queue⟩ := State.stage_fits ordered staged
    exact ⟨fits, queue ▸ Nat.le_succ _⟩
  · have inserted := insertAction_length (s.newAction d n) s.ce.queue
    exact ⟨ordered.onCe { h.ce with queue := inserted.le.trans room }, inserted.le⟩

/-- Actions produced one after another, when all have room. -/
theorem State.produceAll_fits (l : List (Deed × Nat)) (room : s.ce.queue.length + l.length ≤ 32) :
    (l.foldl (fun (s : State) (a : Deed × Nat) => s.produce a.1 a.2) s).Fits := by
  induction l generalizing s with
  | nil => exact h
  | cons a l ih =>
    rw [List.length_cons] at room
    obtain ⟨fits, queue⟩ := State.produce_fits h a.1 a.2 (by omega)
    exact ih (s := s.produce a.1 a.2) fits (by omega)

/-! ## The show given up, and the pumps' claim -/

theorem BlocksFit.giveUp : (s.onCe Ce.giveUp).Fits := h.onCe (Ce.giveUp_fits _)

theorem BlocksFit.giveUpClaim : s.giveUpClaim.Fits :=
  (h.onHu _).onLiu (Liu.withdrawClaim_fits h.liu) (Nat.le_of_eq (congrArg List.length (Liu.withdrawClaim_contentQ _)))

theorem BlocksFit.settleClaim : s.settleClaim.Fits := by
  unfold State.settleClaim
  split
  · exact h
  · split
    · exact h
    · exact h
    · exact h.giveUpClaim

theorem BlocksFit.huHalt : s.huHalt.Fits := (h.onHu _).settleClaim

theorem BlocksFit.enterEnding (fade : Nat) : (s.enterEnding fade).Fits :=
  ((((h.onTbu _).giveUp).onHu _).onLu _).onAu _

theorem BlocksFit.armedToIdle : s.armedToIdle.Fits := ((((h.onTbu _).giveUp).onHu _).onLu _).onAu _

theorem BlocksFit.enterHalted : s.enterHalted.Fits := ((((h.onTbu _).giveUp).huHalt).onLu _).onAu _

theorem BlocksFit.enterStandby : s.enterStandby.Fits := (((h.onTbu _).huHalt).onLu _).onAu _

/-! ## Reading (R26 to R34) -/

theorem State.cueEndShow_fits : s.cueEndShow.Fits := by
  unfold State.cueEndShow
  split
  · exact h.enterEnding _
  · exact h.armedToIdle
  · exact h.giveUp

theorem State.openSegment_fits (b : Nat) : (s.openSegment b).Fits := (h.onCe { h.ce with }).onTbu _

theorem State.openTimed_fits : s.openTimed.Fits := by
  unfold State.openTimed
  split
  · exact State.openSegment_fits h _
  · exact h

theorem State.openTriggered_fits (p : Nat) (w : WaitingRecord) : (s.openTriggered p w).Fits :=
  (State.openSegment_fits h _).onCe { h.ce with }

theorem State.endOfList_fits : s.endOfList.Fits := by
  have opened := State.openTimed_fits h
  unfold State.endOfList
  dsimp only
  split
  · exact opened
  · obtain ⟨fits, -⟩ := State.produce_fits opened .endShow (s.openTimed.base + s.openTimed.ce.lastCue) (by omega)
    exact fits.onCe { fits.ce with }

theorem State.cueEnd_fits : s.cueEnd.state.Fits := by
  unfold State.cueEnd
  split
  · exact h.onCe (Ce.scanFail_fits h.ce)
  · exact State.endOfList_fits h

theorem State.cueLookup_fits (p : ReadPos) : (s.cueLookup p).1.Fits := by
  unfold State.cueLookup
  split
  · exact h
  · exact h.lookup _ _ _ _

theorem State.cueAnswer_fits (p : ReadPos) (a : Answer) : (s.cueAnswer p a).state.Fits := by
  unfold State.cueAnswer
  dsimp only
  split
  · split
    · exact State.cueEnd_fits h
    · split
      · exact (h.arrive (c := .cue) _ nofun).ofCe { h.ce with }
      · exact h.ofCe { h.ce with }
  · exact h.ofCe { h.ce with }
  · exact h.ofCe { h.ce with }
  · exact (h.raise _ _).ofCe { h.ce with }
  · exact State.cueEnd_fits h
  · exact State.cueEndShow_fits (h.raise _ _)
  · exact State.cueEndShow_fits (h.raise _ _)

/-- A record is taken only with room for all its actions (R35). -/
theorem State.takeCue_fits (p : ReadPos) (r : List Byte) (c : Cue) (t : Nat) : (s.takeCue p r c t).state.Fits := by
  have counted : (if cueTime r < s.ce.lastCue then s.countMalformed p else s).Fits := h.raiseIf _ _ _
  have queue : (if cueTime r < s.ce.lastCue then s.countMalformed p else s).ce = s.ce := by split <;> rfl
  unfold State.takeCue
  dsimp only
  split
  · exact h
  · have made := State.produceAll_fits counted (s.actionsOf c (s.base + t)) (by rw [queue]; omega)
    cases c with
    | waitTrigger => exact h.ofCe { h.ce with }
    | _ => exact made.ofCe { made.ce with }

theorem State.readRecord_fits (p : ReadPos) (r : List Byte) : (s.readRecord p r).state.Fits := by
  have taken : (State.readRecord.go s p r (decodeCue r)).state.Fits := by
    unfold State.readRecord.go
    dsimp only
    split
    · exact h
    · split
      · exact (h.raise _ _).ofCe { h.ce with }
      · exact State.takeCue_fits h _ _ _ _
  rcases s.readRecord_cases p r with e | e <;> rw [e]
  · exact State.openTimed_fits h
  · exact taken

theorem State.scanRecord_fits (x : ScanRecord) (r : List Byte) : (s.scanRecord x r).state.Fits := by
  unfold State.scanRecord
  dsimp only
  split
  · split
    · refine State.openTriggered_fits (h.onCe { h.ce with queue := ?_ }) _ _
      exact (List.length_filter_le _ _).trans h.ce.queue
    · exact h.onCe (Ce.scanFail_fits h.ce)
  · exact h.onCe (Ce.scanFail_fits h.ce)
  · exact h.ofCe { h.ce with }
  · exact h.ofCe { h.ce with }

theorem State.cueStep_fits : s.cueStep.state.Fits := by
  unfold State.cueStep
  dsimp only
  split
  · exact h
  · split
    · exact h
    · split
      · split
        · exact State.cueEnd_fits h
        · split
          · exact State.scanRecord_fits h _ _
          · exact State.readRecord_fits h _ _
      · split
        · exact h
        · exact State.cueAnswer_fits (State.cueLookup_fits h _) _ _

theorem State.cueLoop_fits (n : Nat) : (s.cueLoop n).Fits := by
  induction n generalizing s with
  | zero => exact h
  | succ n ih =>
    have step := State.cueStep_fits h
    unfold State.cueLoop
    split
    · rename_i e
      rw [e] at step
      exact step
    · rename_i e
      rw [e] at step
      exact ih step

theorem State.cueRead_fits : s.cueRead.Fits := State.cueLoop_fits h 256

theorem State.cueRun_fits : s.cueRun.Fits := (State.cueRead_fits h).queueRequests

/-! ## Events of the engine -/

theorem State.cueGo_fits (n : Nat) : (s.cueGo n).Fits := by
  have fresh : (s.onCe fun c => { c with lastTrigger := none }).Fits := h.onCe { h.ce with }
  unfold State.cueGo
  dsimp only
  split
  · exact State.cueEndShow_fits (fresh.raise _ _)
  · exact State.cueRun_fits (fresh.onCe { h.ce with })

theorem State.cueBoundary_fits (k : Nat) (handed : ShowState) : (s.cueBoundary k handed).Fits := by
  have staged := State.stagePass_fits h k
  have read := State.cueRead_fits (staged.onCe (g := fun c => { c with pageWait := false }) { staged.ce with })
  unfold State.cueBoundary
  split
  · exact read
  · exact read
  · exact h

theorem State.cueReadDone_fits (bytes : List Byte) : (s.cueReadDone bytes).Fits := by
  unfold State.cueReadDone
  split
  · exact h
  · exact State.cueRun_fits (h.onCe { h.ce with })

theorem State.cueWalkAnswer_fits (a : Answer) : (s.cueWalkAnswer a).Fits := by
  unfold State.cueWalkAnswer
  split
  · exact h
  · split
    · exact h
    · have free : (s.onCe fun c => { c with fetch := none }).Fits := h.onCe { h.ce with }
      dsimp only
      split
      · split
        · have answered := State.cueAnswer_fits free ‹ReadPos› a
          unfold Progress.run
          split
          · rename_i e
            rw [e] at answered
            exact State.cueRun_fits answered
          · rename_i e
            rw [e] at answered
            exact answered
        · exact State.cueRun_fits free
      · exact free

theorem State.cueTrigger_fits (n p : Nat) : (s.cueTrigger n p).Fits := by
  have taken : (s.onCe fun c => { c with lastTrigger := some p }).Fits := h.onCe { h.ce with }
  have scans : ∀ (i : Option RunningRecord) (x : Option ReadPos), (match i, x with
      | some r, some q =>
        if r.interruptible ∧ r.index = s.ce.index then
          ((s.onCe fun c => { c with lastTrigger := some p }).onCe fun c =>
            { c with
              readState := .scanning
              scan := some { number := n, press := p, returnPos := q, returnState := c.readState,
                             returnClosed := c.closed, afterEnd := c.closed.isSome, passed := 0 } }).cueRun
        else s
      | _, _ => s).Fits := by
    intro i x
    split
    · split
      · exact State.cueRun_fits (taken.onCe { h.ce with })
      · exact h
    · exact h
  unfold State.cueTrigger
  split
  · exact h
  · split
    · exact h
    · dsimp only
      split
      · split
        · split
          · exact State.cueRun_fits (State.openTriggered_fits taken _ _)
          · exact h
        · exact h
      · exact scans _ _
      · exact scans _ _
      · exact h
      · exact h

/-! ## The audio unit's fills (R109, R110) -/

theorem State.fillAnswer_fits (f : AudioFill) (a : Answer) : (s.fillAnswer f a).Fits := by
  unfold State.fillAnswer
  split
  · exact h
  · split
    · exact BlocksFit.arrive (h.onAu _) _ nofun
    · exact h.onAu _
  all_goals exact h.onAu _

theorem State.fillLookup_fits (f : AudioFill) : (s.fillLookup f).1.Fits := h.lookup _ _ _ _

theorem State.fillLoop_fits (n : Nat) : (s.fillLoop n).Fits := by
  induction n generalizing s with
  | zero => exact h
  | succ n ih =>
    unfold State.fillLoop
    split
    · exact h
    · split
      · exact h.onAu _
      · exact ih (State.fillAnswer_fits (State.fillLookup_fits (h.onAu _) _) _ _)

theorem State.fillSlots_fits : s.fillSlots.Fits := State.fillLoop_fits h 128

theorem State.considerFill_fits : s.considerFill.Fits := (State.fillSlots_fits h).queueRequests

theorem State.fillWalkAnswer_fits (a : Answer) : (s.fillWalkAnswer a).Fits := by
  unfold State.fillWalkAnswer
  split
  · exact State.considerFill_fits (State.fillAnswer_fits h _ _)
  · exact h

theorem State.rowReadDone_fits (bytes : List Byte) : (s.rowReadDone bytes).Fits := by
  unfold State.rowReadDone
  split
  · split
    · exact State.considerFill_fits (h.onAu _)
    · exact h
  · exact State.considerFill_fits h

theorem State.answerDefinition_fits : s.answerDefinition.Fits := by
  unfold State.answerDefinition
  split
  · exact h
  · dsimp only
    split
    · exact BlocksFit.raise (h.onAu _) _ _
    · exact h.onAu _

theorem State.takeVoiceAction_fits (x : Action) : (s.takeVoiceAction x).Fits := by
  unfold State.takeVoiceAction
  dsimp only
  split
  · exact State.fillSlots_fits (h.onAu _)
  · exact h.onAu _

theorem State.auPass_fits (now k : Nat) (c : Int) (handed : ShowState) (entered resumed : Bool) (acts : List Action) :
    (s.auPass now k c handed entered resumed acts).Fits := by
  have taken := BlocksFit.foldl (h.onAu (Au.stepsAndEnds now c handed)) (fun _ a hx => State.takeVoiceAction_fits hx a) acts
  exact State.fillSlots_fits ((taken.onAu _).onAu _)

/-! ## The answers of walks (R117) -/

theorem State.answerAsker_fits (ans : Answer) (a : Asker) : (s.answerAsker ans a).Fits := by
  cases a with
  | cue => exact State.cueWalkAnswer_fits h ans
  | audio => exact State.fillWalkAnswer_fits h ans
  | serve id => exact State.serveAnswer_fits h id ans

theorem State.answerAfresh_fits (a : Asker) : (s.answerAfresh a).Fits := by
  unfold State.answerAfresh
  split
  · split
    · exact State.cueWalkAnswer_fits (State.cueLookup_fits h _) _
    · exact h
  · split
    · exact State.fillWalkAnswer_fits (State.fillLookup_fits h _) _
    · exact h
  · split
    · exact State.serveAnswer_fits (State.serveLookup_fits h _) _ _
    · exact h

theorem State.walkDone_fits (w : Walk) (bytes : List Byte) : (s.walkDone w bytes).Fits := by
  have popped := h.popMap
  unfold State.walkDone
  dsimp only
  split
  · exact (popped.foldl (fun _ a hx => State.answerAfresh_fits hx a) _).queueRequests
  · exact (popped.onCm (Cm.install_fits popped.cm _) (Cm.install_reads _ _).le).foldl
      (fun _ a hx => State.answerAsker_fits hx _ a) _
end

end Sys2Proof.Machine
end

