-- ==== Sys2Proof/Proofs/CapacitySteps.lean ====
section
/-!
Every step keeps the capacities: readings, the show's transitions, the passes of a boundary, and each command.
-/
namespace Sys2Proof.Machine

/-! ## Operations of one block -/

theorem Liu.begin_fits {l : Liu} (fits : l.Fits) (t : Tx) (now : Nat) :
    (l.begin t now).Fits ∧ (l.begin t now).contentQ = l.contentQ := by
  unfold Liu.begin
  split <;> exact ⟨{ fits with }, rfl⟩

theorem Liu.start_fits {l : Liu} (fits : l.Fits) (up : Bool) (own : Position) (now : Nat) (rivals : List Byte) :
    (l.start up own now rivals).Fits ∧ (l.start up own now rivals).contentQ = l.contentQ := by
  unfold Liu.start
  split
  · split
    · exact ⟨fits, rfl⟩
    · exact ⟨{ fits with }, rfl⟩
  · split
    · exact ⟨{ fits with }, rfl⟩
    · exact Liu.begin_fits fits _ _

theorem Liu.returnFrame_fits {l : Liu} (fits : l.Fits) (held : Bool) :
    (l.returnFrame held).Fits ∧ (l.returnFrame held).contentQ = l.contentQ := by
  unfold Liu.returnFrame
  split <;> exact ⟨{ fits with }, rfl⟩

/-- The eighth failure in a row mutes and counts anew (R156, R157). -/
theorem Liu.countFailure_fits {l : Liu} (fits : l.Fits) :
    l.countFailure.1.Fits ∧ l.countFailure.1.contentQ = l.contentQ := by
  unfold Liu.countFailure
  split
  · exact ⟨fits, rfl⟩
  · split
    · exact ⟨{ fits with fails := Nat.zero_le _, mute := Nat.le_refl _ }, rfl⟩
    · exact ⟨{ fits with fails := by dsimp only; omega }, rfl⟩

theorem Liu.partOut_fits {l : Liu} (fits : l.Fits) : l.partOut.Fits := by
  unfold Liu.partOut
  split
  · rename_i r rest queue
    have room := fits.replies
    rw [queue, List.length_cons] at room
    refine { fits with fails := Nat.zero_le _, replies := ?_ }
    dsimp only
    split
    · exact Nat.le_of_succ_le room
    · exact room
  · exact { fits with fails := Nat.zero_le _ }

theorem Liu.partOut_contentQ (l : Liu) : l.partOut.contentQ = l.contentQ := by
  unfold Liu.partOut
  split <;> rfl

theorem Serve.tick_reading (r : Serve) : r.tick.reading = r.reading := by
  obtain ⟨id, segment, page, requester, stage⟩ := r
  cases stage <;> rfl

/-! ## Readings (spec/09, spec/10) -/

section
variable {s : State} (h : s.Fits)
include h

theorem State.evalLevel_fits (l : Nat) : (s.evalLevel l).Fits := by
  unfold State.evalLevel
  split
  · split
    · have dry : ((s.onBiu fun b => { b with levelState := .dry }).huDry).Fits := ((h.onBiu rfl).onHu _).settleClaim
      dsimp only
      split
      · exact dry
      · exact dry.raise _ _
    · exact h
  · split
    · exact (h.onBiu rfl).onHu _
    · exact h

theorem State.recomputeWind_fits : s.recomputeWind.Fits := by
  have told := BlocksFit.raiseIf (h.onPt fun t => { t with
    wind := (s.windBest.map (·.2)).getD s.params.fallbackWind, windSource := s.windBest.map (·.1) })
    ((s.windBest.isNone && s.pt.windSource.isSome && !s.startingUp) = true) .windSourceLost none
  unfold State.recomputeWind
  dsimp only
  split
  · exact told
  · exact told.onBiu (Biu.evalWind_faults _ _ _)

theorem State.recomputeLevel_fits : s.recomputeLevel.Fits := by
  have told := BlocksFit.raiseIf (h.onPt fun t => { t with
    level := (s.levelBest.map (·.2)).getD 0, levelSource := s.levelBest.map (·.1) })
    ((s.levelBest.isNone && s.pt.levelSource.isSome && !s.startingUp) = true) .levelSourceLost none
  unfold State.recomputeLevel
  dsimp only
  split
  · exact told
  · exact (State.evalLevel_fits (told.onBiu rfl) _).onLu _

theorem State.recomputeWindIf_fits (p : Prop) [Decidable p] : (if p then s.recomputeWind else s).Fits := by
  split
  · exact State.recomputeWind_fits h
  · exact h

theorem State.recomputeLevelIf_fits (p : Prop) [Decidable p] : (if p then s.recomputeLevel else s).Fits := by
  split
  · exact State.recomputeLevel_fits h
  · exact h

theorem State.inputsBoundary_fits (i : BoundaryInput) : (s.inputsBoundary i).Fits := by
  unfold State.inputsBoundary State.sampleReadings
  dsimp only
  refine BlocksFit.onBiu ?_ (Biu.stepQuiet_faults _ _)
  rw [← ite_not]
  refine State.recomputeWindIf_fits (BlocksFit.onBiu ?_ (Biu.sampleWind_faults _ _ _)) _
  rw [← ite_not]
  exact State.recomputeLevelIf_fits (h.onBiu (Biu.sampleLevel_faults _ _ _)) _

theorem State.agePeers_fits : s.agePeers.Fits :=
  State.recomputeLevelIf_fits (State.recomputeWindIf_fits (h.onPt _) _) _

theorem State.recordBeacon_fits (q : Position) (f : BeaconFields) (sof : Int) : (s.recordBeacon q f sof).Fits := by
  unfold State.recordBeacon
  dsimp only
  rw [← ite_not]
  refine State.recomputeLevelIf_fits ?_ _
  rw [← ite_not]
  exact State.recomputeWindIf_fits (h.onPt _) _

theorem State.endOfListenReadings_fits : s.endOfListenReadings.Fits :=
  BlocksFit.raiseIf (BlocksFit.raiseIf (BlocksFit.raiseIf (State.recomputeLevel_fits (State.recomputeWind_fits h)) _ _ _) _ _
    _) _ _ _

/-! ## The show's transitions (spec/01) -/

theorem State.haltRequest_fits : s.haltRequest.Fits := by
  unfold State.haltRequest
  split
  · exact h
  · exact h
  · exact h.enterHalted

theorem State.positionConflict_fits : s.positionConflict.Fits := by
  have recorded := BlocksFit.onTbu ((h.raise .positionConflict none).onLiu
    (g := fun l => { l with conflict := true, replies := [] }) { h.liu with replies := Nat.zero_le _ } (Nat.le_refl _))
    fun t => { t with conflict := true }
  exact (recorded.dropServes _).enterStandby.giveUp

theorem State.takeEnd_fits (now : Nat) : (s.takeEnd now).Fits := by
  unfold State.takeEnd
  split
  · exact h.enterEnding _
  · exact h

theorem State.takeT0_fits (now : Nat) : (s.takeT0 now).Fits := by
  unfold State.takeT0
  split
  · exact State.takeEnd_fits (h.onTbu _) _
  · exact h

theorem State.takeHold_fits (bt : Nat) : (s.takeHold bt).Fits := by
  unfold State.takeHold
  split
  · exact BlocksFit.onCe (h.onTbu _) (Ce.scanFail_fits h.ce)
  · exact h

theorem State.takeResume_fits (bt : Nat) : (s.takeResume bt).Fits := by
  unfold State.takeResume
  split
  · refine State.takeEnd_fits (BlocksFit.onCe (h.onTbu _) { h.ce with queue := ?_ }) _
    exact (List.length_map _).le.trans h.ce.queue
  · exact h

theorem State.countListen_fits (k : Nat) : (s.countListen k).Fits := by
  have ended : ∀ x : State, x.Fits → (x.endListen k).Fits := by
    intro x hx
    have stepped : (x.listenStep k).Fits := by
      unfold State.listenStep
      split
      · exact BlocksFit.onLiu ((hx.onTbu _).onPt _) { hx.liu with } (Nat.le_refl _)
      · split
        · exact BlocksFit.onLiu (hx.onTbu _) { hx.liu with } (Nat.le_refl _)
        · exact hx
    have read : (((x.listenStep k).atReading (k * 960) State.endOfListenReadings).onSt fun t =>
        { t with phase := .up }).Fits := ((State.endOfListenReadings_fits (stepped.onTbu _)).onTbu _).onSt _
    unfold State.endListen
    dsimp only
    split
    · exact read.onTbu _
    · exact read
  unfold State.countListen
  dsimp only
  split
  · split
    · exact ended _ (h.onSt _)
    · exact h.onSt _
  · exact h

theorem State.countWarmup_fits : s.countWarmup.Fits := by
  unfold State.countWarmup
  split
  · split <;> exact h.onTbu _
  · exact h

theorem State.stopRepeat_fits : s.stopRepeat.Fits := by
  unfold State.stopRepeat
  split
  · exact (State.haltRequest_fits h).onLiu { (State.haltRequest_fits h).liu with } (Nat.le_refl _)
  · exact h

theorem State.checkEnding_fits : s.checkEnding.Fits := by
  unfold State.checkEnding
  split
  · exact h.onTbu _
  · exact h

theorem State.transitions_fits (k bt : Nat) (st : ShowState) : (s.transitions k bt st).Fits := by
  have stopped := State.stopRepeat_fits h
  have warmed : (if st = .warmup then s.stopRepeat.countWarmup else s.stopRepeat).Fits := by
    split
    · exact State.countWarmup_fits stopped
    · exact stopped
  have listened := State.countListen_fits warmed k
  unfold State.transitions
  dsimp only
  generalize (if st = .warmup then s.stopRepeat.countWarmup else s.stopRepeat).countListen k = x at listened
  have begun := State.takeEnd_fits (State.takeT0_fits listened (max bt x.tbu.basinTime)) (max bt x.tbu.basinTime)
  generalize (x.takeT0 (max bt x.tbu.basinTime)).takeEnd (max bt x.tbu.basinTime) = y at begun
  have held : (if st = .held then y.takeResume bt else y.takeHold bt).Fits := by
    split
    · exact State.takeResume_fits begun bt
    · exact State.takeHold_fits begun bt
  split
  · exact State.checkEnding_fits held
  · exact held

/-! ## The passes of a boundary -/

theorem State.queueClaim_fits : s.queueClaim.Fits := by
  unfold State.queueClaim
  split
  · split
    · exact BlocksFit.onLiu (h.onHu _) { h.liu with } (Nat.le_refl _)
    · exact h
  · exact h

theorem State.recheckClaim_fits : s.recheckClaim.Fits := by
  unfold State.recheckClaim
  split
  · split
    · exact h.giveUpClaim
    · exact h
  · exact h

theorem State.huPass_fits (now : Nat) (handed : ShowState) (jets : List Action) : (s.huPass now handed jets).Fits := by
  have raised : ∀ (before : Hu) (x : State), x.Fits → (x.raiseFeedbackLocks before).Fits := fun before x hx =>
    hx.foldl (fun _ _ hy => hy.raiseIf _ _ _) _
  unfold State.huPass
  dsimp only
  refine State.queueClaim_fits (State.recheckClaim_fits (BlocksFit.settleClaim (BlocksFit.onHu ?_ _)))
  exact raised _ _ (BlocksFit.onHu (h.onHu _) _)

theorem State.passes_fits (k bt : Nat) (c : Int) (handed : ShowState) (entered resumed : Bool) :
    (s.passes k bt c handed entered resumed).Fits := by
  have counted : (s.onLiu Liu.boundary).Fits :=
    h.onLiu { h.liu with mute := (Nat.sub_le _ _).trans h.liu.mute } (Nat.le_refl _)
  have cued := State.cueBoundary_fits counted k handed
  have taken := cued.onCe (g := fun c => c.setSlate k {}) (Ce.setSlate_fits cued.ce k (Nat.zero_le _))
  exact (State.auPass_fits ((State.huPass_fits taken bt handed _).onLu _) bt k c handed entered resumed _).queueRequests

theorem State.beaconBoundary_fits (k : Nat) : (s.beaconBoundary k).Fits := by
  have aged := State.agePeers_fits h
  unfold State.beaconBoundary
  split
  · exact h
  · dsimp only
    split
    · exact BlocksFit.onLiu (((aged.onTbu _).onTbu _).onPt _) { aged.liu with } (Nat.le_refl _)
    · exact aged.onTbu _

theorem State.placeBeacon_fits (k : Nat) (up : Bool) : (s.placeBeacon k up).Fits := by
  unfold State.placeBeacon
  split
  · exact h.onLiu { h.liu with } (Nat.le_refl _)
  · exact h

theorem State.markBoundary_fits (i : BoundaryInput) : (s.markBoundary i).Fits := by
  by_cases due : s.boundaryDue = true
  · by_cases live : s.live = true
    · obtain ⟨c, e⟩ := State.markBoundary_eq live due i
      have changed : (s.afterTransitions i).Fits :=
        State.transitions_fits (State.beaconBoundary_fits (State.inputsBoundary_fits (h.onTbu _) i) _) _ _ _
      rw [e]
      exact State.passes_fits ((State.placeBeacon_fits changed _ _).onTbu _) _ _ _ _ _ _
    · rw [State.markBoundary, if_neg (by simp [due]), if_neg live]
      exact h
  · rw [State.markBoundary_not_due (by simpa using due)]
    exact h

theorem State.markWhen_fits (due : Bool) (i : BoundaryInput) : (s.markWhen due i).Fits := by
  rcases s.markWhen_cases due i with e | e <;> rw [e]
  · exact State.markBoundary_fits h i
  · exact h

theorem State.markAsPumpGoes_fits (p : Channel) (before : List PumpState) (after : Pump → Bool) (i : BoundaryInput) :
    (s.markAsPumpGoes p before after i).Fits := by
  rcases s.markAsPumpGoes_cases p before after i with e | e <;> rw [e]
  · exact State.markBoundary_fits h i
  · exact h

/-! ## Frames heard (spec/08) -/

theorem State.afterFrame_fits : s.afterFrame.Fits := h.onLiu { h.liu with yield := Nat.zero_le _ } (Nat.le_refl _)

theorem State.received_fits (p : Position) {deliver : State → State} (keep : ∀ x : State, x.Fits → (deliver x).Fits) :
    (s.received p deliver).Fits := by
  rcases s.received_cases p deliver with e | e | e <;> rw [e]
  · exact h
  · exact State.positionConflict_fits (State.afterFrame_fits h)
  · exact keep _ (State.afterFrame_fits h)

theorem State.targeted_fits (target : Byte) {deliver : State → State} (keep : ∀ x : State, x.Fits → (deliver x).Fits) :
    (s.targeted target deliver).Fits := by
  unfold State.targeted
  split
  · exact keep s h
  · exact h

theorem State.hearWake_fits : s.hearWake.Fits := by
  unfold State.hearWake
  split
  · exact h.onTbu _
  · exact h

theorem State.hearStandby_fits : s.hearStandby.Fits := by
  unfold State.hearStandby
  split
  · exact h.enterStandby
  · exact h

theorem State.hearShowSelect_fits (n : Byte) : (s.hearShowSelect n).Fits := by
  unfold State.hearShowSelect
  split
  · exact State.intoIntake_fits h _
  · exact State.intoIntake_fits h _
  · exact h

theorem State.hearGo_fits (n t0 : Nat) : (s.hearGo n t0).Fits := by
  unfold State.hearGo
  split
  · exact State.cueGo_fits (h.onTbu _) n
  · exact h

theorem State.hearHold_fits (th : Nat) : (s.hearHold th).Fits := by
  unfold State.hearHold
  split
  · exact h.onTbu _
  · exact h

theorem State.hearResume_fits (tr : Nat) : (s.hearResume tr).Fits := by
  unfold State.hearResume
  split
  · exact h.onTbu _
  · exact h

theorem State.hearStop_fits (fade : Nat) : (s.hearStop fade).Fits := by
  unfold State.hearStop
  split
  · exact h.armedToIdle
  · exact h.enterEnding _
  · exact h.enterEnding _
  · exact h

theorem State.hearClearHalt_fits : s.hearClearHalt.Fits := by
  unfold State.hearClearHalt
  split
  · exact ((h.onTbu _).onLu _).onAu _
  · exact h

theorem State.hearTrigger_fits (n p : Nat) : (s.hearTrigger n p).Fits := by
  unfold State.hearTrigger
  split
  · exact State.cueTrigger_fits h n p
  · exact h

theorem State.huPeerClaim_fits : s.huPeerClaim.Fits := by
  unfold State.huPeerClaim
  dsimp only
  split
  · exact BlocksFit.giveUpClaim (h.onHu _)
  · exact h.onHu _

theorem State.clearFaultList_fits : s.clearFaultList.Fits :=
  { h with faults := (List.filter_sublist.map _).nodup h.faults }

/-- A query is answered while the REPLY queue holds fewer than 4 (R163). -/
theorem State.answerQuery_fits (target tag : Byte) (sel : Nat) (snapshot : State → List Byte) :
    (s.answerQuery target tag sel snapshot).Fits := by
  unfold State.answerQuery
  split
  · exact h
  · rename_i room
    refine h.onLiu { h.liu with replies := ?_ } (Nat.le_refl _)
    rw [List.length_append]
    show s.liu.replies.length + 1 ≤ 4
    omega

/-! ## The link's own events (spec/08) -/

theorem State.abortTransmission_fits : s.abortTransmission.Fits := by
  obtain ⟨counted, same⟩ := Liu.countFailure_fits h.liu
  obtain ⟨returned, same'⟩ := Liu.returnFrame_fits counted s.claimHeld
  have out := h.onLiu (g := fun _ => s.liu.countFailure.1.returnFrame s.claimHeld) returned
    (Nat.le_of_eq (congrArg List.length (same'.trans same)))
  exact out.raiseIf _ _ _

theorem State.claimOut_fits (n : Channel) (g : Liu → Liu) (fits : (g s.liu).Fits)
    (content : (g s.liu).contentQ = s.liu.contentQ) : ((s.onLiu g).huClaimOut n).Fits := by
  have out := h.onLiu fits (Nat.le_of_eq (congrArg List.length content))
  unfold State.huClaimOut
  dsimp only
  split
  · split <;> exact out
  · exact out

/-! ## Power, the configuration, and the oscillator -/

theorem State.resetPoint_fits (cause : ResetCause) (next : Phase) : (s.resetPoint cause next).Fits := by
  have writes := Cm.tableWrites_of_writesQueued s.cm.abandonAccesses_writesQueued
  exact
    { ce := Ce.giveUp_fits _
      cm := { h.cm with
        serves := Nat.zero_le _
        writes := writes.symm ▸ h.cm.writes
        fresh := fun w => by
          obtain ⟨dir, pages, none, fills⟩ := h.cm.fresh w
          exact ⟨dir, pages, writes.trans none, fills⟩
        ids := List.nodup_nil
        below := nofun }
      liu := { h.liu with }
      smc := h.smc
      faults := h.faults
      content := Nat.zero_le _ }

/-- The configuration read gives every block values within its capacities (R135, R192). -/
theorem State.takeConfig_fits (tables : s.pagesConserved) (r : List Byte) : (s.takeConfig r).Fits := by
  have map : (s.cm.afterReset s.st.cold).Fits := by
    unfold Cm.afterReset
    split
    · exact ⟨Nat.zero_le _, Nat.zero_le _, Nat.zero_le _, Nat.zero_le _, Nat.zero_le _, fun _ => ⟨rfl, rfl, rfl, rfl⟩,
        List.nodup_nil, nofun⟩
    · exact State.afterWarm_fits tables h
  have none : (s.cm.afterReset s.st.cold).reads = 0 := by
    unfold Cm.afterReset
    split <;> rfl
  have taken : (s.takeResetValues (paramsTaken r s.own) (recordValid r) (recWord r 254)).Fits :=
    { ce := ⟨Nat.zero_le _, Nat.zero_le _, Nat.zero_le _⟩
      cm := map
      liu := ⟨Nat.zero_le _, Nat.zero_le _, Nat.zero_le _, Nat.zero_le _, Nat.zero_le _⟩
      smc := h.smc
      faults := List.nodup_nil
      content := by
        show 0 + 4 * (s.cm.afterReset s.st.cold).reads ≤ 16
        rw [none]
        decide }
  have read := (State.evalLevel_fits taken 0).issueMap
  unfold State.takeConfig
  dsimp only
  generalize ((s.takeResetValues (paramsTaken r s.own) (recordValid r) (recWord r 254)).evalLevel 0).issueMap = x at read
  have listened : (if x.st.phase = .listening then x.initMap else x).Fits := by
    split
    · exact State.initMap_fits read
    · exact read
  split
  · exact listened
  · exact listened.raise _ _

theorem State.memoryReady_fits : s.memoryReady.Fits := by
  have phased : (if s.st.phase = .memory then s.onSt fun t => { t with phase := .listening } else s).Fits := by
    split
    · exact h.onSt _
    · exact h
  unfold State.memoryReady
  dsimp only
  generalize (if s.st.phase = .memory then s.onSt fun t => { t with phase := .listening } else s) = x at phased
  split
  · exact State.initMap_fits phased
  · exact phased

theorem State.oscTick_fits : s.oscTick.Fits := by
  have counted : ∀ tau, (s.countUnderruns tau).Fits := by
    intro tau
    unfold State.countUnderruns
    dsimp only
    split <;> split
    · exact (h.raise _ _).raise _ _
    · exact h.raise _ _
    · exact h.raise _ _
    · exact h
  unfold State.oscTick
  split
  · exact h
  · have timed := BlocksFit.onHu (BlocksFit.onTbu ((counted (s.au.tau s.tbu.basinTime)).onAu
      fun a => a.tick (s.au.tau s.tbu.basinTime) s.pairNow) fun t =>
        { t with basinTime := (t.basinTime + 1) % basinRange, shift := 0 }) fun h => { h with spacing := h.spacing - 1 }
    obtain ⟨fits, reads⟩ := Cm.serves_map_fits (Cm.fills_map_fits timed.cm Fill.tick) (f := Serve.tick)
      (fun r => by unfold Serve.tick; split <;> rfl) fun r hr => r.tick_reading ▸ hr
    have ticked := BlocksFit.onCm timed (g := fun c =>
      { c with fills := c.fills.map Fill.tick, serves := c.serves.map Serve.tick }) fits reads
    exact (ticked.onSmc ⟨ticked.smc.serve, ticked.smc.debt⟩).onSt _
end

end Sys2Proof.Machine
end

