-- ==== Sys2Proof/Proofs/Capacities.lean ====
section
/-!
Every command, and so every step, keeps the capacities (R35, R40, R114 to R132, R138, R145, R154 to R163, R185).
-/
namespace Sys2Proof.Machine

/-! ## Serve records chosen by number (R131, R132) -/

/-- The serve record chosen is one of those that qualify. -/
theorem Cm.lowestServe_mem {c : Cm} {p : Serve → Bool} {r : Serve} (h : c.lowestServe p = some r) :
    r ∈ c.serves ∧ p r = true := by
  have chosen : ∀ (l : List Serve) (best : Option Serve), (l.foldl (fun best r =>
      match best with
      | none => some r
      | some b => if lowerPage r.segment r.page b.segment b.page then some r else best) best) = some r →
      best = some r ∨ r ∈ l := by
    intro l
    induction l with
    | nil => exact fun _ h => .inl h
    | cons x l ih =>
      intro best h
      rcases ih _ h with e | mem
      · dsimp only at e
        split at e
        · exact .inr (List.mem_cons.mpr (.inl (Option.some.inj e).symm))
        · split at e
          · exact .inr (List.mem_cons.mpr (.inl (Option.some.inj e).symm))
          · exact .inl e
      · exact .inr (List.mem_cons_of_mem _ mem)
  rcases chosen _ none h with e | mem
  · cases e
  · exact List.mem_filter.mp mem

/-- What the intake's head asks for before it is taken (R120). -/
theorem Cm.mayTake_room {c : Cm} (h : c.mayTake = true) : c.init ≠ .waiting ∧ c.tableWrites ≤ 32 := by
  simp only [Cm.mayTake, Bool.and_eq_true, decide_eq_true_eq, beq_iff_eq] at h
  exact ⟨by simp [h.2], h.1.2⟩

section
variable {s : State} (h : s.Fits)
include h

/-- A completion is acted on in the state without its report. -/
theorem State.completion_fits (c : ReqClass) {act : State → Report → State}
    (keep : ∀ (x : State) (r : Report), x.Fits → (act x r).Fits) : (s.completion c act).Fits := by
  unfold State.completion
  split
  · exact keep _ _ (h.onSmc ⟨h.smc.serve, h.smc.debt⟩)
  · exact h

theorem State.fits_ite {p : Prop} [Decidable p] {t : State} (fits : p → t.Fits) : (if p then t else s).Fits := by
  split
  · exact fits ‹_›
  · exact h

theorem exec_fits (tables : s.pagesConserved) {c : Instr} {t : State} (e : exec c s = .next t) : t.Fits := by
  cases c
  case grantPoint =>
    obtain ⟨g, words⟩ := s.handWords_onAu
    simp only [exec, execGrantPoint] at e
    split at e
    · cases e
    · cases e
      rw [words]
      exact BlocksFit.onSmc (h.onAu g) (Smc.endOperation_fits h.smc)
  all_goals cases e
  case powerOn =>
    exact
      { ce := ⟨Nat.zero_le _, Nat.zero_le _, Nat.zero_le _⟩
        cm := ⟨Nat.zero_le _, Nat.zero_le _, Nat.zero_le _, Nat.zero_le _, Nat.zero_le _,
          fun _ => ⟨rfl, rfl, rfl, rfl⟩, List.nodup_nil, nofun⟩
        liu := ⟨Nat.zero_le _, Nat.zero_le _, Nat.zero_le _, Nat.zero_le _, Nat.zero_le _⟩
        smc := ⟨Nat.zero_le _, Nat.zero_le _⟩
        faults := List.nodup_nil
        content := Nat.zero_le _ }
  case configReadComplete => exact State.fits_ite h fun _ => State.takeConfig_fits h tables _
  case resetPinAssert => exact State.fits_ite h fun _ => State.resetPoint_fits h _ _
  case resetPinRelease => exact State.fits_ite h fun _ => h.onSt _
  case resetStation =>
    exact State.received_fits h _ fun _ hx => State.targeted_fits hx _ fun _ hy => (State.resetPoint_fits hy _ _).onSt _
  case frameBoundary => exact State.markBoundary_fits h _
  case listenEnd | warmupEnd | enterHeld | resumeBoundary | endingComplete | softStartEnd | minimumRunEnd
      | feedbackAbsenceLock | muteEnd | levelReadingValid | windReadingValid | cutoutEnd =>
    exact State.markWhen_fits h _ _
  case restExpiry | stoppingDriveZero => exact State.markAsPumpGoes_fits h _ _ _ _
  case wake => exact State.received_fits h _ fun _ hx => State.hearWake_fits hx
  case standby => exact State.received_fits h _ fun _ hx => State.hearStandby_fits hx
  case showSelect => exact State.received_fits h _ fun _ hx => State.hearShowSelect_fits hx _
  case go => exact State.received_fits h _ fun _ hx => State.hearGo_fits hx _ _
  case hold => exact State.received_fits h _ fun _ hx => State.hearHold_fits hx _
  case resume => exact State.received_fits h _ fun _ hx => State.hearResume_fits hx _
  case stop => exact State.received_fits h _ fun _ hx => State.hearStop_fits hx _
  case stopAssert => exact State.received_fits h _ fun _ hx => State.haltRequest_fits (hx.onTbu _)
  case clearHalt => exact State.received_fits h _ fun _ hx => State.hearClearHalt_fits hx
  case trigger => exact State.received_fits h _ fun _ hx => State.hearTrigger_fits hx _ _
  case clearFaults =>
    exact State.received_fits h _ fun _ hx => State.targeted_fits hx _ fun _ hy => State.clearFaultList_fits hy
  case startClaim => exact State.received_fits h _ fun _ hx => State.huPeerClaim_fits hx
  case beacon => exact State.received_fits h _ fun _ hx => State.recordBeacon_fits hx _ _ _
  case segmentDefine => exact State.received_fits h _ fun _ hx => State.intoIntake_fits hx _
  case pageData => exact State.received_fits h _ fun _ hx => State.hearPageData_fits hx _ _
  case pageRequest => exact State.received_fits h _ fun _ hx => State.hearPageRequest_fits hx _ _ _ _
  case statusReply => exact State.received_fits h _ fun _ hx => hx
  case statusQueryGeneral | statusQueryPumps | statusQueryFixtures | statusQueryPeers | statusQueryMemory
      | statusQueryFaults =>
    exact State.received_fits h _ fun _ hx => State.answerQuery_fits hx _ _ _ _
  case statusQueryUnknownSelector =>
    exact State.received_fits h _ fun _ hx => State.targeted_fits hx _ fun _ hy =>
      State.fits_ite hy fun _ => hy.onLiu { hy.liu with } (Nat.le_refl _)
  case t0Reached => exact State.fits_ite h fun _ => State.takeT0_fits h _
  case endActionDue => exact State.fits_ite h fun _ => State.takeEnd_fits h _
  case spacingTimerExpiry => exact State.fits_ite h fun _ => State.queueClaim_fits h
  case definitionAnswer => exact State.fits_ite h fun _ => State.answerDefinition_fits h
  case contentEnd => exact h.onAu _
  case outputPair => exact State.oscTick_fits h
  case cueReadComplete => exact State.completion_fits h _ fun _ _ hx => State.cueReadDone_fits hx _
  case rowReadComplete => exact State.completion_fits h _ fun _ _ hx => State.rowReadDone_fits hx _
  case walkComplete =>
    split
    · exact State.completion_fits h _ fun _ _ hx => State.walkDone_fits hx _ _
    · exact h
  case mapRegionAccessComplete =>
    exact State.fits_ite h fun _ => State.completion_fits h _ fun _ _ hx => State.mapAccessDone_fits hx
  case chunkWriteComplete => exact State.completion_fits h _ fun _ _ hx => State.chunkDone_fits hx
  case serveReadComplete => exact State.completion_fits h _ fun _ _ hx => State.serveReadDone_fits hx _ _
  case queuedChangeApply =>
    split
    · refine State.fits_ite h fun goes => State.applyChange_fits (h.onCm { h.cm with } (Nat.le_refl _)) _ ?_
      simp only [Bool.and_eq_true, decide_eq_true_eq] at goes
      exact goes.2
    · exact h
  case showSelectTaken =>
    split
    · refine State.fits_ite h fun goes => ?_
      obtain ⟨init, room⟩ := Cm.mayTake_room (Bool.and_eq_true_iff.mp goes).2
      exact State.takeSelect_fits (State.popIntake_fits h) _ init room
    · exact h
  case segmentDefineTaken =>
    split
    · refine State.fits_ite h fun goes => ?_
      obtain ⟨init, room⟩ := Cm.mayTake_room (Bool.and_eq_true_iff.mp goes).2
      exact State.takeDefine_fits (State.popIntake_fits h) _ init room
    · exact h
  case pageDataTaken =>
    split
    · refine State.fits_ite h fun goes => ?_
      obtain ⟨init, room⟩ := Cm.mayTake_room (Bool.and_eq_true_iff.mp (Bool.and_eq_true_iff.mp goes).1).2
      exact State.takePageData_fits (State.popIntake_fits h) _ init room
    · exact h
  case fetchTimerExpiry =>
    split
    · exact State.fits_ite h fun _ => State.fetchExpired_fits h _
    · exact h
  case pageRequestQueue => exact State.fits_ite h fun _ => h.queueRequest
  case serveDelayEnd =>
    split
    · exact State.fits_ite h fun _ => State.startSending_fits h _
    · exact h
  case serveReadIssue =>
    split
    · rename_i r chosen
      obtain ⟨mem, may⟩ := Cm.lowestServe_mem chosen
      refine State.fits_ite h fun goes => State.issueServeRead_fits h mem may ?_
      have free := (Bool.and_eq_true_iff.mp goes).2
      simpa [Smc.classFree] using free
    · exact h
  case initWaitEnd => exact State.fits_ite h fun _ => h.onSmc (Smc.initWaitEnd_fits h.smc)
  case initPrechargeEnd => exact h.onSmc (Smc.initPrechargeEnd_fits h.smc)
  case initRefreshEnd => exact h.onSmc (Smc.initRefreshEnd_fits h.smc)
  case initModeEnd => exact State.fits_ite h fun _ => State.memoryReady_fits (h.onSmc (Smc.initModeEnd_fits h.smc))
  case debtRise => exact h.onSmc (Smc.debtRise_fits h.smc)
  case bankActivateDone => exact h.onSmc (Smc.activateDone_fits h.smc _)
  case bankPrechargeDone => exact h.onSmc (Smc.prechargeDone_fits h.smc _)
  case transmitStart =>
    obtain ⟨fits, content⟩ := Liu.start_fits h.liu _ _ _ _
    exact State.fits_ite h fun _ => h.onLiu fits (Nat.le_of_eq (congrArg List.length content))
  case transmitError => exact State.fits_ite h fun _ => State.abortTransmission_fits h
  case claimGoneOut =>
    split
    · exact State.claimOut_fits h _ _ { h.liu with fails := Nat.zero_le _ } rfl
    · exact h
  case beaconGoneOut =>
    split
    · exact h.onLiu { h.liu with fails := Nat.zero_le _ } (Nat.le_refl _)
    · exact h
  case stopAssertGoneOut =>
    split
    · exact h.onLiu { h.liu with fails := Nat.zero_le _ } (Nat.le_refl _)
    · exact h
  case statusReplyGoneOut =>
    split
    · exact h.onLiu (Liu.partOut_fits h.liu) (Nat.le_of_eq (congrArg List.length (Liu.partOut_contentQ _)))
    · exact h
  case pageRequestGoneOut =>
    split
    · exact State.requestOut_fits h
    · exact h
  case pageDataGoneOut =>
    split
    · exact State.dataOut_fits h
    · exact h
  case yieldIdleExpiry => exact State.fits_ite h fun _ => h.onLiu { h.liu with yield := Nat.zero_le _ } (Nat.le_refl _)
  case frameDiscarded =>
    split
    · exact State.fits_ite h fun _ => h.onLiu { h.liu with yield := Nat.zero_le _ } (Nat.le_refl _)
    · exact h
    · exact h
  case stopInputActive =>
    refine State.fits_ite h fun _ => ?_
    have active : (s.onBiu fun b => { b with stopActive := true }).Fits := h.onBiu rfl
    have halted := State.haltRequest_fits active
    exact State.fits_ite active fun _ => halted.onLiu { halted.liu with } (Nat.le_refl _)
  case stopInputInactive => exact State.fits_ite h fun _ => h.onBiu rfl
  case feedbackChange => exact State.fits_ite h fun _ => h.onBiu rfl
end

/-- Settles O59: each command keeps the capacities from a state whose tables are conserved, and a step runs one. -/
theorem capacitiesHold : Obligations.CapacitiesHold := by
  intro s t tables within e
  have fits := State.fits_of_withinCapacity tables within
  unfold step at e
  split at e
  · cases e
    exact within
  · rename_i rest _
    exact (exec_fits (s := { s with pending := rest }) fits tables e).withinCapacity

end Sys2Proof.Machine
end

