-- ==== Sys2Proof/Proofs/ResetPoint.lean ====
section
/-!
A reset point: the outputs and the line at once, the show given up, and what is in flight with the memory controller left
without effect (spec/11, R194, R195; spec/02, R46; spec/07, R149).
-/
namespace Sys2Proof.Machine

/-- The walks that a reset point leaves carry no lookup and are stale (R149). -/
theorem Cm.abandonAccesses_walks {c : Cm} {w : Walk} (h : .walk w ∈ c.abandonAccesses.mapQ) :
    w.askers = [] ∧ w.stale = true := by
  obtain ⟨e, -, e'⟩ := List.mem_map.mp h
  cases e with
  | write => cases e'
  | walk =>
    cases e'
    exact ⟨rfl, rfl⟩

/-- The blocks that a reset point does not reach. -/
theorem State.resetPoint_outside (s : State) (cause : ResetCause) (next : Phase) :
    (s.resetPoint cause next).tbu = s.tbu ∧ (s.resetPoint cause next).smc = s.smc ∧
      (s.resetPoint cause next).pt = s.pt ∧ (s.resetPoint cause next).biu = s.biu ∧
      (s.resetPoint cause next).pending = s.pending := by
  simp [State.resetPoint, State.quiesce]

theorem State.resetPoint_quietedTo (s : State) (cause : ResetCause) (next : Phase) :
    s.quietedTo (s.resetPoint cause next) := by
  have drive : ∀ n : Channel, (s.resetPoint cause next).driveOutput n = 0 := fun n =>
    congrArg Pump.actual (s.hu.mapPumps_pump (fun _ p => { p with actual := 0 }) n)
  have dimming : ∀ n : Fin 48, (s.resetPoint cause next).dimmingOutput n = 0 := fun n =>
    congrArg LightChannel.output (s.lu.mapChannels_channel (fun _ _ c => { c with output := 0 }) n)
  exact ⟨rfl, rfl, drive, dimming, rfl, rfl, rfl, rfl, rfl, rfl, rfl, rfl, rfl, rfl, rfl, rfl,
    s.cm.abandonAccesses_writesQueued, fun _ => Cm.abandonAccesses_walks, s.resetPoint_outside cause next⟩

/-- The strap read again at a RESET_STATION is no part of what a reset point leaves. -/
theorem State.quietedTo_onSt {s t : State} (h : s.quietedTo t) (p : Position) :
    s.quietedTo (t.onSt fun x => { x with position := p }) := by
  obtain ⟨cold, params, drive, dimming, rest⟩ := h
  exact ⟨cold, params, drive, dimming, rest⟩

/-- Settles O5: both reset points are State.resetPoint, RESET_STATION as delivered to its target. -/
theorem resetPointQuietsOutputs : Obligations.ResetPointQuietsOutputs := by
  refine ⟨fun s powered => ?_, fun p target strap s hears own => ?_, fun p target strap s hears other => ?_,
    fun strap s held => ?_⟩
  · exact ⟨_, congrArg Host.Outcome.next (if_pos powered), rfl, rfl, rfl, s.resetPoint_quietedTo .resetPin .pinHeld⟩
  · refine ⟨_, (next_received_of_hears hears _).trans (congrArg Host.Outcome.next (if_pos own)), rfl, rfl, rfl, ?_⟩
    exact State.quietedTo_onSt (s.afterFrame.resetPoint_quietedTo .resetStation .reading) strap
  · exact (next_received_of_hears hears _).trans (congrArg Host.Outcome.next (if_neg other))
  · exact congrArg Host.Outcome.next (if_pos held)

end Sys2Proof.Machine
end

