-- ==== Sys2Proof/Proofs/ReadsComplete.lean ====
section
/-!
The cue engine's block read and the audio unit's row read complete (spec/02, R28, R46; spec/05, R110).
-/
namespace Sys2Proof.Machine

/-- A fetch is still wanted while it has not been dropped and the read position stands in its block (R28, R46). -/
theorem Ce.fetchWanted_iff (c : Ce) (f : CueFetch) : c.fetchWanted f = true ↔
    f.live = true ∧ ∃ p, c.pos = some p ∧ p.segment = f.segment ∧ p.offset / 256 * 256 = f.offset := by
  unfold Ce.fetchWanted
  cases c.pos <;> simp

/-- The report of class `c` acted on (R138). -/
theorem State.completion_of_report {s : State} {c : ReqClass} {r : Report} (h : s.smc.reportOf c = some r)
    (act : State → Report → State) : s.completion c act = act (s.onSmc fun m => m.dropReport c) r := by
  rw [State.completion, h]

/-- The engine as a completed read of `bytes` for `f` leaves it: the fetch over, the buffer filled when it is wanted (R28). -/
def Ce.filled (f : CueFetch) (bytes : List Byte) (c : Ce) : Ce :=
  { c with
    fetch := none
    buffer := if c.fetchWanted f then some { segment := f.segment, offset := f.offset, bytes := bytes } else c.buffer }

theorem Ce.filled_buffer_wanted {c : Ce} {f : CueFetch} (bytes : List Byte) (h : c.fetchWanted f = true) :
    (c.filled f bytes).buffer = some { segment := f.segment, offset := f.offset, bytes := bytes } := if_pos h

theorem Ce.filled_buffer_dropped {c : Ce} {f : CueFetch} (bytes : List Byte) (h : c.fetchWanted f ≠ true) :
    (c.filled f bytes).buffer = c.buffer := if_neg h

theorem exec_cueReadComplete {s : State} {r : Report} {f : CueFetch} (report : s.smc.reportOf .cue = some r)
    (fetch : s.ce.fetch = some f) : exec .cueReadComplete s =
      .next ((s.onSmc fun m => m.dropReport .cue).onCe (Ce.filled f r.bytes)).cueRun := by
  refine congrArg Host.Outcome.next ((State.completion_of_report report _).trans ?_)
  rw [State.cueReadDone, State.onSmc_ce, fetch]
  rfl

/-- The slot of a completed fill (R110). -/
def AudioFill.slotFilled (f : AudioFill) (bytes : List Byte) : Slot :=
  if f.freed then {} else { state := .valid, tag := some (f.segment, f.block), data := bytes }

/-- The audio unit as a completed row read into slot `k` leaves it. -/
def Au.filled (k : Fin 32) (f : AudioFill) (bytes : List Byte) (a : Au) : Au :=
  { a with fill := none, slots := a.slots.set k (f.slotFilled bytes) }

theorem Au.filled_slot_same (a : Au) (k : Fin 32) (f : AudioFill) (bytes : List Byte) :
    (a.filled k f bytes).slots[k] = f.slotFilled bytes := by
  simp [Au.filled]

theorem Au.filled_slot_other (a : Au) {k j : Fin 32} (ne : j ≠ k) (f : AudioFill) (bytes : List Byte) :
    (a.filled k f bytes).slots[j] = a.slots[j] :=
  Vector.getElem_set_ne k.isLt j.isLt fun e => ne (Fin.ext e.symm)

theorem exec_rowReadComplete {s : State} {r : Report} {f : AudioFill} {k : Fin 32}
    (report : s.smc.reportOf .audio = some r) (fill : s.au.fill = some f) (slot : f.slot = some k) :
    exec .rowReadComplete s = .next ((s.onSmc fun m => m.dropReport .audio).onAu (Au.filled k f r.bytes)).considerFill := by
  refine congrArg Host.Outcome.next ((State.completion_of_report report _).trans ?_)
  rw [State.rowReadDone, State.onSmc_au, fill]
  dsimp only
  rw [slot]
  rfl

/-- Settles O23: the buffer by whether the fetch is still wanted, the slot by whether its segment has been freed. -/
theorem readsFillTheirBuffers : Obligations.ReadsFillTheirBuffers := by
  refine ⟨fun s r f report fetch => ?_, fun s r f k report fill slot => ?_⟩
  · refine ⟨_, exec_cueReadComplete report fetch, fun live place => ?_, fun dead => ?_, fun moved => ?_, rfl, rfl, rfl, rfl,
      rfl⟩
    · exact Ce.filled_buffer_wanted _ ((Ce.fetchWanted_iff _ _).mpr ⟨live, place⟩)
    · refine Ce.filled_buffer_dropped (c := s.ce) _ fun wanted => ?_
      rw [((Ce.fetchWanted_iff _ _).mp wanted).1] at dead
      cases dead
    · refine Ce.filled_buffer_dropped (c := s.ce) _ fun wanted => ?_
      obtain ⟨-, p, pos, segment, block⟩ := (Ce.fetchWanted_iff _ _).mp wanted
      exact (moved p pos).elim (fun h => h segment) fun h => h block
  · refine ⟨_, exec_rowReadComplete report fill slot, rfl, fun kept => ?_, fun freed => ?_, fun j other => ?_, rfl, rfl, rfl,
      rfl, rfl⟩
    · rw [State.onAu_au, Au.filled_slot_same, AudioFill.slotFilled, kept]
      rfl
    · rw [State.onAu_au, Au.filled_slot_same, AudioFill.slotFilled, freed]
      rfl
    · exact Au.filled_slot_other _ other _ _

end Sys2Proof.Machine
end

