-- ==== Sys2Proof/Proofs/Slates.lean ====
section
/-!
What the slate of each consumer keeps (spec/02, R38 to R40): insertion by list order, jets, light channels, voice actions.
-/
namespace Sys2Proof.Machine

/-! ## Insertion (R35, R40) -/

/-- Insertion into a queue by dispatch time: behind what is dispatched no later, before the rest (R35). -/
theorem insertAction_split (a : Action) {q : List Action} (h : q.Pairwise fun x y => x.dispatch ≤ y.dispatch) :
    ∃ early late : List Action, q = early ++ late ∧ insertAction a q = early ++ a :: late ∧
      (∀ b ∈ early, b.dispatch ≤ a.dispatch) ∧ ∀ b ∈ late, a.dispatch < b.dispatch := by
  induction q with
  | nil => exact ⟨[], [], rfl, rfl, nofun, nofun⟩
  | cons x q ih =>
    obtain ⟨above, rest⟩ := List.pairwise_cons.mp h
    unfold insertAction
    by_cases lt : a.dispatch < x.dispatch
    · rw [if_pos lt]
      refine ⟨[], x :: q, rfl, rfl, nofun, fun b hb => ?_⟩
      rcases List.mem_cons.mp hb with rfl | hb
      · exact lt
      · exact Nat.lt_of_lt_of_le lt (above b hb)
    · rw [if_neg lt]
      obtain ⟨early, late, e, inserted, before, after⟩ := ih rest
      refine ⟨x :: early, late, by rw [e]; rfl, by rw [inserted]; rfl, fun b hb => ?_, after⟩
      rcases List.mem_cons.mp hb with rfl | hb
      · exact Nat.not_lt.mp lt
      · exact before b hb

theorem insertByOrder_perm (a : Action) (q : List Action) : (insertByOrder a q).Perm (a :: q) := by
  induction q with
  | nil => exact .refl _
  | cons x q ih =>
    unfold insertByOrder
    split
    · exact .refl _
    · exact (ih.cons x).trans (.swap a x q)

theorem insertByOrder_sorted (a : Action) {q : List Action} (h : q.Pairwise fun x y => x.order ≤ y.order) :
    (insertByOrder a q).Pairwise fun x y => x.order ≤ y.order := by
  induction q with
  | nil => exact List.pairwise_singleton _ _
  | cons x q ih =>
    obtain ⟨above, rest⟩ := List.pairwise_cons.mp h
    unfold insertByOrder
    split
    · refine List.pairwise_cons.mpr ⟨fun b hb => ?_, h⟩
      rcases List.mem_cons.mp hb with rfl | hb
      · exact Nat.le_of_lt ‹_›
      · exact (Nat.le_of_lt ‹_›).trans (above b hb)
    · refine List.pairwise_cons.mpr ⟨fun b hb => ?_, ih rest⟩
      rcases List.mem_cons.mp ((insertByOrder_perm a q).mem_iff.mp hb) with rfl | hb
      · exact Nat.not_lt.mp ‹_›
      · exact above b hb

/-! ## The slate by the kind of action (R36) -/

section
variable {x y : Slate} {a : Action}

theorem Slate.stage_jet {j h r : Nat} (deed : a.deed = .jet j h r) :
    x.stage a = some { x with jets := stageJet j a x.jets } := by
  rw [Slate.stage, deed]

theorem Slate.stage_light {d : LightDeed} (deed : a.deed = .light d) :
    x.stage a = some { x with lights := stageLight a x.lights } := by
  rw [Slate.stage, deed]

theorem Slate.stage_endShow (deed : a.deed = .endShow) : x.stage a = none := by
  rw [Slate.stage, deed]

theorem Slate.stage_voice (voice : a.forVoice = true) : x.stage a =
    if x.voices.length < 8 then some { x with voices := insertByOrder a x.voices } else none := by
  cases deed : a.deed <;> simp only [Action.forVoice, deed, Bool.false_eq_true] at voice
  all_goals rw [Slate.stage, deed]

theorem Action.forVoice_of_not (show_ : a.deed ≠ .endShow) (jet : ∀ j h r, a.deed ≠ .jet j h r)
    (light : ∀ d, a.deed ≠ .light d) : a.forVoice = true := by
  cases deed : a.deed
  case jet j h r => exact absurd deed (jet j h r)
  case light d => exact absurd deed (light d)
  case endShow => exact absurd deed show_
  all_goals rw [Action.forVoice, deed]

/-- An action finds no place in a slate when it ends the show, or when it is the ninth for the voices (R34, R40). -/
theorem Slate.stage_eq_none_iff :
    x.stage a = none ↔ a.deed = .endShow ∨ a.forVoice = true ∧ 8 ≤ x.voices.length := by
  cases deed : a.deed
  case jet => simp [Slate.stage_jet deed, Action.forVoice, deed]
  case light => simp [Slate.stage_light deed, Action.forVoice, deed]
  case endShow => simp [Slate.stage_endShow deed]
  all_goals
    have voice : a.forVoice = true := by rw [Action.forVoice, deed]
    simp [Slate.stage_voice voice, voice]

/-- A staged action takes a place among the voice actions when it is one. -/
theorem Slate.stage_voices_length (h : x.stage a = some y) :
    y.voices.length = x.voices.length + a.forVoice.toNat := by
  cases deed : a.deed
  case jet =>
    rw [Slate.stage_jet deed] at h
    cases h
    rw [Action.forVoice, deed]
    rfl
  case light =>
    rw [Slate.stage_light deed] at h
    cases h
    rw [Action.forVoice, deed]
    rfl
  case endShow =>
    rw [Slate.stage_endShow deed] at h
    cases h
  all_goals
    have voice : a.forVoice = true := by rw [Action.forVoice, deed]
    rw [Slate.stage_voice voice] at h
    split at h
    · cases h
      rw [voice]
      exact insertByOrder_length _ _
    · cases h

/-! ## Jets (R38) -/

/-- The action is a JET action for jet `j`. -/
def Action.forJet (j : Nat) (a : Action) : Bool :=
  match a.deed with
  | .jet j' _ _ => j' == j
  | _ => false

theorem Action.forJet_iff (j : Nat) (a : Action) : a.forJet j = true ↔ ∃ h r, a.deed = .jet j h r := by
  unfold Action.forJet
  cases a.deed <;> simp

theorem stageJet_eq (j : Nat) (a : Action) (jets : List Action) : stageJet j a jets =
    if jets.any fun b => b.forJet j && decide (a.order < b.order) then jets
    else (jets.filter fun b => !b.forJet j) ++ [a] := rfl

/-- A JET action loses to one for its jet that is later in list order. -/
theorem stageJet_later {j : Nat} {jets : List Action}
    (later : ∃ b ∈ jets, ∃ h r, b.deed = .jet j h r ∧ a.order < b.order) : stageJet j a jets = jets := by
  obtain ⟨b, hb, h, r, deed, lt⟩ := later
  rw [stageJet_eq, if_pos]
  exact List.any_eq_true.mpr ⟨b, hb, by simp [(Action.forJet_iff j b).mpr ⟨h, r, deed⟩, lt]⟩

/-- With none later it takes the place of those for its jet. -/
theorem mem_stageJet {j : Nat} {jets : List Action}
    (latest : ∀ b ∈ jets, ∀ h r, b.deed = .jet j h r → b.order ≤ a.order) (b : Action) :
    b ∈ stageJet j a jets ↔ (b ∈ jets ∧ ∀ h r, b.deed ≠ .jet j h r) ∨ b = a := by
  have none : ¬(jets.any fun b => b.forJet j && decide (a.order < b.order)) = true := by
    intro some
    obtain ⟨b, hb, both⟩ := List.any_eq_true.mp some
    obtain ⟨mine, lt⟩ := Bool.and_eq_true_iff.mp both
    obtain ⟨h, r, deed⟩ := (Action.forJet_iff j b).mp mine
    exact Nat.not_lt.mpr (latest b hb h r deed) (of_decide_eq_true lt)
  have other : (!b.forJet j) = true ↔ ∀ h r, b.deed ≠ .jet j h r := by
    rw [Bool.not_eq_true', ← Bool.not_eq_true, Action.forJet_iff]
    simp
  rw [stageJet_eq, if_neg none, List.mem_append, List.mem_filter, other, List.mem_singleton]

/-! ## Light channels (R39) -/

theorem Action.channels_of_light {d : LightDeed} (deed : a.deed = .light d) : a.channels = d.channels := by
  rw [Action.channels, deed]

/-- What an action that gives up the channels `ch` is left with. -/
theorem Action.giveUp_some {ch : BitVec 48} {b : Action} (h : a.giveUp ch = some b) :
    b.channels = a.channels &&& ~~~ch ∧ b.order = a.order := by
  unfold Action.giveUp at h
  cases deed : a.deed
  case light d =>
    rw [deed] at h
    dsimp only at h
    split at h
    · cases h
    · cases h
      exact ⟨by rw [Action.channels_of_light deed]; rfl, rfl⟩
  all_goals
    rw [deed] at h
    cases h
    exact ⟨by rw [Action.channels, deed]; simp, rfl⟩

theorem Action.giveUp_none {ch : BitVec 48} (h : a.giveUp ch = none) : a.channels &&& ~~~ch = 0 := by
  unfold Action.giveUp at h
  cases deed : a.deed
  case light d =>
    rw [deed] at h
    dsimp only at h
    split at h
    · rw [Action.channels_of_light deed]
      assumption
    · cases h
  all_goals
    rw [deed] at h
    cases h

/-- The channels that the actions later in list order than `n` hold. -/
def channelsAfter (n : Nat) (lights : List Action) : BitVec 48 :=
  lights.foldl (fun ch b => if n < b.order then ch ||| b.channels else ch) 0

theorem getLsbD_channelsAfter (n : Nat) (lights : List Action) (i : Nat) : (channelsAfter n lights).getLsbD i = true ↔
    ∃ b ∈ lights, n < b.order ∧ b.channels.getLsbD i = true := by
  have general : ∀ (l : List Action) (ch : BitVec 48),
      (l.foldl (fun ch b => if n < b.order then ch ||| b.channels else ch) ch).getLsbD i = true ↔
        ch.getLsbD i = true ∨ ∃ b ∈ l, n < b.order ∧ b.channels.getLsbD i = true := by
    intro l
    induction l with
    | nil => simp
    | cons b l ih =>
      intro ch
      rw [List.foldl_cons, ih]
      split <;> simp [*, or_assoc]
  rw [channelsAfter, general]
  simp

theorem stageLight_eq (a : Action) (lights : List Action) : stageLight a lights =
    match a.giveUp (channelsAfter a.order lights) with
    | none => lights
    | some a => insertByOrder a (lights.filterMap fun b => if a.order < b.order then some b else b.giveUp a.channels) :=
  rfl

/-- The two actions hold no channel in common. -/
abbrev Action.apart (b c : Action) : Prop := b.channels &&& c.channels = 0

/-- The action holds channel `i`. -/
abbrev Action.holds (b : Action) (i : Nat) : Prop := b.channels.getLsbD i = true

theorem Action.apart_iff (b c : Action) : b.apart c ↔ ∀ i : Nat, b.holds i → ¬c.holds i := by
  constructor
  · intro none i hb hc
    have bit := congrArg (fun v => v.getLsbD i) none
    simp [hb, hc] at bit
  · intro apart
    refine BitVec.eq_of_getLsbD_eq fun i _ => ?_
    refine (Bool.eq_false_iff.mpr fun both => ?_).trans (BitVec.getLsbD_zero (w := 48) (i := i)).symm
    rw [BitVec.getLsbD_and] at both
    obtain ⟨hb, hc⟩ := Bool.and_eq_true_iff.mp both
    exact apart i hb hc

theorem Action.apart_symm {b c : Action} (h : b.apart c) : c.apart b := by
  rw [Action.apart, BitVec.and_comm]
  exact h

/-- Of actions apart from each other only one holds a channel. -/
theorem eq_of_holds {l : List Action} (apart : l.Pairwise Action.apart) {b c : Action} (hb : b ∈ l) (hc : c ∈ l) {i : Nat}
    (holds : b.holds i) (holds' : c.holds i) : b = c := by
  have symm : Std.Symm Action.apart := ⟨fun _ _ => Action.apart_symm⟩
  by_contra ne
  exact (Action.apart_iff b c).mp (apart.forall hb hc ne) i holds holds'

/-- A channel given up. -/
theorem getLsbD_and_not (v ch : BitVec 48) (i : Nat) :
    (v &&& ~~~ch).getLsbD i = true ↔ v.getLsbD i = true ∧ ch.getLsbD i = false := by
  rw [BitVec.getLsbD_and, BitVec.getLsbD_not]
  cases h : v.getLsbD i
  · simp
  · simp [BitVec.lt_of_getLsbD h]

/-- What a standing action keeps beside the staged action `a`: all when it is later in list order. -/
def Action.beside (a b : Action) : Option Action := if a.order < b.order then some b else b.giveUp a.channels

theorem Action.beside_some {a b c : Action} (h : a.beside b = some c) : c.order = b.order ∧
    ∀ i, c.holds i ↔ b.holds i ∧ (a.order < b.order ∨ ¬a.holds i) := by
  unfold Action.beside at h
  split at h
  · cases h
    exact ⟨rfl, fun i => by simp [*]⟩
  · obtain ⟨channels, order⟩ := Action.giveUp_some h
    refine ⟨order, fun i => ?_⟩
    rw [Action.holds, channels, getLsbD_and_not]
    simp [*]

theorem Action.beside_none {a b : Action} (h : a.beside b = none) {i : Nat} (holds : b.holds i) : a.holds i := by
  unfold Action.beside at h
  split at h
  · cases h
  · by_contra free
    have bit := (getLsbD_and_not b.channels a.channels i).mpr ⟨holds, Bool.eq_false_iff.mpr free⟩
    rw [Action.giveUp_none h] at bit
    simp at bit

/-- A LIGHT action staged: lost, when later actions hold all its channels, or standing with what they leave it beside what
each standing action keeps. -/
theorem stageLight_cases (a : Action) (lights : List Action) :
    (a.channels &&& ~~~channelsAfter a.order lights = 0 ∧ stageLight a lights = lights) ∨
    ∃ b : Action, b.channels = a.channels &&& ~~~channelsAfter a.order lights ∧ b.order = a.order ∧
      (stageLight a lights).Perm (b :: lights.filterMap b.beside) := by
  rw [stageLight_eq]
  split
  · rename_i e
    exact .inl ⟨Action.giveUp_none e, rfl⟩
  · rename_i b e
    obtain ⟨channels, order⟩ := Action.giveUp_some e
    exact .inr ⟨b, channels, order, insertByOrder_perm _ _⟩

section
variable {lights : List Action} (apart : lights.Pairwise Action.apart)
include apart

/-- Staging keeps it that each channel has at most one holder. -/
theorem stageLight_apart (a : Action) : (stageLight a lights).Pairwise Action.apart := by
  rcases stageLight_cases a lights with ⟨-, e⟩ | ⟨b, channels, order, perm⟩
  · rwa [e]
  · refine (perm.pairwise_iff Action.apart_symm).mpr (List.pairwise_cons.mpr ⟨fun c hc => ?_, ?_⟩)
    · obtain ⟨x, hx, kept⟩ := List.mem_filterMap.mp hc
      obtain ⟨-, holds⟩ := Action.beside_some kept
      refine (Action.apart_iff b c).mpr fun i hb h => ?_
      obtain ⟨mine, later | free⟩ := (holds i).mp h
      · rw [Action.holds, channels, getLsbD_and_not] at hb
        exact Bool.eq_false_iff.mp hb.2 ((getLsbD_channelsAfter _ _ _).mpr ⟨x, hx, order ▸ later, mine⟩)
      · exact free hb
    · refine apart.filterMap _ fun x x' none c kept c' kept' => ?_
      obtain ⟨-, holds⟩ := Action.beside_some kept
      obtain ⟨-, holds'⟩ := Action.beside_some kept'
      exact (Action.apart_iff c c').mpr fun i h h' =>
        (Action.apart_iff x x').mp none i ((holds i).mp h).1 ((holds' i).mp h').1

/-- A channel the staged action names stays with it or with a later one. -/
theorem order_le_of_mem_stageLight {a b : Action} (hb : b ∈ stageLight a lights) {i : Nat} (holds : b.holds i)
    (names : a.holds i) : a.order ≤ b.order := by
  rcases stageLight_cases a lights with ⟨lost, e⟩ | ⟨c, channels, order, perm⟩
  · have later : (channelsAfter a.order lights).getLsbD i = true := by
      by_contra none
      have bit := (getLsbD_and_not a.channels _ i).mpr ⟨names, Bool.eq_false_iff.mpr none⟩
      rw [lost] at bit
      simp at bit
    obtain ⟨x, hx, lt, holds'⟩ := (getLsbD_channelsAfter _ _ _).mp later
    rw [eq_of_holds apart (e ▸ hb) hx holds holds']
    exact Nat.le_of_lt lt
  · rcases List.mem_cons.mp (perm.mem_iff.mp hb) with rfl | hb
    · exact Nat.le_of_eq order.symm
    · obtain ⟨x, hx, kept⟩ := List.mem_filterMap.mp hb
      obtain ⟨same, held⟩ := Action.beside_some kept
      obtain ⟨mine, later | free⟩ := (held i).mp holds
      · rw [same, ← order]
        exact Nat.le_of_lt later
      · have after : (channelsAfter a.order lights).getLsbD i = true := by
          by_contra none
          exact free (by
            rw [Action.holds, channels, getLsbD_and_not]
            exact ⟨names, Bool.eq_false_iff.mpr none⟩)
        obtain ⟨x', hx', lt, mine'⟩ := (getLsbD_channelsAfter _ _ _).mp after
        rw [same, eq_of_holds apart hx hx' mine mine']
        exact Nat.le_of_lt lt
end

/-- No channel is lost: those held stay held, and those of the staged action are held. -/
theorem stageLight_holders (a : Action) (lights : List Action) (i : Nat) :
    (∃ b ∈ stageLight a lights, b.holds i) ↔ a.holds i ∨ ∃ b ∈ lights, b.holds i := by
  have left : ∀ v : BitVec 48, v = a.channels &&& ~~~channelsAfter a.order lights → a.holds i → v.getLsbD i = false →
      ∃ b ∈ lights, a.order < b.order ∧ b.holds i := by
    intro v e names gone
    refine (getLsbD_channelsAfter _ _ _).mp ?_
    by_contra none
    rw [e, Bool.eq_false_iff] at gone
    exact gone ((getLsbD_and_not _ _ _).mpr ⟨names, Bool.eq_false_iff.mpr none⟩)
  rcases stageLight_cases a lights with ⟨lost, e⟩ | ⟨c, channels, order, perm⟩
  · rw [e]
    refine ⟨.inr, fun h => h.elim (fun names => ?_) id⟩
    obtain ⟨b, hb, -, holds⟩ := left 0 lost.symm names (by simp)
    exact ⟨b, hb, holds⟩
  · have kept : ∀ b ∈ lights, b.holds i → c.holds i ∨ ∃ x ∈ lights.filterMap c.beside, x.holds i := by
      intro b hb holds
      by_cases mine : c.holds i
      · exact .inl mine
      · cases e : c.beside b with
        | none => exact absurd (Action.beside_none e holds) mine
        | some x =>
          exact .inr ⟨x, List.mem_filterMap.mpr ⟨b, hb, e⟩, ((Action.beside_some e).2 i).mpr ⟨holds, .inr mine⟩⟩
    have mem : (∃ b ∈ stageLight a lights, b.holds i) ↔ c.holds i ∨ ∃ x ∈ lights.filterMap c.beside, x.holds i := by
      simp only [perm.mem_iff, List.mem_cons, exists_eq_or_imp]
    rw [mem]
    constructor
    · rintro (holds | ⟨x, hx, holds⟩)
      · rw [Action.holds, channels, getLsbD_and_not] at holds
        exact .inl holds.1
      · obtain ⟨b, hb, e⟩ := List.mem_filterMap.mp hx
        exact .inr ⟨b, hb, (((Action.beside_some e).2 i).mp holds).1⟩
    · rintro (names | ⟨b, hb, holds⟩)
      · by_cases mine : c.holds i
        · exact .inl mine
        · obtain ⟨b, hb, -, holds⟩ := left _ channels names (Bool.eq_false_iff.mpr mine)
          exact kept b hb holds
      · exact kept b hb holds
end

end Sys2Proof.Machine
end

