-- ==== Sys2Proof/Proofs/Staging.lean ====
section
/-!
Staging (spec/02, R35 to R37): one action, an action produced, and the pass over the pending queue.
-/
namespace Sys2Proof.Machine

/-! ## One action -/

theorem Action.stageable_iff (k : Nat) (a : Action) :
    a.stageable k = true ↔ a.deed ≠ .endShow ∧ a.dispatch / 960 ≤ k + 1 := by
  simp [Action.stageable]

/-- The other slate is not touched. -/
theorem Ce.setSlate_slate_other (c : Ce) (k : Nat) (x : Slate) : (c.setSlate (k + 1) x).slate k = c.slate k := by
  unfold Ce.setSlate Ce.slate
  by_cases even : k % 2 = 0
  · have odd : ¬(k + 1) % 2 = 0 := by omega
    rw [if_neg odd, if_pos even, if_pos even]
  · have next : (k + 1) % 2 = 0 := by omega
    rw [if_pos next, if_neg even, if_neg even]

theorem Ce.setSlate_eq (c : Ce) (k : Nat) (x : Slate) : c.setSlate k x =
    { c with slateEven := (c.setSlate k x).slateEven, slateOdd := (c.setSlate k x).slateOdd } := by
  unfold Ce.setSlate
  split <;> rfl

theorem Ce.setSlate_nextOrder (c : Ce) (k : Nat) (x : Slate) : (c.setSlate k x).nextOrder = c.nextOrder := by
  unfold Ce.setSlate
  split <;> rfl

/-- The count of CUE_LATE after `late` raises from a count of `n`. -/
def lateCount (n late : Nat) : Nat := if late = 0 then n else min 65535 (n + late)

theorem lateCount_add (n l l' : Nat) : lateCount (lateCount n l) l' = lateCount n (l + l') := by
  unfold lateCount
  split <;> split <;> split <;> omega

/-- The number of the actions whose frame is `k` or earlier. -/
def lateIn (k : Nat) (st : List Action) : Nat := st.countP fun a => decide (a.dispatch / 960 ≤ k)

theorem State.stagedTo_iff (s t : State) (k : Nat) (st : List Action) : s.stagedTo t k st ↔
    st.foldlM Slate.stage (s.ce.slate (k + 1)) = some (t.ce.slate (k + 1)) ∧ t.ce.slate k = s.ce.slate k ∧
      t.faultCount .cueLate = lateCount (s.faultCount .cueLate) (lateIn k st) ∧
      t = { s with
        ce := { s.ce with queue := t.ce.queue, nextOrder := t.ce.nextOrder, slateEven := t.ce.slateEven,
                          slateOdd := t.ce.slateOdd }
        biu := { s.biu with faults := t.biu.faults } } := Iff.rfl

/-- Nothing staged: the queue and the list order may be other. -/
theorem State.stagedTo_nil (s : State) (k : Nat) (q : List Action) (n : Nat) :
    s.stagedTo (s.onCe fun c => { c with queue := q, nextOrder := n }) k [] := ⟨rfl, rfl, rfl, rfl⟩

/-- Staging goes on from where it stood. -/
theorem State.stagedTo_trans {s t u : State} {k : Nat} {l l' : List Action} (h : s.stagedTo t k l)
    (h' : t.stagedTo u k l') : s.stagedTo u k (l ++ l') := by
  obtain ⟨slate, other, late, e⟩ := (State.stagedTo_iff ..).mp h
  obtain ⟨slate', other', late', e'⟩ := (State.stagedTo_iff ..).mp h'
  refine (State.stagedTo_iff ..).mpr ⟨?_, other'.trans other, ?_, ?_⟩
  · rw [List.foldlM_append, slate]
    exact slate'
  · rw [late', late, lateCount_add, lateIn, lateIn, ← List.countP_append]
    rfl
  · rw [e', e]

/-- An action that finds its place in the slate is staged (R36). -/
theorem State.stage_of_slate {s : State} {k : Nat} {a : Action} {x : Slate}
    (h : (s.ce.slate (k + 1)).stage a = some x) : ∃ t, s.stage k a = some t ∧ t.ce.slate (k + 1) = x ∧
      s.stagedTo t k [a] ∧ t.ce.queue = s.ce.queue ∧ t.ce.nextOrder = s.ce.nextOrder := by
  have placed : s.stage k a = some (if a.dispatch / 960 ≤ k then (s.onCe fun c => c.setSlate (k + 1) x).raise .cueLate
      else s.onCe fun c => c.setSlate (k + 1) x) := by
    rw [State.stage, h]
  have slate : [a].foldlM Slate.stage (s.ce.slate (k + 1)) = some ((s.ce.setSlate (k + 1) x).slate (k + 1)) := by
    rw [List.foldlM_cons, h, Ce.setSlate_slate]
    rfl
  have ce := Ce.setSlate_eq s.ce (k + 1) x
  have queue := Ce.setSlate_queue s.ce (k + 1) x
  have order := Ce.setSlate_nextOrder s.ce (k + 1) x
  refine ⟨_, placed, ?_⟩
  by_cases late : a.dispatch / 960 ≤ k
  · rw [if_pos late]
    refine ⟨Ce.setSlate_slate _ _ _, (State.stagedTo_iff ..).mpr ⟨slate, Ce.setSlate_slate_other _ _ _, ?_, ?_⟩, queue,
      order⟩
    · rw [State.faultCount_raise_same, lateIn, List.countP_singleton, if_pos (decide_eq_true late)]
      rfl
    · rw [State.raise_ce, State.onCe_ce, queue, order]
      exact congrArg (fun c => (s.onCe fun _ => c).raise .cueLate) ce
  · rw [if_neg late]
    refine ⟨Ce.setSlate_slate _ _ _, (State.stagedTo_iff ..).mpr ⟨slate, Ce.setSlate_slate_other _ _ _, ?_, ?_⟩, queue,
      order⟩
    · rw [lateIn, List.countP_singleton, if_neg (by simpa using late)]
      rfl
    · rw [State.onCe_ce, queue, order]
      exact congrArg (fun c => { s with ce := c }) ce

theorem State.stage_none {s : State} {k : Nat} {a : Action} (h : (s.ce.slate (k + 1)).stage a = none) :
    s.stage k a = none := by
  rw [State.stage, h]

/-- The place of an action in a slate that has room for it. -/
theorem Slate.stage_of_room {x : Slate} {a : Action} (show_ : a.deed ≠ .endShow)
    (room : a.forVoice = true → x.voices.length < 8) : ∃ y, x.stage a = some y := by
  cases h : x.stage a with
  | some y => exact ⟨y, rfl⟩
  | none =>
    rcases Slate.stage_eq_none_iff.mp h with ends | ⟨voice, full⟩
    · exact absurd ends show_
    · exact absurd (room voice) (Nat.not_lt.mpr full)

/-! ## An action produced (R35, R37) -/

section
variable {s : State} {d : Deed} {n : Nat}

/-- Produced in ARMED or RUNNING with a frame that has come and a place in its slate, an action is staged. -/
theorem State.produce_staged (show_ : d ≠ .endShow) (due : n / 960 ≤ s.tbu.frameNo + 1)
    (plays : s.tbu.state = .armed ∨ s.tbu.state = .running)
    (room : (s.newAction d n).forVoice = true → (s.ce.slate (s.tbu.frameNo + 1)).voices.length < 8) :
    (s.ce.slate (s.tbu.frameNo + 1)).stage (s.newAction d n) = some ((s.produce d n).ce.slate (s.tbu.frameNo + 1)) ∧
      s.stagedTo (s.produce d n) s.tbu.frameNo [s.newAction d n] ∧ (s.produce d n).ce.queue = s.ce.queue ∧
      (s.produce d n).ce.nextOrder = s.ce.nextOrder + 1 := by
  obtain ⟨x, placed⟩ := Slate.stage_of_room (a := s.newAction d n) show_ room
  obtain ⟨t, staged, slate, into, queue, order⟩ := State.stage_of_slate (s := s.ordered) placed
  have e : s.produce d n = t := by
    rw [State.produce_eq, if_pos ⟨(Action.stageable_iff _ _).mpr ⟨show_, due⟩, plays⟩, staged]
    rfl
  rw [e, placed, slate]
  exact ⟨rfl, State.stagedTo_trans (s.stagedTo_nil s.tbu.frameNo s.ce.queue (s.ce.nextOrder + 1)) into, queue, order⟩

/-- In every other case it is queued. -/
theorem State.produce_queued (h : d = .endShow ∨ s.tbu.frameNo + 1 < n / 960 ∨
    (s.tbu.state ≠ .armed ∧ s.tbu.state ≠ .running) ∨
    ((s.newAction d n).forVoice = true ∧ 8 ≤ (s.ce.slate (s.tbu.frameNo + 1)).voices.length)) :
    s.produce d n = s.queuedAction d n := by
  have unplaced : d = .endShow ∨ ((s.newAction d n).forVoice = true ∧
      8 ≤ (s.ce.slate (s.tbu.frameNo + 1)).voices.length) → s.ordered.stage s.tbu.frameNo (s.newAction d n) = none :=
    fun no => State.stage_none (s := s.ordered) (Slate.stage_eq_none_iff.mpr no)
  rw [State.produce_eq]
  by_cases goes : (s.newAction d n).stageable s.tbu.frameNo = true ∧ (s.tbu.state = .armed ∨ s.tbu.state = .running)
  · rw [if_pos goes]
    obtain ⟨stageable, plays⟩ := goes
    obtain ⟨show_, due⟩ := (Action.stageable_iff _ _).mp stageable
    rcases h with ends | late | ⟨armed, running⟩ | full
    · exact absurd ends show_
    · exact absurd due (Nat.not_le.mpr late)
    · exact absurd plays (not_or.mpr ⟨armed, running⟩)
    · rw [unplaced (.inr full)]
      rfl
  · rw [if_neg goes]
end

/-! ## The pass (R36) -/

/-- An action that the pass of frame `k` leaves in the queue beside the slate `x`: an END action, one for a later frame, or a
voice action beyond the eighth. -/
def Action.stays (k : Nat) (x : Slate) (a : Action) : Prop :=
  a.stageable k = false ∨ a.forVoice = true ∧ 8 ≤ x.voices.length

/-- One action of the queue in the staging pass. -/
def State.passAction (k : Nat) (s : State) (a : Action) : State :=
  if a.stageable k then
    match s.stage k a with
    | some s => s.onCe fun c => { c with queue := c.queue.erase a }
    | none => s
  else s

theorem State.stagePass_eq (s : State) (k : Nat) : s.stagePass k = s.ce.queue.foldl (State.passAction k) s := by
  refine congrArg (fun f => s.ce.queue.foldl f s) (funext fun x => funext fun a => ?_)
  unfold State.passAction
  cases x.stage k a <;> rfl

section
variable {s : State} {k : Nat} {a : Action}

theorem State.passAction_stays (h : a.stays k (s.ce.slate (k + 1))) : s.passAction k a = s := by
  unfold State.passAction
  rcases h with no | full
  · rw [no]
    rfl
  · rw [State.stage_none (Slate.stage_eq_none_iff.mpr (.inr full))]
    exact ite_self s

theorem State.passAction_goes (h : ¬a.stays k (s.ce.slate (k + 1))) : ∃ t, s.passAction k a = t ∧ s.stagedTo t k [a] ∧
    (s.ce.slate (k + 1)).stage a = some (t.ce.slate (k + 1)) ∧ t.ce.queue = s.ce.queue.erase a ∧
    t.ce.nextOrder = s.ce.nextOrder := by
  obtain ⟨yes, free⟩ := not_or.mp h
  have stageable := Bool.not_eq_false _ ▸ yes
  obtain ⟨x, placed⟩ := Slate.stage_of_room ((Action.stageable_iff k a).mp stageable).1 fun voice =>
    Nat.not_le.mp fun full => free ⟨voice, full⟩
  obtain ⟨t, staged, slate, into, queue, order⟩ := State.stage_of_slate placed
  have left := State.stagedTo_trans into (t.stagedTo_nil k (t.ce.queue.erase a) t.ce.nextOrder)
  refine ⟨t.onCe fun c => { c with queue := c.queue.erase a }, ?_, left, ?_, ?_, order⟩
  · unfold State.passAction
    rw [stageable, staged]
    rfl
  · rw [placed, ← slate]
    rfl
  · rw [State.onCe_ce, queue]
end

/-- The actions that are due in frame `k + 1` or before and are for a voice, or for none. -/
def dueFor (k : Nat) (voice : Bool) (a : Action) : Bool := a.stageable k && (a.forVoice == voice)

/-- The pass over what is left of the queue, behind the actions that stay: what is staged, and what stays. -/
theorem State.pass_over (k : Nat) (l : List Action) (s : State) (kept : List Action) (queue : s.ce.queue = kept ++ l)
    (stay : ∀ b ∈ kept, b.stays k (s.ce.slate (k + 1))) : ∃ st rest : List Action,
      s.stagedTo (l.foldl (State.passAction k) s) k st ∧ (l.foldl (State.passAction k) s).ce.queue = kept ++ rest ∧
      (l.foldl (State.passAction k) s).ce.nextOrder = s.ce.nextOrder ∧
      st.Sublist l ∧ rest.Sublist l ∧ l.Perm (st ++ rest) ∧
      st.filter (fun a => !a.forVoice) = l.filter (dueFor k false) ∧
      st.filter (fun a => a.forVoice) = (l.filter (dueFor k true)).take (8 - (s.ce.slate (k + 1)).voices.length) := by
  induction l generalizing s kept with
  | nil => exact ⟨[], [], s.stagedTo_nil k _ _, queue, rfl, .slnil, .slnil, .refl _, rfl, by simp⟩
  | cons a l ih =>
    rw [List.foldl_cons]
    by_cases stays : a.stays k (s.ce.slate (k + 1))
    · rw [State.passAction_stays stays]
      obtain ⟨st, rest, into, queue', order, sub, sub', perm, others, voices⟩ := ih s (kept ++ [a]) (by simp [queue])
        fun b hb => (List.mem_append.mp hb).elim (stay b) fun e => List.mem_singleton.mp e ▸ stays
      refine ⟨st, a :: rest, into, by simp [queue'], order, sub.cons a, sub'.cons_cons a,
        (perm.cons a).trans List.perm_middle.symm, others.trans ?_, voices.trans ?_⟩
      · rw [List.filter_cons, if_neg]
        rcases stays with no | ⟨voice, -⟩
        · simp [dueFor, no]
        · simp [dueFor, voice]
      · rw [List.filter_cons]
        rcases stays with no | ⟨-, full⟩
        · rw [if_neg (by simp [dueFor, no])]
        · rw [Nat.sub_eq_zero_of_le full, List.take_zero, List.take_zero]
    · obtain ⟨t, e, into, slate, queue', order⟩ := State.passAction_goes stays
      have absent : a ∉ kept := fun mem => stays (stay a mem)
      have longer := Slate.stage_voices_length slate
      obtain ⟨yes, free⟩ := not_or.mp stays
      have stageable : a.stageable k = true := Bool.not_eq_false _ ▸ yes
      rw [e]
      obtain ⟨st, rest, into', queue'', order', sub, sub', perm, others, voices⟩ := ih t kept
        (by rw [queue', queue, List.erase_append_right _ absent, List.erase_cons_head])
        fun b hb => (stay b hb).imp_right fun h => h.imp_right fun full => by omega
      refine ⟨a :: st, rest, State.stagedTo_trans into into', queue'', order'.trans order, sub.cons_cons a, sub'.cons a,
        perm.cons a, ?_, ?_⟩
      · rw [List.filter_cons, others, List.filter_cons]
        simp [dueFor, stageable]
      · rw [List.filter_cons, voices, List.filter_cons, longer]
        cases voice : a.forVoice
        · simp [dueFor, voice]
        · have room : (s.ce.slate (k + 1)).voices.length < 8 := Nat.not_le.mp fun full => free ⟨voice, full⟩
          rw [if_pos rfl, if_pos (by simp [dueFor, stageable, voice]),
            show 8 - (s.ce.slate (k + 1)).voices.length = 8 - ((s.ce.slate (k + 1)).voices.length + true.toNat) + 1 from by
              simp only [Bool.toNat_true]; omega]
          rfl

/-- The staging pass over the whole queue. -/
theorem State.stagePass_stages (s : State) (k : Nat) : ∃ st : List Action, s.stagedTo (s.stagePass k) k st ∧
    st.Sublist s.ce.queue ∧ (s.stagePass k).ce.queue.Sublist s.ce.queue ∧
    s.ce.queue.Perm (st ++ (s.stagePass k).ce.queue) ∧ (s.stagePass k).ce.nextOrder = s.ce.nextOrder ∧
    st.filter (fun a => !a.forVoice) = s.ce.queue.filter (dueFor k false) ∧
    st.filter (fun a => a.forVoice) =
      (s.ce.queue.filter (dueFor k true)).take (8 - (s.ce.slate (k + 1)).voices.length) := by
  obtain ⟨st, rest, into, queue, order, sub, sub', perm, others, voices⟩ := State.pass_over k s.ce.queue s [] rfl nofun
  rw [← State.stagePass_eq, List.nil_append] at queue
  rw [← State.stagePass_eq] at into order
  exact ⟨st, into, sub, queue ▸ sub', queue ▸ perm, order, others, voices⟩

/-- Settles O21: the queue by insertion, one action and the pass by what its slate has room for, each slate by its rule. -/
theorem actionsQueuedAndStaged : Obligations.ActionsQueuedAndStaged := by
  refine ⟨fun a q => insertAction_split a, fun s k a => ⟨fun show_ room => ?_, fun no => ?_⟩,
    fun s d n => ⟨fun show_ due plays room => State.produce_staged show_ due plays room, State.produce_queued⟩,
    fun s k => ?_, fun x y a j h r deed staged => ?_, fun x y a d deed staged apart => ?_,
    fun x a show_ jet light => ?_⟩
  · obtain ⟨x, placed⟩ := Slate.stage_of_room show_ room
    obtain ⟨t, staged, slate, into, queue, order⟩ := State.stage_of_slate placed
    exact ⟨t, staged, slate ▸ placed, into, queue, order⟩
  · exact State.stage_none (Slate.stage_eq_none_iff.mpr no)
  · obtain ⟨st, into, sub, sub', perm, order, others, voices⟩ := s.stagePass_stages k
    refine ⟨st, into, sub, sub', perm, order, others.trans (List.filter_congr fun a _ => ?_), voices.trans ?_⟩
    · cases voice : a.forVoice <;> simp [dueFor, Action.stageable, voice]
    · refine congrArg (List.take _) (List.filter_congr fun a _ => ?_)
      cases voice : a.forVoice
      · simp [dueFor, voice]
      · have ends : a.deed ≠ .endShow := fun deed => by simp [Action.forVoice, deed] at voice
        simp [dueFor, Action.stageable, voice, ends]
  · cases (Slate.stage_jet deed).symm.trans staged
    refine ⟨rfl, rfl, stageJet_later, fun latest => ⟨?_, fun b hb h' r' mine => ?_, fun b hb other => ?_⟩⟩
    · exact (mem_stageJet latest a).mpr (.inr rfl)
    · rcases (mem_stageJet latest b).mp hb with ⟨-, other⟩ | e
      · exact absurd mine (other h' r')
      · exact e
    · exact (mem_stageJet latest b).mpr (.inl ⟨hb, other⟩)
  · cases (Slate.stage_light deed).symm.trans staged
    have channels := Action.channels_of_light deed
    refine ⟨rfl, rfl, stageLight_apart apart a, fun n => ?_, fun b hb n holds names => ?_⟩
    · have holders := stageLight_holders a x.lights n
      rw [Action.holds, channels] at holders
      rw [Bool.eq_iff_iff, Bool.or_eq_true, List.any_eq_true, List.any_eq_true]
      exact holders
    · exact order_le_of_mem_stageLight apart hb holds (i := n)
        (by rw [Action.holds, channels]; exact names)
  · rw [Slate.stage_voice (Action.forVoice_of_not show_ jet light)]
    refine ⟨fun full => if_neg (Nat.not_lt.mpr full), fun room => ⟨_, if_pos room, rfl, rfl, insertByOrder_perm _ _, ?_⟩⟩
    exact insertByOrder_sorted a

end Sys2Proof.Machine
end

