-- ==== Sys2Proof/Proofs/CueRecords.lean ====
section
/-!
The cue record (spec/02, R24 and R200): the form check, condition by condition, and the fields of a well-formed record.
-/
namespace Sys2Proof.Machine

/-! ## The bytes of a record -/

theorem recByte_of_lt {r : List Byte} {i : Nat} (h : i < r.length) : recByte r i = r[i].toNat := by
  rw [recByte, List.getD_eq_getElem r 0 h]

/-- Four bytes are two words, the more significant first (R196). -/
theorem beNat_four (r : List Byte) (i : Nat) (h : i + 4 ≤ r.length) :
    beNat ((r.drop i).take 4) = 65536 * recWord r i + recWord r (i + 2) := by
  have four : (r.drop i).take 4 = [r[i], r[i + 1], r[i + 2], r[i + 3]] := by
    rw [List.drop_eq_getElem_cons (by omega), List.drop_eq_getElem_cons (by omega), List.drop_eq_getElem_cons (by omega),
      List.drop_eq_getElem_cons (by omega)]
    rfl
  rw [four, recWord, recWord, recByte_of_lt (by omega), recByte_of_lt (by omega), recByte_of_lt (by omega),
    recByte_of_lt (by omega)]
  simp only [beNat, List.foldl_cons, List.foldl_nil, Nat.add_assoc, Nat.reduceAdd]
  omega

theorem cueTime_eq {r : List Byte} (h : r.length = 16) : cueTime r = 65536 * recWord r 0 + recWord r 2 :=
  beNat_four r 0 (by omega)

/-- A code names a voice exactly when it is 0 or 1. -/
theorem voiceOf_eq (code : Nat) : voiceOf code = if code ≤ 1 then some (if code = 0 then .a else .b) else none := by
  match code with
  | 0 => rfl
  | 1 => rfl
  | n + 2 => rfl

/-- The voice that a code names. -/
theorem voiceOf_eq_some {code : Nat} {v : VoiceId}
    (h : voiceOf code = some v) : v = if code = 0 then .a else .b := by
  rw [voiceOf_eq] at h
  exact (Option.some.inj (Option.ite_none_right_eq_some.mp h).2).symm

/-! ## The form check (R24) -/

/-- The flags of a kind hold a bit that the kind does not define. -/
def flagsBeyond (kind flags : Nat) : Prop :=
  if kind = 3 then 3 < flags else if kind = 1 ∨ kind = 2 ∨ kind = 7 then 1 < flags else 0 < flags

/-- The mask names a target that the kind does not have. -/
def maskBeyond (kind mask : Nat) : Prop :=
  if kind = 1 then 255 < mask else if kind = 3 then 4095 < mask else 0 < mask

/-- The parameters of a kind lie outside their encoding. -/
def bodyBeyond (r : List Byte) (kind flags : Nat) : Prop :=
  (kind = 2 ∧ (recByte r 9 < recByte r 8 ∨ 7 < recByte r 9 ∨ 1 < recByte r 10)) ∨
  (kind = 3 ∧ (15 < recByte r 12 ∨ (2 ≤ flags ∧ 7 < recByte r 15))) ∨
  (kind = 4 ∧ (1 < recByte r 8 ∨ 127 < recByte r 9)) ∨
  ((kind = 5 ∨ kind = 6) ∧ 1 < recByte r 8)

theorem ne_and_cueFlagMask_iff (kind flags : Nat) : flags ≠ flags &&& cueFlagMask kind ↔ flagsBeyond kind flags := by
  have one := Nat.and_one_is_mod flags
  have three := Nat.and_two_pow_sub_one_eq_mod flags 2
  norm_num at three
  unfold cueFlagMask flagsBeyond
  split
  · rw [one]; simp; omega
  · rw [one]; simp; omega
  · rw [one]; simp; omega
  · rw [three]; simp; omega
  · rename_i jet sweep wait light
    rw [if_neg light, if_neg (not_or.mpr ⟨jet, not_or.mpr ⟨sweep, wait⟩⟩), Nat.and_zero]
    exact Nat.pos_iff_ne_zero.symm

theorem two_pow_cueTargets_le_iff (kind mask : Nat) : 2 ^ cueTargets kind ≤ mask ↔ maskBeyond kind mask := by
  unfold cueTargets maskBeyond
  split
  · exact Iff.rfl
  · exact Iff.rfl
  · rename_i jet light
    rw [if_neg jet, if_neg light]
    exact Iff.rfl

/-- The parameters' check, kind by kind. -/
theorem cueBody_eq_none_iff {r : List Byte} {kind flags : Nat} (mask : Nat) (known : 1 ≤ kind ∧ kind ≤ 9)
    (defined : ¬flagsBeyond kind flags) : cueBody r kind flags mask = none ↔ bodyBeyond r kind flags := by
  unfold cueBody bodyBeyond
  split
  · simp
  · simp; omega
  · have flags_le : flags ≤ 3 := Nat.not_lt.mp defined
    simp; omega
  · rw [voiceOf_eq]
    by_cases voice : recByte r 8 ≤ 1 <;> simp [voice]
    omega
  · rw [voiceOf_eq]
    by_cases voice : recByte r 8 ≤ 1 <;> simp [voice]
    omega
  · rw [voiceOf_eq]
    by_cases voice : recByte r 8 ≤ 1 <;> simp [voice]
    omega
  · simp
  · simp
  · simp
  · simp only [imp_false] at *
    omega

/-- The kind, the flags or the mask of a record lies outside its encoding. -/
def headBeyond (r : List Byte) : Prop :=
  (recByte r 4 = 0 ∨ 9 < recByte r 4) ∨ flagsBeyond (recByte r 4) (recByte r 5) ∨ maskBeyond (recByte r 4) (recWord r 6)

theorem decodeCue_of_head {r : List Byte} (h : headBeyond r) : decodeCue r = none := by
  rw [headBeyond, ← ne_and_cueFlagMask_iff, ← two_pow_cueTargets_le_iff, ← Nat.lt_one_iff] at h
  unfold decodeCue cueKind
  rcases h with kind | flags | mask
  · exact if_pos kind
  · dsimp only
    rw [if_pos flags, ite_self]
  · dsimp only
    rw [if_pos mask, ite_self, ite_self]

theorem decodeCue_of_not_head {r : List Byte} (h : ¬headBeyond r) :
    decodeCue r = cueBody r (recByte r 4) (recByte r 5) (recWord r 6) := by
  rw [headBeyond, ← ne_and_cueFlagMask_iff, ← two_pow_cueTargets_le_iff, ← Nat.lt_one_iff] at h
  obtain ⟨kind, rest⟩ := not_or.mp h
  obtain ⟨flags, mask⟩ := not_or.mp rest
  unfold decodeCue cueKind
  dsimp only
  rw [if_neg kind, if_neg flags, if_neg mask]

theorem decodeCue_eq_none_iff (r : List Byte) :
    decodeCue r = none ↔ headBeyond r ∨ bodyBeyond r (recByte r 4) (recByte r 5) := by
  by_cases head : headBeyond r
  · exact iff_of_true (decodeCue_of_head head) (.inl head)
  · obtain ⟨kind, rest⟩ := not_or.mp head
    rw [decodeCue_of_not_head head, cueBody_eq_none_iff _ (by omega) (not_or.mp rest).1, or_iff_right head]

theorem decodeCue_eq_some {r : List Byte} {c : Cue} (h : decodeCue r = some c) :
    ¬flagsBeyond (recByte r 4) (recByte r 5) ∧ cueBody r (recByte r 4) (recByte r 5) (recWord r 6) = some c := by
  have head : ¬headBeyond r := fun head => nomatch h.symm.trans (decodeCue_of_head head)
  exact ⟨fun flags => head (.inr (.inl flags)), decodeCue_of_not_head head ▸ h⟩

/-- The kind byte 7 is a WAIT_TRIGGER's alone. -/
theorem cueKind_ne_seven {r : List Byte} {c : Cue} (h : decodeCue r = some c) (wait : ∀ n a i, c ≠ .waitTrigger n a i) :
    cueKind r ≠ 7 := by
  intro seven
  obtain ⟨-, body⟩ := decodeCue_eq_some h
  rw [show recByte r 4 = 7 from seven] at body
  exact wait _ _ _ (Option.some.inj body).symm

/-! ## The fields (R24, R200) -/

section
variable {r : List Byte} {c : Cue} (h : decodeCue r = some c)
include h

theorem decodeCue_jet (kind : recByte r 4 = 1) :
    c = .jet (recWord r 6) (min 4095 (recWord r 8)) (recWord r 10) (recByte r 5 % 2 = 1) := by
  obtain ⟨-, body⟩ := decodeCue_eq_some h
  rw [kind] at body
  exact (Option.some.inj body).symm

theorem decodeCue_sweep (kind : recByte r 4 = 2) : c = .sweep (recByte r 8) (recByte r 9) (recByte r 10 = 1)
    (min 4095 (recWord r 11)) (recWord r 13) (recByte r 5 % 2 = 1) := by
  obtain ⟨-, body⟩ := decodeCue_eq_some h
  rw [kind] at body
  exact (Option.some.inj (Option.ite_none_right_eq_some.mp body).2).symm

theorem decodeCue_light (kind : recByte r 4 = 3) : c = .light (recWord r 6) (recByte r 12) (recByte r 8) (recByte r 9)
    (recByte r 10) (recByte r 11) (if recByte r 5 % 2 = 1 then min 3000 (recWord r 13) else 0)
    (if 2 ≤ recByte r 5 then some (recByte r 15) else none) := by
  obtain ⟨flags, body⟩ := decodeCue_eq_some h
  rw [kind] at body flags
  obtain ⟨-, e⟩ := Option.ite_none_right_eq_some.mp body
  have flags_le : recByte r 5 ≤ 3 := Nat.not_lt.mp flags
  have follows : recByte r 5 / 2 = 1 ↔ 2 ≤ recByte r 5 := by omega
  simp only [follows] at e
  exact (Option.some.inj e).symm

theorem decodeCue_audioStart (length : r.length = 16) (kind : recByte r 4 = 4) :
    c = .audioStart (if recByte r 8 = 0 then .a else .b) (recByte r 9) (65536 * recWord r 10 + recWord r 12)
      (min 800 (recWord r 14)) := by
  obtain ⟨-, body⟩ := decodeCue_eq_some h
  rw [kind] at body
  unfold cueBody at body
  cases voice : voiceOf (recByte r 8) with
  | none =>
    rw [voice] at body
    cases body
  | some v =>
    rw [voice] at body
    rw [← voiceOf_eq_some voice, ← beNat_four r 10 (by omega)]
    exact (Option.some.inj (Option.ite_none_right_eq_some.mp body).2).symm

theorem decodeCue_audioGain (kind : recByte r 4 = 5) :
    c = .audioGain (if recByte r 8 = 0 then .a else .b) (min 800 (recWord r 9)) (min 3000 (recWord r 11)) := by
  obtain ⟨-, body⟩ := decodeCue_eq_some h
  rw [kind] at body
  obtain ⟨v, voice, e⟩ := Option.map_eq_some_iff.mp body
  rw [← voiceOf_eq_some voice, e]

theorem decodeCue_audioStop (kind : recByte r 4 = 6) :
    c = .audioStop (if recByte r 8 = 0 then .a else .b) (min 3000 (recWord r 9)) := by
  obtain ⟨-, body⟩ := decodeCue_eq_some h
  rw [kind] at body
  obtain ⟨v, voice, e⟩ := Option.map_eq_some_iff.mp body
  rw [← voiceOf_eq_some voice, e]

theorem decodeCue_waitTrigger (kind : recByte r 4 = 7) :
    c = .waitTrigger (recByte r 8) (recWord r 9) (recByte r 5 % 2 = 1) := by
  obtain ⟨-, body⟩ := decodeCue_eq_some h
  rw [kind] at body
  exact (Option.some.inj body).symm

theorem decodeCue_endSegment (kind : recByte r 4 = 8) : c = .endSegment := by
  obtain ⟨-, body⟩ := decodeCue_eq_some h
  rw [kind] at body
  exact (Option.some.inj body).symm

theorem decodeCue_endShow (kind : recByte r 4 = 9) : c = .endShow := by
  obtain ⟨-, body⟩ := decodeCue_eq_some h
  rw [kind] at body
  exact (Option.some.inj body).symm
end

end Sys2Proof.Machine
end

