-- ==== Sys2Proof/Proofs/CueActions.lean ====
section
/-!
From a cue to its actions (spec/02, R30 to R32): the jets of a JET and of a SWEEP, the channels of a LIGHT.
-/
namespace Sys2Proof.Machine

theorem mem_allChannels (n : Channel) : n ∈ allChannels := by
  revert n
  decide

/-! ## JET (R30) -/

/-- The actions of a JET are those of the present jets of its mask, each led unless its time is the command's. -/
theorem State.mem_actionsOf_jet (s : State) (mask height ramp T : Nat) (at? : Bool) (n : Channel) (x : Deed × Nat) :
    (x ∈ s.actionsOf (.jet mask height ramp at?) T ∧ x.1 = .jet n.val height ramp) ↔
      mask.testBit n.val = true ∧ s.params.pumps[n].present = true ∧
      x = (.jet n.val height ramp, T - if at? then 0 else s.leadOf n height) := by
  have action : ∀ m : Channel, (if at? then (Deed.jet m.val height ramp, T) else s.ledJet m height ramp T) =
      (.jet m.val height ramp, T - if at? then 0 else s.leadOf m height) := by
    intro m
    cases at? <;> rfl
  simp only [State.actionsOf, List.mem_map, List.mem_filter, Bool.and_eq_true, action]
  constructor
  · rintro ⟨⟨m, ⟨-, named, present⟩, rfl⟩, deed⟩
    cases Fin.ext (Deed.jet.inj deed).1
    exact ⟨named, present, rfl⟩
  · rintro ⟨named, present, rfl⟩
    exact ⟨⟨n, ⟨mem_allChannels n, named, present⟩, rfl⟩, rfl⟩

/-! ## SWEEP (R31) -/

/-- The jets `first` to `last`, in rising order. -/
def sweepJets (first last : Nat) : List Channel :=
  allChannels.filter fun n => decide (first ≤ n.val) && decide (n.val ≤ last)

section
variable {first last : Nat} (ordered : first ≤ last) (within : last ≤ 7)
include ordered within

theorem sweepJets_vals : (sweepJets first last).map Fin.val = List.range' first (last - first + 1) := by
  have all : ∀ b : Fin 8, ∀ a : Fin 8, a.val ≤ b.val →
      (sweepJets a.val b.val).map Fin.val = List.range' a.val (b.val - a.val + 1) := by decide
  exact all ⟨last, by omega⟩ ⟨first, by omega⟩ ordered

theorem length_sweepJets : (sweepJets first last).length = last - first + 1 := by
  rw [← List.length_map Fin.val, sweepJets_vals ordered within, List.length_range']

/-- The jet at place `i`. -/
theorem sweepJets_getElem?_eq_some (i : Nat) (n : Channel) :
    (sweepJets first last)[i]? = some n ↔ n.val ≤ last ∧ n.val = first + i := by
  have val : ((sweepJets first last).map Fin.val)[i]? = some n.val ↔ (sweepJets first last)[i]? = some n := by
    rw [List.getElem?_map, Option.map_eq_some_iff]
    exact ⟨fun ⟨m, at_, e⟩ => Fin.ext e ▸ at_, fun at_ => ⟨n, at_, rfl⟩⟩
  rw [← val, sweepJets_vals ordered within, List.getElem?_eq_some_iff]
  simp only [List.length_range', List.getElem_range', one_mul, exists_prop]
  omega

/-- The jet at place `i` of the order in which a sweep plays. -/
theorem sweepOrder_getElem?_eq_some (back : Bool) (i : Nat) (n : Channel) :
    (if back then (sweepJets first last).reverse else sweepJets first last)[i]? = some n ↔
      first ≤ n.val ∧ n.val ≤ last ∧ i = if back then last - n.val else n.val - first := by
  cases back
  · rw [if_neg Bool.false_ne_true, if_neg Bool.false_ne_true, sweepJets_getElem?_eq_some ordered within]
    omega
  · rw [if_pos rfl, if_pos rfl]
    by_cases place : i < (sweepJets first last).length
    · rw [List.getElem?_reverse place, sweepJets_getElem?_eq_some ordered within, length_sweepJets ordered within]
      rw [length_sweepJets ordered within] at place
      omega
    · rw [List.getElem?_eq_none (by simpa using place)]
      rw [length_sweepJets ordered within] at place
      simp only [reduceCtorEq, false_iff]
      omega

/-- The actions of a SWEEP are those of its present jets, each led from the time of its place (R31). -/
theorem State.mem_actionsOf_sweep (s : State) (height gap T : Nat) (back basin : Bool) (n : Channel) (x : Deed × Nat) :
    (x ∈ s.actionsOf (.sweep first last back height gap basin) T ∧ x.1 = .jet n.val height 0) ↔
      first ≤ n.val ∧ n.val ≤ last ∧ s.params.pumps[n].present = true ∧
      x = (.jet n.val height 0, T + ((if back then last - n.val else n.val - first) +
        if basin then s.params.ringIndex * (last - first + 1) else 0) * gap - s.leadOf n height) := by
  have length : (if back then (sweepJets first last).reverse else sweepJets first last).length = last - first + 1 := by
    cases back <;> simp [length_sweepJets ordered within]
  have actions : s.actionsOf (.sweep first last back height gap basin) T =
      ((if back then (sweepJets first last).reverse else sweepJets first last).zipIdx.filter fun y =>
          s.params.pumps[y.1].present).map fun y => s.ledJet y.1 height 0
            (T + (y.2 + if basin then s.params.ringIndex * (last - first + 1) else 0) * gap) := by
    rw [← length]
    rfl
  simp only [actions, List.mem_map, List.mem_filter, List.mem_zipIdx_iff_getElem?, Prod.exists]
  constructor
  · rintro ⟨⟨m, i, ⟨at_, present⟩, rfl⟩, deed⟩
    cases Fin.ext (Deed.jet.inj deed).1
    obtain ⟨from_, upto, rfl⟩ := (sweepOrder_getElem?_eq_some ordered within back i n).mp at_
    exact ⟨from_, upto, present, rfl⟩
  · rintro ⟨from_, upto, present, rfl⟩
    exact ⟨⟨n, _, ⟨(sweepOrder_getElem?_eq_some ordered within back _ n).mpr ⟨from_, upto, rfl⟩, present⟩, rfl⟩, rfl⟩
end

/-! ## LIGHT (R32, R39) -/

/-- Setting bits one after another sets those that pass the test. -/
theorem getLsbD_foldl_setBit (named : Nat → Bool) (l : List Nat) (b : BitVec 48) (i : Nat) (bound : i < 48) :
    (l.foldl (fun b n => if named n then b ||| BitVec.ofNat 48 (1 <<< n) else b) b).getLsbD i =
      (b.getLsbD i || (decide (i ∈ l) && named i)) := by
  induction l generalizing b with
  | nil => simp
  | cons n l ih =>
    rw [List.foldl_cons, ih]
    have bit : (BitVec.ofNat 48 (1 <<< n)).getLsbD i = decide (i = n) := by
      rw [BitVec.getLsbD_ofNat, Nat.one_shiftLeft, Nat.testBit_two_pow]
      simp [bound, eq_comm]
    by_cases mine : i = n
    · subst mine
      cases named i <;> simp [bit]
    · cases set : named n <;> simp [bit, mine]

/-- A channel of a LIGHT is one of its channel mask on a fixture of its fixture mask. -/
theorem lightChannels_getLsbD (mask chans : Nat) {i : Nat} (bound : i < 48) :
    (lightChannels mask chans).getLsbD i = (mask.testBit (i / 4) && chans.testBit (i % 4)) := by
  have e := getLsbD_foldl_setBit (fun n => mask.testBit (n / 4) && chans.testBit (n % 4)) (List.range 48) 0 i bound
  rw [show (0 : BitVec 48).getLsbD i = false from BitVec.getLsbD_zero, Bool.false_or,
    decide_eq_true (List.mem_range.mpr bound), Bool.true_and] at e
  exact e

/-- A LIGHT that names a fixture and a channel gives one action, whose channels are those of its masks. -/
theorem State.actionsOf_light (s : State) (mask chans r g b w fade T : Nat) (follow : Option Nat) (fixtures : mask ≠ 0)
    (channels : chans ≠ 0) : ∃ d : LightDeed,
      s.actionsOf (.light mask chans r g b w fade follow) T = [(.light d, T)] ∧ d.cueFrame = T / 960 ∧
      d.fade = fade ∧ d.follow = follow ∧ [d.r, d.g, d.b, d.w] = [r, g, b, w] ∧
      (∀ (f : Fin 12) (k : Fin 4), d.covers f k = (mask.testBit f.val && chans.testBit k.val)) ∧
      (∀ f : Fin 12, d.names f = mask.testBit f.val) := by
  refine ⟨_, if_neg (not_or.mpr ⟨fixtures, channels⟩), rfl, rfl, rfl, rfl, fun f k => ?_, fun f => ?_⟩
  · have fixture : (4 * f.val + k.val) / 4 = f.val := by omega
    have channel : (4 * f.val + k.val) % 4 = k.val := by omega
    rw [LightDeed.covers, lightChannels_getLsbD mask chans (by omega), fixture, channel]
  · rw [LightDeed.names, lightFixtures, BitVec.getLsbD_ofNat, decide_eq_true f.isLt, Bool.true_and]

end Sys2Proof.Machine
end

