-- ==== Sys2Proof/Proofs/CuesTaken.lean ====
section
/-!
A record read (spec/02, R24 to R27, R34): the timed show segment it opens, the record counted, waiting or taken, and the end
of the list.
-/
namespace Sys2Proof.Machine

section
variable {s : State} {p : ReadPos} {r : List Byte}

/-! ## The timed show segment (R26) -/

theorem State.openTimed_closed {t : Nat} (closed : s.ce.closed = some t) : s.openTimed = s.openSegment (s.base + t) := by
  rw [State.openTimed, closed]

theorem State.openTimed_unclosed (closed : s.ce.closed = none) : s.openTimed = s := by
  rw [State.openTimed, closed]

/-- After an END_SEGMENT any record but a WAIT_TRIGGER opens a timed show segment. -/
theorem State.readRecord_closed {t : Nat} (closed : s.ce.closed = some t)
    (wait : ∀ n a i, decodeCue r ≠ some (.waitTrigger n a i)) : s.readRecord p r = .more s.openTimed := by
  unfold State.readRecord
  rw [closed]
  cases cue : decodeCue r with
  | none => rfl
  | some c =>
    cases c with
    | waitTrigger n a i => exact absurd cue (wait n a i)
    | _ => rfl

theorem State.readRecord_unclosed (closed : s.ce.closed = none) :
    s.readRecord p r = State.readRecord.go s p r (decodeCue r) := by
  unfold State.readRecord
  rw [closed]

/-! ## The horizon (R27) -/

/-- A record past the horizon waits, of whatever content but a WAIT_TRIGGER's. -/
theorem State.readRecord_past {c : Option Cue} (kind : cueKind r ≠ 7)
    (past : s.tbu.basinTime + s.params.horizon * 48000 < s.base + max (cueTime r) s.ce.lastCue) :
    State.readRecord.go s p r c = .stop s := if_pos ⟨kind, past⟩

/-- A malformed record within the horizon is counted and skipped (R24). -/
theorem State.readRecord_malformed
    (near : s.base + max (cueTime r) s.ce.lastCue ≤ s.tbu.basinTime + s.params.horizon * 48000) :
    State.readRecord.go s p r none = .more ((s.countMalformed p).onCe Ce.advance) :=
  if_neg fun past => Nat.not_lt.mpr near past.2

/-- A well-formed record within the horizon is taken at its time, or at the last cue time where that is later. -/
theorem State.readRecord_near {c : Cue}
    (near : s.base + max (cueTime r) s.ce.lastCue ≤ s.tbu.basinTime + s.params.horizon * 48000) :
    State.readRecord.go s p r (some c) = s.takeCue p r c (max (cueTime r) s.ce.lastCue) :=
  if_neg fun past => Nat.not_lt.mpr near past.2

/-! ## The taking (R25, R35) -/

theorem State.countMalformed_faultCount (s : State) (p : ReadPos) :
    (s.countMalformed p).faultCount .cueMalformed = min 65535 (s.faultCount .cueMalformed + 1) :=
  State.faultCount_raise_same .cueMalformed s _

/-- A record below the last cue time is counted (R25). -/
def State.timeCounted (s : State) (p : ReadPos) (r : List Byte) : State :=
  if cueTime r < s.ce.lastCue then s.countMalformed p else s

theorem State.timeCounted_eq (s : State) (p : ReadPos) (r : List Byte) :
    s.timeCounted p r = { s with biu := (s.timeCounted p r).biu } := by
  unfold State.timeCounted
  split <;> rfl

theorem State.timeCounted_faultCount (s : State) (p : ReadPos) (r : List Byte) :
    (s.timeCounted p r).faultCount .cueMalformed =
      if cueTime r < s.ce.lastCue then min 65535 (s.faultCount .cueMalformed + 1) else s.faultCount .cueMalformed := by
  unfold State.timeCounted
  split
  · exact State.countMalformed_faultCount s p
  · rfl

/-- Actions produced one after another. -/
def State.produceAll (s : State) (acts : List (Deed × Nat)) : State := acts.foldl (fun z a => z.produce a.1 a.2) s

/-- An action produced leaves the read position. -/
theorem State.produce_pos (s : State) (d : Deed) (n : Nat) : (s.produce d n).ce.pos = s.ce.pos := by
  rcases s.produce_cases d n with ⟨t, staged, e⟩ | e <;> rw [e]
  · rw [State.stage_ce staged]
    rfl
  · rfl

theorem State.produceAll_pos (s : State) (acts : List (Deed × Nat)) : (s.produceAll acts).ce.pos = s.ce.pos :=
  List.foldlRecOn (motive := fun t : State => t.ce.pos = s.ce.pos) acts _ rfl fun t kept a _ =>
    (t.produce_pos a.1 a.2).trans kept

section
variable {t : Nat} {c : Cue}

/-- Without room for every action a record waits. -/
theorem State.takeCue_full (full : 32 < s.ce.queue.length + (s.actionsOf c (s.base + t)).length) :
    s.takeCue p r c t = .stop s := if_pos full

/-- An END_SEGMENT taken closes the show segment at its time (R26). -/
theorem State.takeCue_endSegment (room : s.ce.queue.length ≤ 32) : s.takeCue p r .endSegment t =
    .more ((s.timeCounted p r).onCe fun c => { { c with lastCue := t }.advance with closed := some t }) :=
  if_neg (Nat.not_lt.mpr room)

/-- Any other record taken gives its actions, and its time becomes the last cue time. -/
theorem State.takeCue_produces (segment : c ≠ .endSegment) (wait : ∀ n a i, c ≠ .waitTrigger n a i)
    (room : s.ce.queue.length + (s.actionsOf c (s.base + t)).length ≤ 32) : s.takeCue p r c t =
    if c = .endShow then
      .stop (((s.timeCounted p r).produceAll (s.actionsOf c (s.base + t))).onCe fun e =>
        { e with lastCue := t, readState := .ended })
    else .more (((s.timeCounted p r).produceAll (s.actionsOf c (s.base + t))).onCe fun e =>
      { e with lastCue := t }.advance) := by
  unfold State.takeCue
  dsimp only
  rw [if_neg (Nat.not_lt.mpr room)]
  cases c with
  | waitTrigger n a i => exact absurd rfl (wait n a i)
  | endSegment => exact absurd rfl segment
  | endShow => rfl
  | _ => rfl
end

/-! ## The end of the list (R34) -/

/-- An action inserted is in the queue. -/
theorem mem_insertAction_self (a : Action) (q : List Action) : a ∈ insertAction a q := by
  induction q with
  | nil => exact List.mem_singleton_self a
  | cons b q ih =>
    unfold insertAction
    split
    · exact List.mem_cons_self
    · exact List.mem_cons_of_mem b ih

theorem State.openTimed_queue (s : State) : s.openTimed.ce.queue = s.ce.queue := by
  unfold State.openTimed
  split <;> rfl

/-- Without room in the queue the END action waits. -/
theorem State.endOfList_full (full : 32 ≤ s.ce.queue.length) : s.endOfList = s.openTimed := by
  rw [State.endOfList, if_pos (s.openTimed_queue ▸ full)]

/-- With room it joins the queue at the base plus the last cue time. -/
theorem State.endOfList_room (room : s.ce.queue.length < 32) : s.endOfList =
    (s.openTimed.queuedAction .endShow (s.openTimed.base + s.openTimed.ce.lastCue)).onCe fun c =>
      { c with readState := .ended } := by
  rw [State.endOfList, if_neg (s.openTimed_queue ▸ Nat.not_le.mpr room), State.produce_queued (.inl rfl)]

/-- The end of a list after a closed show segment opens a timed one, whether or not its END action finds room (R26). -/
theorem State.endOfList_closed {t : Nat} (closed : s.ce.closed = some t) : s.endOfList.ce.index = s.ce.index + 1 ∧
    s.endOfList.ce.closed = none ∧ s.endOfList.ce.lastCue = 0 ∧
    s.endOfList.tbu.segBase = some (s.tbu.segBase.getD 0 + t) ∧
    (32 ≤ s.ce.queue.length → s.endOfList.ce.queue = s.ce.queue ∧ s.endOfList.ce.readState = s.ce.readState) ∧
    (s.ce.queue.length < 32 → s.endOfList.ce.readState = .ended ∧ ∃ a ∈ s.endOfList.ce.queue,
      a.deed = .endShow ∧ a.dispatch = s.tbu.segBase.getD 0 + t) := by
  rcases Nat.lt_or_ge s.ce.queue.length 32 with room | full
  · rw [State.endOfList_room room, State.openTimed_closed closed]
    exact ⟨rfl, rfl, rfl, rfl, fun full => absurd room (Nat.not_lt.mpr full),
      fun _ => ⟨rfl, _, mem_insertAction_self _ _, rfl, rfl⟩⟩
  · rw [State.endOfList_full full, State.openTimed_closed closed]
    exact ⟨rfl, rfl, rfl, rfl, fun _ => ⟨rfl, rfl⟩, fun room => absurd room (Nat.not_lt.mpr full)⟩

/-- The end of a list without a closed segment. -/
theorem State.cueAnswer_endOf (closed : s.ce.closed = none) (reading : s.ce.readState ≠ .scanning) :
    s.cueAnswer p .endOf = .stop (if 32 ≤ s.ce.queue.length then s else
      (s.queuedAction .endShow (s.base + s.ce.lastCue)).onCe fun c => { c with readState := .ended }) := by
  have ends : s.cueAnswer p .endOf = .stop s.endOfList := if_neg reading
  rw [ends]
  split
  · rename_i full
    rw [State.endOfList_full full, State.openTimed_unclosed closed]
  · rename_i room
    rw [State.endOfList_room (Nat.not_le.mp room), State.openTimed_unclosed closed]
end

/-- Settles O20: the record's form and fields by its kind, its reading by the closing, the horizon and the room, its actions
by the kind of the cue. -/
theorem cuesBecomeActions : Obligations.CuesBecomeActions := by
  refine ⟨fun r => ?_, fun r c length cue => ?_, fun s p r cue closed near => ?_, fun s p r t closed wait => ?_,
    fun s t closed => State.endOfList_closed closed, fun s p r closed cue near room => ?_,
    fun s p r c closed cue segment wait => ⟨fun past => ?_, fun full => ?_, fun near room => ?_⟩,
    fun s p closed reading => State.cueAnswer_endOf closed reading,
    fun s mask height ramp T at? n x => s.mem_actionsOf_jet mask height ramp T at? n x,
    fun s first last height gap T back basin n ordered within x =>
      s.mem_actionsOf_sweep ordered within height gap T back basin n x,
    fun s mask chans r g b w fade T follow fixtures channels =>
      s.actionsOf_light mask chans r g b w fade T follow fixtures channels,
    fun s v g start gain ramp T => ⟨rfl, rfl, rfl, rfl⟩⟩
  · rw [decodeCue_eq_none_iff, headBeyond, or_assoc, or_assoc, or_assoc]
    exact Iff.rfl
  · exact ⟨cueTime_eq length, decodeCue_jet cue, decodeCue_sweep cue, fun kind => by simp [decodeCue_light cue kind],
      decodeCue_audioStart cue length, decodeCue_audioGain cue, decodeCue_audioStop cue, decodeCue_waitTrigger cue,
      decodeCue_endSegment cue, decodeCue_endShow cue⟩
  · rw [State.readRecord_unclosed closed, cue, State.readRecord_malformed near]
    exact ⟨_, rfl, s.countMalformed_faultCount p, rfl, rfl⟩
  · rw [State.readRecord_closed closed wait, State.openTimed_closed closed]
    rfl
  · rw [State.readRecord_unclosed closed, cue, State.readRecord_near near, State.takeCue_endSegment room]
    have counted := s.timeCounted_eq p r
    refine ⟨_, rfl, ?_, s.timeCounted_faultCount p r, ?_⟩
    · rw [counted]
      rfl
    · rw [counted]
      rfl
  · rw [State.readRecord_unclosed closed]
    exact State.readRecord_past (cueKind_ne_seven cue wait) past
  · rw [State.readRecord_unclosed closed, cue]
    rcases Nat.lt_or_ge (s.tbu.basinTime + s.params.horizon * 48000) (s.base + max (cueTime r) s.ce.lastCue) with past | near
    · exact State.readRecord_past (cueKind_ne_seven cue wait) past
    · exact (State.readRecord_near near).trans (State.takeCue_full full)
  · refine ⟨_, _, s.timeCounted_eq p r, s.timeCounted_faultCount p r, rfl, ?_⟩
    have pos : s.ce.pos = ((s.timeCounted p r).produceAll (s.actionsOf c (s.base + max (cueTime r) s.ce.lastCue))).ce.pos := by
      rw [State.produceAll_pos, s.timeCounted_eq p r]
    rw [State.readRecord_unclosed closed, cue, State.readRecord_near near, State.takeCue_produces segment wait room, pos]
    rfl

end Sys2Proof.Machine
end

