-- ==== Sys2Proof/Proofs/Figures.lean ====
section
/-!
The figures of the hydraulics unit (spec/03): the integer square root and height to drive (R53), the scale factor and the
committed targets (R58), as sums over the eight pumps.
-/
namespace Sys2Proof.Machine

/-! ## The integer square root (spec/00, "Arithmetic") -/

theorem isqrtBits_spec (k r n : Nat) (below : r * r ≤ n) (above : n < (r + 2 ^ k) * (r + 2 ^ k)) :
    isqrtBits k r n * isqrtBits k r n ≤ n ∧ n < (isqrtBits k r n + 1) * (isqrtBits k r n + 1) := by
  induction k generalizing r with
  | zero => exact ⟨below, above⟩
  | succ k ih =>
    have bit : r + 2 ^ (k + 1) = r + 2 ^ k + 2 ^ k := by ring
    unfold isqrtBits
    split
    · exact ih _ ‹_› (bit ▸ above)
    · exact ih _ below (Nat.lt_of_not_le ‹_›)

/-- The integer square root is the largest number whose square does not exceed. -/
theorem isqrt_spec {n : Nat} (h : n < 2 ^ 64) : isqrt n * isqrt n ≤ n ∧ n < (isqrt n + 1) * (isqrt n + 1) :=
  isqrtBits_spec 32 0 n (Nat.zero_le n) (by simpa using h)

/-! ## Height to drive (R53) -/

theorem heightAt_full (pp : PumpParams) : heightAt pp 4096 = pp.hmax := Nat.mul_div_cancel pp.hmax (by decide)

/-- A drive whose square does not exceed floor(H × 2^24 / Hmax) does not pass the height `h`. -/
theorem heightAt_le {pp : PumpParams} {h r : Nat} (fits : r * r ≤ h * 2 ^ 24 / pp.hmax) : heightAt pp r ≤ h :=
  Nat.div_le_of_le_mul <| calc
    pp.hmax * (r * r) ≤ pp.hmax * (h * 2 ^ 24 / pp.hmax) := Nat.mul_le_mul_left _ fits
    _ ≤ h * 2 ^ 24 := Nat.mul_div_le _ _
    _ = 2 ^ 24 * h := Nat.mul_comm _ _

/-- Settles O49: the root is that of a number below 2^24. -/
theorem driveReachesHeight : Obligations.DriveReachesHeight := by
  intro pp h x _
  refine ⟨fun zero => by simp [driveFor, zero], fun pos high => by simp [driveFor, pos, high], fun pos low => ?_,
    by rw [heightAt, Nat.pow_two], heightAt_full pp⟩
  have small : h * 2 ^ 24 / pp.hmax < 2 ^ 64 := by
    have : h * 2 ^ 24 / pp.hmax < 2 ^ 24 := Nat.div_lt_of_lt_mul (Nat.mul_lt_mul_of_pos_right low (by decide))
    omega
  obtain ⟨below, above⟩ := isqrt_spec small
  have drive : driveFor pp h = max (isqrt (h * 2 ^ 24 / pp.hmax)) pp.dmin := by
    simp [driveFor, pos, Nat.not_le.mpr low]
  refine ⟨_, below, above, drive, fun unraised => ?_⟩
  rw [drive, max_eq_left unraised]
  exact heightAt_le below

/-! ## Sums over the pumps -/

theorem sumBy_allChannels (f : Channel → Nat) : sumBy f allChannels = ∑ n : Channel, f n := by
  simp [sumBy, allChannels, Fin.sum_univ_eight]

theorem Hu.startAllowance_eq_sum (P : Params) (h : Hu) : h.startAllowance P =
    ∑ n : Channel, if (h.pump n).state = .starting then P.pumps[n].allowance else 0 := sumBy_allChannels _

theorem Hu.runningDraw_eq_sum (P : Params) (h : Hu) : h.runningDraw P =
    ∑ n : Channel, if (h.pump n).state = .running then power P.pumps[n] (h.pump n).committed else 0 :=
  sumBy_allChannels _

theorem Hu.scaledPower_eq_sum (P : Params) (h : Hu) (f : Nat) : h.scaledPower P f =
    ∑ n : Channel, if (h.pump n).state = .running then power P.pumps[n] ((h.pump n).stageDrive P.pumps[n] * f / 1024)
      else 0 := sumBy_allChannels _

/-! ## The scale factor (R58) -/

theorem power_mono (pp : PumpParams) {x y : Nat} (h : x ≤ y) : power pp x ≤ power pp y :=
  Nat.div_le_div_right (Nat.mul_le_mul_left _ (Nat.pow_le_pow_left h 3))

theorem power_zero (pp : PumpParams) : power pp 0 = 0 := by simp [power]

theorem Hu.scaledPower_mono (P : Params) (h : Hu) {f g : Nat} (le : f ≤ g) : h.scaledPower P f ≤ h.scaledPower P g := by
  rw [Hu.scaledPower_eq_sum, Hu.scaledPower_eq_sum]
  refine Finset.sum_le_sum fun n _ => ?_
  split
  · exact power_mono _ (Nat.div_le_div_right (Nat.mul_le_mul_left _ le))
  · exact Nat.le_refl 0

theorem Hu.scaledPower_zero (P : Params) (h : Hu) : h.scaledPower P 0 = 0 := by
  rw [Hu.scaledPower_eq_sum]
  refine Finset.sum_eq_zero fun n _ => ?_
  split
  · rw [Nat.mul_zero, Nat.zero_div, power_zero]
  · rfl

/-- What qualifies below 1 qualifies up to the largest, and nothing above it does. -/
theorem largestUpTo_spec {p : Nat → Bool} (zero : p 0 = true) (n : Nat) : largestUpTo p n ≤ n ∧
    p (largestUpTo p n) = true ∧ ∀ g, largestUpTo p n < g → g ≤ n → p g = false := by
  induction n with
  | zero => exact ⟨Nat.le_refl 0, zero, fun g pos le => absurd pos (Nat.not_lt.mpr le)⟩
  | succ n ih =>
    obtain ⟨le, holds, above⟩ := ih
    unfold largestUpTo
    split
    · exact ⟨Nat.le_refl _, ‹_›, fun g gt le => absurd gt (Nat.not_lt.mpr le)⟩
    · refine ⟨Nat.le_succ_of_le le, holds, fun g gt le => ?_⟩
      rcases Nat.le_succ_iff.mp le with le | rfl
      · exact above g gt le
      · exact Bool.eq_false_iff.mpr ‹_›

/-- The scale factor keeps the scaled power within the budget, and no larger one up to 1024 does (R58). -/
theorem Hu.scaleTargets_scale (P : Params) (h : Hu) : (h.scaleTargets P).scale ≤ 1024 ∧
    h.scaledPower P (h.scaleTargets P).scale ≤ h.share - h.startAllowance P ∧
    ∀ g, (h.scaleTargets P).scale < g → g ≤ 1024 → h.share - h.startAllowance P < h.scaledPower P g := by
  obtain ⟨le, fits, above⟩ := largestUpTo_spec
    (p := fun f => decide (h.scaledPower P f ≤ h.share - h.startAllowance P))
    (by simp [h.scaledPower_zero P]) 1024
  exact ⟨le, of_decide_eq_true fits, fun g gt le => Nat.lt_of_not_le (of_decide_eq_false (above g gt le))⟩

/-- Stage 8 of one pump under the scale factor `f` (R58). -/
def Pump.scaleTo (pp : PumpParams) (f : Nat) (p : Pump) : Pump :=
  if p.state = .running then
    { p with
      committed := p.stageDrive pp * f / 1024
      arrival := if p.stageDrive pp * f / 1024 = p.committed then p.arrival else .pending }
  else p

theorem Hu.scaleTargets_pump (P : Params) (h : Hu) (n : Channel) :
    (h.scaleTargets P).pump n = (h.pump n).scaleTo P.pumps[n] (h.scaleTargets P).scale :=
  Hu.mapPumps_pump h (fun n p => p.scaleTo P.pumps[n] (h.scaleTargets P).scale) n

@[simp] theorem Pump.scaleTo_state (pp : PumpParams) (f : Nat) (p : Pump) : (p.scaleTo pp f).state = p.state := by
  unfold Pump.scaleTo
  split <;> rfl

theorem Pump.scaleTo_committed {pp : PumpParams} {p : Pump} (h : p.state = .running) (f : Nat) :
    (p.scaleTo pp f).committed = p.stageDrive pp * f / 1024 := by
  simp [Pump.scaleTo, h]

theorem Pump.scaleTo_other {pp : PumpParams} {p : Pump} (h : p.state ≠ .running) (f : Nat) : p.scaleTo pp f = p := by
  simp [Pump.scaleTo, h]

/-- Without a RUNNING pump every factor fits. -/
theorem Hu.scaledPower_none {h : Hu} (none : ∀ n : Channel, (h.pump n).state ≠ .running) (P : Params) (f : Nat) :
    h.scaledPower P f = 0 := by
  rw [Hu.scaledPower_eq_sum]
  exact Finset.sum_eq_zero fun n _ => if_neg (none n)

/-- Settles O50. -/
theorem scaleFactorLargest : Obligations.ScaleFactorLargest := by
  intro P h
  obtain ⟨le, fits, above⟩ := h.scaleTargets_scale P
  refine ⟨le, fits, above, fun _ _ => h.scaledPower_mono P, fun none => ?_, fun n running => ?_, fun n other => ?_⟩
  · by_contra below
    have exceeds := above 1024 (Nat.lt_of_le_of_ne le below) (Nat.le_refl _)
    rw [Hu.scaledPower_none none] at exceeds
    exact Nat.not_lt_zero _ exceeds
  · rw [Hu.scaleTargets_pump, Pump.scaleTo_committed running]
  · rw [Hu.scaleTargets_pump, Pump.scaleTo_other other]

end Sys2Proof.Machine
end

