-- ==== Sys2Proof/Proofs/PumpsApart.lean ====
section
/-!
What the other units leave of the hydraulics unit (spec/03): link, memory controller, content map and audio unit leave it
whole, and the cue engine and the transitions of a show that is played take at most the heights to 0 (R73).
-/
namespace Sys2Proof.Machine

/-! ## Link, memory controller, content map and audio unit -/

section
variable {s t : State}
theorem State.hu_of_unsounded (h : t.unsounded = s.unsounded) : t.hu = s.hu := congrArg (fun x => x.hu) h
theorem State.hu_of_unfilled (h : t.unfilled = s.unfilled) : t.hu = s.hu :=
  State.hu_of_unsounded (State.unsounded_of_unfilled h)
theorem State.hu_of_unmapped (h : t.unmapped = s.unmapped) : t.hu = s.hu :=
  State.hu_of_unsounded (State.unsounded_of_unmapped h)
end

section
variable (s : State)

@[simp] theorem State.queueRequest_hu : s.queueRequest.hu = s.hu := State.hu_of_unmapped s.queueRequest_unmapped
@[simp] theorem State.queueRequests_hu : s.queueRequests.hu = s.hu := State.hu_of_unmapped s.queueRequests_unmapped
@[simp] theorem State.issueMap_hu : s.issueMap.hu = s.hu := State.hu_of_unmapped s.issueMap_unmapped
@[simp] theorem State.popMap_hu : s.popMap.hu = s.hu := State.hu_of_unmapped s.popMap_unmapped
@[simp] theorem State.initMap_hu : s.initMap.hu = s.hu := State.hu_of_unmapped s.initMap_unmapped
@[simp] theorem State.openFill_hu (g q p : Nat) (f : Bool) : (s.openFill g q p f).hu = s.hu :=
  State.hu_of_unmapped (s.openFill_unmapped g q p f)
@[simp] theorem State.makeChange_hu (x : Change) : (s.makeChange x).hu = s.hu :=
  State.hu_of_unmapped (s.makeChange_unmapped x)
@[simp] theorem State.release_hu (gs : List Nat) : (s.release gs).hu = s.hu :=
  State.hu_of_unsounded (s.release_unsounded gs)
@[simp] theorem State.serveAnswer_hu (id : Nat) (a : Answer) : (s.serveAnswer id a).hu = s.hu :=
  State.hu_of_unmapped (s.serveAnswer_unmapped id a)
@[simp] theorem State.serveLookup_hu (r : Serve) : (s.serveLookup r).1.hu = s.hu :=
  State.hu_of_unmapped (s.serveLookup_unmapped r)
@[simp] theorem State.cueLookup_hu (p : ReadPos) : (s.cueLookup p).1.hu = s.hu :=
  State.hu_of_unmapped (s.cueLookup_unmapped p)
@[simp] theorem State.fillLookup_hu (f : AudioFill) : (s.fillLookup f).1.hu = s.hu :=
  State.hu_of_unfilled (s.fillLookup_unfilled f)
@[simp] theorem State.fillWalkAnswer_hu (a : Answer) : (s.fillWalkAnswer a).hu = s.hu :=
  State.hu_of_unfilled (s.fillWalkAnswer_unfilled a)
@[simp] theorem State.dropServes_hu (l : List Serve) : (l.foldl (fun s r => s.dropServe r.id) s).hu = s.hu :=
  State.hu_of_unmapped (s.dropServes_unmapped l)

@[simp] theorem State.feed_hu (x : Fill) (chunk : Nat) (data : List Byte) : (s.feed x chunk data).hu = s.hu := by
  unfold State.feed
  dsimp only
  split <;> rfl

@[simp] theorem State.feedPage_hu (g q : Nat) (f : PageDataFields) : (s.feedPage g q f).hu = s.hu := by
  unfold State.feedPage
  split
  · exact s.feed_hu _ _ _
  · rfl

theorem State.takeSelect_hu (n : Nat) : (s.takeSelect n).hu = s.hu := by
  unfold State.takeSelect
  split
  · rfl
  · split
    · rfl
    · split
      · rfl
      · exact s.release_hu _

@[simp] theorem State.releaseIfDefined_hu (g : Nat) : (s.releaseIfDefined g).hu = s.hu := by
  unfold State.releaseIfDefined
  split
  · exact s.release_hu _
  · rfl

@[simp] theorem State.define_hu (g : Nat) (e : DirEntry) : (s.define g e).hu = s.hu := by
  rw [State.define, State.issueMap_hu, State.onCm_hu]

theorem State.takeDefine_hu (f : SegmentDefineFields) : (s.takeDefine f).hu = s.hu := by
  unfold State.takeDefine
  dsimp only
  split
  · rfl
  · split
    · rfl
    · split
      · exact s.releaseIfDefined_hu _
      · split
        · rfl
        · rw [State.define_hu, State.releaseIfDefined_hu]

theorem State.takePageData_hu (f : PageDataFields) : (s.takePageData f).hu = s.hu := by
  have opens : (if 8 ≤ s.cm.fills.length then s
      else match s.cm.lowestFree with
        | none => s.raiseStoreFull f.segment.toNat f.page.toNat
        | some p => (s.openFill f.segment.toNat f.page.toNat p false).feedPage f.segment.toNat f.page.toNat f).hu =
      s.hu := by
    split
    · rfl
    · split
      · rfl
      · rw [State.feedPage_hu, State.openFill_hu]
  unfold State.takePageData
  dsimp only
  split
  · rfl
  · split
    · rfl
    · split
      · rfl
      · split
        · rfl
        · split
          · rfl
          · exact s.feedPage_hu _ _ _
          · exact opens
          · exact opens

theorem State.fetchExpired_hu (f : Fill) : (s.fetchExpired f).hu = s.hu := by
  unfold State.fetchExpired
  split
  · rw [State.queueRequest_hu, State.onCm_hu]
  · rw [State.makeChange_hu, State.onCm_hu]

theorem State.startSending_hu (r : Serve) : (s.startSending r).hu = s.hu := by
  rw [State.startSending, State.serveAnswer_hu, State.serveLookup_hu, State.onCm_hu]

theorem State.issueServeRead_hu (r : Serve) : (s.issueServeRead r).hu = s.hu := by
  unfold State.issueServeRead
  split <;> rfl

theorem State.chunkDone_hu : s.chunkDone.hu = s.hu := by
  unfold State.chunkDone
  dsimp only
  split
  · rw [State.makeChange_hu, State.onCm_hu]
  · rfl

theorem State.serveReadDone_hu (id : Nat) (bytes : List Byte) : (s.serveReadDone id bytes).hu = s.hu := by
  unfold State.serveReadDone
  split
  · split <;> rfl
  · rfl

theorem State.completion_hu (c : ReqClass) {act : State → Report → State} (h : ∀ x r, (act x r).hu = x.hu) :
    (s.completion c act).hu = s.hu := by
  unfold State.completion
  split
  · rw [h, State.onSmc_hu]
  · rfl

theorem State.abortTransmission_hu : s.abortTransmission.hu = s.hu := by
  unfold State.abortTransmission
  dsimp only
  split <;> rfl

theorem State.requestOut_hu : s.requestOut.hu = s.hu := by
  unfold State.requestOut
  split <;> rfl

theorem State.dataOut_hu : s.dataOut.hu = s.hu := by
  unfold State.dataOut
  split
  · dsimp only
    split <;> rfl
  · rfl

theorem State.intoIntake_hu (f : ContentFrame) : (s.intoIntake f).hu = s.hu := by
  unfold State.intoIntake
  split <;> rfl

theorem State.hearShowSelect_hu (n : Byte) : (s.hearShowSelect n).hu = s.hu := by
  unfold State.hearShowSelect
  split
  · exact s.intoIntake_hu _
  · exact s.intoIntake_hu _
  · rfl

theorem State.hearPageData_hu (p : Position) (f : PageDataFields) : (s.hearPageData p f).hu = s.hu := by
  rw [State.hearPageData, State.intoIntake_hu, State.dropServes_hu]

theorem State.hearPageRequest_hu (p : Position) (n g q : Nat) : (s.hearPageRequest p n g q).hu = s.hu := by
  unfold State.hearPageRequest
  split <;> rfl

theorem State.answerQuery_hu (target tag : Byte) (sel : Nat) (snap : State → List Byte) :
    (s.answerQuery target tag sel snap).hu = s.hu := by
  unfold State.answerQuery
  split <;> rfl

theorem State.countSelector_hu (target selector : Byte) :
    (s.targeted target fun s => if 5 < selector.toNat then s.onLiu Liu.countRxError else s).hu = s.hu := by
  unfold State.targeted
  split
  · split <;> rfl
  · rfl

theorem State.answerDefinition_hu : s.answerDefinition.hu = s.hu := by
  unfold State.answerDefinition
  split
  · rfl
  · dsimp only
    split <;> rfl

theorem State.handWords_hu : s.handWords.hu = s.hu := by
  obtain ⟨g, e⟩ := s.handWords_onAu
  rw [e, State.onAu_hu]

theorem State.memoryReady_hu : s.memoryReady.hu = s.hu := by
  unfold State.memoryReady
  dsimp only
  split <;> split
  · exact State.initMap_hu _
  · rfl
  · exact State.initMap_hu _
  · rfl

theorem State.hu_ite {s t : State} {p : Prop} [Decidable p] (h : t.hu = s.hu) : (if p then t else s).hu = s.hu := by
  split
  · exact h
  · rfl
end

/-- The commands of these units leave the hydraulics unit whole, but for the claim at the spacing timer's expiry (R69). -/
theorem exec_hu {c : Instr} (h : standing? c = true) (claim : c ≠ .spacingTimerExpiry) {s t : State}
    (e : exec c s = .next t) : t.hu = s.hu := by
  cases c <;> simp only [standing?, reduceCtorEq] at h
  case grantPoint =>
    simp only [exec, execGrantPoint] at e
    split at e
    · cases e
    · cases e
      rw [State.onSmc_hu, State.handWords_hu]
  all_goals cases e
  case spacingTimerExpiry => exact absurd rfl claim
  case definitionAnswer => exact State.hu_ite s.answerDefinition_hu
  case rowReadComplete => exact s.completion_hu _ fun x _ => State.hu_of_unfilled (x.rowReadDone_unfilled _)
  case mapRegionAccessComplete =>
    exact State.hu_ite (s.completion_hu _ fun x _ => State.hu_of_unmapped x.mapAccessDone_unmapped)
  case queuedChangeApply =>
    split
    · exact State.hu_ite (State.hu_of_unmapped (State.applyChange_unmapped _ _))
    · rfl
  case showSelectTaken =>
    split
    · exact State.hu_ite (State.takeSelect_hu _ _)
    · rfl
  case segmentDefineTaken =>
    split
    · exact State.hu_ite (State.takeDefine_hu _ _)
    · rfl
  case pageDataTaken =>
    split
    · exact State.hu_ite (State.takePageData_hu _ _)
    · rfl
  case chunkWriteComplete => exact s.completion_hu _ fun x _ => x.chunkDone_hu
  case fetchTimerExpiry =>
    split
    · exact State.hu_ite (State.fetchExpired_hu _ _)
    · rfl
  case pageRequestQueue => exact State.hu_ite s.queueRequest_hu
  case pageRequestGoneOut =>
    split
    · exact s.requestOut_hu
    · rfl
  case serveDelayEnd =>
    split
    · exact State.hu_ite (State.startSending_hu _ _)
    · rfl
  case serveReadIssue =>
    split
    · exact State.hu_ite (State.issueServeRead_hu _ _)
    · rfl
  case serveReadComplete => exact s.completion_hu _ fun x _ => x.serveReadDone_hu _ _
  case pageDataGoneOut =>
    split
    · exact s.dataOut_hu
    · rfl
  case initModeEnd => exact State.hu_ite (State.memoryReady_hu _)
  case transmitError => exact State.hu_ite s.abortTransmission_hu
  case frameDiscarded =>
    split
    · exact State.hu_ite rfl
    all_goals rfl
  case initWaitEnd | transmitStart | yieldIdleExpiry | stopInputInactive | feedbackChange => exact State.hu_ite rfl
  case contentEnd | initPrechargeEnd | initRefreshEnd | debtRise | bankActivateDone | bankPrechargeDone => rfl
  case beaconGoneOut | stopAssertGoneOut | statusReplyGoneOut => split <;> rfl

/-! ## The cue engine and the show -/

/-- Every height taken to 0 (R73). -/
def Hu.sunk (h : Hu) : Hu := h.mapPumps fun _ p => { p with height := 0 }

/-- The unit stands as `u`, or as `u` with every height taken to 0. -/
def Hu.SinksTo (u h : Hu) : Prop := h = u ∨ h = u.sunk

theorem Hu.sunk_sunk (h : Hu) : h.sunk.sunk = h.sunk := by simp [Hu.sunk, Hu.mapPumps]

theorem Hu.SinksTo.refl (u : Hu) : u.SinksTo u := .inl rfl

theorem Hu.SinksTo.sunk {u h : Hu} (sinks : u.SinksTo h) : u.SinksTo h.sunk := by
  rcases sinks with rfl | rfl
  · exact .inr rfl
  · exact .inr u.sunk_sunk

/-- Pump by pump, all but the height is as it was. -/
theorem Hu.SinksTo.pump {u h : Hu} (sinks : u.SinksTo h) (n : Channel) :
    h.pump n = u.pump n ∨ h.pump n = { u.pump n with height := 0 } := by
  rcases sinks with rfl | rfl
  · exact .inl rfl
  · exact .inr (Hu.mapPumps_pump u _ n)

theorem Hu.SinksTo.share {u h : Hu} (sinks : u.SinksTo h) : h.share = u.share := by
  rcases sinks with rfl | rfl <;> rfl

section
variable {u : Hu} {s : State} (h : u.SinksTo s.hu)
include h

theorem State.enterEnding_sinks (fade : Nat) : u.SinksTo (s.enterEnding fade).hu := h.sunk

theorem State.armedToIdle_sinks : u.SinksTo s.armedToIdle.hu := h.sunk

theorem State.takeEnd_sinks (now : Nat) : u.SinksTo (s.takeEnd now).hu := by
  unfold State.takeEnd
  split
  · exact h.sunk
  · exact h

theorem State.takeT0_sinks (now : Nat) : u.SinksTo (s.takeT0 now).hu := by
  unfold State.takeT0
  split
  · exact State.takeEnd_sinks (s := s.onTbu fun t => { t with state := .running }) h now
  · exact h

theorem State.cueEndShow_sinks : u.SinksTo s.cueEndShow.hu := by
  unfold State.cueEndShow
  split
  · exact h.sunk
  · exact h.sunk
  · exact h

theorem State.stage_sinks {k : Nat} {a : Action} {t : State} (staged : s.stage k a = some t) : u.SinksTo t.hu := by
  unfold State.stage at staged
  split at staged
  · cases staged
  · cases staged
    split <;> exact h

theorem State.stagePass_sinks (k : Nat) : u.SinksTo (s.stagePass k).hu := by
  refine List.foldlRecOn (motive := fun x : State => u.SinksTo x.hu) _ _ h fun x hx a _ => ?_
  split
  · split
    · rename_i t staged
      exact (State.stage_sinks hx staged :)
    · exact hx
  · exact hx

theorem State.produce_sinks (d : Deed) (n : Nat) : u.SinksTo (s.produce d n).hu := by
  rcases s.produce_cases d n with ⟨t, staged, e⟩ | e <;> rw [e]
  · exact State.stage_sinks (s := s.ordered) h staged
  · exact h

theorem State.produceAll_sinks (l : List (Deed × Nat)) :
    u.SinksTo (l.foldl (fun (s : State) (a : Deed × Nat) => s.produce a.1 a.2) s).hu :=
  List.foldlRecOn (motive := fun x : State => u.SinksTo x.hu) _ _ h fun _ hx _ _ => State.produce_sinks hx _ _

theorem State.openTimed_sinks : u.SinksTo s.openTimed.hu := by
  unfold State.openTimed
  split <;> exact h

theorem State.endOfList_sinks : u.SinksTo s.endOfList.hu := by
  have opened := State.openTimed_sinks h
  unfold State.endOfList
  dsimp only
  split
  · exact opened
  · exact State.produce_sinks opened _ _

theorem State.cueEnd_sinks : u.SinksTo s.cueEnd.state.hu := by
  unfold State.cueEnd
  split
  · exact h
  · exact State.endOfList_sinks h

theorem State.cueAnswer_sinks (p : ReadPos) (a : Answer) : u.SinksTo (s.cueAnswer p a).state.hu := by
  unfold State.cueAnswer
  dsimp only
  split
  · split
    · exact State.cueEnd_sinks h
    · split <;> exact h
  · exact h
  · exact h
  · exact h
  · exact State.cueEnd_sinks h
  · exact State.cueEndShow_sinks (s := s.raise _ _) h
  · exact State.cueEndShow_sinks (s := s.raise _ _) h

theorem State.takeCue_sinks (p : ReadPos) (r : List Byte) (c : Cue) (t : Nat) :
    u.SinksTo (s.takeCue p r c t).state.hu := by
  have counted : u.SinksTo (if cueTime r < s.ce.lastCue then s.countMalformed p else s).hu := by
    split <;> exact h
  unfold State.takeCue
  dsimp only
  split
  · exact h
  · have made := State.produceAll_sinks counted (s.actionsOf c (s.base + t))
    cases c with
    | waitTrigger => exact h
    | _ => exact made

theorem State.readRecord_sinks (p : ReadPos) (r : List Byte) : u.SinksTo (s.readRecord p r).state.hu := by
  rcases s.readRecord_cases p r with e | e <;> rw [e]
  · exact State.openTimed_sinks h
  · unfold State.readRecord.go
    dsimp only
    split
    · exact h
    · split
      · exact h
      · exact State.takeCue_sinks h _ _ _ _

theorem State.scanRecord_sinks (x : ScanRecord) (r : List Byte) : u.SinksTo (s.scanRecord x r).state.hu := by
  unfold State.scanRecord
  dsimp only
  split
  · split <;> exact h
  all_goals exact h

theorem State.cueStep_sinks : u.SinksTo s.cueStep.state.hu := by
  unfold State.cueStep
  dsimp only
  split
  · exact h
  · split
    · exact h
    · split
      · split
        · exact State.cueEnd_sinks h
        · split
          · exact State.scanRecord_sinks h _ _
          · exact State.readRecord_sinks h _ _
      · split
        · exact h
        · exact State.cueAnswer_sinks ((State.cueLookup_hu s _).symm ▸ h) _ _

theorem State.cueLoop_sinks (n : Nat) : u.SinksTo (s.cueLoop n).hu := by
  induction n generalizing s with
  | zero => exact h
  | succ n ih =>
    have step := State.cueStep_sinks h
    unfold State.cueLoop
    split
    · rename_i e
      rwa [e] at step
    · rename_i e
      rw [e] at step
      exact ih step

theorem State.cueRead_sinks : u.SinksTo s.cueRead.hu := State.cueLoop_sinks h 256

theorem State.cueRun_sinks : u.SinksTo s.cueRun.hu := (State.queueRequests_hu s.cueRead).symm ▸ State.cueRead_sinks h

theorem State.cueGo_sinks (n : Nat) : u.SinksTo (s.cueGo n).hu := by
  unfold State.cueGo
  dsimp only
  split
  · exact State.cueEndShow_sinks (s := State.raise _ _ _) h
  · exact State.cueRun_sinks (s := State.onCe _ _) h

theorem State.cueBoundary_sinks (k : Nat) (handed : ShowState) : u.SinksTo (s.cueBoundary k handed).hu := by
  have read := State.cueRead_sinks (s := (s.stagePass k).onCe fun c => { c with pageWait := false })
    (State.stagePass_sinks h k)
  unfold State.cueBoundary
  split
  · exact read
  · exact read
  · exact h

theorem State.cueReadDone_sinks (bytes : List Byte) : u.SinksTo (s.cueReadDone bytes).hu := by
  unfold State.cueReadDone
  split
  · exact h
  · exact State.cueRun_sinks (s := State.onCe _ _) h

omit h in
theorem Progress.run_sinks {x : Progress} (h : u.SinksTo x.state.hu) : u.SinksTo x.run.hu := by
  cases x with
  | more s => exact State.cueRun_sinks h
  | stop s => exact h

theorem State.cueWalkAnswer_sinks (a : Answer) : u.SinksTo (s.cueWalkAnswer a).hu := by
  unfold State.cueWalkAnswer
  split
  · exact h
  · split
    · exact h
    · dsimp only
      split
      · split
        · exact Progress.run_sinks (State.cueAnswer_sinks (s := State.onCe _ _) h _ _)
        · exact State.cueRun_sinks (s := State.onCe _ _) h
      · exact h

theorem State.answerAsker_sinks (ans : Answer) (a : Asker) : u.SinksTo (s.answerAsker ans a).hu := by
  cases a with
  | cue => exact State.cueWalkAnswer_sinks h ans
  | audio => exact (s.fillWalkAnswer_hu ans).symm ▸ h
  | serve id => exact (s.serveAnswer_hu id ans).symm ▸ h

theorem State.answerAfresh_sinks (a : Asker) : u.SinksTo (s.answerAfresh a).hu := by
  unfold State.answerAfresh
  split
  · split
    · exact State.cueWalkAnswer_sinks ((State.cueLookup_hu s _).symm ▸ h) _
    · exact h
  · split
    · dsimp only
      rw [State.fillWalkAnswer_hu, State.fillLookup_hu]
      exact h
    · exact h
  · split
    · dsimp only
      rw [State.serveAnswer_hu, State.serveLookup_hu]
      exact h
    · exact h

theorem State.walkDone_sinks (w : Walk) (bytes : List Byte) : u.SinksTo (s.walkDone w bytes).hu := by
  have popped : u.SinksTo s.popMap.hu := s.popMap_hu.symm ▸ h
  unfold State.walkDone
  dsimp only
  split
  · rw [State.queueRequests_hu]
    exact List.foldlRecOn (motive := fun x : State => u.SinksTo x.hu) _ _ popped fun _ hx a _ =>
      State.answerAfresh_sinks hx a
  · exact List.foldlRecOn (motive := fun x : State => u.SinksTo x.hu) _ _ popped fun _ hx a _ =>
      State.answerAsker_sinks hx _ a

theorem State.cueTrigger_sinks (n p : Nat) : u.SinksTo (s.cueTrigger n p).hu := by
  have runs : ∀ g : Ce → Ce, u.SinksTo ((s.onCe fun c => { c with lastTrigger := some p }).onCe g).cueRun.hu := fun g =>
    State.cueRun_sinks (s := State.onCe _ g) h
  unfold State.cueTrigger
  split
  · exact h
  · split
    · exact h
    · dsimp only
      split
      · split
        · split
          · exact State.cueRun_sinks (s := State.openTriggered _ _ _) h
          · exact h
        · exact h
      · split
        · split
          · exact runs _
          · exact h
        · exact h
      · split
        · split
          · exact runs _
          · exact h
        · exact h
      · exact h
      · exact h

/-! ## Frames that steer the show -/

theorem State.hearGo_sinks (n t0 : Nat) : u.SinksTo (s.hearGo n t0).hu := by
  unfold State.hearGo
  split
  · exact State.cueGo_sinks (s := State.onTbu _ _) h n
  · exact h

theorem State.hearStop_sinks (fade : Nat) : u.SinksTo (s.hearStop fade).hu := by
  unfold State.hearStop
  split
  · exact h.sunk
  · exact h.sunk
  · exact h.sunk
  · exact h

theorem State.hearTrigger_sinks (n p : Nat) : u.SinksTo (s.hearTrigger n p).hu := by
  unfold State.hearTrigger
  split
  · exact State.cueTrigger_sinks h n p
  · exact h

end

theorem State.hearWake_hu (s : State) : s.hearWake.hu = s.hu := State.hu_ite rfl
theorem State.hearHold_hu (s : State) (th : Nat) : (s.hearHold th).hu = s.hu := State.hu_ite rfl
theorem State.hearResume_hu (s : State) (tr : Nat) : (s.hearResume tr).hu = s.hu := State.hu_ite rfl
theorem State.hearClearHalt_hu (s : State) : s.hearClearHalt.hu = s.hu := State.hu_ite rfl

end Sys2Proof.Machine
end

