-- ==== Sys2Proof/Proofs/Draw.lean ====
section
/-!
The committed draw stays within the share last computed (spec/03, R59): the pass of the pumps brings it there (R57, R58), a
claim that goes out starts a pump only within it (R68), and nothing else raises it.
-/
namespace Sys2Proof.Machine

/-! ## The draw of one pump -/

/-- A pump's part of the committed draw (R59): the power of its committed target in RUNNING, its allowance in STARTING. -/
def Pump.draw (pp : PumpParams) (p : Pump) : Nat :=
  if p.state = .running then power pp p.committed else if p.state = .starting then pp.allowance else 0

theorem Hu.committedDraw_eq_sum (P : Params) (h : Hu) :
    h.committedDraw P = ∑ n : Channel, (h.pump n).draw P.pumps[n] := by
  rw [Hu.committedDraw, Hu.runningDraw_eq_sum, Hu.startAllowance_eq_sum, ← Finset.sum_add_distrib]
  refine Finset.sum_congr rfl fun n _ => ?_
  unfold Pump.draw
  by_cases running : (h.pump n).state = .running
  · simp [running]
  · simp [running]

/-- Only a pump in RUNNING or STARTING draws. -/
theorem Pump.draw_eq_zero {p : Pump} (running : p.state ≠ .running) (starting : p.state ≠ .starting) (pp : PumpParams) :
    p.draw pp = 0 := by
  simp [Pump.draw, running, starting]

section
variable (pp qq : PumpParams) (p : Pump)

theorem Pump.stop_draw (lock : Bool) : (p.stop lock).draw pp = 0 := by simp [Pump.draw, Pump.stop]

theorem Pump.rest_draw : (p.rest qq).draw pp = 0 := by simp [Pump.draw, Pump.rest]

theorem Pump.dry_draw : p.dry.draw pp ≤ p.draw pp := by
  unfold Pump.dry
  split
  case h_1 | h_2 => exact (p.stop_draw pp true).le.trans (Nat.zero_le _)
  all_goals simp [Pump.draw, *]

theorem Pump.unlockIfFree_draw : (p.unlockIfFree qq).draw pp ≤ p.draw pp := by
  unfold Pump.unlockIfFree
  split
  · exact (p.rest_draw pp qq).le.trans (Nat.zero_le _)
  · exact Nat.le_refl _

theorem Pump.undry_draw : (p.undry qq).draw pp ≤ p.draw pp :=
  Pump.unlockIfFree_draw pp qq { p with lockDry := false, lockPending := false }

theorem Pump.clearFeedback_draw : (p.clearFeedback qq).draw pp ≤ p.draw pp := by
  unfold Pump.clearFeedback
  split
  · exact Pump.unlockIfFree_draw pp qq { p with lockFeedback := false }
  · exact Nat.le_refl _

theorem Pump.halt_draw : p.halt.draw pp ≤ p.draw pp := by
  unfold Pump.halt
  dsimp only
  split
  case h_1 | h_2 => exact (Pump.stop_draw pp { p with height := 0 } false).le.trans (Nat.zero_le _)
  case h_3 => exact (Pump.draw_eq_zero (by nofun) (by nofun) pp).le.trans (Nat.zero_le _)
  case h_4 => exact Nat.le_refl _

/-- Shedding takes a pump's draw or leaves it (R59). -/
theorem Pump.shed_draw : (if p.state = .running ∧ p.committed < pp.dmin then p.stop else p).draw pp ≤ p.draw pp := by
  split
  · exact (p.stop_draw pp false).le.trans (Nat.zero_le _)
  · exact Nat.le_refl _

/-- Stage 9 moves the actual drive of a pump that draws, which is none of its draw. -/
theorem Pump.ramp_draw : (p.ramp qq).draw pp ≤ p.draw pp := by
  unfold Pump.ramp
  split
  case h_3 =>
    dsimp only
    split
    · split
      · exact (Pump.draw_eq_zero (by nofun) (by nofun) pp).le.trans (Nat.zero_le _)
      · exact (Pump.rest_draw pp qq _).le.trans (Nat.zero_le _)
    · exact Nat.le_refl _
  all_goals exact Nat.le_refl _

theorem Pump.arrive_draw (now : Nat) : (p.arrive qq now).draw pp = p.draw pp := by
  unfold Pump.arrive
  split <;> rfl
end

/-! ## Units that draw no more -/

/-- The unit `h` draws no more than `u`, pump by pump and under any parameters, and its share is that of `u`. -/
structure Hu.Eases (u h : Hu) : Prop where
  share : h.share = u.share
  draw : ∀ (n : Channel) (pp : PumpParams), (h.pump n).draw pp ≤ (u.pump n).draw pp

namespace Hu.Eases
variable {u v h : Hu}

theorem refl (u : Hu) : u.Eases u := ⟨rfl, fun _ _ => Nat.le_refl _⟩

theorem of_eq (e : h = u) : u.Eases h := e ▸ refl u

theorem trans (first : u.Eases v) (second : v.Eases h) : u.Eases h :=
  ⟨second.share.trans first.share, fun n pp => (second.draw n pp).trans (first.draw n pp)⟩

theorem mapPumps {g : Channel → Pump → Pump} (eases : u.Eases h)
    (draw : ∀ n pp p, (g n p).draw pp ≤ Pump.draw pp p) : u.Eases (h.mapPumps g) :=
  eases.trans ⟨rfl, fun n pp => (Hu.mapPumps_pump h g n).symm ▸ draw n pp _⟩

theorem of_sinks (sinks : u.SinksTo h) : u.Eases h := by
  refine ⟨sinks.share, fun n pp => ?_⟩
  rcases sinks.pump n with e | e <;> rw [e]
  exact Nat.le_refl _

theorem committedDraw_le (eases : u.Eases h) (P : Params) : h.committedDraw P ≤ u.committedDraw P := by
  rw [Hu.committedDraw_eq_sum, Hu.committedDraw_eq_sum]
  exact Finset.sum_le_sum fun n _ => eases.draw n _
end Hu.Eases

theorem State.drawWithinShare_of_eases {s t : State} (h : s.drawWithinShare) (params : t.params = s.params)
    (eases : s.hu.Eases t.hu) : t.drawWithinShare := by
  unfold State.drawWithinShare
  rw [params, eases.share]
  exact (eases.committedDraw_le _).trans h

/-! ## Readings, halts and resets draw no more -/

section
variable (s : State)
@[simp] theorem State.settleClaim_share : s.settleClaim.hu.share = s.hu.share := by
  unfold State.settleClaim
  split
  · rfl
  · split <;> rfl

@[simp] theorem State.recheckClaim_share : s.recheckClaim.hu.share = s.hu.share := by
  unfold State.recheckClaim
  split
  · split <;> rfl
  · rfl

@[simp] theorem State.queueClaim_share : s.queueClaim.hu.share = s.hu.share := by
  unfold State.queueClaim
  split
  · split <;> rfl
  · rfl
end

/-- Settling and the checks of a claim leave pumps and share. -/
theorem Hu.Eases.of_pumps {u h : Hu} (pumps : h.pumps = u.pumps) (share : h.share = u.share) : u.Eases h :=
  ⟨share, fun n _ => by rw [Hu.pump_of_pumps pumps n]⟩

section
variable {u : Hu} {s : State} (h : u.Eases s.hu)
include h

theorem State.settleClaim_eases : u.Eases s.settleClaim.hu :=
  h.trans (.of_pumps s.settleClaim_pumps s.settleClaim_share)

theorem State.queueClaim_eases : u.Eases s.queueClaim.hu := h.trans (.of_pumps s.queueClaim_pumps s.queueClaim_share)

theorem State.huDry_eases : u.Eases s.huDry.hu := by
  rw [State.huDry]
  refine State.settleClaim_eases ?_
  rw [State.onHu_hu]
  refine h.mapPumps fun n pp p => ?_
  split
  · exact p.dry_draw pp
  · exact Nat.le_refl _

theorem State.huNormal_eases : u.Eases s.huNormal.hu := by
  rw [State.huNormal, State.onHu_hu]
  refine h.mapPumps fun n pp p => ?_
  split
  · exact p.undry_draw pp _
  · exact Nat.le_refl _

theorem State.huHalt_eases : u.Eases s.huHalt.hu := by
  rw [State.huHalt]
  refine State.settleClaim_eases ?_
  rw [State.onHu_hu]
  exact h.mapPumps fun _ pp p => p.halt_draw pp

theorem State.haltRequest_eases : u.Eases s.haltRequest.hu := by
  unfold State.haltRequest
  split
  · exact h
  · exact h
  · rw [State.enterHalted, State.onAu_hu, State.onLu_hu]
    exact State.huHalt_eases h

theorem State.enterStandby_eases : u.Eases s.enterStandby.hu := by
  rw [State.enterStandby, State.onAu_hu, State.onLu_hu]
  exact State.huHalt_eases h

theorem State.positionConflict_eases : u.Eases s.positionConflict.hu := by
  rw [State.positionConflict_eq, State.onCe_hu]
  exact State.enterStandby_eases h

theorem State.hearStandby_eases : u.Eases s.hearStandby.hu := by
  unfold State.hearStandby
  split
  · exact State.enterStandby_eases h
  · exact h

theorem State.clearFaultList_eases : u.Eases s.clearFaultList.hu :=
  h.mapPumps (g := fun n p => p.clearFeedback s.params.pumps[n]) fun _ pp p => p.clearFeedback_draw pp _

theorem State.resetPoint_eases (cause : ResetCause) (next : Phase) : u.Eases (s.resetPoint cause next).hu :=
  h.mapPumps (g := fun _ p => { p with actual := 0 }) fun _ _ _ => Nat.le_refl _

theorem State.huPeerClaim_eases : u.Eases s.huPeerClaim.hu := by
  unfold State.huPeerClaim
  dsimp only
  split <;> exact ⟨h.share, h.draw⟩

omit h in
theorem Hu.eases_keptByReadings (u : Hu) : KeptByReadings fun s => u.Eases s.hu where
  onPt s g h := by rwa [State.onPt_hu]
  onBiu s g h := by rwa [State.onBiu_hu]
  dry _ h := State.huDry_eases h
  normal _ h := State.huNormal_eases h
  interlock s P l h := by rwa [State.onLu_hu]

theorem State.received_eases (p : Position) {deliver : State → State}
    (keep : ∀ x : State, u.Eases x.hu → u.Eases (deliver x).hu) : u.Eases (s.received p deliver).hu := by
  rcases s.received_cases p deliver with e | e | e <;> rw [e]
  · exact h
  · exact State.positionConflict_eases (s := s.afterFrame) h
  · exact keep s.afterFrame h

theorem State.received_eases_of_hu (p : Position) {deliver : State → State}
    (keep : ∀ x : State, (deliver x).hu = x.hu) : u.Eases (s.received p deliver).hu :=
  State.received_eases h p fun x hx => (keep x).symm ▸ hx

/-- A frame whose delivery sinks the heights at most. -/
theorem State.received_eases_of_sinks (p : Position) {deliver : State → State}
    (keep : ∀ x : State, x.hu.SinksTo (deliver x).hu) : u.Eases (s.received p deliver).hu :=
  State.received_eases h p fun x hx => hx.trans (.of_sinks (keep x))

theorem State.targeted_eases (target : Byte) {deliver : State → State}
    (keep : ∀ x : State, u.Eases x.hu → u.Eases (deliver x).hu) : u.Eases (s.targeted target deliver).hu := by
  unfold State.targeted
  split
  · exact keep s h
  · exact h
end

theorem State.countUnderruns_hu (s : State) (tau : Nat) : (s.countUnderruns tau).hu = s.hu := by
  rw [s.countUnderruns_eq, State.onBiu_hu]

theorem State.oscTick_eases (s : State) : s.hu.Eases s.oscTick.hu := by
  have counted := s.countUnderruns_hu (s.au.tau s.tbu.basinTime)
  unfold State.oscTick
  split
  · exact .refl _
  · dsimp only
    rw [State.onSt_hu, State.onSmc_hu, State.onCm_hu, State.onHu_hu, State.onTbu_hu, State.onAu_hu, counted]
    exact .of_pumps rfl rfl

/-! ## Every command but a boundary, a claim gone out, power-on and the configuration read -/

theorem exec_eases_of_standing {c : Instr} (h : standing? c = true) {s t : State} (e : exec c s = .next t) :
    s.hu.Eases t.hu := by
  by_cases spacing : c = .spacingTimerExpiry
  · subst spacing
    cases e
    split
    · exact State.queueClaim_eases (.refl _)
    · exact .refl _
  · exact .of_eq (exec_hu h spacing e)

theorem exec_eases {c : Instr} {s t : State} (e : exec c s = .next t) (boundary : boundary? c = false)
    (claim : c ≠ .claimGoneOut) (power : ∀ a b d, c ≠ .powerOn a b d) (config : ∀ r, c ≠ .configReadComplete r) :
    s.hu.Eases t.hu := by
  have whole := Hu.Eases.refl s.hu
  refine (Bool.eq_false_or_eq_true (standing? c)).elim (fun stands => exec_eases_of_standing stands e) fun stands => ?_
  cases c <;> simp only [standing?, boundary?, reduceCtorEq] at stands boundary
  all_goals cases e
  case powerOn => exact absurd rfl (power _ _ _)
  case configReadComplete => exact absurd rfl (config _)
  case claimGoneOut => exact absurd rfl claim
  case resetPinAssert =>
    split
    · exact State.resetPoint_eases whole _ _
    · exact whole
  case resetPinRelease => exact .of_eq (State.hu_ite rfl)
  case resetStation =>
    exact State.received_eases whole _ fun _ hx => State.targeted_eases hx _ fun _ hy =>
      State.resetPoint_eases hy .resetStation .reading
  case outputPair => exact s.oscTick_eases
  case t0Reached =>
    split
    · exact .of_sinks (State.takeT0_sinks (.refl _) _)
    · exact whole
  case endActionDue =>
    split
    · exact .of_sinks (State.takeEnd_sinks (.refl _) _)
    · exact whole
  case wake => exact State.received_eases_of_hu whole _ State.hearWake_hu
  case standby => exact State.received_eases whole _ fun _ => State.hearStandby_eases
  case go => exact State.received_eases_of_sinks whole _ fun _ => State.hearGo_sinks (.refl _) _ _
  case hold => exact State.received_eases_of_hu whole _ fun x => x.hearHold_hu _
  case resume => exact State.received_eases_of_hu whole _ fun x => x.hearResume_hu _
  case stop => exact State.received_eases_of_sinks whole _ fun _ => State.hearStop_sinks (.refl _) _
  case stopAssert => exact State.received_eases whole _ fun _ hx => State.haltRequest_eases (s := State.onTbu _ _) hx
  case clearHalt => exact State.received_eases_of_hu whole _ State.hearClearHalt_hu
  case trigger => exact State.received_eases_of_sinks whole _ fun _ => State.hearTrigger_sinks (.refl _) _ _
  case clearFaults =>
    exact State.received_eases whole _ fun _ hx => State.targeted_eases hx _ fun _ => State.clearFaultList_eases
  case beacon =>
    exact State.received_eases whole _ fun _ hx => (Hu.eases_keptByReadings s.hu).recordBeacon hx _ _ _
  case showSelect => exact State.received_eases_of_hu whole _ fun x => x.hearShowSelect_hu _
  case startClaim => exact State.received_eases whole _ fun _ => State.huPeerClaim_eases
  case segmentDefine => exact State.received_eases_of_hu whole _ fun x => x.intoIntake_hu _
  case pageData => exact State.received_eases_of_hu whole _ fun x => x.hearPageData_hu _ _
  case pageRequest => exact State.received_eases_of_hu whole _ fun x => x.hearPageRequest_hu _ _ _ _
  case statusReply => exact State.received_eases_of_hu whole _ fun _ => rfl
  case statusQueryGeneral | statusQueryPumps | statusQueryFixtures | statusQueryPeers | statusQueryMemory
      | statusQueryFaults =>
    exact State.received_eases_of_hu whole _ fun x => x.answerQuery_hu _ _ _ _
  case statusQueryUnknownSelector => exact State.received_eases_of_hu whole _ fun x => x.countSelector_hu _ _
  case cueReadComplete =>
    unfold State.completion
    split
    · exact .of_sinks (State.cueReadDone_sinks (s := State.onSmc _ _) (.refl _) _)
    · exact whole
  case walkComplete =>
    split
    · unfold State.completion
      split
      · exact .of_sinks (State.walkDone_sinks (s := State.onSmc _ _) (.refl _) _ _)
      · exact whole
    · exact whole
  case stopInputActive =>
    split
    · dsimp only
      split
      · exact State.haltRequest_eases (s := State.onBiu _ _) whole
      · exact whole
    · exact whole

/-! ## A claim gone out (R68) -/

/-- A pump that begins its start adds its allowance to the draw, and no other pump draws more. -/
theorem Hu.onPump_begin_committedDraw {h : Hu} {n : Channel} (claiming : (h.pump n).state = .claiming) (P : Params) :
    (h.onPump n Pump.begin).committedDraw P ≤ h.committedDraw P + P.pumps[n].allowance := by
  have added : ∑ m : Channel, (if m = n then P.pumps[n].allowance else 0) = P.pumps[n].allowance := by simp
  rw [Hu.committedDraw_eq_sum, Hu.committedDraw_eq_sum, ← added, ← Finset.sum_add_distrib]
  refine Finset.sum_le_sum fun m _ => ?_
  by_cases same : m = n
  · subst same
    rw [Hu.onPump_same, if_pos rfl]
    simp [Pump.draw, Pump.begin, claiming]
  · rw [Hu.onPump_other h _ same, if_neg same]
    exact Nat.le_refl _

theorem State.huClaimOut_drawWithinShare {s : State} (h : s.drawWithinShare) (n : Channel) :
    (s.huClaimOut n).drawWithinShare := by
  unfold State.huClaimOut
  dsimp only
  split
  · rename_i claims
    obtain ⟨-, claiming⟩ := claims
    split
    · rename_i within_
      exact (Hu.onPump_begin_committedDraw claiming s.params).trans (of_decide_eq_true within_)
    · exact h
  · exact h

/-! ## The pass (R57 to R59) -/

section
variable (P : Params)

/-- Start aborts lower the allowance of the starting pumps. -/
theorem Hu.onPump_stop_startAllowance_le (h : Hu) (n : Channel) :
    (h.onPump n (·.stop)).startAllowance P ≤ h.startAllowance P := by
  rw [Hu.startAllowance_eq_sum, Hu.startAllowance_eq_sum]
  refine Finset.sum_le_sum fun m _ => ?_
  by_cases same : m = n
  · rw [same, Hu.onPump_same, if_neg (by nofun)]
    exact Nat.zero_le _
  · rw [Hu.onPump_other h _ same]

/-- One test of the start aborts (R57). -/
def Hu.abortStart (h : Hu) (n : Channel) : Hu :=
  if (h.pump n).state = .starting ∧ h.share < h.startAllowance P then h.onPump n (·.stop) else h

theorem Hu.abortStarts_eq (h : Hu) : h.abortStarts P = allChannels.reverse.foldl (Hu.abortStart P) h := rfl

@[simp] theorem Hu.abortStart_share (h : Hu) (n : Channel) : (h.abortStart P n).share = h.share := by
  unfold Hu.abortStart
  split <;> rfl

theorem Hu.abortStarts_share (h : Hu) : (h.abortStarts P).share = h.share := by
  rw [Hu.abortStarts_eq]
  exact foldl_keeps Hu.share _ (fun x n => x.abortStart_share P n) _ h

/-- Start aborts along a list that has every starting pump bring the allowances within the share. -/
theorem Hu.foldl_abortStart_within (l : List Channel) {h : Hu}
    (listed : h.startAllowance P ≤ h.share ∨ ∀ n : Channel, (h.pump n).state = .starting → n ∈ l) :
    (l.foldl (Hu.abortStart P) h).startAllowance P ≤ (l.foldl (Hu.abortStart P) h).share := by
  induction l generalizing h with
  | nil =>
    rcases listed with within_ | none
    · exact within_
    · have zero : h.startAllowance P = 0 := by
        rw [Hu.startAllowance_eq_sum]
        exact Finset.sum_eq_zero fun n _ => if_neg fun starting => List.not_mem_nil (none n starting)
      exact zero.le.trans (Nat.zero_le _)
  | cons n l ih =>
    refine ih ?_
    unfold Hu.abortStart
    split
    · rename_i aborts
      rcases listed with within_ | listed
      · exact absurd aborts.2 (Nat.not_lt.mpr within_)
      · refine .inr fun m starting => ?_
        by_cases same : m = n
        · rw [same, Hu.onPump_same] at starting
          cases starting
        · rw [Hu.onPump_other h _ same] at starting
          exact (List.mem_cons.mp (listed m starting)).resolve_left same
    · rename_i stays
      by_cases within_ : h.startAllowance P ≤ h.share
      · exact .inl within_
      · refine .inr fun m starting => ?_
        refine (List.mem_cons.mp ((listed.resolve_left within_) m starting)).resolve_left fun same => ?_
        exact stays ⟨same ▸ starting, Nat.lt_of_not_le within_⟩

/-- After stage 7 the allowances of the starting pumps are within the share (R57). -/
theorem Hu.abortStarts_within (h : Hu) : (h.abortStarts P).startAllowance P ≤ (h.abortStarts P).share :=
  Hu.foldl_abortStart_within P _ (.inr fun n _ => by fin_cases n <;> simp [allChannels])

/-- Stage 8 commits no more than the scaled power of R58, and leaves the starting pumps. -/
theorem Hu.scaleTargets_draw (h : Hu) : (h.scaleTargets P).runningDraw P = h.scaledPower P (h.scaleTargets P).scale ∧
    (h.scaleTargets P).startAllowance P = h.startAllowance P := by
  rw [Hu.runningDraw_eq_sum, Hu.scaledPower_eq_sum, Hu.startAllowance_eq_sum, Hu.startAllowance_eq_sum]
  constructor
  · refine Finset.sum_congr rfl fun n _ => ?_
    rw [Hu.scaleTargets_pump, Pump.scaleTo_state]
    by_cases running : (h.pump n).state = .running
    · rw [if_pos running, if_pos running, Pump.scaleTo_committed running]
    · rw [if_neg running, if_neg running]
  · refine Finset.sum_congr rfl fun n _ => ?_
    rw [Hu.scaleTargets_pump, Pump.scaleTo_state]

theorem Hu.scaleTargets_within {h : Hu} (starts : h.startAllowance P ≤ h.share) :
    (h.scaleTargets P).committedDraw P ≤ (h.scaleTargets P).share := by
  obtain ⟨running, starting⟩ := h.scaleTargets_draw P
  obtain ⟨-, fits, -⟩ := h.scaleTargets_scale P
  have share : (h.scaleTargets P).share = h.share := rfl
  rw [Hu.committedDraw, running, starting, share]
  omega

theorem Hu.shed_eases (h : Hu) : h.Eases (h.shed P) := by
  refine ⟨rfl, fun n pp => ?_⟩
  rw [Hu.shed, Hu.mapPumps_pump]
  split
  · exact (Pump.stop_draw pp _ false).le.trans (Nat.zero_le _)
  · exact Nat.le_refl _

theorem Hu.rampAll_eases (h : Hu) (now : Nat) : h.Eases (h.rampAll P now) :=
  (Hu.Eases.refl h).mapPumps fun _ pp p => (Pump.arrive_draw pp _ _ now).le.trans (p.ramp_draw pp _)

/-- Stages 7 to 9 leave the draw within the share, from any unit. -/
theorem Hu.stages_within (h : Hu) (now : Nat) :
    ((((h.abortStarts P).scaleTargets P).shed P).rampAll P now).committedDraw P ≤
      ((((h.abortStarts P).scaleTargets P).shed P).rampAll P now).share := by
  have eases := (Hu.shed_eases P ((h.abortStarts P).scaleTargets P)).trans (Hu.rampAll_eases P _ now)
  rw [eases.share]
  exact (eases.committedDraw_le P).trans (Hu.scaleTargets_within P (h.abortStarts_within P))
end

/-- The checks of the claim slot at the end of a pass leave pumps and share (R66). -/
theorem State.claims_eases (s : State) : s.hu.Eases s.settleClaim.recheckClaim.queueClaim.hu :=
  .of_pumps ((State.queueClaim_pumps _).trans ((State.recheckClaim_pumps _).trans s.settleClaim_pumps))
    ((State.queueClaim_share _).trans ((State.recheckClaim_share _).trans s.settleClaim_share))

/-- A pass leaves the draw within the share it computed, whatever the state it begins in (R59). -/
theorem State.huPass_drawWithinShare (s : State) (now : Nat) (handed : ShowState) (jets : List Action) :
    (s.huPass now handed jets).drawWithinShare := by
  have params : (s.huPass now handed jets).params = s.params :=
    congrArg StartUp.params (State.st_of_unpumped (s.huPass_unpumped now handed jets))
  unfold State.drawWithinShare
  rw [params]
  unfold State.huPass
  dsimp only
  rw [(State.claims_eases _).share]
  refine ((State.claims_eases _).committedDraw_le _).trans ?_
  rw [State.onHu_hu]
  exact Hu.stages_within s.params _ now

/-- After the pumps' pass nothing of a boundary reaches the unit or the parameters. -/
theorem State.passes_drawWithinShare (s : State) (k bt : Nat) (c : Int) (handed : ShowState) (entered resumed : Bool) :
    (s.passes k bt c handed entered resumed).drawWithinShare := by
  obtain ⟨jets, g, e⟩ := s.passes_unsounded k bt c handed entered resumed
  have st := State.st_of_unsounded e
  have hu := State.hu_of_unsounded e
  rw [State.onLu_st] at st
  rw [State.onLu_hu] at hu
  exact State.drawWithinShare_of_eases (State.huPass_drawWithinShare _ bt handed jets) (congrArg StartUp.params st)
    (.of_eq hu)

theorem State.markBoundary_drawWithinShare {s : State} (h : s.drawWithinShare) (i : BoundaryInput) :
    (s.markBoundary i).drawWithinShare := by
  by_cases due : s.boundaryDue = true
  · by_cases live : s.live = true
    · obtain ⟨c, e⟩ := State.markBoundary_eq live due i
      rw [e]
      exact State.passes_drawWithinShare _ _ _ _ _ _ _
    · rw [State.markBoundary, if_neg (by simp [due]), if_neg live]
      exact h
  · rw [State.markBoundary_not_due (by simpa using due)]
    exact h

theorem exec_boundary_drawWithinShare {c : Instr} (boundary : boundary? c = true) {s t : State} (h : s.drawWithinShare)
    (e : exec c s = .next t) : t.drawWithinShare := by
  have marks : ∀ i (x : State), x = s.markBoundary i ∨ x = s → x.drawWithinShare := by
    rintro i x (rfl | rfl)
    · exact State.markBoundary_drawWithinShare h i
    · exact h
  cases c <;> simp only [boundary?, reduceCtorEq] at boundary
  all_goals cases e
  case frameBoundary => exact State.markBoundary_drawWithinShare h _
  case restExpiry | stoppingDriveZero => exact marks _ _ (s.markAsPumpGoes_cases _ _ _ _)
  all_goals exact marks _ _ (s.markWhen_cases _ _)

/-! ## Resets -/

/-- Pumps at rest draw nothing. -/
theorem Hu.committedDraw_at_rest {h : Hu} (rests : ∀ n : Channel, (h.pump n).state.active = false) (P : Params) :
    h.committedDraw P = 0 := by
  rw [Hu.committedDraw_eq_sum]
  refine Finset.sum_eq_zero fun n _ => Pump.draw_eq_zero (fun e => ?_) (fun e => ?_) _ <;>
    · have := rests n
      rw [e] at this
      cases this

/-- After a configuration read every pump is OFF, RESTING or LOCKED (R75, R188). -/
theorem State.takeConfig_still (s : State) (r : List Byte) : (s.takeConfig r).hu.still := by
  intro n
  rw [State.hu_of_unissued (s.takeConfig_unissued r)]
  simp only [State.configured, Hu.pump, Fin.getElem_fin, Vector.getElem_ofFn]
  exact (Pump.afterReset_still _ _ _).2.1

/-- Settles O55: a boundary brings the draw within the share, and no other command raises it beyond. -/
theorem drawStaysWithinShare : Obligations.DrawStaysWithinShare := by
  have kept : ∀ (c : Instr) (s t : State), s.drawWithinShare → exec c s = .next t → t.drawWithinShare := by
    intro c s t h e
    refine (Bool.eq_false_or_eq_true (boundary? c)).elim (fun b => exec_boundary_drawWithinShare b h e) fun b => ?_
    by_cases power : ∃ a b d, c = .powerOn a b d
    · obtain ⟨a, b, d, rfl⟩ := power
      cases e
      exact (Hu.committedDraw_at_rest (fun n => by simp [State.powerUp, State.reset, Hu.pump, PumpState.active]) _).le
    by_cases config : ∃ r, c = .configReadComplete r
    · obtain ⟨r, rfl⟩ := config
      cases e
      split
      · exact (Hu.committedDraw_at_rest (s.takeConfig_still r) _).le.trans (Nat.zero_le _)
      · exact h
    have unpowered : ∀ a b d, c ≠ .powerOn a b d := fun a b d e => power ⟨a, b, d, e⟩
    have unread : ∀ r, c ≠ .configReadComplete r := fun r e => config ⟨r, e⟩
    by_cases claim : c = .claimGoneOut
    · subst claim
      cases e
      split
      · exact State.huClaimOut_drawWithinShare (s := State.onLiu _ _) h _
      · exact h
    · obtain ⟨fixed, -⟩ := changesHaveTheirCauses c s t e unpowered
      obtain ⟨params, -⟩ := fixed unread
      exact State.drawWithinShare_of_eases h params (exec_eases e b claim unpowered unread)
  intro s t h e
  unfold step at e
  split at e
  · cases e
    exact h
  · rename_i c rest _
    exact kept c { s with pending := rest } t h e

end Sys2Proof.Machine
end


-- ==== Sys2Proof/Proofs/Claims.lean ====
section
/-!
Start claims (spec/03, R66 to R69): a claim heard, the claim at the spacing timer's expiry, the own claim gone out.
-/
namespace Sys2Proof.Machine

/-! ## A claim of a peer (R67) -/

section
variable {s : State}

theorem State.huPeerClaim_withdraws (claim : s.liu.claim.isSome = true) (waits : s.liu.claimBegun = false) :
    s.huPeerClaim = { s with
      hu := { s.hu with spacing := s.params.spacing * 48, claimHolder := none }
      liu := { s.liu with claim := none } } := by
  have withdrawn : s.liu.withdrawClaim = { s.liu with claim := none } := by
    simp [Liu.withdrawClaim, waits]
  have gives : s.huPeerClaim = (s.onHu (Hu.restartSpacing s.params)).giveUpClaim := if_pos ⟨claim, by simp [waits]⟩
  rw [gives, State.giveUpClaim, State.onLiu]
  simp only [State.onHu_liu, withdrawn]
  rfl

theorem State.huPeerClaim_restarts (none : s.liu.claim = none ∨ s.liu.claimBegun = true) :
    s.huPeerClaim = { s with hu := { s.hu with spacing := s.params.spacing * 48 } } := by
  refine if_neg fun both => ?_
  obtain ⟨claim, waits⟩ := both
  rcases none with none | begun
  · rw [State.onHu_liu, none] at claim
    cases claim
  · rw [State.onHu_liu, begun] at waits
    cases waits
end

/-! ## The lowest pump that may claim (R66) -/

theorem allChannels_getElem (n : Channel) : allChannels[n.val]'n.isLt = n := by
  revert n
  decide

/-- The lowest channel of those that qualify is found first. -/
theorem find_allChannels_lowest {p : Channel → Bool} {n : Channel} (qualifies : p n = true)
    (below : ∀ m : Channel, m.val < n.val → p m = false) : allChannels.find? p = some n := by
  refine List.find?_eq_some_iff_getElem.mpr ⟨qualifies, n.val, n.isLt, allChannels_getElem n, fun j lower => ?_⟩
  have passed := below ⟨j, lower.trans n.isLt⟩ lower
  exact (congrArg (fun m => !p m) (allChannels_getElem ⟨j, lower.trans n.isLt⟩)).trans (by rw [passed]; rfl)

section
variable {h : Hu} {P : Params} {n : Channel}

theorem Hu.shareTest_iff : h.shareTest P n = true ↔ h.committedDraw P + P.pumps[n].allowance ≤ h.share :=
  decide_eq_true_iff

theorem Hu.claims_iff : ((h.pump n).state == .claiming && h.shareTest P n) = true ↔
    (h.pump n).state = .claiming ∧ h.committedDraw P + P.pumps[n].allowance ≤ h.share := by
  rw [Bool.and_eq_true_iff, beq_iff_eq, Hu.shareTest_iff]

theorem Hu.candidate_lowest (claiming : (h.pump n).state = .claiming)
    (fits : h.committedDraw P + P.pumps[n].allowance ≤ h.share)
    (below : ∀ m : Channel, m.val < n.val → (h.pump m).state = .claiming →
      h.share < h.committedDraw P + P.pumps[m].allowance) : h.candidate P = some n := by
  refine find_allChannels_lowest (Hu.claims_iff.mpr ⟨claiming, fits⟩) fun m lower => Bool.eq_false_iff.mpr fun claims => ?_
  obtain ⟨claiming, fits⟩ := Hu.claims_iff.mp claims
  exact Nat.not_le.mpr (below m lower claiming) fits

theorem Hu.candidate_none (full : ∀ n : Channel, (h.pump n).state = .claiming →
    h.share < h.committedDraw P + P.pumps[n].allowance) : h.candidate P = none := by
  refine List.find?_eq_none.mpr fun n _ claims => ?_
  obtain ⟨claiming, fits⟩ := Hu.claims_iff.mp claims
  exact Nat.not_le.mpr (full n claiming) fits
end

/-! ## The own claim gone out (R68) -/

/-- What the unit makes of its claim for pump `n` gone out, the spacing timer apart (R68). -/
def Hu.claimOut (P : Params) (n : Channel) (h : Hu) : Hu :=
  if h.claimHolder = some n ∧ (h.pump n).state = .claiming then
    if h.shareTest P n then h.onPump n Pump.begin else { h with claimHolder := none }
  else h

theorem State.huClaimOut_eq (s : State) (n : Channel) :
    s.huClaimOut n = s.onHu fun h => (h.restartSpacing s.params).claimOut s.params n := by
  have lift {x y : Hu} (e : x = y) : ({ s with hu := x } : State) = { s with hu := y } := e ▸ rfl
  by_cases claims : (s.hu.restartSpacing s.params).claimHolder = some n ∧
    ((s.hu.restartSpacing s.params).pump n).state = .claiming
  · by_cases within_ : (s.hu.restartSpacing s.params).shareTest s.params n = true
    · exact ((if_pos claims).trans (if_pos within_)).trans (lift ((if_pos claims).trans (if_pos within_)).symm)
    · exact ((if_pos claims).trans (if_neg within_)).trans (lift ((if_pos claims).trans (if_neg within_)).symm)
  · exact (if_neg claims).trans (lift (if_neg claims).symm)

section
variable {h : Hu} {P : Params} {n : Channel}

theorem Hu.claimOut_begins (holder : h.claimHolder = some n) (claiming : (h.pump n).state = .claiming)
    (fits : h.committedDraw P + P.pumps[n].allowance ≤ h.share) : h.claimOut P n = h.onPump n Pump.begin := by
  rw [Hu.claimOut, if_pos ⟨holder, claiming⟩, if_pos (Hu.shareTest_iff.mpr fits)]

theorem Hu.claimOut_gives_up (holder : h.claimHolder = some n) (claiming : (h.pump n).state = .claiming)
    (full : h.share < h.committedDraw P + P.pumps[n].allowance) : h.claimOut P n = { h with claimHolder := none } := by
  rw [Hu.claimOut, if_pos ⟨holder, claiming⟩, if_neg]
  exact fun within_ => Nat.not_le.mpr full (Hu.shareTest_iff.mp within_)

theorem Hu.claimOut_other (holder : h.claimHolder ≠ some n) : h.claimOut P n = h := if_neg fun both => holder both.1

theorem Hu.claimOut_pump {m : Channel} (ne : m ≠ n) : (h.claimOut P n).pump m = h.pump m := by
  unfold Hu.claimOut
  split
  · split
    · exact Hu.onPump_other h _ ne
    · rfl
  · rfl

theorem Hu.claimOut_spacing : (h.claimOut P n).spacing = h.spacing := by
  unfold Hu.claimOut
  split
  · split <;> rfl
  · rfl
end

theorem exec_spacingTimerExpiry (s : State) :
    exec .spacingTimerExpiry s = .next (if s.live && s.hu.spacing == 0 then s.queueClaim else s) := rfl

theorem exec_claimGoneOut {s : State} {tx : Tx} {c : ClaimFrame} (sent : s.liu.tx = some tx)
    (source : tx.source = .claim) (claim : s.liu.claim = some c) : exec .claimGoneOut s =
      .next ((s.onLiu fun l => { l.wentOut with claim := none }).huClaimOut c.channel) := by
  obtain ⟨src, arb, kind, payload⟩ := tx
  cases source
  show Host.Outcome.next _ = _
  rw [sent, claim]

/-- Settles O24. -/
theorem claimsKeepSpacing : Obligations.ClaimsKeepSpacing := by
  refine ⟨fun p c a s hears claim waits => ?_, fun p c a s hears none => ?_,
    fun s n live expired free empty claiming fits below => ?_, fun s stays => ?_, fun s tx c sent source claim => ?_⟩
  · show Host.Outcome.next (s.received p State.huPeerClaim) = _
    rw [State.received_of_hears hears, State.huPeerClaim_withdraws (s := s.afterFrame) claim waits]
    rfl
  · show Host.Outcome.next (s.received p State.huPeerClaim) = _
    rw [State.received_of_hears hears, State.huPeerClaim_restarts (s := s.afterFrame) none]
    rfl
  · rw [exec_spacingTimerExpiry, if_pos (by simp [live, expired]), State.queueClaim,
      if_pos (by simp [expired, free, empty]), Hu.candidate_lowest claiming fits below]
    rfl
  · have waits : (if s.live && s.hu.spacing == 0 then s.queueClaim else s) = s := by
      rcases stays with dead | running | holder | claim | full
      · simp [dead]
      · simp [running]
      all_goals refine (ite_eq_right_iff.mpr fun _ => ?_)
      · exact if_neg fun all => by simp [Option.isNone_iff_eq_none.mp all.2.1] at holder
      · exact if_neg fun all => by simp [Option.isNone_iff_eq_none.mp all.2.2] at claim
      · rw [State.queueClaim, Hu.candidate_none full, ite_self]
    rw [exec_spacingTimerExpiry, waits]
  · refine ⟨_, exec_claimGoneOut sent source claim, ?_⟩
    rw [State.huClaimOut_eq]
    have begins := Hu.claimOut_begins (h := s.hu.restartSpacing s.params) (P := s.params) (n := c.channel)
    have gives := Hu.claimOut_gives_up (h := s.hu.restartSpacing s.params) (P := s.params) (n := c.channel)
    refine ⟨rfl, Hu.claimOut_spacing, fun holder claiming fits => ?_, fun holder claiming full => ?_, fun other => ?_,
      fun m ne => Hu.claimOut_pump ne, rfl⟩
    · have e := begins holder claiming fits
      exact ⟨(congrArg (fun h => h.pump c.channel) e).trans (Hu.onPump_same _ _ _),
        (congrArg (fun h => h.claimHolder) e).trans holder⟩
    · have e := gives holder claiming full
      exact ⟨congrArg (fun h => h.pump c.channel) e, congrArg (fun h => h.claimHolder) e⟩
    · have e := Hu.claimOut_other (h := s.hu.restartSpacing s.params) (P := s.params) other
      exact ⟨congrArg (fun h => h.pump c.channel) e, congrArg (fun h => h.claimHolder) e⟩

end Sys2Proof.Machine
end

