-- ==== Sys2Proof/Proofs/Transmissions.lean ====
section
/-!
The ends of a transmission (spec/08, R154 to R163): the abort with its failure count and MUTE, and the frames that have gone
out.
-/
namespace Sys2Proof.Machine

/-! ## The failure count (R156, R157) -/

/-- The link interface unit but for the failure count, MUTE and muted-since. -/
def Liu.uncounted (l : Liu) : Liu := { l with fails := 0, mute := 0, mutedSince := false }

section
variable (l : Liu)

theorem Liu.countFailure_uncounted : l.countFailure.1.uncounted = l.uncounted := by
  unfold Liu.countFailure
  split
  · rfl
  · split <;> rfl

variable {l}

/-- In MUTE no failure counts. -/
theorem Liu.countFailure_muted (h : l.mute ≠ 0) : l.countFailure = (l, false) := if_pos h

theorem Liu.countFailure_counts (free : l.mute = 0) (few : l.fails < 7) :
    l.countFailure = ({ l with fails := l.fails + 1 }, false) := by
  rw [Liu.countFailure, if_neg (not_not.mpr free), if_neg (by omega)]

/-- The eighth failure in a row enters MUTE. -/
theorem Liu.countFailure_mutes (free : l.mute = 0) (many : 7 ≤ l.fails) :
    l.countFailure = ({ l with fails := 0, mute := 50, mutedSince := true }, true) := by
  rw [Liu.countFailure, if_neg (not_not.mpr free), if_pos (by omega)]
end

/-! ## The frame returned (R154, R155) -/

/-- The link interface unit but for the transmission and the beacon and claim slots. -/
def Liu.unslotted (l : Liu) : Liu := { l with tx := none, beacon := none, claim := none }

section
variable (l : Liu) (held : Bool)

theorem Liu.returnFrame_unslotted : (l.returnFrame held).unslotted = l.unslotted := by
  unfold Liu.returnFrame
  split <;> rfl

theorem Liu.returnFrame_tx : (l.returnFrame held).tx = none := by
  unfold Liu.returnFrame
  split <;> rfl

variable {l}

theorem Liu.returnFrame_beacon {x : Tx} {b : BeaconFields} (tx : l.tx = some x) (source : x.source = .time b) :
    l.returnFrame held = { l with tx := none, beacon := l.beacon.or (some b) } := by
  obtain ⟨src, arb, kind, payload⟩ := x
  cases source
  rw [Liu.returnFrame, tx]

theorem Liu.returnFrame_claim {x : Tx} (tx : l.tx = some x) (source : x.source = .claim) :
    l.returnFrame held = { l with tx := none, claim := if held then l.claim else none } := by
  obtain ⟨src, arb, kind, payload⟩ := x
  cases source
  rw [Liu.returnFrame, tx]
end

/-! ## The abort -/

section
variable (s : State)

theorem State.abortTransmission_liu :
    s.abortTransmission.liu = s.liu.countFailure.1.returnFrame s.claimHeld := by
  unfold State.abortTransmission
  dsimp only
  split <;> rfl

/-- The abort raises LINK_MUTED as MUTE is entered, and reaches nothing beside the link otherwise. -/
theorem State.abortTransmission_eq : s.abortTransmission =
    { s with liu := s.abortTransmission.liu, biu := s.abortTransmission.biu } := by
  unfold State.abortTransmission
  dsimp only
  split <;> rfl

theorem State.abortTransmission_biu (h : s.liu.countFailure.2 = false) : s.abortTransmission.biu = s.biu := by
  rw [State.abortTransmission, h]
  rfl

theorem State.abortTransmission_faulted (h : s.liu.countFailure.2 = true) :
    s.abortTransmission.faulted .linkMuted = true := by
  rw [State.abortTransmission, h]
  exact State.faulted_raise _ _ _

/-- What an abort leaves of the link: the counts of the failure, and slots and queues but for the frame's own place. -/
theorem State.abortTransmission_counts : s.abortTransmission.liu.fails = s.liu.countFailure.1.fails ∧
    s.abortTransmission.liu.mute = s.liu.countFailure.1.mute ∧
    s.abortTransmission.liu.mutedSince = s.liu.countFailure.1.mutedSince := by
  have same := s.liu.countFailure.1.returnFrame_unslotted s.claimHeld
  rw [State.abortTransmission_liu]
  exact ⟨congrArg (fun l => l.fails) same, congrArg (fun l => l.mute) same, congrArg (fun l => l.mutedSince) same⟩

theorem State.abortTransmission_queues : s.abortTransmission.liu.halt = s.liu.halt ∧
    s.abortTransmission.liu.replies = s.liu.replies ∧ s.abortTransmission.liu.fetchQ = s.liu.fetchQ ∧
    s.abortTransmission.liu.contentQ = s.liu.contentQ := by
  have same : s.abortTransmission.liu.uncounted.unslotted = s.liu.uncounted.unslotted := by
    rw [State.abortTransmission_liu, ← Liu.countFailure_uncounted s.liu]
    exact congrArg Liu.uncounted (s.liu.countFailure.1.returnFrame_unslotted s.claimHeld)
  exact ⟨congrArg (fun l => l.halt) same, congrArg (fun l => l.replies) same, congrArg (fun l => l.fetchQ) same,
    congrArg (fun l => l.contentQ) same⟩

variable {s}

theorem State.abortTransmission_beacon {x : Tx} {b : BeaconFields} (tx : s.liu.tx = some x) (source : x.source = .time b) :
    s.abortTransmission.liu.beacon = s.liu.beacon.or (some b) ∧ s.abortTransmission.liu.claim = s.liu.claim := by
  have same := s.liu.countFailure_uncounted
  have tx' : s.liu.countFailure.1.tx = some x := (congrArg Liu.tx same).trans tx
  rw [State.abortTransmission_liu, Liu.returnFrame_beacon _ tx' source]
  exact ⟨congrArg (fun l => l.beacon.or (some b)) same, congrArg (fun l => l.claim) same⟩

theorem State.abortTransmission_claim {x : Tx} {c : ClaimFrame} (tx : s.liu.tx = some x) (source : x.source = .claim)
    (claim : s.liu.claim = some c) : s.abortTransmission.liu.beacon = s.liu.beacon ∧
      s.abortTransmission.liu.claim = if s.hu.claimHolder = some c.channel then some c else none := by
  have same := s.liu.countFailure_uncounted
  have tx' : s.liu.countFailure.1.tx = some x := (congrArg Liu.tx same).trans tx
  have claim' : s.liu.countFailure.1.claim = some c := (congrArg Liu.claim same).trans claim
  have held : s.claimHeld = (s.hu.claimHolder == some c.channel) := by simp [State.claimHeld, claim]
  rw [State.abortTransmission_liu, Liu.returnFrame_claim _ tx' source, claim', held]
  exact ⟨congrArg (fun l => l.beacon) same, by simp⟩
end

theorem exec_transmitError {s : State} {x : Tx} (tx : s.liu.tx = some x) :
    exec .transmitError s = .next s.abortTransmission :=
  congrArg Host.Outcome.next (if_pos (by rw [tx]; rfl))

/-! ## Frames gone out -/

section
variable {s : State} {x : Tx} (tx : s.liu.tx = some x)
include tx

theorem exec_beaconGoneOut {b : BeaconFields} (source : x.source = .time b) :
    exec .beaconGoneOut s = .next (s.onLiu (Liu.beaconOut b)) := by
  obtain ⟨src, arb, kind, payload⟩ := x
  cases source
  show Host.Outcome.next _ = _
  rw [tx]

theorem exec_stopAssertGoneOut (source : x.source = .halt) :
    exec .stopAssertGoneOut s = .next (s.onLiu fun l => { l.wentOut with halt := false }) := by
  obtain ⟨src, arb, kind, payload⟩ := x
  cases source
  show Host.Outcome.next _ = _
  rw [tx]

theorem exec_statusReplyGoneOut (source : x.source = .query) :
    exec .statusReplyGoneOut s = .next (s.onLiu Liu.partOut) := by
  obtain ⟨src, arb, kind, payload⟩ := x
  cases source
  show Host.Outcome.next _ = _
  rw [tx]
end

theorem Liu.partOut_cons {l : Liu} {r : Reply} {rest : List Reply} (replies : l.replies = r :: rest) :
    l.partOut = { l.wentOut with
      replies := if r.parts ≤ r.next + 1 then rest else { r with next := r.next + 1 } :: rest } := by
  rw [Liu.partOut, replies]

/-- Settles O42: the abort by its failure count and the frame's place, every frame gone out by its slot or queue. -/
theorem transmissionsEnd : Obligations.TransmissionsEnd := by
  refine ⟨fun s x tx => ?_, fun s x b tx source => exec_beaconGoneOut tx source,
    fun s x tx source => exec_stopAssertGoneOut tx source, fun s x r rest tx source replies => ?_,
    fun s yields idle => ?_, fun levels why s live discarded => ?_, fun p payload s hears => ?_⟩
  · obtain ⟨fails, mute, since⟩ := s.abortTransmission_counts
    obtain ⟨halt, replies, fetch, content⟩ := s.abortTransmission_queues
    refine ⟨_, exec_transmitError tx, ?_, fun free few => ?_, fun free many => ?_, fun muted => ?_,
      fun b => State.abortTransmission_beacon tx, fun c => State.abortTransmission_claim tx, halt, replies, fetch, content,
      s.abortTransmission_eq⟩
    · rw [State.abortTransmission_liu, Liu.returnFrame_tx]
    · have counts := Liu.countFailure_counts free few
      rw [fails, mute, State.abortTransmission_biu s (congrArg Prod.snd counts), counts]
      exact ⟨rfl, free, rfl⟩
    · have mutes := Liu.countFailure_mutes free many
      rw [fails, mute, since, mutes]
      exact ⟨rfl, rfl, rfl, State.abortTransmission_faulted s (congrArg Prod.snd mutes)⟩
    · have still := Liu.countFailure_muted muted
      rw [fails, mute, State.abortTransmission_biu s (congrArg Prod.snd still), still]
      exact ⟨rfl, rfl, rfl⟩
  · rw [exec_statusReplyGoneOut tx source, State.onLiu, Liu.partOut_cons replies]
    rfl
  · exact congrArg Host.Outcome.next (if_pos ⟨yields, by rw [idle]; rfl⟩)
  · show Host.Outcome.next _ = _
    rw [discarded]
    exact congrArg Host.Outcome.next (if_pos live)
  · exact congrArg Host.Outcome.next (State.received_of_hears hears id)

end Sys2Proof.Machine
end

