-- ==== Sys2Proof/Proofs/InputsAndFaults.lean ====
section
/-!
The filtered inputs (spec/10, R183, R184), the clearing of faults (R187, R71), and the state before power-on.
-/
namespace Sys2Proof.Machine

/-! ## A lock cause cleared (R71) -/

section
variable {pp : PumpParams} {p : Pump}

theorem Pump.clearFeedback_unlocked (h : p.state ≠ .locked) : p.clearFeedback pp = p := if_neg h

/-- Under a cause DRY a pump stays LOCKED. -/
theorem Pump.clearFeedback_dry (locked : p.state = .locked) (dry : p.lockDry = true) :
    p.clearFeedback pp = { p with lockFeedback := false } := by
  rw [Pump.clearFeedback, if_pos locked, Pump.unlockIfFree, if_neg]
  simp [dry]

theorem Pump.clearFeedback_rests (locked : p.state = .locked) (wet : p.lockDry = false) :
    p.clearFeedback pp = ({ p with lockFeedback := false } : Pump).rest pp := by
  rw [Pump.clearFeedback, if_pos locked, Pump.unlockIfFree, if_pos]
  simp [locked, wet]
end

theorem State.clearFaultList_pump (s : State) (n : Channel) :
    s.clearFaultList.hu.pump n = (s.hu.pump n).clearFeedback s.params.pumps[n] :=
  Hu.mapPumps_pump s.hu (fun n p => p.clearFeedback s.params.pumps[n]) n

/-- The list is judged by the conditions as the pumps stand after the clearing, and no condition reads the list. -/
theorem State.clearFaultList_faults (s : State) :
    s.clearFaultList.biu.faults = s.biu.faults.filter fun r => s.clearFaultList.conditionPresent r.kind := by
  have same : ∀ k, s.clearFaultList.conditionPresent k = s.huClearFeedback.conditionPresent k := fun k => by
    cases k <;> rfl
  simp only [same]
  rfl

theorem exec_clearFaults {s : State} {p : Position} (hears : s.hears p) (target : Byte) :
    exec (.clearFaults p target) s = .next (s.afterFrame.targeted target State.clearFaultList) :=
  congrArg Host.Outcome.next (State.received_of_hears hears _)

/-- Settles O46. -/
theorem inputsAndFaultClearing : Obligations.InputsAndFaultClearing := by
  refine ⟨fun s powered => congrArg Host.Outcome.next (if_pos powered),
    fun n x s powered => congrArg Host.Outcome.next (if_pos powered), fun p target s hears own => ?_,
    fun p target s hears other => ?_⟩
  · refine ⟨s.afterFrame.clearFaultList, ?_, s.afterFrame.clearFaultList_faults, fun n free => ?_, fun n locked dry => ?_,
      fun n locked wet => ?_, rfl⟩
    · rw [exec_clearFaults hears]
      exact congrArg Host.Outcome.next (if_pos own)
    · rw [State.clearFaultList_pump]
      exact Pump.clearFeedback_unlocked free
    · rw [State.clearFaultList_pump]
      exact Pump.clearFeedback_dry locked dry
    · rw [State.driveOutput, State.clearFaultList_pump, State.afterFrame_hu, Pump.clearFeedback_rests locked wet]
      exact ⟨rfl, rfl, rfl, rfl⟩
  · rw [exec_clearFaults hears]
    exact congrArg Host.Outcome.next (if_neg other)

/-! ## The state before power-on -/

/-- Without supply no pump turns. -/
theorem Hu.reset_still : State.reset.hu.still := fun n => by simp [State.reset, Hu.pump, PumpState.active]

/-- Settles O52: the tables and lists are empty, no pump draws, every output is 0, and no reading has a source. -/
theorem resetMeetsInvariants : Obligations.ResetMeetsInvariants := by
  refine ⟨?_, ?_, (Hu.committedDraw_at_rest Hu.reset_still _).le, ⟨rfl, fun f present => ?_, fun f n _ => .inl ?_⟩, ?_,
    State.stilled_of_idle (fun _ => Hu.reset_still) ⟨rfl, rfl, rfl, rfl, rfl⟩, ?_⟩
  · unfold State.tablesCanonical
    decide
  · unfold State.pagesConserved
    decide
  · simp [State.params, State.reset] at present
  · simp [State.reset]
  · unfold State.readingsMerged
    decide
  · unfold State.withinCapacity
    decide

end Sys2Proof.Machine
end

