-- ==== Sys2Proof/Proofs/PumpsAtBoundary.lean ====
section
/-!
The pumps from a boundary to their pass (spec/03, R51): where the effective level is left as it is, a boundary brings a pump
to the pass as it was but for what the show asks of it, with the feedback that was reported.
-/
namespace Sys2Proof.Machine

/-! ## The readings of a boundary -/

/-- The pumps and their reported feedback. -/
def State.pumpsHeard (s : State) : Hu × Vector Bool 8 := (s.hu, s.biu.feedback)

section
variable (P : Params) (b : Biu)

theorem Biu.evalWind_feedback (w : Nat) : (b.evalWind P w).feedback = b.feedback := by
  unfold Biu.evalWind
  split
  · split
    · rfl
    · split <;> rfl
  · split
    · rfl
    · split <;> rfl
  · split <;> rfl

theorem Biu.stepQuiet_feedback : (b.stepQuiet P).feedback = b.feedback := by
  unfold Biu.stepQuiet
  split
  · split
    · split <;> rfl
    · rfl
  · rfl

theorem Biu.sampleLevel_feedback (i : Nat) : (b.sampleLevel P i).feedback = b.feedback := by
  unfold Biu.sampleLevel
  split
  · rfl
  · split <;> rfl

theorem Biu.sampleWind_feedback (n : Nat) : (b.sampleWind P n).feedback = b.feedback := by
  unfold Biu.sampleWind
  split
  · rfl
  · dsimp only
    split <;> rfl
end

section
variable (s : State)

theorem State.onBiu_pumpsHeard {g : Biu → Biu} (h : ∀ b, (g b).feedback = b.feedback) :
    (s.onBiu g).pumpsHeard = s.pumpsHeard := congrArg (Prod.mk s.hu) (h s.biu)

theorem State.onPt_pumpsHeard (g : Pt → Pt) : (s.onPt g).pumpsHeard = s.pumpsHeard := rfl

theorem State.handWind_pumpsHeard (w : Nat) : (s.handWind w).pumpsHeard = s.pumpsHeard := by
  rw [State.handWind]
  exact s.onBiu_pumpsHeard fun _ => Biu.evalWind_feedback _ _ _

/-- The wind reaches pumps in their pass alone (R174). -/
theorem State.recomputeWind_pumpsHeard : s.recomputeWind.pumpsHeard = s.pumpsHeard := by
  have told : ∀ (x : State) (w : Nat), x.pumpsHeard = s.pumpsHeard →
      (if w = s.pt.wind then x else x.handWind w).pumpsHeard = s.pumpsHeard := by
    intro x w same
    split
    · exact same
    · exact (x.handWind_pumpsHeard w).trans same
  refine told _ _ ?_
  split <;> rfl

variable {s} {i : BoundaryInput}

/-- The inputs of a boundary that leave the own level reading. -/
theorem State.inputsBoundary_pumpsHeard (steady : (s.onBiu (Biu.sampleLevel s.params i.loop)).ownLevel = s.ownLevel) :
    (s.inputsBoundary i).pumpsHeard = s.pumpsHeard := by
  have sampled : (s.onBiu (Biu.sampleLevel s.params i.loop)).pumpsHeard = s.pumpsHeard :=
    s.onBiu_pumpsHeard fun _ => Biu.sampleLevel_feedback _ _ _
  rw [State.inputsBoundary, State.onBiu_pumpsHeard _ (Biu.stepQuiet_feedback _), State.sampleReadings]
  rw [if_pos steady]
  generalize s.onBiu (Biu.sampleLevel s.params i.loop) = x at sampled
  have winded : (x.onBiu (Biu.sampleWind s.params i.pulses)).pumpsHeard = x.pumpsHeard :=
    x.onBiu_pumpsHeard fun _ => Biu.sampleWind_feedback _ _ _
  split
  · exact winded.trans sampled
  · exact (State.recomputeWind_pumpsHeard _).trans (winded.trans sampled)

/-- Ageing that clears no record with a level. -/
theorem State.agePeers_pumpsHeard (steady : (s.pt.leaving.any fun p => p.level.isSome) = false) :
    s.agePeers.pumpsHeard = s.pumpsHeard := by
  unfold State.agePeers
  dsimp only
  rw [if_neg (by rw [steady]; decide)]
  split
  · exact (State.recomputeWind_pumpsHeard _).trans (s.onPt_pumpsHeard _)
  · exact s.onPt_pumpsHeard _

theorem State.beaconBoundary_pumpsHeard {k : Nat}
    (steady : s.ownBeaconFrame k = true → (s.pt.leaving.any fun p => p.level.isSome) = false) :
    (s.beaconBoundary k).pumpsHeard = s.pumpsHeard := by
  unfold State.beaconBoundary
  split
  · rfl
  · rename_i own
    have aged := State.agePeers_pumpsHeard (steady (by simpa using own))
    dsimp only
    split
    · exact aged
    · exact aged

/-- Up to the transitions a boundary whose level is steady leaves the pumps and their feedback. -/
theorem State.atTransitions_pumpsHeard (steady : s.levelSteady i) : (s.atTransitions i).pumpsHeard = s.pumpsHeard := by
  obtain ⟨level, records⟩ := steady
  have read := State.inputsBoundary_pumpsHeard (s := s.beginBoundary s.nextFrame) (i := i) level
  have unread := State.inputsBoundary_unread (s.beginBoundary s.nextFrame) i
  have peers : ((s.beginBoundary s.nextFrame).inputsBoundary i).pt.peers = s.pt.peers :=
    (congrArg (fun x => x.pt.peers) unread :)
  have own : ((s.beginBoundary s.nextFrame).inputsBoundary i).own = s.own := (congrArg (fun x => x.own) unread :)
  rw [State.atTransitions]
  generalize (s.beginBoundary s.nextFrame).inputsBoundary i = x at read peers own
  refine (State.beaconBoundary_pumpsHeard fun beacon => ?_).trans read
  rw [Pt.leaving, peers]
  refine records ?_
  rwa [State.ownBeaconFrame, own] at beacon
end

/-! ## The transitions and the cue engine -/

section
variable {u : Hu} {s : State} (h : u.SinksTo s.hu)
include h

theorem State.countWarmup_sinks : u.SinksTo s.countWarmup.hu := by
  unfold State.countWarmup
  split
  · split <;> exact h
  · exact h

theorem State.takeHold_sinks (bt : Nat) : u.SinksTo (s.takeHold bt).hu := by
  unfold State.takeHold
  split <;> exact h

theorem State.takeResume_sinks (bt : Nat) : u.SinksTo (s.takeResume bt).hu := by
  unfold State.takeResume
  split
  · refine State.takeEnd_sinks ?_ bt
    exact h
  · exact h

theorem State.checkEnding_sinks : u.SinksTo s.checkEnding.hu := by
  unfold State.checkEnding
  split <;> exact h

/-- With the stop input inactive the transitions of a station that is up take at most the heights to 0. -/
theorem State.transitions_sinks (inactive : s.biu.stopActive = false) (up : s.st.phase = .up) (k bt : Nat)
    (st : ShowState) : u.SinksTo (s.transitions k bt st).hu := by
  have counted : u.SinksTo (if st = .warmup then s.countWarmup else s).hu ∧
      (if st = .warmup then s.countWarmup else s).st.phase = .up := by
    split
    · exact ⟨State.countWarmup_sinks h, (congrArg StartUp.phase (State.st_of_outer s.countWarmup_outer)).trans up⟩
    · exact ⟨h, up⟩
  unfold State.transitions
  rw [show s.stopRepeat = s by simp [State.stopRepeat, inactive]]
  dsimp only
  generalize (if st = .warmup then s.countWarmup else s) = x at counted
  obtain ⟨sinks, up⟩ := counted
  rw [State.countListen_up x up]
  have timed := State.takeEnd_sinks (State.takeT0_sinks sinks (max bt x.tbu.basinTime)) (max bt x.tbu.basinTime)
  generalize (x.takeT0 (max bt x.tbu.basinTime)).takeEnd (max bt x.tbu.basinTime) = y at timed
  have turned : u.SinksTo (if st = .held then y.takeResume bt else y.takeHold bt).hu := by
    split
    · exact State.takeResume_sinks timed bt
    · exact State.takeHold_sinks timed bt
  split
  · exact State.checkEnding_sinks turned
  · exact turned
end

section
variable {s t : State}
theorem State.feedback_of_outer (h : t.outer = s.outer) : t.biu.feedback = s.biu.feedback :=
  congrArg (fun x => x.biu.feedback) h
theorem State.feedback_of_timed (h : t.timed = s.timed) : t.biu.feedback = s.biu.feedback :=
  congrArg (fun x => x.biu.feedback) h
end

/-! ## Up to the pass -/

/-- `x` is `s` as the pass of the pumps finds it: pumps as they were but for heights at 0, with their parameters and their
feedback. -/
structure State.BroughtTo (s x : State) : Prop where
  sinks : s.hu.SinksTo x.hu
  st : x.st = s.st
  feedback : x.biu.feedback = s.biu.feedback

theorem State.BroughtTo.params {s x : State} (h : s.BroughtTo x) : x.params = s.params := congrArg StartUp.params h.st

theorem State.BroughtTo.of_outer {s x y : State} (h : s.BroughtTo x) (outer : y.outer = x.outer)
    (sinks : s.hu.SinksTo y.hu) : s.BroughtTo y :=
  ⟨sinks, (State.st_of_outer outer).trans h.st, (State.feedback_of_outer outer).trans h.feedback⟩

theorem State.afterTransitions_broughtTo {s : State} (ready : s.atBoundary) {i : BoundaryInput} (steady : s.levelSteady i) :
    s.BroughtTo (s.afterTransitions i) := by
  obtain ⟨up, -, inactive⟩ := ready
  have heard := State.atTransitions_pumpsHeard steady
  have st := State.atTransitions_st (s := s) i
  have timed := State.afterTransitions_timed up i
  have stop := (State.stopActive_of_unmarked (State.atTransitions_unmarked s i)).trans inactive
  refine ⟨?_, (State.st_of_timed timed).trans st, (State.feedback_of_timed timed).trans (congrArg Prod.snd heard)⟩
  rw [State.afterTransitions]
  refine State.transitions_sinks ?_ stop ((congrArg StartUp.phase st).trans up) _ _ _
  exact .inl (congrArg Prod.fst heard)

theorem State.placeBeacon_broughtTo {s x : State} (h : s.BroughtTo x) (k : Nat) (up : Bool) :
    s.BroughtTo (x.placeBeacon k up) := by
  unfold State.placeBeacon
  split
  · exact ⟨h.sinks, h.st, h.feedback⟩
  · exact h

theorem State.cued_broughtTo {s x : State} (h : s.BroughtTo x) (k : Nat) (handed : ShowState) :
    s.BroughtTo (x.cued k handed) := by
  have line : s.BroughtTo (x.onLiu Liu.boundary) := ⟨h.sinks, h.st, h.feedback⟩
  exact line.of_outer (State.cueBoundary_outer _ k handed) (State.cueBoundary_sinks line.sinks k handed)

theorem any_filter_kind (p : FaultKind → Bool) {k : FaultKind} (hk : p k = true) (l : List FaultRecord) :
    ((l.filter fun r => p r.kind).any fun r => r.kind == k) = l.any fun r => r.kind == k := by
  rw [List.any_filter]
  refine List.any_congr rfl fun r => ?_
  by_cases same : r.kind = k <;> simp [same, hk]

theorem State.faulted_of_unsounded {s t : State} (h : t.unsounded = s.unsounded) {k : FaultKind} (hk : k.offMap = true) :
    t.faulted k = s.faulted k := by
  have kept : (t.biu.faults.filter fun r => r.kind.offMap) = s.biu.faults.filter fun r => r.kind.offMap :=
    congrArg (fun x => x.biu.faults) h
  rw [State.faulted, ← any_filter_kind FaultKind.offMap hk, kept, any_filter_kind FaultKind.offMap hk, State.faulted]

theorem State.onLu_faulted (s : State) (g : Lu → Lu) (k : FaultKind) : (s.onLu g).faulted k = s.faulted k := rfl

/-- Beyond the pumps' pass a boundary leaves the pumps, and PUMP_NO_FEEDBACK in the list. -/
theorem State.markBoundary_huPass {s : State} (ready : s.atBoundary) {i : BoundaryInput} (steady : s.levelSteady i) :
    ∃ x handed jets, s.BroughtTo x ∧ (s.markBoundary i).hu = (x.huPass s.nextBoundary handed jets).hu ∧
      ((x.huPass s.nextBoundary handed jets).faulted .pumpNoFeedback = true →
        (s.markBoundary i).faulted .pumpNoFeedback = true) := by
  obtain ⟨c, e⟩ := State.markBoundary_eq (State.live_of_up ready.1) ready.2.1 i
  have placed := State.placeBeacon_broughtTo (State.afterTransitions_broughtTo ready steady) s.nextFrame
    (s.st.phase == .up)
  rw [e]
  generalize (s.afterTransitions i).placeBeacon s.nextFrame (s.st.phase == .up) = y at placed
  have timed : s.BroughtTo (y.onTbu fun t => { t with basinTime := s.nextBoundary }) :=
    ⟨placed.sinks, placed.st, placed.feedback⟩
  rw [State.atReading]
  generalize (y.onTbu fun t => { t with basinTime := s.nextBoundary }) = y at timed
  generalize (s.afterTransitions i).tbu.state = handed
  obtain ⟨jets, g, unsounded⟩ := y.passes_unsounded s.nextFrame s.nextBoundary c handed
    (handed == .held && s.tbu.state != .held) (handed == .running && s.tbu.state == .held)
  have cued := State.cued_broughtTo timed s.nextFrame handed
  have hu := State.hu_of_unsounded unsounded
  have faulted := State.faulted_of_unsounded unsounded (k := .pumpNoFeedback) rfl
  rw [State.onLu_hu] at hu
  rw [State.onLu_faulted] at faulted
  exact ⟨(y.cued s.nextFrame handed).takeSlate s.nextFrame, handed, jets, ⟨cued.sinks, cued.st, cued.feedback⟩,
    hu, fun raised => faulted.trans raised⟩

end Sys2Proof.Machine
end

