-- ==== Sys2Proof/Proofs/PumpPass.lean ====
section
/-!
The pass of one pump (spec/03, R51): its target, its event (R61 to R65, R70), the stages of the drive (R57 to R60) and its
arrival record (R74), and with them what becomes of a pump at the boundaries of its counters (R62 to R65, R70).
-/
namespace Sys2Proof.Machine

/-! ## Targets -/

/-- The pump without what the show asks of it. -/
def Pump.unasked (p : Pump) : Pump := { p with height := 0, override := none, requested := 0 }

section
variable {h : Hu} {P : Params} {n : Channel}

/-- Steps 1 and 2 of a pass set what is asked of a present pump: a height, an override, and the drive for the derated
height. -/
theorem Hu.takeHeights_unasked (handed : ShowState) (jets : List Action) :
    ((h.takeHeights P handed jets).pump n).unasked = (h.pump n).unasked := by
  have jetted : ∀ (x : Hu) (a : Action), ((match a.deed with
      | .jet j height ramp =>
        x.mapPumps fun n p =>
          if n.val = j ∧ P.pumps[n].present then
            { p with height := height, override := if ramp = 0 then none else some (min 4096 ramp) }
          else p
      | _ => x).pump n).unasked = (x.pump n).unasked := by
    intro x a
    split
    · rw [Hu.mapPumps_pump]
      split <;> rfl
    · rfl
  have listed := foldl_keeps (fun x : Hu => (x.pump n).unasked) _ jetted jets h
  unfold Hu.takeHeights
  dsimp only
  split
  · exact listed
  · exact listed
  · exact listed
  · rw [Hu.mapPumps_pump]
    exact listed

theorem Hu.request_pump (present : P.pumps[n].present = true) (ws : WindState) (w : Nat) :
    ((h.request P ws w).pump n).unasked = (h.pump n).unasked ∧
      ∃ h2, ((h.request P ws w).pump n).requested = driveFor P.pumps[n] h2 := by
  rw [Hu.request, Hu.mapPumps_pump, if_pos present]
  exact ⟨rfl, _, rfl⟩

theorem Hu.SinksTo.unasked {u : Hu} (sinks : u.SinksTo h) : (h.pump n).unasked = (u.pump n).unasked := by
  rcases sinks.pump n with e | e <;> rw [e]
  rfl
end

/-- A drive that is asked for is d_min at least, unless d_min is above the full drive. -/
theorem dmin_le_driveFor {pp : PumpParams} {h2 : Nat} (asked : 0 < driveFor pp h2) (small : pp.dmin ≤ 4096) :
    pp.dmin ≤ driveFor pp h2 := by
  unfold driveFor at asked ⊢
  split
  · rename_i zero
    rw [if_pos zero] at asked
    exact absurd asked (Nat.lt_irrefl 0)
  · split
    · exact small
    · exact Nat.le_max_right _ _

/-! ## Events (R61 to R65, R70) -/

section
variable {pp : PumpParams} {p : Pump}

/-- A rest at its last count (R62). -/
theorem Pump.event_rested (resting : p.state = .resting) (last : p.restCount ≤ 1) (fb : Bool) :
    p.event pp fb = if p.requested = 0 then { p with state := .off, restCount := 0 } else p.claim := by
  simp [Pump.event, resting, Nat.not_lt.mpr last]

/-- Soft start that has reached its limit, with feedback (R63). -/
theorem Pump.event_started (starting : p.state = .starting) (soft : pp.soft ≤ p.softCount) :
    p.event pp true = (p.run pp).answerZero pp := by
  simp [Pump.event, starting, Nat.not_lt.mpr soft]

/-- Soft start that has reached its limit, without feedback (R63). -/
theorem Pump.event_unstarted (starting : p.state = .starting) (soft : pp.soft ≤ p.softCount) :
    p.event pp false = p.lockOnFeedback := by
  simp [Pump.event, starting, Nat.not_lt.mpr soft]

/-- A pass in RUNNING with feedback, at which the run count reaches the minimum run (R64). -/
theorem Pump.event_minimumRun (running : p.state = .running) (reached : p.runCount + 1 = pp.minRun * 50) :
    p.event pp true = ({ p with runCount := pp.minRun * 50, absence := 0 } : Pump).answerZero pp := by
  simp [Pump.event, running, reached]

/-- The 25th pass in RUNNING without feedback (R70). -/
theorem Pump.event_unheard (running : p.state = .running) (absence : p.absence = 24) :
    ∃ runCount, p.event pp false = ({ p with runCount := runCount, absence := 25 } : Pump).lockOnFeedback :=
  ⟨min (pp.minRun * 50) (p.runCount + 1), by simp [Pump.event, running, absence]⟩

theorem Pump.event_stopping (stopping : p.state = .stopping) (fb : Bool) : p.event pp fb = p := by
  simp [Pump.event, stopping]

theorem Pump.answerZero_asked (asked : 0 < p.requested) : p.answerZero pp = p :=
  if_neg fun zero => absurd zero.1 (Nat.pos_iff_ne_zero.mp asked)

theorem Pump.answerZero_passed (zero : p.requested = 0) (passed : pp.minRun * 50 ≤ p.runCount) :
    p.answerZero pp = p.stop := if_pos ⟨zero, passed⟩

theorem Pump.answerZero_cases : p.answerZero pp = p ∨ p.requested = 0 ∧ p.answerZero pp = p.stop := by
  unfold Pump.answerZero
  split
  · rename_i stops
    exact .inr ⟨stops.1, rfl⟩
  · exact .inl rfl
end

/-! ## The stages of the drive (R57 to R60, R74) -/

/-- Shedding (R59). -/
def Pump.shed (pp : PumpParams) (p : Pump) : Pump := if p.state = .running ∧ p.committed < pp.dmin then p.stop else p

/-- Stages 8 and 9 and step 8 of a pass for one pump, under the scale factor `f`. -/
def Pump.drive (pp : PumpParams) (f now : Nat) (p : Pump) : Pump := (((p.scaleTo pp f).shed pp).ramp pp).arrive pp now

section
variable {pp : PumpParams} {p : Pump} {f now : Nat}

theorem Pump.arrive_other (h : p.state ≠ .running) : p.arrive pp now = p := if_neg fun x => h x.1

theorem Pump.shed_other (h : p.state ≠ .running) : p.shed pp = p := if_neg fun x => h x.1

/-- Outside RUNNING the drive is that of stage 9 alone. -/
theorem Pump.drive_other (h : p.state ≠ .running) (ramped : (p.ramp pp).state ≠ .running) :
    p.drive pp f now = p.ramp pp := by
  rw [Pump.drive, Pump.scaleTo_other h, Pump.shed_other h, Pump.arrive_other ramped]

/-- A pump that does not turn. -/
theorem Pump.drive_unturned (h : p.state = .off ∨ p.state = .resting ∨ p.state = .claiming ∨ p.state = .locked) :
    p.drive pp f now = { p with actual := 0 } := by
  have ramped : p.ramp pp = { p with actual := 0 } := by
    rcases h with e | e | e | e <;> simp [Pump.ramp, e]
  have other : p.state ≠ .running := by
    rcases h with e | e | e | e <;> simp [e]
  rw [Pump.drive_other other (by rw [ramped]; exact other), ramped]

theorem Pump.ramp_stopping (stopping : p.state = .stopping) : p.ramp pp =
    if p.actual - pp.rampDown = 0 then
      if p.lockPending then { p with actual := 0, state := .locked, lockDry := true, lockPending := false }
      else p.rest pp
    else { p with actual := p.actual - pp.rampDown } := by
  simp only [Pump.ramp, stopping]
  split
  · rename_i zero
    simp only [zero, Pump.rest]
  · rfl

theorem Pump.drive_stopping (stopping : p.state = .stopping) : p.drive pp f now = p.ramp pp := by
  refine Pump.drive_other (by simp [stopping]) ?_
  rw [Pump.ramp_stopping stopping]
  split
  · split <;> nofun
  · simp [stopping]

/-- A stopping drive that reaches 0 (R65). -/
theorem Pump.drive_stopped (stopping : p.state = .stopping) (last : p.actual ≤ pp.rampDown) : p.drive pp f now =
    if p.lockPending then { p with actual := 0, state := .locked, lockDry := true, lockPending := false }
    else p.rest pp := by
  rw [Pump.drive_stopping stopping, Pump.ramp_stopping stopping, if_pos (Nat.sub_eq_zero_of_le last)]

/-- The pump `q` turns, or has come to its end, on the counts of `p` (R60, R65). -/
structure Pump.TurnsOn (p q : Pump) : Prop where
  runCount : q.runCount = p.runCount
  absence : q.absence = p.absence
  requested : q.requested = p.requested
  state : q.state = .running ∨ q.state = .stopping ∨ q.state = .resting

theorem Pump.drive_of_stopping (stopping : p.state = .stopping) (free : p.lockPending = false) :
    p.TurnsOn (p.drive pp f now) ∧ (p.drive pp f now).arrival = p.arrival ∧ (p.drive pp f now).state ≠ .running := by
  rw [Pump.drive_stopping stopping, Pump.ramp_stopping stopping, free, if_neg Bool.false_ne_true]
  split
  · exact ⟨⟨rfl, rfl, rfl, .inr (.inr rfl)⟩, rfl, nofun⟩
  · exact ⟨⟨rfl, rfl, rfl, .inr (.inl stopping)⟩, rfl, by simp [stopping]⟩

/-- Stage 9 and step 8 of a RUNNING pump. -/
theorem Pump.ramp_arrive_running (running : p.state = .running) :
    p.TurnsOn ((p.ramp pp).arrive pp now) ∧ ((p.ramp pp).arrive pp now).state = .running := by
  have ramped : p.TurnsOn (p.ramp pp) ∧ (p.ramp pp).state = .running := by
    simp only [Pump.ramp, running]
    exact ⟨⟨rfl, rfl, rfl, .inl rfl⟩, trivial⟩
  generalize p.ramp pp = q at ramped
  obtain ⟨⟨runCount, absence, requested, -⟩, turning⟩ := ramped
  unfold Pump.arrive
  split
  · exact ⟨⟨runCount, absence, requested, .inl turning⟩, turning⟩
  · exact ⟨⟨runCount, absence, requested, .inl turning⟩, turning⟩

theorem Pump.drive_of_running (running : p.state = .running) : p.TurnsOn (p.drive pp f now) := by
  have scaled : p.TurnsOn (p.scaleTo pp f) ∧ (p.scaleTo pp f).state = .running := by
    rw [Pump.scaleTo, if_pos running]
    exact ⟨⟨rfl, rfl, rfl, .inl running⟩, running⟩
  unfold Pump.drive
  generalize p.scaleTo pp f = q at scaled
  obtain ⟨⟨runCount, absence, requested, -⟩, turning⟩ := scaled
  unfold Pump.shed
  split
  · obtain ⟨⟨runCount', absence', requested', state⟩, -⟩ :=
      Pump.drive_of_stopping (p := q.stop) (pp := pp) (f := f) (now := now) rfl rfl
    have driven : (q.stop.ramp pp).arrive pp now = q.stop.drive pp f now := by
      rw [Pump.drive, Pump.scaleTo_other (by nofun), Pump.shed_other (by nofun)]
    rw [driven]
    exact ⟨runCount'.trans runCount, absence'.trans absence, requested'.trans requested, state⟩
  · obtain ⟨⟨runCount', absence', requested', state⟩, -⟩ := Pump.ramp_arrive_running (pp := pp) (now := now) turning
    exact ⟨runCount'.trans runCount, absence'.trans absence, requested'.trans requested, state⟩

/-- Unscaled, a RUNNING pump whose requested drive is d_min at least is not shed. -/
theorem Pump.drive_unscaled (running : p.state = .running) (asked : 0 < p.requested) (enough : pp.dmin ≤ p.requested) :
    (p.drive pp 1024 now).state = .running := by
  have stage : p.stageDrive pp = p.requested := if_neg fun zero => absurd zero.2 (Nat.pos_iff_ne_zero.mp asked)
  have committed : (p.scaleTo pp 1024).committed = p.requested := by
    rw [Pump.scaleTo_committed running, stage, Nat.mul_div_cancel _ (by decide)]
  have kept : (p.scaleTo pp 1024).shed pp = p.scaleTo pp 1024 :=
    if_neg fun low => absurd low.2 (Nat.not_lt.mpr (committed ▸ enough))
  rw [Pump.drive, kept]
  exact (Pump.ramp_arrive_running ((p.scaleTo_state pp 1024).trans running)).2
end

/-! ## The pass of the unit -/

section
variable (P : Params) (h : Hu) {n : Channel}

/-- Start aborts reach only pumps in STARTING (R57). -/
theorem Hu.abortStarts_pump (other : (h.pump n).state ≠ .starting) : (h.abortStarts P).pump n = h.pump n := by
  rw [Hu.abortStarts_eq]
  refine List.foldlRecOn (motive := fun x : Hu => x.pump n = h.pump n) _ _ rfl fun x same m _ => ?_
  unfold Hu.abortStart
  split
  · rename_i aborts
    have ne : n ≠ m := fun e => other (same ▸ e ▸ aborts.1)
    rw [Hu.onPump_other x _ ne, same]
  · exact same

/-- Stages 6 to 9 and step 8 for a pump that is not STARTING. -/
theorem Hu.drives_pump (other : (h.pump n).state ≠ .starting) (peers now : Nat) :
    let x := ((((h.takeShare P peers).abortStarts P).scaleTargets P).shed P).rampAll P now
    x.pump n = (h.pump n).drive P.pumps[n] x.scale now := by
  have started := Hu.abortStarts_pump P (h.takeShare P peers) (n := n) other
  dsimp only
  generalize (h.takeShare P peers).abortStarts P = y at started
  have same : y.pump n = h.pump n := started
  rw [Hu.rampAll, Hu.mapPumps_pump, Hu.shed, Hu.mapPumps_pump, Hu.scaleTargets_pump, same]
  rfl

/-- One raise of PUMP_NO_FEEDBACK, where pump `n` has come to LOCKED (R63, R70). -/
def State.raiseFeedbackLock (before : Hu) (s : State) (n : Channel) : State :=
  if (before.pump n).state != .locked && (s.hu.pump n).state == .locked then
    s.raise .pumpNoFeedback (some (.channel n.val))
  else s

theorem State.raiseFeedbackLock_hu (before : Hu) (s : State) (m : Channel) : (s.raiseFeedbackLock before m).hu = s.hu := by
  unfold State.raiseFeedbackLock
  split <;> rfl

theorem State.raiseFeedbackLock_faulted (before : Hu) (s : State) (m : Channel) (h : s.faulted .pumpNoFeedback = true) :
    (s.raiseFeedbackLock before m).faulted .pumpNoFeedback = true := by
  unfold State.raiseFeedbackLock
  split
  · exact State.faulted_raise _ _ _
  · exact h

/-- A pump that locks in step 3 puts PUMP_NO_FEEDBACK into the list. -/
theorem State.raiseFeedbackLocks_faulted {before : Hu} {s : State} (unlocked : (before.pump n).state ≠ .locked)
    (locked : (s.hu.pump n).state = .locked) : (s.raiseFeedbackLocks before).faulted .pumpNoFeedback = true := by
  have along : ∀ (l : List Channel) (x : State), x.hu = s.hu → (n ∈ l ∨ x.faulted .pumpNoFeedback = true) →
      (l.foldl (State.raiseFeedbackLock before) x).faulted .pumpNoFeedback = true := by
    intro l
    induction l with
    | nil => exact fun x _ h => h.resolve_left (List.not_mem_nil)
    | cons m l ih =>
      intro x hu h
      refine ih _ ((State.raiseFeedbackLock_hu before x m).trans hu) ?_
      rcases h with listed | faulted
      · rcases List.mem_cons.mp listed with rfl | later
        · refine .inr ?_
          rw [State.raiseFeedbackLock, if_pos (by simp [unlocked, hu, locked])]
          exact State.faulted_raise _ _ _
        · exact .inl later
      · exact .inr (State.raiseFeedbackLock_faulted before x m faulted)
  exact along allChannels s rfl (.inl (by fin_cases n <;> simp [allChannels]))
end

/-- The pass of present pump `n`: it has its event with the target `q` of the pass, and unless that leaves it STARTING it is
driven under the scale factor of the pass. A pump that locks is in the fault list. -/
structure State.Passes (s t : State) (n : Channel) (now : Nat) (q : Pump) : Prop where
  same : q.unasked = (s.hu.pump n).unasked
  target : ∃ h2, q.requested = driveFor s.params.pumps[n] h2
  driven : (q.event s.params.pumps[n] s.biu.feedback[n]).state ≠ .starting →
    t.hu.pump n = (q.event s.params.pumps[n] s.biu.feedback[n]).drive s.params.pumps[n] t.hu.scale now
  raised : q.state ≠ .locked → (q.event s.params.pumps[n] s.biu.feedback[n]).state = .locked →
    t.faulted .pumpNoFeedback = true

@[simp] theorem State.settleClaim_scale (s : State) : s.settleClaim.hu.scale = s.hu.scale := by
  unfold State.settleClaim
  split
  · rfl
  · split <;> rfl

@[simp] theorem State.recheckClaim_scale (s : State) : s.recheckClaim.hu.scale = s.hu.scale := by
  unfold State.recheckClaim
  split
  · split <;> rfl
  · rfl

@[simp] theorem State.queueClaim_scale (s : State) : s.queueClaim.hu.scale = s.hu.scale := by
  unfold State.queueClaim
  split
  · split <;> rfl
  · rfl

section
variable (s : State)

@[simp] theorem State.recheckClaim_biu : s.recheckClaim.biu = s.biu := by
  unfold State.recheckClaim
  split
  · split <;> rfl
  · rfl

@[simp] theorem State.queueClaim_biu : s.queueClaim.biu = s.biu := by
  unfold State.queueClaim
  split
  · split <;> rfl
  · rfl

/-- The checks of the claim at the end of a pass. -/
theorem State.claims_keep (n : Channel) : s.settleClaim.recheckClaim.queueClaim.hu.pump n = s.hu.pump n ∧
    s.settleClaim.recheckClaim.queueClaim.hu.scale = s.hu.scale ∧
    s.settleClaim.recheckClaim.queueClaim.biu = s.biu := by
  refine ⟨Hu.pump_of_pumps ?_ n, by simp, by simp⟩
  exact (State.queueClaim_pumps _).trans ((State.recheckClaim_pumps _).trans s.settleClaim_pumps)
end

/-! ## The pass in its parts -/

section
variable (s : State)

/-- Steps 1 and 2. -/
def State.askPumps (handed : ShowState) (jets : List Action) : State :=
  s.onHu fun h => (h.takeHeights s.params handed jets).request s.params s.biu.windState s.biu.effWind

/-- Step 3, with what it raises. -/
def State.heedEvents : State := (s.onHu (Hu.events s.params s.feedbackOf)).raiseFeedbackLocks s.hu

/-- Stages 6 to 9 and step 8. -/
def State.drivePumps (P : Params) (now : Nat) : State :=
  s.onHu fun h => ((((h.takeShare P s.pt.demand).abortStarts P).scaleTargets P).shed P).rampAll P now

theorem State.huPass_eq (now : Nat) (handed : ShowState) (jets : List Action) : s.huPass now handed jets =
    (((s.askPumps handed jets).heedEvents.drivePumps s.params now).settleClaim.recheckClaim.queueClaim) := rfl

variable {s} {n : Channel} (present : s.params.pumps[n].present = true)
include present

theorem State.askPumps_pump (handed : ShowState) (jets : List Action) :
    ((s.askPumps handed jets).hu.pump n).unasked = (s.hu.pump n).unasked ∧
      ∃ h2, ((s.askPumps handed jets).hu.pump n).requested = driveFor s.params.pumps[n] h2 := by
  obtain ⟨same, target⟩ := Hu.request_pump (h := s.hu.takeHeights s.params handed jets) present s.biu.windState
    s.biu.effWind
  exact ⟨same.trans (Hu.takeHeights_unasked handed jets), target⟩

theorem State.heedEvents_pump :
    s.heedEvents.hu.pump n = (s.hu.pump n).event s.params.pumps[n] s.biu.feedback[n] := by
  rw [State.heedEvents, State.raiseFeedbackLocks_hu, State.onHu_hu, Hu.events, Hu.mapPumps_pump, if_pos present,
    State.feedbackOf, present, Bool.true_and]

theorem State.heedEvents_faulted (unlocked : (s.hu.pump n).state ≠ .locked)
    (locked : ((s.hu.pump n).event s.params.pumps[n] s.biu.feedback[n]).state = .locked) :
    s.heedEvents.faulted .pumpNoFeedback = true := by
  refine State.raiseFeedbackLocks_faulted unlocked ?_
  have e := State.heedEvents_pump present
  rw [State.heedEvents, State.raiseFeedbackLocks_hu] at e
  rw [e, locked]
end

theorem State.huPass_passes {s : State} {n : Channel} (present : s.params.pumps[n].present = true) (now : Nat)
    (handed : ShowState) (jets : List Action) : ∃ q, s.Passes (s.huPass now handed jets) n now q := by
  obtain ⟨asked, target⟩ := State.askPumps_pump present handed jets
  have turned := State.heedEvents_pump (s := s.askPumps handed jets) present
  refine ⟨(s.askPumps handed jets).hu.pump n, asked, target, fun other => ?_, fun unlocked locked => ?_⟩ <;>
    rw [State.huPass_eq]
  · obtain ⟨pump, scale, -⟩ := ((s.askPumps handed jets).heedEvents.drivePumps s.params now).claims_keep n
    rw [pump, scale]
    exact (Hu.drives_pump s.params _ (turned ▸ other) _ now).trans (by rw [turned]; rfl)
  · obtain ⟨-, -, biu⟩ := ((s.askPumps handed jets).heedEvents.drivePumps s.params now).claims_keep n
    rw [State.faulted, biu]
    exact State.heedEvents_faulted (s := s.askPumps handed jets) present unlocked locked

/-- The pass of the pumps at a boundary whose level is steady. -/
theorem State.markBoundary_pumpPass {s : State} (ready : s.atBoundary) {i : BoundaryInput} (steady : s.levelSteady i)
    {n : Channel} (present : s.params.pumps[n].present = true) : ∃ q, s.Passes (s.markBoundary i) n s.nextBoundary q := by
  obtain ⟨x, handed, jets, brought, hu, faulted⟩ := State.markBoundary_huPass ready steady
  have params := brought.params
  have feedback := brought.feedback
  obtain ⟨q, asked, target, driven, raised⟩ :=
    State.huPass_passes (s := x) (n := n) (by rw [params]; exact present) s.nextBoundary handed jets
  rw [params, feedback] at driven raised
  rw [params] at target
  rw [← hu] at driven
  exact ⟨q, asked.trans brought.sinks.unasked, target, driven, fun unlocked locked => faulted (raised unlocked locked)⟩

/-! ## What becomes of a pump -/

section
variable {p q : Pump} (h : q.unasked = p.unasked)
include h
theorem Pump.state_of_unasked : q.state = p.state := (congrArg Pump.state h :)
theorem Pump.restCount_of_unasked : q.restCount = p.restCount := (congrArg Pump.restCount h :)
theorem Pump.softCount_of_unasked : q.softCount = p.softCount := (congrArg Pump.softCount h :)
theorem Pump.runCount_of_unasked : q.runCount = p.runCount := (congrArg Pump.runCount h :)
theorem Pump.absence_of_unasked : q.absence = p.absence := (congrArg Pump.absence h :)
theorem Pump.actual_of_unasked : q.actual = p.actual := (congrArg Pump.actual h :)
theorem Pump.lockPending_of_unasked : q.lockPending = p.lockPending := (congrArg Pump.lockPending h :)
end

namespace State.Passes
variable {s t : State} {n : Channel} {now : Nat} {q : Pump} (pass : s.Passes t n now q)
include pass

/-- A rest that expires (R62). -/
theorem rested (resting : (s.hu.pump n).state = .resting) (last : (s.hu.pump n).restCount ≤ 1) :
    (t.hu.pump n).state = (if (t.hu.pump n).requested = 0 then .off else .claiming) ∧
      ((t.hu.pump n).requested ≠ 0 → (t.hu.pump n).arrival = .pending) ∧ (t.hu.pump n).restCount = 0 ∧
      t.driveOutput n = 0 := by
  have event := Pump.event_rested (pp := s.params.pumps[n]) ((Pump.state_of_unasked pass.same).trans resting)
    ((Pump.restCount_of_unasked pass.same).trans_le last) s.biu.feedback[n]
  have driven := pass.driven
  rw [event] at driven
  unfold State.driveOutput
  by_cases zero : q.requested = 0
  · rw [if_pos zero] at driven
    rw [driven nofun, Pump.drive_unturned (.inl rfl)]
    exact ⟨(if_pos zero).symm, fun asked => absurd zero asked, rfl, rfl⟩
  · rw [if_neg zero] at driven
    rw [driven nofun, Pump.drive_unturned (.inr (.inr (.inl rfl)))]
    exact ⟨(if_neg zero).symm, fun _ => rfl, rfl, rfl⟩

/-- A pump that locks on its feedback (R63, R70). -/
theorem locks {p : Pump} (unlocked : (s.hu.pump n).state ≠ .locked)
    (event : q.event s.params.pumps[n] s.biu.feedback[n] = p.lockOnFeedback) : t.lockedOnFeedback n := by
  have driven := pass.driven
  have raised := pass.raised (by rwa [Pump.state_of_unasked pass.same])
  rw [event] at driven raised
  have locked : t.hu.pump n = { p.lockOnFeedback with actual := 0 } :=
    (driven nofun).trans (Pump.drive_unturned (.inr (.inr (.inr rfl))))
  unfold State.lockedOnFeedback State.driveOutput
  rw [locked]
  exact ⟨rfl, rfl, rfl, rfl, raised rfl⟩

/-- A pump that its event leaves RUNNING, as `r`, or stops for a zero target (R63, R64). -/
theorem turns {r : Pump} (event : q.event s.params.pumps[n] s.biu.feedback[n] = r.answerZero s.params.pumps[n])
    (running : r.state = .running) (requested : r.requested = q.requested) :
    r.TurnsOn (t.hu.pump n) ∧ (0 < (t.hu.pump n).requested → t.hu.scale = 1024 → s.params.pumps[n].dmin ≤ 4096 →
      (t.hu.pump n).state = .running) := by
  have driven := pass.driven
  rw [event] at driven
  rcases Pump.answerZero_cases (pp := s.params.pumps[n]) (p := r) with e | ⟨zero, e⟩ <;> rw [e] at driven
  · have pump := driven (by simp [running])
    have turning : r.TurnsOn (t.hu.pump n) := pump ▸ Pump.drive_of_running running
    refine ⟨turning, fun asked scale small => ?_⟩
    rw [turning.requested] at asked
    obtain ⟨h2, target⟩ := pass.target
    rw [pump, scale]
    refine Pump.drive_unscaled running asked ?_
    rw [requested, target] at asked ⊢
    exact dmin_le_driveFor asked small
  · have pump := driven nofun
    obtain ⟨⟨runCount, absence, same, state⟩, -⟩ := Pump.drive_of_stopping (p := r.stop) (pp := s.params.pumps[n])
      (f := t.hu.scale) (now := now) rfl rfl
    rw [← pump] at runCount absence same state
    exact ⟨⟨runCount, absence, same, state⟩, fun asked => absurd (same.trans zero) (Nat.pos_iff_ne_zero.mp asked)⟩

/-- A zero target after the minimum run stops the pump (R64). -/
theorem stops {r : Pump} (event : q.event s.params.pumps[n] s.biu.feedback[n] = r.answerZero s.params.pumps[n])
    (requested : r.requested = 0) (passed : s.params.pumps[n].minRun * 50 ≤ r.runCount) :
    t.hu.pump n = r.stop.drive s.params.pumps[n] t.hu.scale now := by
  have driven := pass.driven
  rw [event, Pump.answerZero_passed requested passed] at driven
  exact driven nofun

/-- A drive within one step of 0 stops in the same pass (R64, R65). -/
theorem stopsAtOnce {r : Pump} (event : q.event s.params.pumps[n] s.biu.feedback[n] = r.answerZero s.params.pumps[n])
    (requested : r.requested = 0) (passed : s.params.pumps[n].minRun * 50 ≤ r.runCount)
    (last : r.actual ≤ s.params.pumps[n].rampDown) : t.hu.pump n = r.stop.rest s.params.pumps[n] := by
  rw [pass.stops event requested passed, Pump.drive_stopped (p := r.stop) rfl last]
  rfl

end State.Passes

/-- The boundary is marked when the pump goes at it as the event names. -/
theorem State.markAsPumpGoes_goes {s : State} (live : s.live = true) {n : Channel}
    (present : s.params.pumps[n].present = true) {before : List PumpState}
    (from_ : before.contains (s.hu.pump n).state = true) {after : Pump → Bool} {i : BoundaryInput}
    (goes : after ((s.markBoundary i).hu.pump n) = true) : s.markAsPumpGoes n before after i = s.markBoundary i := by
  simp [-Fin.getElem_fin, State.markAsPumpGoes, live, present, List.contains_iff_mem.mp from_, goes]

end Sys2Proof.Machine
end

