-- ==== Sys2Proof/Proofs/PumpEvents.lean ====
section
/-!
The pump events at the boundaries of their counters (spec/03, R62 to R65, R70).
-/
namespace Sys2Proof.Machine

section
variable {s : State} (ready : s.atBoundary) {i : BoundaryInput} {n : Channel}
  (present : s.params.pumps[n].present = true)
include ready present

theorem exec_softStartEnd_due (starting : (s.hu.pump n).state = .starting)
    (soft : s.params.pumps[n].soft ≤ (s.hu.pump n).softCount) :
    exec (.softStartEnd n i) s = .next (s.markBoundary i) :=
  congrArg Host.Outcome.next (State.markWhen_due (State.live_of_up ready.1)
    (by simp [-Fin.getElem_fin, present, starting, soft]) i)

theorem exec_minimumRunEnd_due (running : (s.hu.pump n).state = .running)
    (reached : (s.hu.pump n).runCount + 1 = s.params.pumps[n].minRun * 50) :
    exec (.minimumRunEnd n i) s = .next (s.markBoundary i) :=
  congrArg Host.Outcome.next (State.markWhen_due (State.live_of_up ready.1)
    (by simp [-Fin.getElem_fin, present, running, reached]) i)

theorem exec_feedbackAbsenceLock_due (running : (s.hu.pump n).state = .running) (absence : (s.hu.pump n).absence = 24)
    (unheard : s.biu.feedback[n] = false) : exec (.feedbackAbsenceLock n i) s = .next (s.markBoundary i) :=
  congrArg Host.Outcome.next (State.markWhen_due (State.live_of_up ready.1)
    (by simp [-Fin.getElem_fin, present, running, State.feedbackOf, unheard, absence]) i)

theorem exec_restExpiry_due (resting : (s.hu.pump n).state = .resting)
    (goes : ((s.markBoundary i).hu.pump n).state = .off ∨ ((s.markBoundary i).hu.pump n).state = .claiming) :
    exec (.restExpiry n i) s = .next (s.markBoundary i) :=
  congrArg Host.Outcome.next (State.markAsPumpGoes_goes (State.live_of_up ready.1) present (by simp [resting])
    (by simpa using goes))

theorem exec_stoppingDriveZero_due (turning : (s.hu.pump n).state = .stopping ∨ (s.hu.pump n).state = .running)
    (stopped : ((s.markBoundary i).hu.pump n).stopped = true) :
    exec (.stoppingDriveZero n i) s = .next (s.markBoundary i) :=
  congrArg Host.Outcome.next (State.markAsPumpGoes_goes (State.live_of_up ready.1) present
    (by rcases turning with e | e <;> simp [e]) stopped)
end

/-- Settles O12: a boundary brings each pump to its pass as it was, but for what the show asks of it. -/
theorem pumpEventsAtBoundary : Obligations.PumpEventsAtBoundary := by
  intro i s n ready steady present
  obtain ⟨q, pass⟩ := State.markBoundary_pumpPass ready steady present
  have state := Pump.state_of_unasked pass.same
  have minimumRun : (s.hu.pump n).state = .running → (s.hu.pump n).runCount + 1 = s.params.pumps[n].minRun * 50 →
      s.biu.feedback[n] = true → q.event s.params.pumps[n] s.biu.feedback[n] =
        ({ q with runCount := s.params.pumps[n].minRun * 50, absence := 0 } : Pump).answerZero s.params.pumps[n] := by
    intro running reached heard
    rw [heard]
    exact Pump.event_minimumRun (state.trans running) ((Pump.runCount_of_unasked pass.same).symm ▸ reached)
  generalize ht : s.markBoundary i = t at pass
  refine ⟨fun resting last => ?_, fun starting soft heard => ?_, fun starting soft unheard => ?_,
    fun running reached heard => ?_, fun running absence unheard => ?_, fun stopping last => ?_,
    fun running reached heard last => ?_⟩
  · obtain ⟨gone, rest⟩ := pass.rested resting last
    refine ⟨t, ht ▸ exec_restExpiry_due ready present resting ?_, gone, rest⟩
    rw [ht, gone]
    split
    · exact .inl rfl
    · exact .inr rfl
  · have event : q.event s.params.pumps[n] s.biu.feedback[n] = (q.run s.params.pumps[n]).answerZero s.params.pumps[n] := by
      rw [heard]
      exact Pump.event_started (state.trans starting) ((Pump.softCount_of_unasked pass.same).symm ▸ soft)
    obtain ⟨turning, runs⟩ := pass.turns event rfl rfl
    refine ⟨t, ht ▸ exec_softStartEnd_due ready present starting soft, turning.runCount, turning.absence, ?_, ?_, runs⟩ <;>
      rcases turning.state with e | e | e <;> simp [e]
  · refine ⟨t, ht ▸ exec_softStartEnd_due ready present starting soft, pass.locks (p := q) (by simp [starting]) ?_⟩
    rw [unheard]
    exact Pump.event_unstarted (state.trans starting) ((Pump.softCount_of_unasked pass.same).symm ▸ soft)
  · have event := minimumRun running reached heard
    obtain ⟨turning, runs⟩ := pass.turns event (state.trans running) rfl
    refine ⟨t, ht ▸ exec_minimumRunEnd_due ready present running reached, turning.runCount, fun zero => ?_, runs⟩
    obtain ⟨⟨-, -, -, state⟩, arrival, stopped⟩ := Pump.drive_of_stopping (pp := s.params.pumps[n]) (f := t.hu.scale)
      (now := s.nextBoundary) (p := Pump.stop _) rfl rfl
    rw [← pass.stops event (turning.requested.symm.trans zero) (Nat.le_refl _)] at arrival state stopped
    exact ⟨arrival, state.resolve_left stopped⟩
  · obtain ⟨runCount, event⟩ := Pump.event_unheard (pp := s.params.pumps[n]) (state.trans running)
      ((Pump.absence_of_unasked pass.same).trans absence)
    exact ⟨t, ht ▸ exec_feedbackAbsenceLock_due ready present running absence unheard,
      pass.locks (by simp [running]) (by rw [unheard]; exact event)⟩
  · have event := Pump.event_stopping (pp := s.params.pumps[n]) (state.trans stopping) s.biu.feedback[n]
    have driven := pass.driven (by rw [event, state, stopping]; nofun)
    rw [event, Pump.drive_stopped (state.trans stopping) ((Pump.actual_of_unasked pass.same).trans_le last),
      Pump.lockPending_of_unasked pass.same] at driven
    have marks : (t.hu.pump n).stopped = true → exec (.stoppingDriveZero n i) s = .next t := fun stopped =>
      ht ▸ exec_stoppingDriveZero_due ready present (.inl stopping) (ht ▸ stopped)
    unfold State.driveOutput
    cases pending : (s.hu.pump n).lockPending
    · rw [pending, if_neg Bool.false_ne_true] at driven
      refine ⟨t, marks (by rw [driven]; rfl), ?_⟩
      rw [driven]
      exact ⟨rfl, fun _ => ⟨rfl, rfl⟩, nofun⟩
    · rw [pending, if_pos rfl] at driven
      refine ⟨t, marks (by rw [driven]; rfl), ?_⟩
      rw [driven]
      exact ⟨rfl, nofun, fun _ => ⟨rfl, rfl, rfl⟩⟩
  · have event := minimumRun running reached heard
    obtain ⟨turning, -⟩ := pass.turns event (state.trans running) rfl
    refine ⟨t, ht ▸ exec_minimumRunEnd_due ready present running reached, fun zero => ?_⟩
    have rests := pass.stopsAtOnce event (turning.requested.symm.trans zero) (Nat.le_refl _)
      ((Pump.actual_of_unasked pass.same).trans_le last)
    refine ⟨ht ▸ exec_stoppingDriveZero_due ready present (.inr running) ?_, ?_⟩
    · rw [ht, rests]
      rfl
    · unfold State.driveOutput
      rw [rests]
      exact ⟨rfl, rfl, rfl⟩

end Sys2Proof.Machine
end

