-- ==== Sys2Proof/Proofs/Fades.lean ====
section
/-!
A fade of n frames (spec/04, R80, R81): the level of each of its steps, and its end.
-/
namespace Sys2Proof.Machine

/-! ## Interpolation -/

section
variable {s t j n : Nat}

/-- Rising, the interpolated value is that of the natural numbers. -/
theorem interpolated_of_le (rising : s ≤ t) :
    (s : Int) + (((t : Int) - s) * j).tdiv n = ((s + (t - s) * j / n : Nat) : Int) := by
  have span : ((t : Int) - s) * j = (((t - s) * j : Nat) : Int) := by push_cast [rising]; ring
  rw [span, Nat.cast_add, Int.ofNat_tdiv]

/-- Falling, the division truncates toward zero, so that what is taken off is that of the natural numbers. -/
theorem interpolated_of_ge (falling : t ≤ s) :
    (s : Int) + (((t : Int) - s) * j).tdiv n = (s : Int) - (((s - t) * j / n : Nat) : Int) := by
  have span : ((t : Int) - s) * j = -(((s - t) * j : Nat) : Int) := by push_cast [falling]; ring
  rw [span, Int.neg_tdiv, Int.ofNat_tdiv, sub_eq_add_neg]

/-- No more than the whole way is gone in `j` of `n` steps. -/
theorem part_le (a : Nat) (within_ : j ≤ n) : a * j / n ≤ a :=
  Nat.div_le_of_le_mul (by rw [Nat.mul_comm n]; exact Nat.mul_le_mul_left a within_)

theorem lerp_cast (within_ : j ≤ n) : (lerp s t j n : Int) = (s : Int) + (((t : Int) - s) * j).tdiv n := by
  refine Int.toNat_of_nonneg ?_
  rcases Nat.le_total s t with rising | falling
  · rw [interpolated_of_le rising]
    exact Int.natCast_nonneg _
  · rw [interpolated_of_ge falling]
    have part := part_le (s - t) within_
    generalize (s - t) * j / n = q at part ⊢
    omega

/-- An interpolated value lies between the two ends. -/
theorem lerp_between (within_ : j ≤ n) : min s t ≤ lerp s t j n ∧ lerp s t j n ≤ max s t := by
  have value := lerp_cast (s := s) (t := t) within_
  rcases Nat.le_total s t with rising | falling
  · rw [interpolated_of_le rising] at value
    have part := part_le (t - s) within_
    generalize (t - s) * j / n = q at part value
    omega
  · rw [interpolated_of_ge falling] at value
    have part := part_le (s - t) within_
    generalize (s - t) * j / n = q at part value
    omega

@[simp] theorem lerp_zero : lerp s t 0 n = s := by simp [lerp]

theorem lerp_whole (positive : 0 < n) : lerp s t n n = t := by
  rw [lerp, Int.mul_tdiv_cancel _ (by omega)]
  omega
end

/-! ## The channel after each step -/

theorem LightChannel.step_fading {c : LightChannel} (h : c.elapsed < c.fade) :
    c.step = { c with elapsed := c.elapsed + 1, level := lerp c.start c.target (c.elapsed + 1) c.fade } := by
  rw [LightChannel.step, if_pos (by simpa [LightChannel.fading] using h)]

theorem LightChannel.step_still {c : LightChannel} (h : c.fade ≤ c.elapsed) : c.step = c := by
  rw [LightChannel.step, if_neg (by simpa [LightChannel.fading] using h)]

/-- The channel `c` after `j` steps of a fade of `n` frames toward `t`. -/
def LightChannel.faded (c : LightChannel) (t n j : Nat) : LightChannel :=
  { c with start := c.level, target := t, fade := n, elapsed := min j n, level := lerp c.level t (min j n) n }

theorem LightChannel.repeat_step (c : LightChannel) (t : Nat) {n : Nat} (frames : 0 < n) (j : Nat) :
    Nat.repeat LightChannel.step j (c.apply t n) = c.faded t n j := by
  induction j with
  | zero => simp [Nat.repeat, LightChannel.apply, LightChannel.faded, frames.ne']
  | succ j ih =>
    rw [Nat.repeat, ih]
    rcases Nat.lt_or_ge j n with fading | done
    · rw [LightChannel.step_fading (by simpa [LightChannel.faded] using fading)]
      simp [LightChannel.faded, Nat.min_eq_left fading.le, Nat.min_eq_left fading]
    · rw [LightChannel.step_still (by simpa [LightChannel.faded] using done)]
      simp [LightChannel.faded, Nat.min_eq_right done, Nat.min_eq_right (Nat.le_succ_of_le done)]

/-- Settles O51: after j steps the channel is that of `faded`, whose level is interpolated. -/
theorem fadeReachesTarget : Obligations.FadeReachesTarget := by
  intro ch t n j frames
  rw [LightChannel.repeat_step ch t frames]
  refine ⟨fun within_ => ?_, fun within_ => ?_, fun reached => ?_⟩
  · rw [LightChannel.faded, Nat.min_eq_left within_]
    exact lerp_cast within_
  · rw [LightChannel.faded, Nat.min_eq_left within_]
    exact lerp_between within_
  · simp [LightChannel.faded, Nat.min_eq_right reached, lerp_whole frames, LightChannel.fading]

end Sys2Proof.Machine
end

