-- ==== Sys2Proof/Proofs/FollowList.lean ====
section
/-!
The follow list (spec/04, R84 to R87): entries made, reduced, released and frozen.
-/
namespace Sys2Proof.Machine

/-- A fixed file read at one of its own indices. -/
theorem getElem_ofFn_fin {α : Type} {n : Nat} (g : Fin n → α) (i : Fin n) : (Vector.ofFn g)[i] = g i :=
  Vector.getElem_ofFn i.isLt

/-! ## Entries made and reduced (R84) -/

theorem Lu.enterFollow_follow (P : Params) (d : LightDeed) (j : Nat) (l : Lu) (f : Fin 12) :
    (l.enterFollow P d j).follow[f] = if P.fixtures[f].present && d.names f then some
      { targets := Vector.ofFn fun c => if d.covers f c then some (d.value c * 257) else none
        fade := d.fade, jet := j, limit := d.cueFrame + 100 } else l.follow[f] := by
  rw [Lu.enterFollow, getElem_ofFn_fin]

theorem Lu.applyLight_follow (P : Params) (d : LightDeed) (l : Lu) (f : Fin 12) : (l.applyLight P d).follow[f] =
    if d.names f then l.follow[f].bind fun e => e.without (d.covers f) else l.follow[f] := by
  rw [Lu.applyLight, getElem_ofFn_fin, Lu.mapChannels_follow]

/-- The entry with the channels that `gone` names taken out. -/
def FollowEntry.reduced (e : FollowEntry) (gone : Fin 4 → Bool) : FollowEntry :=
  { e with targets := Vector.ofFn fun c => if gone c then none else e.targets[c] }

theorem FollowEntry.reduced_target (e : FollowEntry) (gone : Fin 4 → Bool) (c : Fin 4) :
    (e.reduced gone).targets[c] = if gone c then none else e.targets[c] := getElem_ofFn_fin _ c

/-- What is left of an entry is none, or the reduced entry. -/
theorem FollowEntry.without_eq (e : FollowEntry) (gone : Fin 4 → Bool) :
    e.without gone = if ∀ c : Fin 4, (e.reduced gone).targets[c] = none then none else some (e.reduced gone) := by
  have all : (e.reduced gone).targets.toList.all Option.isNone = true ↔
      ∀ c : Fin 4, (e.reduced gone).targets[c] = none := by
    simp [Fin.forall_iff]
  exact if_congr all rfl rfl

/-- An entry left with no channels goes. -/
theorem FollowEntry.without_none {e : FollowEntry} {gone : Fin 4 → Bool}
    (all : ∀ c : Fin 4, e.targets[c] = none ∨ gone c = true) : e.without gone = none := by
  rw [FollowEntry.without_eq, if_pos]
  intro c
  rw [FollowEntry.reduced_target]
  rcases all c with empty | taken
  · rw [empty, ite_self]
  · rw [if_pos taken]

/-- One that keeps a channel stays, reduced. -/
theorem FollowEntry.without_some {e : FollowEntry} {gone : Fin 4 → Bool} {c : Fin 4} (held : e.targets[c] ≠ none)
    (kept : gone c = false) : e.without gone = some (e.reduced gone) := by
  rw [FollowEntry.without_eq, if_neg]
  intro all
  have empty := all c
  rw [FollowEntry.reduced_target, kept] at empty
  exact held empty

/-! ## The pass without a slate (R79, R85 to R87) -/

/-- The release of an entry is, channel by channel, a light action (R86). -/
def FollowEntry.release (e : FollowEntry) (c : Fin 4) (ch : LightChannel) : LightChannel :=
  match e.targets[c] with
  | some t => ch.apply t e.fade
  | none => ch

theorem FollowEntry.release_covered {e : FollowEntry} {c : Fin 4} {t : Nat} (target : e.targets[c] = some t)
    (ch : LightChannel) : e.release c ch = ch.apply t e.fade := by
  rw [FollowEntry.release, target]

theorem FollowEntry.release_uncovered {e : FollowEntry} {c : Fin 4} (uncovered : e.targets[c] = none)
    (ch : LightChannel) : e.release c ch = ch := by
  rw [FollowEntry.release, uncovered]

section
variable {P : Params} {h : Hu} {level k : Nat} {st : ShowState} {l : Lu} {f : Fin 12} {e : FollowEntry}

/-- The entry of fixture `f`, when it is due (R85). -/
def Lu.dueEntry (h : Hu) (k : Nat) (l : Lu) (f : Fin 12) : Option FollowEntry :=
  l.follow[f].filter fun e => e.due k (h.arrivalOf e.jet)

theorem Lu.releaseFollow_follow : (l.releaseFollow h k).follow[f] =
    if (l.dueEntry h k f).isSome then none else l.follow[f] := getElem_ofFn_fin _ f

theorem Lu.releaseFollow_channel {n : Fin 48} {c : Fin 4} (place : n.val = 4 * f.val + c.val)
    (due : l.dueEntry h k f = some e) : (l.releaseFollow h k).channels[n] = e.release c l.channels[n] := by
  have hf : (⟨n.val / 4, by omega⟩ : Fin 12) = f := Fin.ext (by dsimp only; omega)
  have hc : (⟨n.val % 4, by omega⟩ : Fin 4) = c := Fin.ext (by dsimp only; omega)
  have released := Lu.mapChannels_channel l (fun f c ch =>
    match l.dueEntry h k f with
    | some e => e.release c ch
    | none => ch) n
  rw [hf, hc, due] at released
  exact released

theorem Lu.interlock_channel (n : Fin 48) :
    (l.interlock P level).channels[n] = { l.channels[n] with output := (l.interlock P level).channels[n].output } := by
  obtain ⟨v, e, -⟩ := Lu.recompute_channel { l with level := level, exposed := _ } P n
  rw [Lu.interlock, e]

theorem Lu.interlock_follow : (l.interlock P level).follow = l.follow := Lu.recompute_follow _ _

/-- Every fade one step on (R81). -/
def Lu.stepFades (l : Lu) : Lu := l.mapChannels fun _ _ c => c.step

theorem Lu.stepFades_follow : l.stepFades.follow = l.follow := Lu.mapChannels_follow _ _

theorem Lu.stepFades_channel (n : Fin 48) : l.stepFades.channels[n] = l.channels[n].step := Lu.mapChannels_channel _ _ n

theorem Lu.pass_held : l.pass P h level k .held false false [] = l.interlock P level := rfl

theorem Lu.pass_not_held (held : st ≠ .held) :
    l.pass P h level k st false false [] = (l.stepFades.releaseFollow h k).interlock P level := by
  simp [Lu.pass, held, Lu.takeSlate, Lu.stepFades]

theorem Lu.pass_due (held : st ≠ .held) (entry : l.follow[f] = some e) (due : e.due k (h.arrivalOf e.jet) = true) :
    (l.pass P h level k st false false []).follow[f] = none ∧
      ∀ (n : Fin 48) (c : Fin 4), n.val = 4 * f.val + c.val → (l.pass P h level k st false false []).channels[n] =
        { e.release c l.channels[n].step with
          output := (l.pass P h level k st false false []).channels[n].output } := by
  have found : l.stepFades.dueEntry h k f = some e := by
    rw [Lu.dueEntry, Lu.stepFades_follow, entry, Option.filter_some, if_pos due]
  rw [Lu.pass_not_held held, Lu.interlock_follow, Lu.releaseFollow_follow, found]
  refine ⟨rfl, fun n c place => ?_⟩
  rw [Lu.interlock_channel]
  rw [Lu.releaseFollow_channel place found, Lu.stepFades_channel]

theorem Lu.pass_not_due (entry : l.follow[f] = some e) (waits : st = .held ∨ e.due k (h.arrivalOf e.jet) = false) :
    (l.pass P h level k st false false []).follow[f] = some e := by
  by_cases held : st = .held
  · rw [held, Lu.pass_held, Lu.interlock_follow, entry]
  · have found : l.stepFades.dueEntry h k f = none := by
      rw [Lu.dueEntry, Lu.stepFades_follow, entry, Option.filter_some, waits.resolve_left held]
      rfl
    rw [Lu.pass_not_held held, Lu.interlock_follow, Lu.releaseFollow_follow, found, Lu.stepFades_follow, entry]
    rfl
end

theorem FollowEntry.due_iff {e : FollowEntry} {k : Nat} {a : Arrival} :
    e.due k a = true ↔ e.limit ≤ k ∨ a = .void ∨ ∃ t x, a = .set t x ∧ t / 960 ≤ k := by
  cases a <;> simp [FollowEntry.due]

/-- Settles O25. -/
theorem followListReleases : Obligations.FollowListReleases := by
  refine ⟨fun P d j l f present named => ?_, fun P d j l f other => ?_, fun P d l f e entry => ?_,
    fun P h level k st l f e held entry due => ?_, fun P h level k st l f e entry waits => ?_,
    fun P h level k l n => ?_⟩
  · rw [Lu.enterFollow_follow, present, LightDeed.names, named]
    exact ⟨_, rfl, rfl, rfl, rfl, rfl, getElem_ofFn_fin _⟩
  · rw [Lu.enterFollow_follow, if_neg]
    rcases other with absent | unnamed
    · rw [absent]
      nofun
    · rw [LightDeed.names, unnamed, Bool.and_false]
      nofun
  · rw [Lu.applyLight_follow, entry, LightDeed.names]
    refine ⟨fun unnamed => ?_, fun named all => ?_, fun named c held kept => ?_⟩
    · rw [unnamed]
      rfl
    · rw [if_pos named]
      exact FollowEntry.without_none all
    · rw [if_pos named]
      exact ⟨_, FollowEntry.without_some held kept, rfl, rfl, rfl, e.reduced_target _⟩
  · obtain ⟨gone, channel⟩ := Lu.pass_due (P := P) (level := level) held entry (FollowEntry.due_iff.mpr due)
    refine ⟨gone, fun n c place => ⟨fun t target => ?_, fun uncovered => ?_⟩⟩
    · rw [channel n c place, FollowEntry.release_covered target]
      unfold LightChannel.apply
      split
      · rename_i snap
        exact ⟨⟨rfl, rfl, snap.symm⟩, fun _ => rfl, fun fades => absurd snap fades.ne'⟩
      · rename_i fades
        exact ⟨⟨rfl, rfl, rfl⟩, fun snap => absurd snap fades, fun _ => ⟨rfl, rfl⟩⟩
    · have same := channel n c place
      rwa [FollowEntry.release_uncovered uncovered] at same
  · refine Lu.pass_not_due entry (waits.imp_right fun ⟨limit, arrival⟩ => ?_)
    rcases arrival with pending | ⟨t, x, arrival, later⟩
    · simp [FollowEntry.due, pending, limit]
    · simp [FollowEntry.due, arrival, limit, later]
  · rw [Lu.pass_held, Lu.interlock_channel]
    exact ⟨rfl, rfl⟩

end Sys2Proof.Machine
end

