-- ==== Sys2Proof/Proofs/LightsApart.lean ====
section
/-!
What the other units leave of the lights (spec/04): link, memory controller, content map, pumps, audio unit and the
reading of a cue list leave the light unit, the effective level and the parameters.
-/
namespace Sys2Proof.Machine

/-- What the interlock is about: the light unit, the effective level and the parameters. -/
def State.lit (s : State) : State :=
  { lu := s.lu, pt := { level := s.pt.level }, st := { params := s.st.params } }

section
variable {s t : State}
theorem State.lu_of_lit (h : t.lit = s.lit) : t.lu = s.lu := congrArg (fun x => x.lu) h
theorem State.level_of_lit (h : t.lit = s.lit) : t.pt.level = s.pt.level := congrArg (fun x => x.pt.level) h
theorem State.params_of_lit (h : t.lit = s.lit) : t.params = s.params := congrArg (fun x => x.st.params) h

theorem State.lit_of_unsounded (h : t.unsounded = s.unsounded) : t.lit = s.lit := by
  have e : ∀ x : State, x.lit = x.unsounded.lit := fun _ => rfl
  rw [e t, e s, h]

theorem State.lit_of_unfilled (h : t.unfilled = s.unfilled) : t.lit = s.lit :=
  State.lit_of_unsounded (State.unsounded_of_unfilled h)

theorem State.lit_of_unmapped (h : t.unmapped = s.unmapped) : t.lit = s.lit :=
  State.lit_of_unsounded (State.unsounded_of_unmapped h)

theorem State.lit_of_unpumped (h : t.unpumped = s.unpumped) : t.lit = s.lit := by
  have e : ∀ x : State, x.lit = x.unpumped.lit := fun _ => rfl
  rw [e t, e s, h]

theorem State.lit_of_unissued (h : t.unissued = s.unissued) : t.lit = s.lit := by
  have e : ∀ x : State, x.lit = x.unissued.lit := fun _ => rfl
  rw [e t, e s, h]

theorem State.lit_ite {p : Prop} [Decidable p] (h : t.lit = s.lit) : (if p then t else s).lit = s.lit := by
  split
  · exact h
  · rfl
end

section
variable (s : State)

@[simp] theorem State.onTbu_lit (g : Tbu → Tbu) : (s.onTbu g).lit = s.lit := rfl
@[simp] theorem State.onCe_lit (g : Ce → Ce) : (s.onCe g).lit = s.lit := rfl
@[simp] theorem State.onHu_lit (g : Hu → Hu) : (s.onHu g).lit = s.lit := rfl
@[simp] theorem State.onAu_lit (g : Au → Au) : (s.onAu g).lit = s.lit := rfl
@[simp] theorem State.onCm_lit (g : Cm → Cm) : (s.onCm g).lit = s.lit := rfl
@[simp] theorem State.onLiu_lit (g : Liu → Liu) : (s.onLiu g).lit = s.lit := rfl
@[simp] theorem State.onSmc_lit (g : Smc → Smc) : (s.onSmc g).lit = s.lit := rfl
@[simp] theorem State.onBiu_lit (g : Biu → Biu) : (s.onBiu g).lit = s.lit := rfl
@[simp] theorem State.raise_lit (k : FaultKind) (d : Option FaultDetail) : (s.raise k d).lit = s.lit := rfl

/-! ## The content map -/

@[simp] theorem State.queueRequest_lit : s.queueRequest.lit = s.lit := State.lit_of_unmapped s.queueRequest_unmapped
@[simp] theorem State.queueRequests_lit : s.queueRequests.lit = s.lit := State.lit_of_unmapped s.queueRequests_unmapped
@[simp] theorem State.issueMap_lit : s.issueMap.lit = s.lit := State.lit_of_unmapped s.issueMap_unmapped
@[simp] theorem State.initMap_lit : s.initMap.lit = s.lit := State.lit_of_unmapped s.initMap_unmapped
@[simp] theorem State.release_lit (gs : List Nat) : (s.release gs).lit = s.lit :=
  State.lit_of_unsounded (s.release_unsounded gs)
@[simp] theorem State.raiseStoreFull_lit (g q : Nat) : (s.raiseStoreFull g q).lit = s.lit :=
  State.lit_of_unmapped (s.raiseStoreFull_unmapped g q)
@[simp] theorem State.openFill_lit (g q p : Nat) (f : Bool) : (s.openFill g q p f).lit = s.lit :=
  State.lit_of_unmapped (s.openFill_unmapped g q p f)
@[simp] theorem State.makeChange_lit (x : Change) : (s.makeChange x).lit = s.lit :=
  State.lit_of_unmapped (s.makeChange_unmapped x)
@[simp] theorem State.serveAnswer_lit (id : Nat) (a : Answer) : (s.serveAnswer id a).lit = s.lit :=
  State.lit_of_unmapped (s.serveAnswer_unmapped id a)
@[simp] theorem State.serveLookup_lit (r : Serve) : (s.serveLookup r).1.lit = s.lit :=
  State.lit_of_unmapped (s.serveLookup_unmapped r)
@[simp] theorem State.dropServes_lit (l : List Serve) : (l.foldl (fun s r => s.dropServe r.id) s).lit = s.lit :=
  State.lit_of_unmapped (s.dropServes_unmapped l)

@[simp] theorem State.mapFault_lit (d : FaultDetail) : (s.mapFault d).lit = s.lit := rfl

@[simp] theorem State.feed_lit (x : Fill) (chunk : Nat) (data : List Byte) : (s.feed x chunk data).lit = s.lit := by
  unfold State.feed
  dsimp only
  split <;> rfl

@[simp] theorem State.feedPage_lit (g q : Nat) (f : PageDataFields) : (s.feedPage g q f).lit = s.lit := by
  unfold State.feedPage
  split <;> simp

theorem State.takeSelect_lit (n : Nat) : (s.takeSelect n).lit = s.lit := by
  unfold State.takeSelect
  repeat' split
  · rfl
  · rfl
  · rfl
  · exact s.release_lit _

@[simp] theorem State.releaseIfDefined_lit (g : Nat) : (s.releaseIfDefined g).lit = s.lit := by
  unfold State.releaseIfDefined
  split <;> simp

theorem State.takeDefine_lit (f : SegmentDefineFields) : (s.takeDefine f).lit = s.lit := by
  unfold State.takeDefine
  dsimp only
  repeat' split
  · rfl
  · rfl
  · exact s.releaseIfDefined_lit _
  · rfl
  · rw [State.define, State.issueMap_lit, State.onCm_lit, State.releaseIfDefined_lit]

theorem State.takePageData_lit (f : PageDataFields) : (s.takePageData f).lit = s.lit := by
  unfold State.takePageData
  dsimp only
  repeat' split
  all_goals simp

theorem State.fetchExpired_lit (f : Fill) : (s.fetchExpired f).lit = s.lit := by
  unfold State.fetchExpired
  split <;> simp

theorem State.startSending_lit (r : Serve) : (s.startSending r).lit = s.lit := by simp [State.startSending]

theorem State.issueServeRead_lit (r : Serve) : (s.issueServeRead r).lit = s.lit := by
  unfold State.issueServeRead
  split <;> rfl

theorem State.chunkDone_lit : s.chunkDone.lit = s.lit := by
  unfold State.chunkDone
  dsimp only
  split <;> simp

theorem State.serveReadDone_lit (id : Nat) (bytes : List Byte) : (s.serveReadDone id bytes).lit = s.lit := by
  unfold State.serveReadDone
  split
  · split <;> rfl
  · rfl

theorem State.completion_lit (c : ReqClass) {act : State → Report → State} (h : ∀ x r, (act x r).lit = x.lit) :
    (s.completion c act).lit = s.lit := by
  unfold State.completion
  split
  · rw [h, State.onSmc_lit]
  · rfl

/-! ## The link -/

theorem State.abortTransmission_lit : s.abortTransmission.lit = s.lit := by
  unfold State.abortTransmission
  dsimp only
  split <;> rfl

theorem State.dataOut_lit : s.dataOut.lit = s.lit := by
  unfold State.dataOut
  split
  · dsimp only
    split <;> rfl
  · rfl

theorem State.requestOut_lit : s.requestOut.lit = s.lit := by
  unfold State.requestOut
  split <;> rfl

theorem State.intoIntake_lit (f : ContentFrame) : (s.intoIntake f).lit = s.lit := by
  unfold State.intoIntake
  split <;> rfl

theorem State.hearShowSelect_lit (n : Byte) : (s.hearShowSelect n).lit = s.lit := by
  unfold State.hearShowSelect
  split
  · exact s.intoIntake_lit _
  · exact s.intoIntake_lit _
  · rfl

theorem State.hearPageData_lit (p : Position) (f : PageDataFields) : (s.hearPageData p f).lit = s.lit := by
  rw [State.hearPageData, State.intoIntake_lit, State.dropServes_lit]

theorem State.hearPageRequest_lit (p : Position) (n g q : Nat) : (s.hearPageRequest p n g q).lit = s.lit := by
  unfold State.hearPageRequest
  split <;> rfl

theorem State.answerQuery_lit (target tag : Byte) (sel : Nat) (snap : State → List Byte) :
    (s.answerQuery target tag sel snap).lit = s.lit := State.lit_ite rfl

theorem State.countSelector_lit (target selector : Byte) :
    (s.targeted target fun s => if 5 < selector.toNat then s.onLiu Liu.countRxError else s).lit = s.lit :=
  State.lit_ite (State.lit_ite rfl)

/-! ## Pumps and voices -/

theorem State.huPeerClaim_lit : s.huPeerClaim.lit = s.lit := by
  unfold State.huPeerClaim
  dsimp only
  split <;> rfl

theorem State.huClaimOut_lit (n : Channel) : (s.huClaimOut n).lit = s.lit := by
  unfold State.huClaimOut
  dsimp only
  split
  · split <;> rfl
  · rfl

theorem State.answerDefinition_lit : s.answerDefinition.lit = s.lit := by
  unfold State.answerDefinition
  split
  · rfl
  · dsimp only
    split <;> rfl

theorem State.handWords_lit : s.handWords.lit = s.lit := by
  obtain ⟨g, e⟩ := s.handWords_onAu
  rw [e, State.onAu_lit]

theorem State.memoryReady_lit : s.memoryReady.lit = s.lit := by
  unfold State.memoryReady
  dsimp only
  split <;> split
  · exact State.initMap_lit _
  · rfl
  · exact State.initMap_lit _
  · rfl

theorem State.oscTick_lit : s.oscTick.lit = s.lit := by
  have counted : (s.countUnderruns (s.au.tau s.tbu.basinTime)).lit = s.lit := by
    rw [s.countUnderruns_eq, State.onBiu_lit]
  unfold State.oscTick
  split
  · rfl
  · exact counted

/-! ## The cue list -/

@[simp] theorem State.cueLookup_lit (p : ReadPos) : (s.cueLookup p).1.lit = s.lit :=
  State.lit_of_unmapped (s.cueLookup_unmapped p)

theorem State.stage_lit {k : Nat} {a : Action} {t : State} (staged : s.stage k a = some t) : t.lit = s.lit := by
  unfold State.stage at staged
  split at staged
  · cases staged
  · cases staged
    split <;> rfl

theorem State.produce_lit (d : Deed) (n : Nat) : (s.produce d n).lit = s.lit := by
  rcases s.produce_cases d n with ⟨t, staged, e⟩ | e <;> rw [e]
  · exact State.stage_lit s.ordered staged
  · rfl

theorem State.produceAll_lit (l : List (Deed × Nat)) :
    (l.foldl (fun (s : State) (a : Deed × Nat) => s.produce a.1 a.2) s).lit = s.lit :=
  foldl_keeps State.lit (fun (s : State) (a : Deed × Nat) => s.produce a.1 a.2) (fun t a => t.produce_lit a.1 a.2) l s

theorem State.openTimed_lit : s.openTimed.lit = s.lit := by
  unfold State.openTimed
  split <;> rfl

theorem State.cueEnd_lit : s.cueEnd.state.lit = s.lit := by
  unfold State.cueEnd
  split
  · rfl
  · unfold Progress.state State.endOfList
    dsimp only
    split
    · exact s.openTimed_lit
    · rw [State.onCe_lit, State.produce_lit, State.openTimed_lit]

theorem State.takeCue_lit (p : ReadPos) (r : List Byte) (c : Cue) (t : Nat) :
    (s.takeCue p r c t).state.lit = s.lit := by
  have counted : (if cueTime r < s.ce.lastCue then s.countMalformed p else s).lit = s.lit := State.lit_ite rfl
  unfold State.takeCue
  dsimp only
  split
  · rfl
  · have made := (State.produceAll_lit _ (s.actionsOf c (s.base + t))).trans counted
    cases c with
    | waitTrigger => rfl
    | _ => exact made

theorem State.readRecord_lit (p : ReadPos) (r : List Byte) : (s.readRecord p r).state.lit = s.lit := by
  rcases s.readRecord_cases p r with e | e <;> rw [e]
  · exact s.openTimed_lit
  · unfold State.readRecord.go
    dsimp only
    split
    · rfl
    · split
      · rfl
      · exact s.takeCue_lit _ _ _ _

theorem State.scanRecord_lit (x : ScanRecord) (r : List Byte) : (s.scanRecord x r).state.lit = s.lit := by
  unfold State.scanRecord
  dsimp only
  split
  · split <;> rfl
  all_goals rfl
end

/-! ## Commands -/

/-- The commands of link, memory controller and content map leave the lights. -/
theorem exec_lit_of_standing {c : Instr} (h : standing? c = true) {s t : State} (e : exec c s = .next t) :
    t.lit = s.lit := by
  cases c <;> simp only [standing?, reduceCtorEq] at h
  case grantPoint =>
    simp only [exec, execGrantPoint] at e
    split at e
    · cases e
    · cases e
      rw [State.onSmc_lit, State.handWords_lit]
  all_goals cases e
  case spacingTimerExpiry => exact State.lit_ite (State.lit_of_unpumped s.queueClaim_unpumped)
  case definitionAnswer => exact State.lit_ite s.answerDefinition_lit
  case rowReadComplete => exact s.completion_lit _ fun x _ => State.lit_of_unfilled (x.rowReadDone_unfilled _)
  case mapRegionAccessComplete =>
    exact State.lit_ite (s.completion_lit _ fun x _ => State.lit_of_unmapped x.mapAccessDone_unmapped)
  case queuedChangeApply =>
    split
    · exact State.lit_ite (State.lit_of_unmapped (State.applyChange_unmapped _ _))
    · rfl
  case showSelectTaken =>
    split
    · exact State.lit_ite (State.takeSelect_lit _ _)
    · rfl
  case segmentDefineTaken =>
    split
    · exact State.lit_ite (State.takeDefine_lit _ _)
    · rfl
  case pageDataTaken =>
    split
    · exact State.lit_ite (State.takePageData_lit _ _)
    · rfl
  case chunkWriteComplete => exact s.completion_lit _ fun x _ => x.chunkDone_lit
  case fetchTimerExpiry =>
    split
    · exact State.lit_ite (State.fetchExpired_lit _ _)
    · rfl
  case pageRequestQueue => exact State.lit_ite s.queueRequest_lit
  case pageRequestGoneOut =>
    split
    · exact s.requestOut_lit
    · rfl
  case serveDelayEnd =>
    split
    · exact State.lit_ite (State.startSending_lit _ _)
    · rfl
  case serveReadIssue =>
    split
    · exact State.lit_ite (State.issueServeRead_lit _ _)
    · rfl
  case serveReadComplete => exact s.completion_lit _ fun x _ => x.serveReadDone_lit _ _
  case pageDataGoneOut =>
    split
    · exact s.dataOut_lit
    · rfl
  case initModeEnd => exact State.lit_ite (State.memoryReady_lit _)
  case transmitError => exact State.lit_ite s.abortTransmission_lit
  case frameDiscarded =>
    split
    · exact State.lit_ite rfl
    all_goals rfl
  case initWaitEnd | transmitStart | yieldIdleExpiry | stopInputInactive | feedbackChange => exact State.lit_ite rfl
  case contentEnd | initPrechargeEnd | initRefreshEnd | debtRise | bankActivateDone | bankPrechargeDone => rfl
  case beaconGoneOut | stopAssertGoneOut | statusReplyGoneOut => split <;> rfl

end Sys2Proof.Machine
end

