-- ==== Sys2Proof/Proofs/Interlock.lean ====
section
/-!
The cover interlock (spec/04, R82, R83): the light unit's transitions, the pass and the readings leave every output dark
or that of its level, and each cover state that of the effective level.
-/
namespace Sys2Proof.Machine

/-! ## The light unit -/

/-- The cover states agree with the level last compared (R83). -/
def Lu.Covered (P : Params) (l : Lu) : Prop :=
  ∀ f : Fin 12, (P.fixtures[f].present && P.fixtures[f].submerged) = true →
    l.exposed[f] = decide (l.level < P.fixtures[f].cover)

/-- Every output is 0 or the value of R82. -/
def Lu.Shown (P : Params) (l : Lu) : Prop :=
  ∀ (f : Fin 12) (n : Fin 48), n.val / 4 = f.val → l.channels[n].output = 0 ∨
    l.channels[n].output = outputValue P.fixtures[f] l.trimFactor[f] l.exposed[f] l.channels[n].level

theorem State.lightsGuarded_iff {s : State} : s.lightsGuarded ↔
    s.lu.level = s.pt.level ∧ s.lu.Covered s.params ∧ s.lu.Shown s.params := Iff.rfl

/-- A change of the light unit that brings every output to a lawful value, and leaves the cover states and the level
compared. -/
structure Lu.Presents (P : Params) (g : Lu → Lu) : Prop where
  level : ∀ l, (g l).level = l.level
  exposed : ∀ l, (g l).exposed = l.exposed
  shown : ∀ l, (g l).Shown P

section
variable (l : Lu) (g : Fin 12 → Fin 4 → LightChannel → LightChannel)
@[simp] theorem Lu.mapChannels_level : (l.mapChannels g).level = l.level := by rw [Lu.mapChannels]
@[simp] theorem Lu.mapChannels_exposed : (l.mapChannels g).exposed = l.exposed := by rw [Lu.mapChannels]
@[simp] theorem Lu.mapChannels_trimFactor : (l.mapChannels g).trimFactor = l.trimFactor := by rw [Lu.mapChannels]
@[simp] theorem Lu.recompute_level (P : Params) : (l.recompute P).level = l.level := Lu.mapChannels_level _ _
@[simp] theorem Lu.recompute_exposed (P : Params) : (l.recompute P).exposed = l.exposed := Lu.mapChannels_exposed _ _
@[simp] theorem Lu.recompute_trimFactor (P : Params) : (l.recompute P).trimFactor = l.trimFactor :=
  Lu.mapChannels_trimFactor _ _
@[simp] theorem Lu.interlock_level (P : Params) (level : Nat) : (l.interlock P level).level = level :=
  Lu.recompute_level _ _
@[simp] theorem Lu.clearFollow_level : l.clearFollow.level = l.level := rfl
@[simp] theorem Lu.clearFollow_exposed : l.clearFollow.exposed = l.exposed := rfl
end

section
variable (P : Params)

theorem Lu.recompute_shown (l : Lu) : (l.recompute P).Shown P := by
  intro f n place
  have hf : (⟨n.val / 4, by omega⟩ : Fin 12) = f := Fin.ext place
  refine .inr ?_
  rw [Lu.recompute_trimFactor, Lu.recompute_exposed, Lu.recompute, Lu.mapChannels_channel, hf]

theorem Lu.interlock_shown (level : Nat) (l : Lu) : (l.interlock P level).Shown P := Lu.recompute_shown P _

theorem Lu.interlock_covered (level : Nat) (l : Lu) : (l.interlock P level).Covered P := by
  intro f submerged
  have exposed : (l.interlock P level).exposed[f] =
      if P.fixtures[f].present && P.fixtures[f].submerged then decide (level < P.fixtures[f].cover)
      else l.exposed[f] := by
    rw [Lu.interlock, Lu.recompute_exposed, getElem_ofFn_fin]
  rw [exposed, if_pos submerged, Lu.interlock_level]

theorem Lu.stopFade_presents (fade : Nat) : Lu.Presents P (Lu.stopFade P fade) :=
  ⟨by simp [Lu.stopFade], by simp [Lu.stopFade], fun _ => Lu.recompute_shown P _⟩

theorem Lu.halt_presents : Lu.Presents P (Lu.halt P) :=
  ⟨by simp [Lu.halt], by simp [Lu.halt], fun _ => Lu.recompute_shown P _⟩

theorem Lu.dark_presents : Lu.Presents P (Lu.dark P) :=
  ⟨by simp [Lu.dark], by simp [Lu.dark], fun _ => Lu.recompute_shown P _⟩

/-- Every output set to 0, as at a reset point (R194). -/
def Lu.blank (l : Lu) : Lu := l.mapChannels fun _ _ c => { c with output := 0 }

theorem Lu.blank_presents : Lu.Presents P Lu.blank := by
  refine ⟨by simp [Lu.blank], by simp [Lu.blank], fun l f n _ => .inl ?_⟩
  rw [Lu.blank, Lu.mapChannels_channel]

/-- The pass ends with the interlock (R79). -/
theorem Lu.pass_eq_interlock (h : Hu) (level k : Nat) (handed : ShowState) (entered resumed : Bool)
    (lights : List Action) (l : Lu) :
    ∃ x : Lu, l.pass P h level k handed entered resumed lights = x.interlock P level := ⟨_, rfl⟩
end

/-! ## The station -/

section
variable {s x : State}

theorem State.lightsGuarded_of_lit (h : s.lightsGuarded) (same : x.lit = s.lit) : x.lightsGuarded := by
  rw [State.lightsGuarded_iff, State.lu_of_lit same, State.level_of_lit same, State.params_of_lit same]
  exact h

/-- The interlock at the effective level makes the condition hold, whatever the lights were. -/
theorem State.interlock_lightsGuarded {l : Lu} (lu : x.lu = l.interlock x.params x.pt.level) : x.lightsGuarded := by
  rw [State.lightsGuarded_iff, lu]
  exact ⟨Lu.interlock_level _ _ _, Lu.interlock_covered _ _ _, Lu.interlock_shown _ _ _⟩

theorem State.onLu_lightsGuarded {g : Lu → Lu} {l : Lu} (e : g x.lu = l.interlock x.params x.pt.level) :
    (x.onLu g).lightsGuarded := State.interlock_lightsGuarded ((x.onLu_lu g).trans e)

theorem State.presents_lightsGuarded (h : s.lightsGuarded) (same : x.lit = s.lit) {g : Lu → Lu}
    (presents : Lu.Presents s.params g) : (x.onLu g).lightsGuarded := by
  obtain ⟨level, covered, -⟩ := State.lightsGuarded_iff.mp (State.lightsGuarded_of_lit h same)
  have params := State.params_of_lit same
  refine State.lightsGuarded_iff.mpr ⟨(presents.level _).trans level, ?_, params ▸ presents.shown _⟩
  intro f submerged
  rw [State.onLu_lu, presents.exposed, presents.level]
  exact covered f submerged
end

/-! ## Readings (R171 to R174) -/

section
variable (s : State)

theorem State.evalLevel_lit (l : Nat) : (s.evalLevel l).lit = s.lit := by
  have dried : ∀ x : State, x.huDry.lit = x.lit := fun x => State.lit_of_unpumped x.huDry_unpumped
  unfold State.evalLevel
  split
  · split
    · dsimp only
      split
      · rw [dried, State.onBiu_lit]
      · rw [State.raise_lit, dried, State.onBiu_lit]
    · rfl
  · exact State.lit_ite rfl

theorem State.recomputeWind_lit : s.recomputeWind.lit = s.lit := by
  unfold State.recomputeWind
  dsimp only
  split <;> split <;> rfl

/-- A changed effective level is compared at once (R83). -/
theorem State.handLevel_lightsGuarded {l : Nat} (level : s.pt.level = l) : (s.handLevel l).lightsGuarded := by
  have same : ((s.onBiu fun b => { b with effLevel := l }).evalLevel l).lit = s.lit :=
    (State.evalLevel_lit _ _).trans (s.onBiu_lit _)
  have params := State.params_of_lit same
  have levels := (State.level_of_lit same).trans level
  refine State.onLu_lightsGuarded (l := ((s.onBiu fun b => { b with effLevel := l }).evalLevel l).lu) ?_
  rw [params, levels]

theorem State.raiseIf_lit (p : Prop) [Decidable p] (k : FaultKind) : (if p then s.raise k else s).lit = s.lit :=
  State.lit_ite (s.raise_lit k none)
end

section
variable {s : State} (h : s.lightsGuarded)
include h

theorem State.recomputeLevel_lightsGuarded : s.recomputeLevel.lightsGuarded := by
  unfold State.recomputeLevel
  dsimp only
  split
  · rename_i unchanged
    refine State.lightsGuarded_of_lit h ((State.raiseIf_lit _ _ _).trans ?_)
    rw [unchanged]
    rfl
  · exact State.handLevel_lightsGuarded _ (State.level_of_lit (State.raiseIf_lit _ _ _))

theorem State.recordBeacon_lightsGuarded (q : Position) (f : BeaconFields) (sof : Int) :
    (s.recordBeacon q f sof).lightsGuarded := by
  have recorded : (s.onPt fun t => { t with peers := t.peers.set q (some (peerOf s.params s.tbu.frameNo f sof)) }
      ).lightsGuarded := State.lightsGuarded_of_lit h rfl
  have winds : ∀ (x : State) (p : Prop) [Decidable p], x.lightsGuarded →
      (if p then x else x.recomputeWind).lightsGuarded := by
    intro x p _ hx
    split
    · exact hx
    · exact State.lightsGuarded_of_lit hx x.recomputeWind_lit
  unfold State.recordBeacon
  dsimp only
  split
  · exact winds _ _ recorded
  · exact State.recomputeLevel_lightsGuarded (winds _ _ recorded)

/-! ## The show transitions (R87 to R90) -/

theorem State.enterEnding_lightsGuarded (fade : Nat) : (s.enterEnding fade).lightsGuarded :=
  State.lightsGuarded_of_lit (State.presents_lightsGuarded (x := ((s.onTbu _).onCe Ce.giveUp).huZeroHeights) h rfl
    (Lu.stopFade_presents s.params fade)) (State.onAu_lit _ _)

theorem State.armedToIdle_lightsGuarded : s.armedToIdle.lightsGuarded :=
  State.lightsGuarded_of_lit (State.presents_lightsGuarded (x := ((s.onTbu _).onCe Ce.giveUp).huZeroHeights) h rfl
    (Lu.dark_presents s.params)) (State.onAu_lit _ _)

theorem State.haltedToIdle_lightsGuarded : s.haltedToIdle.lightsGuarded :=
  State.lightsGuarded_of_lit (State.presents_lightsGuarded (x := s.onTbu _) h rfl (Lu.dark_presents s.params))
    (State.onAu_lit _ _)

theorem State.enterStandby_lightsGuarded : s.enterStandby.lightsGuarded :=
  State.lightsGuarded_of_lit (State.presents_lightsGuarded (x := (s.onTbu _).huHalt) h
    ((State.lit_of_unpumped (State.huHalt_unpumped _)).trans rfl) (Lu.dark_presents s.params)) (State.onAu_lit _ _)

theorem State.haltRequest_lightsGuarded : s.haltRequest.lightsGuarded := by
  unfold State.haltRequest
  split
  · exact h
  · exact h
  · exact State.lightsGuarded_of_lit (State.presents_lightsGuarded (x := ((s.onTbu _).onCe Ce.giveUp).huHalt) h
      ((State.lit_of_unpumped (State.huHalt_unpumped _)).trans rfl) (Lu.halt_presents s.params)) (State.onAu_lit _ _)

theorem State.takeEnd_lightsGuarded (now : Nat) : (s.takeEnd now).lightsGuarded := by
  unfold State.takeEnd
  split
  · exact State.enterEnding_lightsGuarded h _
  · exact h

theorem State.takeT0_lightsGuarded (now : Nat) : (s.takeT0 now).lightsGuarded := by
  unfold State.takeT0
  split
  · exact State.takeEnd_lightsGuarded (State.lightsGuarded_of_lit h (s.onTbu_lit _)) now
  · exact h

theorem State.positionConflict_lightsGuarded : s.positionConflict.lightsGuarded := by
  rw [State.positionConflict_eq]
  have conflicted : s.conflicted.lightsGuarded := State.lightsGuarded_of_lit h rfl
  exact State.lightsGuarded_of_lit (State.enterStandby_lightsGuarded conflicted) (State.onCe_lit _ _)

/-! ## Resets (R90, R194) -/

theorem State.resetPoint_lightsGuarded (cause : ResetCause) (next : Phase) :
    (s.resetPoint cause next).lightsGuarded :=
  State.lightsGuarded_of_lit (State.presents_lightsGuarded (x := s.onHu _) h rfl (Lu.blank_presents s.params)) rfl
end

theorem State.takeConfig_lightsGuarded (s : State) (r : List Byte) : (s.takeConfig r).lightsGuarded := by
  have configured : (s.configured r).lightsGuarded := State.interlock_lightsGuarded rfl
  exact State.lightsGuarded_of_lit configured (State.lit_of_unissued (s.takeConfig_unissued r))

theorem State.powerUp_lightsGuarded (s : State) (strap : Position) (stopOpen : Bool) (contacts : BitVec 8) :
    (s.powerUp strap stopOpen contacts).lightsGuarded := by
  obtain ⟨-, -, -, reset, -⟩ := resetMeetsInvariants
  exact State.lightsGuarded_of_lit reset rfl

/-! ## Boundaries -/

/-- The lights' pass of every boundary ends with the interlock at the effective level (R79, R174). -/
theorem State.passes_lightsGuarded (s : State) (k bt : Nat) (c : Int) (handed : ShowState) (entered resumed : Bool) :
    (s.passes k bt c handed entered resumed).lightsGuarded := by
  unfold State.passes
  dsimp only
  refine State.lightsGuarded_of_lit ?_ ((State.queueRequests_lit _).trans
    (State.lit_of_unsounded (State.auPass_unsounded _ _ _ _ _ _ _ _)))
  obtain ⟨l, e⟩ := Lu.pass_eq_interlock _ _ _ k handed entered resumed _ _
  exact State.onLu_lightsGuarded e

theorem State.markBoundary_lightsGuarded {s : State} (h : s.lightsGuarded) (i : BoundaryInput) :
    (s.markBoundary i).lightsGuarded := by
  by_cases due : s.boundaryDue = true
  · by_cases live : s.live = true
    · obtain ⟨c, e⟩ := State.markBoundary_eq live due i
      rw [e]
      exact State.lightsGuarded_of_lit (State.passes_lightsGuarded _ _ _ _ _ _ _) (State.onTbu_lit _ _)
    · rw [State.markBoundary, if_neg (by simp [due]), if_neg live]
      exact State.lightsGuarded_of_lit h (s.onTbu_lit _)
  · rw [State.markBoundary_not_due (by simpa using due)]
    exact h

theorem exec_boundary_lightsGuarded {c : Instr} (boundary : boundary? c = true) {s t : State} (h : s.lightsGuarded)
    (e : exec c s = .next t) : t.lightsGuarded := by
  have marks : ∀ i (x : State), x = s.markBoundary i ∨ x = s → x.lightsGuarded := by
    rintro i x (rfl | rfl)
    · exact State.markBoundary_lightsGuarded h i
    · exact h
  cases c <;> simp only [boundary?, reduceCtorEq] at boundary
  all_goals cases e
  case frameBoundary => exact State.markBoundary_lightsGuarded h _
  case restExpiry | stoppingDriveZero => exact marks _ _ (s.markAsPumpGoes_cases _ _ _ _)
  all_goals exact marks _ _ (s.markWhen_cases _ _)

end Sys2Proof.Machine
end

