-- ==== Sys2Proof/Proofs/LightsGuarded.lean ====
section
/-!
The interlock through a step (spec/04, R83): the reading of a cue list, the frames heard, and every command.
-/
namespace Sys2Proof.Machine

/-! ## The cue engine: only the end of a show reaches the lights (R29) -/

section
variable {s : State} (h : s.lightsGuarded)
include h

theorem State.cueEndShow_lightsGuarded : s.cueEndShow.lightsGuarded := by
  unfold State.cueEndShow
  split
  · exact State.enterEnding_lightsGuarded h _
  · exact State.armedToIdle_lightsGuarded h
  · exact State.lightsGuarded_of_lit h (s.onCe_lit _)

theorem State.cueAnswer_lightsGuarded (p : ReadPos) (a : Answer) : (s.cueAnswer p a).state.lightsGuarded := by
  have ended := State.lightsGuarded_of_lit h s.cueEnd_lit
  have unread : ∀ k d, (s.raise k d).cueEndShow.lightsGuarded := fun k d =>
    State.cueEndShow_lightsGuarded (State.lightsGuarded_of_lit h (s.raise_lit k d))
  unfold State.cueAnswer
  dsimp only
  split
  · split
    · exact ended
    · split <;> exact State.lightsGuarded_of_lit h rfl
  · exact State.lightsGuarded_of_lit h rfl
  · exact State.lightsGuarded_of_lit h rfl
  · exact State.lightsGuarded_of_lit h rfl
  · exact ended
  · exact unread _ _
  · exact unread _ _

theorem State.cueStep_lightsGuarded : s.cueStep.state.lightsGuarded := by
  unfold State.cueStep
  dsimp only
  split
  · exact h
  · split
    · exact h
    · split
      · split
        · exact State.lightsGuarded_of_lit h s.cueEnd_lit
        · split
          · exact State.lightsGuarded_of_lit h (s.scanRecord_lit _ _)
          · exact State.lightsGuarded_of_lit h (s.readRecord_lit _ _)
      · split
        · exact h
        · exact State.cueAnswer_lightsGuarded (State.lightsGuarded_of_lit h (s.cueLookup_lit _)) _ _

theorem State.cueLoop_lightsGuarded (n : Nat) : (s.cueLoop n).lightsGuarded := by
  induction n generalizing s with
  | zero => exact h
  | succ n ih =>
    have step := State.cueStep_lightsGuarded h
    unfold State.cueLoop
    split
    · rename_i e
      rwa [e] at step
    · rename_i e
      rw [e] at step
      exact ih step

theorem State.cueRun_lightsGuarded : s.cueRun.lightsGuarded :=
  State.lightsGuarded_of_lit (State.cueLoop_lightsGuarded h 256) s.cueRead.queueRequests_lit

/-- Reading goes on from any change of the engine's own registers. -/
theorem State.cueRun_lightsGuarded_of_lit {t : State} (same : t.lit = s.lit) : t.cueRun.lightsGuarded :=
  State.cueRun_lightsGuarded (State.lightsGuarded_of_lit h same)

theorem State.cueReadDone_lightsGuarded (bytes : List Byte) : (s.cueReadDone bytes).lightsGuarded := by
  unfold State.cueReadDone
  split
  · exact h
  · exact State.cueRun_lightsGuarded_of_lit h (s.onCe_lit _)

omit h in
theorem Progress.run_lightsGuarded {x : Progress} (h : x.state.lightsGuarded) : x.run.lightsGuarded := by
  cases x with
  | more s => exact State.cueRun_lightsGuarded h
  | stop s => exact h

theorem State.cueWalkAnswer_lightsGuarded (a : Answer) : (s.cueWalkAnswer a).lightsGuarded := by
  have dropped : (s.onCe fun c => { c with fetch := none }).lightsGuarded := State.lightsGuarded_of_lit h (s.onCe_lit _)
  unfold State.cueWalkAnswer
  split
  · exact h
  · split
    · exact h
    · dsimp only
      split
      · split
        · exact Progress.run_lightsGuarded (State.cueAnswer_lightsGuarded dropped _ _)
        · exact State.cueRun_lightsGuarded dropped
      · exact dropped

theorem State.answerAsker_lightsGuarded (ans : Answer) (a : Asker) : (s.answerAsker ans a).lightsGuarded := by
  cases a with
  | cue => exact State.cueWalkAnswer_lightsGuarded h ans
  | audio => exact State.lightsGuarded_of_lit h (State.lit_of_unfilled (s.fillWalkAnswer_unfilled ans))
  | serve id => exact State.lightsGuarded_of_lit h (s.serveAnswer_lit id ans)

theorem State.answerAfresh_lightsGuarded (a : Asker) : (s.answerAfresh a).lightsGuarded := by
  unfold State.answerAfresh
  split
  · split
    · exact State.cueWalkAnswer_lightsGuarded (State.lightsGuarded_of_lit h (s.cueLookup_lit _)) _
    · exact h
  · split
    · exact State.lightsGuarded_of_lit h
        (State.lit_of_unfilled ((State.fillWalkAnswer_unfilled _ _).trans (s.fillLookup_unfilled _)))
    · exact h
  · split
    · exact State.lightsGuarded_of_lit h ((State.serveAnswer_lit _ _ _).trans (s.serveLookup_lit _))
    · exact h

theorem State.walkDone_lightsGuarded (w : Walk) (bytes : List Byte) : (s.walkDone w bytes).lightsGuarded := by
  have popped : s.popMap.lightsGuarded := State.lightsGuarded_of_lit h (State.lit_of_unmapped s.popMap_unmapped)
  unfold State.walkDone
  dsimp only
  split
  · refine State.lightsGuarded_of_lit ?_ (State.queueRequests_lit _)
    exact List.foldlRecOn (motive := State.lightsGuarded) _ _ popped fun _ hx a _ =>
      State.answerAfresh_lightsGuarded hx a
  · exact List.foldlRecOn (motive := State.lightsGuarded) _ _ (State.lightsGuarded_of_lit popped (State.onCm_lit _ _))
      fun _ hx a _ => State.answerAsker_lightsGuarded hx _ a

theorem State.cueTrigger_lightsGuarded (n p : Nat) : (s.cueTrigger n p).lightsGuarded := by
  have runs : ∀ t : State, t.lit = s.lit → t.cueRun.lightsGuarded := fun _ => State.cueRun_lightsGuarded_of_lit h
  unfold State.cueTrigger
  split
  · exact h
  · split
    · exact h
    · dsimp only
      split
      · split
        · split
          · exact runs _ rfl
          · exact h
        · exact h
      · split
        · split
          · exact runs _ rfl
          · exact h
        · exact h
      · split
        · split
          · exact runs _ rfl
          · exact h
        · exact h
      · exact h
      · exact h

theorem State.cueGo_lightsGuarded (n : Nat) : (s.cueGo n).lightsGuarded := by
  unfold State.cueGo
  dsimp only
  split
  · exact State.cueEndShow_lightsGuarded (State.lightsGuarded_of_lit h rfl)
  · exact State.cueRun_lightsGuarded_of_lit h rfl

/-! ## Frames heard -/

theorem State.received_lightsGuarded (p : Position) {deliver : State → State}
    (keep : ∀ x : State, x.lightsGuarded → (deliver x).lightsGuarded) : (s.received p deliver).lightsGuarded := by
  rcases s.received_cases p deliver with e | e | e <;> rw [e]
  · exact h
  · exact State.positionConflict_lightsGuarded (s := s.afterFrame) h
  · exact keep s.afterFrame h

theorem State.received_lightsGuarded_of_lit (p : Position) {deliver : State → State}
    (keep : ∀ x : State, (deliver x).lit = x.lit) : (s.received p deliver).lightsGuarded :=
  State.received_lightsGuarded h p fun x hx => State.lightsGuarded_of_lit hx (keep x)

theorem State.targeted_lightsGuarded (target : Byte) {deliver : State → State}
    (keep : ∀ x : State, x.lightsGuarded → (deliver x).lightsGuarded) : (s.targeted target deliver).lightsGuarded := by
  unfold State.targeted
  split
  · exact keep s h
  · exact h

theorem State.hearStandby_lightsGuarded : s.hearStandby.lightsGuarded := by
  unfold State.hearStandby
  split
  · exact State.enterStandby_lightsGuarded h
  · exact h

theorem State.hearGo_lightsGuarded (n t0 : Nat) : (s.hearGo n t0).lightsGuarded := by
  unfold State.hearGo
  split
  · exact State.cueGo_lightsGuarded (State.lightsGuarded_of_lit h (s.onTbu_lit _)) n
  · exact h

theorem State.hearStop_lightsGuarded (fade : Nat) : (s.hearStop fade).lightsGuarded := by
  unfold State.hearStop
  split
  · exact State.armedToIdle_lightsGuarded h
  · exact State.enterEnding_lightsGuarded h _
  · exact State.enterEnding_lightsGuarded h _
  · exact h

theorem State.hearStopAssert_lightsGuarded : s.hearStopAssert.lightsGuarded :=
  State.haltRequest_lightsGuarded (State.lightsGuarded_of_lit h (s.onTbu_lit _))

theorem State.hearClearHalt_lightsGuarded : s.hearClearHalt.lightsGuarded := by
  unfold State.hearClearHalt
  split
  · exact State.haltedToIdle_lightsGuarded h
  · exact h

theorem State.hearTrigger_lightsGuarded (n p : Nat) : (s.hearTrigger n p).lightsGuarded := by
  unfold State.hearTrigger
  split
  · exact State.cueTrigger_lightsGuarded h n p
  · exact h
end

/-! ## Commands -/

/-- A submerged fixture whose lens the water does not cover is dark (R83). -/
theorem State.dark_of_lightsGuarded {s : State} (h : s.lightsGuarded) {f : Fin 12} {n : Fin 48}
    (place : n.val / 4 = f.val) (submerged : (s.params.fixtures[f].present && s.params.fixtures[f].submerged) = true)
    (low : s.pt.level < s.params.fixtures[f].cover) : s.dimmingOutput n = 0 := by
  obtain ⟨level, covered, shown⟩ := State.lightsGuarded_iff.mp h
  have exposed : s.lu.exposed[f] = true := by
    rw [covered f submerged, level]
    exact decide_eq_true low
  rcases shown f n place with dark | value
  · exact dark
  · rw [State.dimmingOutput, value, exposed, outputValue, Bool.or_true, Bool.true_or, if_pos rfl]

theorem exec_lightsGuarded {c : Instr} {s t : State} (h : s.lightsGuarded) (e : exec c s = .next t) :
    t.lightsGuarded := by
  refine (Bool.eq_false_or_eq_true (boundary? c)).elim (fun b => exec_boundary_lightsGuarded b h e) fun boundary => ?_
  refine (Bool.eq_false_or_eq_true (standing? c)).elim
    (fun stands => State.lightsGuarded_of_lit h (exec_lit_of_standing stands e)) fun stands => ?_
  cases c <;> simp only [standing?, boundary?, reduceCtorEq] at stands boundary
  all_goals cases e
  case powerOn => exact s.powerUp_lightsGuarded _ _ _
  case configReadComplete =>
    split
    · exact s.takeConfig_lightsGuarded _
    · exact h
  case resetPinAssert =>
    split
    · exact State.resetPoint_lightsGuarded h _ _
    · exact h
  case resetPinRelease => exact State.lightsGuarded_of_lit h (State.lit_ite rfl)
  case resetStation =>
    exact State.received_lightsGuarded h _ fun _ hx => State.targeted_lightsGuarded hx _ fun _ hy =>
      State.lightsGuarded_of_lit (State.resetPoint_lightsGuarded hy .resetStation .reading) rfl
  case outputPair => exact State.lightsGuarded_of_lit h s.oscTick_lit
  case t0Reached =>
    split
    · exact State.takeT0_lightsGuarded h _
    · exact h
  case endActionDue =>
    split
    · exact State.takeEnd_lightsGuarded h _
    · exact h
  case wake => exact State.received_lightsGuarded_of_lit h _ fun _ => State.lit_ite rfl
  case hold | resume => exact State.received_lightsGuarded_of_lit h _ fun _ => State.lit_ite rfl
  case standby => exact State.received_lightsGuarded h _ fun _ => State.hearStandby_lightsGuarded
  case go => exact State.received_lightsGuarded h _ fun _ hx => State.hearGo_lightsGuarded hx _ _
  case stop => exact State.received_lightsGuarded h _ fun _ hx => State.hearStop_lightsGuarded hx _
  case stopAssert => exact State.received_lightsGuarded h _ fun _ => State.hearStopAssert_lightsGuarded
  case clearHalt => exact State.received_lightsGuarded h _ fun _ => State.hearClearHalt_lightsGuarded
  case trigger => exact State.received_lightsGuarded h _ fun _ hx => State.hearTrigger_lightsGuarded hx _ _
  case clearFaults => exact State.received_lightsGuarded_of_lit h _ fun _ => State.lit_ite rfl
  case beacon => exact State.received_lightsGuarded h _ fun _ hx => State.recordBeacon_lightsGuarded hx _ _ _
  case showSelect => exact State.received_lightsGuarded_of_lit h _ fun x => x.hearShowSelect_lit _
  case startClaim => exact State.received_lightsGuarded_of_lit h _ State.huPeerClaim_lit
  case segmentDefine => exact State.received_lightsGuarded_of_lit h _ fun x => x.intoIntake_lit _
  case pageData => exact State.received_lightsGuarded_of_lit h _ fun x => x.hearPageData_lit _ _
  case pageRequest => exact State.received_lightsGuarded_of_lit h _ fun x => x.hearPageRequest_lit _ _ _ _
  case statusReply => exact State.received_lightsGuarded_of_lit h _ fun _ => rfl
  case statusQueryGeneral | statusQueryPumps | statusQueryFixtures | statusQueryPeers | statusQueryMemory
      | statusQueryFaults =>
    exact State.received_lightsGuarded_of_lit h _ fun x => x.answerQuery_lit _ _ _ _
  case statusQueryUnknownSelector =>
    exact State.received_lightsGuarded_of_lit h _ fun x => x.countSelector_lit _ _
  case cueReadComplete =>
    unfold State.completion
    split
    · exact State.cueReadDone_lightsGuarded (State.lightsGuarded_of_lit h (State.onSmc_lit _ _)) _
    · exact h
  case walkComplete =>
    split
    · unfold State.completion
      split
      · exact State.walkDone_lightsGuarded (State.lightsGuarded_of_lit h (State.onSmc_lit _ _)) _ _
      · exact h
    · exact h
  case claimGoneOut =>
    split
    · exact State.lightsGuarded_of_lit h (State.huClaimOut_lit (s.onLiu _) _)
    · exact h
  case stopInputActive =>
    split
    · have active := State.lightsGuarded_of_lit h (s.onBiu_lit fun b => { b with stopActive := true })
      dsimp only
      split
      · exact State.lightsGuarded_of_lit (State.haltRequest_lightsGuarded active) (State.onLiu_lit _ _)
      · exact active
    · exact h

/-- Settles O56: each command keeps the condition, a step runs one, and under it an exposed fixture is dark. -/
theorem interlockHolds : Obligations.InterlockHolds := by
  refine ⟨fun s t h e => ?_, fun s f n h place submerged low => State.dark_of_lightsGuarded h place submerged low⟩
  unfold step at e
  split at e
  · cases e
    exact h
  · rename_i rest _
    exact exec_lightsGuarded (s := { s with pending := rest }) h e

end Sys2Proof.Machine
end

