-- ==== Sys2Proof/Proofs/Voices.lean ====
section
/-!
The voices (spec/05): the factor of a gain in tenths of a decibel (R99), what a START makes of its voice (R96), a gain
ramp and a stop fade after each of their steps (R99 to R101).
-/
namespace Sys2Proof.Machine

/-! ## The factor of a gain -/

/-- The bits below bit `k` complete `r` to the largest factor that qualifies, when `r` qualifies and `r + 2 ^ k` does
not. -/
theorem dbBits_spec (k r g : Nat) (fits : (2 * r - 1) ^ 200 * 10 ^ g ≤ 65536 ^ 200)
    (exceeds : 65536 ^ 200 < (2 * (r + 2 ^ k) - 1) ^ 200 * 10 ^ g) :
    (2 * dbBits k r g - 1) ^ 200 * 10 ^ g ≤ 65536 ^ 200 ∧ 65536 ^ 200 < (2 * dbBits k r g + 1) ^ 200 * 10 ^ g := by
  induction k generalizing r with
  | zero => exact ⟨fits, exceeds⟩
  | succ k ih =>
    have bit : r + 2 ^ (k + 1) = r + 2 ^ k + 2 ^ k := by ring
    unfold dbBits
    split
    · exact ih _ ‹_› (bit ▸ exceeds)
    · exact ih _ fits (Nat.lt_of_not_le ‹_›)

/-- The factor is rounded to the nearest (R99): 16 bits find it, since no factor of 2^16 or more qualifies. -/
theorem dbFactor_spec (g : Nat) : (2 * dbFactor g - 1) ^ 200 * 10 ^ g ≤ 65536 ^ 200 ∧
    65536 ^ 200 < (2 * dbFactor g + 1) ^ 200 * 10 ^ g := by
  refine dbBits_spec 16 0 g (by simp) ?_
  calc 65536 ^ 200 < (2 * (0 + 2 ^ 16) - 1) ^ 200 := Nat.pow_lt_pow_left (by decide) (by decide)
    _ ≤ (2 * (0 + 2 ^ 16) - 1) ^ 200 * 10 ^ g := Nat.le_mul_of_pos_right _ (Nat.pow_pos (by decide))

/-! ## START (R96) -/

/-- The voice that a START leaves: it plays `item` from `ts` at the factor `f`, without a ramp. -/
def Voice.started (x : Voice) (item : PrimeRecord) (f ts : Nat) : Voice :=
  { x with state := .playing, content := some { item := item, ts := ts }, prime := none,
           gain := f, rampStart := f, rampTarget := f, rampFrames := 0, rampElapsed := 0,
           resumeFading := none, envelope := .steady, dropAtTail := false }

@[simp] theorem Au.ask_voice (a : Au) (v w : VoiceId) (g : Nat) : (a.ask v g).voice w = a.voice w := by
  cases w <;> rfl

@[simp] theorem Au.onVoice_requests (a : Au) (v : VoiceId) (g : Voice → Voice) :
    (a.onVoice v g).requests = a.requests := by
  cases v <;> rfl

@[simp] theorem Au.onVoice_slots (a : Au) (v : VoiceId) (g : Voice → Voice) : (a.onVoice v g).slots = a.slots := by
  cases v <;> rfl

section
variable {a : Au} {v : VoiceId} {g s : Nat}

/-- A prime record that names the START's segment and sample becomes the content. -/
theorem Au.doStart_primed {r : PrimeRecord} (prime : (a.voice v).prime = some r) (segment : r.segment = g)
    (start : r.start = s) (gain ts : Nat) :
    a.doStart v g s gain ts = a.onVoice v fun x => x.started r (dbFactor gain) ts := by
  simp [Au.doStart, prime, segment, start, Option.filter, Voice.started]

/-- Without such a record the START asks anew. -/
theorem Au.doStart_unprimed (other : ∀ r, (a.voice v).prime = some r → r.segment ≠ g ∨ r.start ≠ s) (gain ts : Nat) :
    a.doStart v g s gain ts = (a.ask v g).onVoice v fun x =>
      x.started { segment := g, start := s, request := a.nextRequest } (dbFactor gain) ts := by
  have unheld : ((a.voice v).prime.filter fun p => p.segment == g && p.start == s) = none := by
    simpa [Option.filter_eq_none_iff, ← or_iff_not_imp_left, imp_iff_not_or] using other
  simp [Au.doStart, unheld, Voice.started]
end

/-! ## A ramp after each of its steps (R99) -/

/-- The voice `v` after `j` steps of a ramp of `n` frames toward `t`. -/
def Voice.ramped (v : Voice) (t n j : Nat) : Voice :=
  { v with rampStart := v.gain, rampTarget := t, rampFrames := n, rampElapsed := min j n,
           gain := lerp v.gain t (min j n) n }

theorem Voice.rampTo_eq_ramped (v : Voice) (t : Nat) {n : Nat} (frames : 0 < n) : v.rampTo t n = v.ramped t n 0 := by
  simp [Voice.rampTo, Voice.ramped, frames.ne']

theorem Voice.ramping_iff (v : Voice) : v.ramping = true ↔ v.rampElapsed < v.rampFrames := decide_eq_true_iff

theorem Voice.stepRamp_ramped (v : Voice) (t n j : Nat) : (v.ramped t n j).stepRamp = v.ramped t n (j + 1) := by
  rcases Nat.lt_or_ge j n with on | done
  · have ramping : (v.ramped t n j).ramping = true := by simpa [Voice.ramping_iff, Voice.ramped] using on
    rw [Voice.stepRamp, Voice.nextGain, ramping]
    simp [Voice.ramped, Nat.min_eq_left on.le, Nat.min_eq_left on]
  · have still : (v.ramped t n j).ramping = false := by simp [Voice.ramping, Voice.ramped, done]
    rw [Voice.stepRamp, still]
    simp [Voice.ramped, Nat.min_eq_right done, Nat.min_eq_right (Nat.le_succ_of_le done)]

theorem Voice.repeat_stepRamp (v : Voice) (t n j : Nat) :
    Nat.repeat Voice.stepRamp j (v.ramped t n 0) = v.ramped t n j := by
  induction j with
  | zero => rfl
  | succ j ih => rw [Nat.repeat, ih, Voice.stepRamp_ramped]

theorem Voice.ramped_gain (v : Voice) (t : Nat) {n j : Nat} (within_ : j ≤ n) :
    ((v.ramped t n j).gain : Int) = (v.gain : Int) + (((t : Int) - v.gain) * j).tdiv n := by
  rw [Voice.ramped, Nat.min_eq_left within_]
  exact lerp_cast within_

theorem Voice.ramped_done (v : Voice) (t : Nat) {n j : Nat} (frames : 0 < n) (reached : n ≤ j) :
    (v.ramped t n j).gain = t ∧ (v.ramped t n j).ramping = false := by
  simp [Voice.ramped, Nat.min_eq_right reached, lerp_whole frames, Voice.ramping]

/-! ## GAIN (R99) -/

theorem Voice.doGain_playing {v : Voice} (playing : v.state = .playing) (g n : Nat) :
    v.doGain g n = v.rampTo (dbFactor g) n := if_pos playing

/-! ## STOP_VOICE and the pass (R100, R101) -/

/-- At a pass the voice leaves its content: its fade or its content has ended. -/
def Voice.through (v : Voice) : Bool := (v.inFade && !v.ramping) || v.content.any (·.ended)

/-- Step 2 of a pass that is not handed as HELD. -/
theorem Voice.passStep_eq (v : Voice) : v.passStep false =
    { (if v.stepRamp.through then v.stepRamp.leave else v.stepRamp) with underrun := false } := rfl

theorem Voice.doStop_sounding {v : Voice} (on : v.state = .playing ∨ v.state = .fading) (n : Nat) :
    v.doStop n = v.fadeOut n := by
  rcases on with h | h <;> simp [Voice.doStop, h]

/-- The voice `v` after `j` passes of a stop fade of `n` frames that has not ended. -/
def Voice.fadedOut (v : Voice) (n j : Nat) : Voice :=
  { v.ramped 0 n j with state := .fading, underrun := decide (j = 0) && v.underrun }

theorem Voice.stepRamp_fadedOut (v : Voice) (n j : Nat) : (v.fadedOut n j).stepRamp =
    { v.ramped 0 n (j + 1) with state := .fading, underrun := decide (j = 0) && v.underrun } := by
  have step := v.stepRamp_ramped 0 n j
  unfold Voice.stepRamp at step ⊢
  split at step
  next ramping =>
    rw [if_pos (by exact ramping), ← step]
    rfl
  next still =>
    rw [if_neg (by exact still), ← step]
    rfl

/-- The voice `w` is what `v` is once it has left its content (R92). -/
structure Voice.Left (v w : Voice) : Prop where
  content : w.content = none
  prime : w.prime = v.prime
  state : w.state = if v.prime.isSome then .priming else .idle
  still : w.ramping = false

theorem Voice.left_leave (v : Voice) : v.Left v.leave where
  content := rfl
  prime := rfl
  state := rfl
  still := rfl

/-- Left content stays left. -/
theorem Voice.Left.passStep {v w : Voice} (h : v.Left w) : v.Left (w.passStep false) := by
  have still : w.stepRamp = w := by simp [Voice.stepRamp, h.still]
  have on : w.through = false := by
    cases prime : v.prime <;> simp [Voice.through, Voice.inFade, h.content, h.state, prime]
  rw [Voice.passStep_eq, still, on]
  exact ⟨h.content, h.prime, h.state, h.still⟩

section
variable {v : Voice} {n j : Nat} (on : v.state = .playing ∨ v.state = .fading)
  (unended : (v.content.any fun c => c.ended) = false)
include on unended

/-- Before its last step a stop fade goes on. -/
theorem Voice.repeat_passStep_fading (fading : j < n) :
    Nat.repeat (Voice.passStep false) j (v.doStop n) = v.fadedOut n j := by
  induction j with
  | zero => simp [Nat.repeat, Voice.doStop_sounding on, Voice.fadeOut, fading.ne', Voice.rampTo_eq_ramped v 0 fading,
      Voice.fadedOut, Voice.ramped]
  | succ j ih =>
    have goesOn : (v.fadedOut n j).stepRamp.through = false := by
      simpa [Voice.stepRamp_fadedOut, Voice.through, Voice.inFade, Voice.ramping, Voice.ramped, unended] using fading
    rw [Nat.repeat, ih (Nat.lt_of_succ_lt fading), Voice.passStep_eq, goesOn, Voice.stepRamp_fadedOut]
    simp [Voice.fadedOut]

/-- From its last step on the content is left. -/
theorem Voice.repeat_passStep_left (reached : n ≤ j) :
    v.Left (Nat.repeat (Voice.passStep false) j (v.doStop n)) := by
  induction j, reached using Nat.le_induction with
  | base =>
    cases n with
    | zero =>
      rw [Nat.repeat, Voice.doStop_sounding on]
      exact v.left_leave
    | succ n =>
      have ends : (v.fadedOut (n + 1) n).stepRamp.through = true := by
        simp [Voice.stepRamp_fadedOut, Voice.through, Voice.inFade, Voice.ramping, Voice.ramped]
      rw [Nat.repeat, Voice.repeat_passStep_fading on unended (Nat.lt_succ_self n), Voice.passStep_eq, ends,
        Voice.stepRamp_fadedOut]
      exact ⟨rfl, rfl, rfl, rfl⟩
  | succ j _ ih => exact ih.passStep
end

/-! ## The statement -/

/-- Settles O26: a START leaves `Voice.started`, with or without a prime record to take; each step of a ramp leaves
`Voice.ramped`; each pass of a stop fade leaves `Voice.fadedOut` up to the last, after which the content is left. -/
theorem voicesStartRampAndFade : Obligations.VoicesStartRampAndFade := by
  refine ⟨dbFactor_spec, fun a v g s gain ts => ?_, fun v g n j playing frames _ => ?_,
    fun v g n => ⟨fun playing => ?_, fun other => if_neg other⟩, fun v n j on unended => ⟨fun fading => ?_, fun reached => ?_⟩,
    fun v n => ⟨fun priming => ?_, fun idle => by simp [Voice.doStop, idle]⟩⟩
  · by_cases primed : ∃ r, (a.voice v).prime = some r ∧ r.segment = g ∧ r.start = s
    · obtain ⟨r, prime, segment, start⟩ := primed
      rw [Au.doStart_primed prime segment start]
      simp only [Au.onVoice_same]
      refine ⟨rfl, rfl, rfl, rfl, rfl, fun w ne => Au.onVoice_other a _ ne, { item := r, ts := ts }, rfl, segment, start,
        rfl, rfl, fun r' prime' _ _ => ?_, fun other => absurd (other r prime) (by simp [segment, start])⟩
      rw [prime, Option.some.injEq] at prime'
      exact ⟨prime', Au.onVoice_requests ..⟩
    · have other : ∀ r, (a.voice v).prime = some r → r.segment ≠ g ∨ r.start ≠ s := fun r prime =>
        not_and_or.mp fun both => primed ⟨r, prime, both⟩
      rw [Au.doStart_unprimed other]
      simp only [Au.onVoice_same]
      exact ⟨rfl, rfl, rfl, rfl, rfl, fun w ne => by rw [Au.onVoice_other _ _ ne, Au.ask_voice],
        { item := { segment := g, start := s, request := a.nextRequest }, ts := ts }, rfl, rfl, rfl, rfl, rfl,
        fun r prime segment start => absurd ⟨r, prime, segment, start⟩ primed,
        fun _ => ⟨rfl, rfl, Au.onVoice_requests ..⟩⟩
  · rw [Voice.doGain_playing playing, Voice.rampTo_eq_ramped v _ frames, Voice.repeat_stepRamp]
    exact ⟨v.ramped_gain _, v.ramped_done _ frames⟩
  · simp [Voice.doGain_playing playing, Voice.rampTo, Voice.ramping]
  · rw [Voice.repeat_passStep_fading on unended fading]
    refine ⟨rfl, rfl, ?_⟩
    simpa [Voice.fadedOut] using v.ramped_gain 0 fading.le
  · have left := Voice.repeat_passStep_left on unended reached
    exact ⟨left.content, left.prime, left.state⟩
  · simp [Voice.doStop, priming, Voice.leave]

end Sys2Proof.Machine
end

