-- ==== Sys2Proof/Proofs/Definitions.lean ====
section
/-!
Definition answers and the end of content (spec/05, R95, R97).
-/
namespace Sys2Proof.Machine

/-! ## The answer to one voice (R95) -/

section
variable {v : Voice} {p : PrimeRecord} {id : Nat}

/-- An audio segment's answer types the waiting prime record. -/
theorem Voice.answer_defined {e : DirEntry} (prime : v.prime = some p) (asked : p.request = id) (waits : p.kind = none)
    (audio : e.kind ≠ .cue) : v.answer id (some e) =
      ({ v with prime := some { p with kind := some e.kind, count := sampleCount e.kind e.length } }, none) := by
  simp [Voice.answer, prime, asked, waits, definitionFault, audio, PrimeRecord.define]

/-- The answer for an UNDEFINED segment removes it. -/
theorem Voice.answer_undefined (prime : v.prime = some p) (asked : p.request = id) (waits : p.kind = none) :
    v.answer id none =
      ({ v with prime := none, state := if v.state = .priming then .idle else v.state }, some .mapFault) := by
  simp [Voice.answer, prime, asked, waits, definitionFault]

/-- An answer that neither the prime record nor the content asked for is without effect. -/
theorem Voice.answer_unasked (prime : ∀ p, v.prime = some p → p.request ≠ id)
    (content : ∀ c, v.content = some c → c.item.request ≠ id) (e : Option DirEntry) : v.answer id e = (v, none) := by
  have noPrime : v.prime.any (fun r => r.request == id && r.kind.isNone) = false := by
    cases record : v.prime with
    | none => rfl
    | some r => simp [prime r record]
  have noContent : v.content.any (fun c => c.item.request == id && c.item.kind.isNone) = false := by
    cases held : v.content with
    | none => rfl
    | some c => simp [content c held]
  simp [Voice.answer, noPrime, noContent]
end

/-! ## The answer to the oldest request -/

/-- The audio unit with its oldest request answered, the voice concerned being `v` then. -/
def Au.answered (a : Au) (q : DefRequest) (rest : List DefRequest) (v : Voice) : Au :=
  { a with requests := rest }.onVoice q.voice fun _ => v

section
variable {a : Au} {q : DefRequest} {rest : List DefRequest}

@[simp] theorem Au.answered_same (v : Voice) : (a.answered q rest v).voice q.voice = v := by simp [Au.answered]

theorem Au.answered_other {w : VoiceId} (ne : w ≠ q.voice) (v : Voice) :
    (a.answered q rest v).voice w = a.voice w := by
  rw [Au.answered, Au.onVoice_other _ _ ne]
  cases w <;> rfl

@[simp] theorem Au.answered_requests (v : Voice) : (a.answered q rest v).requests = rest := by simp [Au.answered]

/-- Nothing but the request list is left of an answer that gives the voice back. -/
theorem Au.answered_self : a.answered q rest (a.voice q.voice) = { a with requests := rest } := by
  obtain ⟨id, v, g⟩ := q
  cases v <;> rfl
end

theorem exec_definitionAnswer {s : State} (live : s.live = true) :
    exec .definitionAnswer s = .next s.answerDefinition := congrArg Host.Outcome.next (if_pos live)

section
variable {s : State} {q : DefRequest} {rest : List DefRequest} {v : Voice}
  (live : s.live = true) (oldest : s.au.requests = q :: rest)
include live oldest

theorem exec_definitionAnswer_applied (answer : (s.au.voice q.voice).answer q.id (s.cm.entry q.segment) = (v, none)) :
    exec .definitionAnswer s = .next (s.onAu fun a => a.answered q rest v) := by
  rw [exec_definitionAnswer live]
  simp [State.answerDefinition, oldest, answer, Au.answered]

theorem exec_definitionAnswer_faulted {k : FaultKind}
    (answer : (s.au.voice q.voice).answer q.id (s.cm.entry q.segment) = (v, some k)) :
    exec .definitionAnswer s =
      .next ((s.onAu fun a => a.answered q rest v).raise k (some (.segment q.segment))) := by
  rw [exec_definitionAnswer live]
  simp [State.answerDefinition, oldest, answer, Au.answered]
end

/-! ## The end of content (R97) -/

/-- Content at or past its sample count is marked while its position moves. -/
theorem Voice.markEnd_ended {v : Voice} {c : Content} {tau : Nat} (content : v.content = some c)
    (moving : v.state ≠ .paused) (known : c.item.kind.isSome = true)
    (past : c.item.count ≤ c.item.start + (tau - c.ts)) :
    v.markEnd tau = { v with content := some { c with ended := true } } := by
  have ended : c.endedAt (c.reached tau) = true := by simp [Content.endedAt, Content.reached, known, past]
  simp [Voice.markEnd, Voice.advancing, moving, content, Content.markEnd, ended]

/-- Settles O27: the three answers of a voice, and the mark of content that has ended. -/
theorem definitionsAndEndsApplied : Obligations.DefinitionsAndEndsApplied := by
  refine ⟨fun s q rest p e live oldest prime asked waits entry audio => ?_,
    fun s q rest p live oldest prime asked waits entry => ?_,
    fun s q rest live oldest noPrime noContent => ?_, fun s v c content moving known past => ?_⟩
  · have answer := entry ▸ Voice.answer_defined prime asked waits audio
    refine ⟨_, exec_definitionAnswer_applied live oldest answer, ?_, by simp, fun w ne => Au.answered_other ne _,
      by simp, rfl⟩
    cases e.kind <;> simp [sampleCount, channelCount]
  · have answer := entry ▸ Voice.answer_undefined prime asked waits
    refine ⟨_, exec_definitionAnswer_faulted live oldest answer, by simp, fun priming => by simp [priming], by simp,
      State.faulted_raise .., rfl⟩
  · rw [exec_definitionAnswer_applied live oldest (Voice.answer_unasked noPrime noContent _), State.onAu,
      Au.answered_self]
  · refine ⟨_, rfl, ?_, fun w ne => Au.onVoice_other _ _ ne, Au.onVoice_slots .., rfl⟩
    exact (Au.onVoice_same ..).trans (Voice.markEnd_ended content moving known past)

end Sys2Proof.Machine
end

