-- ==== Sys2Proof/Proofs/Ledger.lean ====
section
/-!
The ledger of the content map (spec/06, R113, R119, R125): directory, page tables, free page set and the places that fill
records keep, and the ways in which the rules of spec/06 change it. Each way keeps the tables' canonical form and every
physical page counted once.
-/
namespace Sys2Proof.Machine

/-! ## Tables as lists -/

section
variable {α : Type} {t : List (Nat × α)} {lo : Option Nat}

theorem Table.risesFrom_cons {k : Nat} {v : α} : Table.risesFrom lo ((k, v) :: t) = true ↔
    (∀ l, lo = some l → l < k) ∧ Table.risesFrom (some k) t = true := by
  cases lo <;> simp [Table.risesFrom]

theorem Table.risesFrom_weaken {k : Nat} (above : ∀ l, lo = some l → l ≤ k) (h : Table.risesFrom (some k) t = true) :
    Table.risesFrom lo t = true := by
  cases lo with
  | none => exact Table.risesFrom_none h
  | some l => exact Table.risesFrom_lower h (above l rfl)

theorem Table.risesFrom_filter (p : Nat × α → Bool) (h : Table.risesFrom lo t = true) :
    Table.risesFrom lo (t.filter p) = true := by
  induction t generalizing lo with
  | nil => exact h
  | cons e rest ih =>
    obtain ⟨above, tail⟩ := Table.risesFrom_cons.mp h
    rw [List.filter_cons]
    split
    · exact Table.risesFrom_cons.mpr ⟨above, ih tail⟩
    · exact ih (Table.risesFrom_weaken (fun l e => Nat.le_of_lt (above l e)) tail)

theorem Table.mem_of_get? {k : Nat} {v : α} (h : Table.get? t k = some v) : (k, v) ∈ t := by
  induction t with
  | nil => cases h
  | cons e rest ih =>
    simp only [Table.get?] at h
    split at h
    · rename_i same
      cases h
      exact same ▸ .head _
    · split at h
      · cases h
      · exact .tail _ (ih h)

/-- In a table whose keys rise a key is dropped by leaving out its entry. -/
theorem Table.drop_eq_filter (h : Table.risesFrom lo t = true) (k : Nat) :
    Table.drop t k = t.filter fun e => e.1 != k := by
  induction t generalizing lo with
  | nil => rfl
  | cons e rest ih =>
    have tail := Table.risesFrom_tail h
    have later : ∀ a ≤ e.1, rest.filter (fun x => x.1 != a) = rest := fun a le =>
      List.filter_eq_self.mpr fun x hx => by
        have := Table.risesFrom_mem tail hx
        simp only [bne_iff_ne]
        omega
    simp only [Table.drop, List.filter_cons]
    split
    · rename_i below
      rw [later k (Nat.le_of_lt below), if_pos (by simp only [bne_iff_ne]; omega)]
    · split
      · rename_i same
        rw [later k (Nat.le_of_eq same), if_neg (by simp [same])]
      · rw [if_pos (by simp only [bne_iff_ne]; omega), ih tail]

/-- What is put stands before what the key's drop leaves. -/
theorem Table.put_perm (h : Table.risesFrom lo t = true) (k : Nat) (v : α) :
    (Table.put t k v).Perm ((k, v) :: Table.drop t k) := by
  induction t generalizing lo with
  | nil => exact .refl _
  | cons e rest ih =>
    simp only [Table.put, Table.drop]
    split
    · exact .refl _
    · split
      · exact .refl _
      · exact ((ih (Table.risesFrom_tail h)).cons e).trans (.swap ..)

/-- What a key holds stands before what its drop leaves. -/
theorem Table.perm_drop {k : Nat} {v : α} (held : Table.get? t k = some v) : t.Perm ((k, v) :: Table.drop t k) := by
  induction t with
  | nil => cases held
  | cons e rest ih =>
    simp only [Table.get?, Table.drop] at held ⊢
    split at held
    · rename_i same
      cases held
      rw [if_neg (by omega), if_pos same.symm, ← same]
    · split at held
      · cases held
      · rw [if_neg (by omega), if_neg (by omega)]
        exact ((ih held).cons e).trans (.swap ..)

theorem Table.drop_of_none {k : Nat} (none : Table.get? t k = none) : Table.drop t k = t := by
  induction t with
  | nil => rfl
  | cons e rest ih =>
    simp only [Table.get?, Table.drop] at none ⊢
    split at none
    · cases none
    · split at none
      · rw [if_pos ‹_›]
      · rw [if_neg (by omega), if_neg (by omega), ih none]

theorem Table.mem_of_mem_put {k : Nat} {v : α} {e : Nat × α} (he : e ∈ Table.put t k v) (ne : e.1 ≠ k) : e ∈ t :=
  (Table.mem_put he).resolve_left fun same => ne (congrArg Prod.fst same)

theorem Table.keys_nodup (h : Table.risesFrom lo t = true) : (t.map fun e => e.1).Nodup := by
  induction t generalizing lo with
  | nil => exact List.nodup_nil
  | cons e t ih =>
    have tail := Table.risesFrom_tail h
    refine List.nodup_cons.mpr ⟨fun again => ?_, ih tail⟩
    obtain ⟨e', he', same⟩ := List.mem_map.mp again
    exact Nat.ne_of_gt (Table.risesFrom_mem tail he') same

/-- The keys of some entries dropped one after another leave the other entries. -/
theorem Table.foldl_drop_eq_filter (h : Table.risesFrom lo t = true) (ks : List Nat) :
    ks.foldl Table.drop t = t.filter fun e => !ks.contains e.1 := by
  induction ks generalizing t with
  | nil => simp
  | cons k ks ih =>
    rw [List.foldl_cons, ih (Table.risesFrom_drop k h), Table.drop_eq_filter h, List.filter_filter]
    refine List.filter_congr fun e _ => ?_
    rw [List.contains_cons, Bool.not_or, Bool.and_comm]
    rfl

theorem Table.dropAll_eq_filter (h : Table.risesFrom lo t = true) (p : Nat × α → Bool) :
    ((t.filter p).map fun e => e.1).foldl Table.drop t = t.filter fun e => !p e := by
  rw [Table.foldl_drop_eq_filter h]
  refine List.filter_congr fun e he => congrArg not ?_
  rw [Bool.eq_iff_iff, List.contains_iff_mem]
  constructor
  · intro among
    obtain ⟨x, hx, same⟩ := List.mem_map.mp among
    obtain ⟨mem, px⟩ := List.mem_filter.mp hx
    exact List.inj_on_of_nodup_map (Table.keys_nodup h) mem he same ▸ px
  · exact fun pe => List.mem_map.mpr ⟨e, List.mem_filter.mpr ⟨he, pe⟩, rfl⟩
end

/-! ## The physical pages held (R119) -/

/-- The physical pages that the FILLING and PRESENT entries of a page table hold. -/
def heldIn (t : List (Nat × Pte)) : List Nat := (t.filter fun e => e.2.holdsPage).map fun e => e.2.phys

section
variable {t t' : List (Nat × Pte)}

theorem heldIn_perm (h : t.Perm t') : (heldIn t).Perm (heldIn t') := (h.filter _).map _

theorem heldIn_cons_held {k : Nat} {e : Pte} (h : e.holdsPage = true) : heldIn ((k, e) :: t) = e.phys :: heldIn t := by
  simp [heldIn, h]

theorem heldIn_cons_empty {k : Nat} {e : Pte} (h : e.holdsPage = false) : heldIn ((k, e) :: t) = heldIn t := by
  simp [heldIn, h]

/-- The entries apart from some leave the pages that those do not hold. -/
theorem diff_perm_heldIn {taken : List Nat} (h : taken.Perm (heldIn t)) (p : Nat × Pte → Bool) :
    (taken.diff (heldIn (t.filter p))).Perm (heldIn (t.filter fun e => !p e)) := by
  have apart : taken.Perm (heldIn (t.filter p) ++ heldIn (t.filter fun e => !p e)) := by
    refine h.trans ((heldIn_perm (List.filter_append_perm p t).symm).trans (.of_eq ?_))
    simp [heldIn]
  refine (apart.diff_right _).trans ?_
  rw [← Multiset.coe_eq_coe, ← Multiset.coe_sub, ← Multiset.coe_add, add_tsub_cancel_left]
end

/-- Pages given back one after another leave the rest of the list. -/
theorem foldl_erase_eq_diff (l : List (Nat × Pte)) (taken : List Nat) :
    l.foldl (fun t e => t.erase e.2.phys) taken = taken.diff (l.map fun e => e.2.phys) := by
  rw [List.diff_eq_foldl, List.foldl_map]

/-! ## The free page set (R119) -/

theorem lowestNotIn_not_mem {n : Nat} {l : List Nat} (sorted : l.Pairwise (· < ·)) (above : ∀ x ∈ l, n ≤ x) :
    n ≤ lowestNotIn n l ∧ lowestNotIn n l ∉ l := by
  induction l generalizing n with
  | nil => exact ⟨Nat.le_refl _, List.not_mem_nil⟩
  | cons x l ih =>
    obtain ⟨later, tail⟩ := List.pairwise_cons.mp sorted
    unfold lowestNotIn
    split
    · rename_i same
      obtain ⟨le, free⟩ := ih (n := n + 1) tail fun y hy => by have := later y hy; omega
      refine ⟨Nat.le_of_succ_le le, fun again => ?_⟩
      rcases List.mem_cons.mp again with e | mem
      · omega
      · exact free mem
    · rename_i ne
      have := above x (.head _)
      refine ⟨Nat.le_refl _, fun again => ?_⟩
      rcases List.mem_cons.mp again with e | mem
      · exact ne e.symm
      · have := later n mem
        omega

theorem insertNat_perm {x : Nat} {l : List Nat} (new : x ∉ l) : (insertNat x l).Perm (x :: l) := by
  induction l with
  | nil => exact .refl _
  | cons y l ih =>
    unfold insertNat
    split
    · exact .refl _
    · rename_i ne
      obtain ⟨apart, later⟩ := List.ne_and_not_mem_of_not_mem_cons new
      rw [if_neg apart]
      exact ((ih later).cons y).trans (.swap ..)

/-! ## The ledger -/

/-- What a fill record says of where its page stands (R125). -/
structure FillPlace where
  id : Nat
  segment : Nat
  page : Nat
  phys : Nat

/-- The key of the record's page. -/
def FillPlace.key (f : FillPlace) : Nat := pageKey f.segment f.page

def Fill.place (f : Fill) : FillPlace := { id := f.id, segment := f.segment, page := f.page, phys := f.phys }

/-- The part of the content map that the conservation of pages is about. -/
structure Ledger where
  dir : List (Nat × DirEntry)
  pages : List (Nat × Pte)
  taken : List Nat
  fills : List FillPlace
  nextId : Nat

def Cm.ledger (c : Cm) : Ledger :=
  { dir := c.dir, pages := c.pages, taken := c.taken, fills := c.fills.map Fill.place, nextId := c.nextId }

/-- The fill records that the release of segment `g` leaves: each is freed by its number (R122). -/
def Ledger.fillsWithout (l : Ledger) (g : Nat) : List FillPlace :=
  l.fills.filter fun f => (l.fills.filter fun x => x.segment == g).all fun x => f.id != x.id

/-- The ways in which a rule of spec/06 changes the ledger. -/
inductive Ledger.Change : Ledger → Ledger → Prop
  /-- a number given out -/
  | numbered (l : Ledger) {n : Nat} (later : l.nextId ≤ n) : Change l { l with nextId := n }
  /-- a fill opened on the lowest free physical page, for a page of a DEFINED segment that holds none (R125, R127) -/
  | opened (l : Ledger) {g q : Nat} {e : DirEntry} (entry : Table.get? l.dir g = some e) (used : 16384 * q < e.length)
      (empty : ∀ x, Table.get? l.pages (pageKey g q) = some x → x.state = .absent ∨ x.state = .unavailable)
      (free : lowestNotIn 4 l.taken ≤ 8191) :
      Change l { l with
        pages := Table.put l.pages (pageKey g q) { state := .filling, phys := lowestNotIn 4 l.taken }
        taken := insertNat (lowestNotIn 4 l.taken) l.taken
        fills := l.fills ++ [{ id := l.nextId, segment := g, page := q, phys := lowestNotIn 4 l.taken }]
        nextId := l.nextId + 1 }
  /-- a full page PRESENT (R126) -/
  | completed (l : Ledger) {f : FillPlace} (record : f ∈ l.fills) :
      Change l { l with
        pages := Table.put l.pages f.key { state := .present, phys := f.phys }
        fills := l.fills.filter fun x => x.id != f.id }
  /-- a fill given up, its page UNAVAILABLE (R129) -/
  | abandoned (l : Ledger) {f : FillPlace} (record : f ∈ l.fills) :
      Change l { l with
        pages := Table.put l.pages f.key { state := .unavailable, phys := 0 }
        taken := l.taken.erase f.phys
        fills := l.fills.filter fun x => x.id != f.id }
  /-- a segment released (R122) -/
  | released (l : Ledger) (g : Nat) :
      Change l { l with
        dir := Table.drop l.dir g
        pages := l.pages.filter fun e => e.1 / 64 != g
        taken := l.taken.diff (heldIn (l.pages.filter fun e => e.1 / 64 == g))
        fills := l.fillsWithout g }
  /-- a segment DEFINED (R124) -/
  | defined (l : Ledger) (g : Nat) {e : DirEntry} (length : e.length ≤ 1048576) :
      Change l { l with dir := Table.put l.dir g e }
  /-- a warm reset: every FILLING page ABSENT (R135) -/
  | warmed (l : Ledger) :
      Change l { l with
        pages := ((l.pages.filter fun e => e.2.state == .filling).map fun e => e.1).foldl Table.drop l.pages
        taken := (l.pages.filter fun e => e.2.state == .filling).foldl (fun t e => t.erase e.2.phys) l.taken
        fills := [] }
  /-- a power-on: nothing defined, every page free (R135) -/
  | emptied (l : Ledger) (n : Nat) : Change l { dir := [], pages := [], taken := [], fills := [], nextId := n }

/-! ## The canonical form of the tables -/

/-- Directory and page tables in canonical form. -/
def Ledger.Canonical (l : Ledger) : Prop := Table.risesFrom none l.dir = true ∧ Table.risesFrom none l.pages = true

theorem Table.risesFrom_put_none {α : Type} {t : List (Nat × α)} (h : Table.risesFrom none t = true) (k : Nat) (v : α) :
    Table.risesFrom none (Table.put t k v) = true := Table.risesFrom_put k v h nofun

theorem Ledger.Change.canonical {l l' : Ledger} (change : l.Change l') (h : l.Canonical) : l'.Canonical := by
  obtain ⟨dir, pages⟩ := h
  cases change with
  | numbered => exact ⟨dir, pages⟩
  | opened => exact ⟨dir, Table.risesFrom_put_none pages _ _⟩
  | completed => exact ⟨dir, Table.risesFrom_put_none pages _ _⟩
  | abandoned => exact ⟨dir, Table.risesFrom_put_none pages _ _⟩
  | released g => exact ⟨Table.risesFrom_drop g dir, Table.risesFrom_filter _ pages⟩
  | defined => exact ⟨Table.risesFrom_put_none dir _ _, pages⟩
  | warmed =>
    refine ⟨dir, ?_⟩
    show Table.risesFrom none (List.foldl _ _ _) = true
    rw [Table.dropAll_eq_filter pages]
    exact Table.risesFrom_filter _ pages
  | emptied => exact ⟨rfl, rfl⟩

/-! ## The conservation of pages (R119, R125) -/

/-- `State.pagesConserved` of the ledger. -/
structure Ledger.Conserved (l : Ledger) : Prop where
  held : l.taken.Perm (heldIn l.pages)
  sorted : l.taken.Pairwise (· < ·)
  range : ∀ p ∈ l.taken, 4 ≤ p ∧ p ≤ 8191
  rises : Table.risesFrom none l.pages = true
  lengths : ∀ e ∈ l.dir, e.2.length ≤ 1048576
  filling : ∀ f ∈ l.fills, f.page < 64 ∧ f.id < l.nextId ∧
    Table.get? l.pages f.key = some { state := .filling, phys := f.phys }
  recorded : ∀ e ∈ l.pages, e.2.state = .filling → ∃ f ∈ l.fills, f.key = e.1
  keys : (l.fills.map FillPlace.key).Nodup
  ids : (l.fills.map FillPlace.id).Nodup

theorem State.pagesConserved_iff (s : State) : s.pagesConserved ↔ s.cm.ledger.Conserved := by
  have mapped : ∀ P : FillPlace → Prop, (∀ f ∈ s.cm.ledger.fills, P f) ↔ ∀ f ∈ s.cm.fills, P f.place := fun P =>
    List.forall_mem_map
  have found : ∀ P : FillPlace → Prop, (∃ f ∈ s.cm.ledger.fills, P f) ↔ ∃ f ∈ s.cm.fills, P f.place := fun P =>
    by simp [Cm.ledger]
  have keys : s.cm.ledger.fills.map FillPlace.key = s.cm.fills.map fun f => pageKey f.segment f.page :=
    List.map_map
  have ids : s.cm.ledger.fills.map FillPlace.id = s.cm.fills.map fun f => f.id := List.map_map
  constructor
  · rintro ⟨held, sorted, range, rises, lengths, filling, recorded, key, id⟩
    exact ⟨held, sorted, range, rises, lengths, (mapped _).mpr filling,
      fun e he state => (found _).mpr (recorded e he state), keys ▸ key, ids ▸ id⟩
  · rintro ⟨held, sorted, range, rises, lengths, filling, recorded, key, id⟩
    exact ⟨held, sorted, range, rises, lengths, (mapped _).mp filling,
      fun e he state => (found _).mp (recorded e he state), keys ▸ key, ids ▸ id⟩

namespace Ledger.Conserved
variable {l : Ledger} (h : l.Conserved)
include h

theorem same_of_id {f x : FillPlace} (hf : f ∈ l.fills) (hx : x ∈ l.fills) (e : f.id = x.id) : f = x :=
  List.inj_on_of_nodup_map h.ids hf hx e

theorem same_of_key {f x : FillPlace} (hf : f ∈ l.fills) (hx : x ∈ l.fills) (e : f.key = x.key) : f = x :=
  List.inj_on_of_nodup_map h.keys hf hx e

/-- The segment of a record is that of its page's entry. -/
theorem segment_of_key {f : FillPlace} (hf : f ∈ l.fills) : f.key / 64 = f.segment := by
  obtain ⟨page, -, -⟩ := h.filling f hf
  unfold FillPlace.key pageKey
  omega

theorem lowestFree_new : 4 ≤ lowestNotIn 4 l.taken ∧ lowestNotIn 4 l.taken ∉ l.taken :=
  lowestNotIn_not_mem h.sorted fun x hx => (h.range x hx).1

/-- What changes the free page set by pages given back keeps it in order. -/
theorem ofSublist {pages : List (Nat × Pte)} {taken : List Nat} {fills : List FillPlace} {dir : List (Nat × DirEntry)}
    (fewer : taken.Sublist l.taken) (held : taken.Perm (heldIn pages)) (rises : Table.risesFrom none pages = true)
    (lengths : ∀ e ∈ dir, e.2.length ≤ 1048576) (sub : fills.Sublist l.fills)
    (filling : ∀ f ∈ fills, Table.get? pages f.key = some { state := .filling, phys := f.phys })
    (recorded : ∀ e ∈ pages, e.2.state = .filling → ∃ f ∈ fills, f.key = e.1) :
    Ledger.Conserved { l with dir := dir, pages := pages, taken := taken, fills := fills } where
  held := held
  sorted := h.sorted.sublist fewer
  range p hp := h.range p (fewer.subset hp)
  rises := rises
  lengths := lengths
  filling f hf := by
    obtain ⟨page, id, -⟩ := h.filling f (sub.subset hf)
    exact ⟨page, id, filling f hf⟩
  recorded := recorded
  keys := h.keys.sublist (sub.map _)
  ids := h.ids.sublist (sub.map _)

theorem opened {g q : Nat} {e : DirEntry} (entry : Table.get? l.dir g = some e) (used : 16384 * q < e.length)
    (empty : ∀ x, Table.get? l.pages (pageKey g q) = some x → x.state = .absent ∨ x.state = .unavailable)
    (free : lowestNotIn 4 l.taken ≤ 8191) :
    Ledger.Conserved { l with
      pages := Table.put l.pages (pageKey g q) { state := .filling, phys := lowestNotIn 4 l.taken }
      taken := insertNat (lowestNotIn 4 l.taken) l.taken
      fills := l.fills ++ [{ id := l.nextId, segment := g, page := q, phys := lowestNotIn 4 l.taken }]
      nextId := l.nextId + 1 } := by
  obtain ⟨low, new⟩ := h.lowestFree_new
  have page : q < 64 := by
    have := h.lengths _ (Table.mem_of_get? entry)
    dsimp only at this
    omega
  have others : ∀ f ∈ l.fills, f.key ≠ pageKey g q := by
    intro f hf e
    obtain ⟨-, -, entry⟩ := h.filling f hf
    rcases empty _ (e ▸ entry) with none | none <;> cases none
  have rest : (heldIn l.pages).Perm (heldIn (Table.drop l.pages (pageKey g q))) := by
    cases found : Table.get? l.pages (pageKey g q) with
    | none => rw [Table.drop_of_none found]
    | some x =>
      refine (heldIn_perm (Table.perm_drop found)).trans (.of_eq (heldIn_cons_empty ?_))
      rcases empty x found with none | none <;> simp [Pte.holdsPage, none]
  refine
    { held := ?_
      sorted := insertNat_sorted h.sorted _
      range := fun p hp => ?_
      rises := Table.risesFrom_put_none h.rises _ _
      lengths := h.lengths
      filling := fun f hf => ?_
      recorded := fun x hx state => ?_
      keys := ?_
      ids := ?_ }
  · refine (insertNat_perm new).trans (((h.held.trans rest).cons _).trans ?_)
    refine (List.Perm.of_eq ?_).trans (heldIn_perm (Table.put_perm h.rises _ _)).symm
    exact (heldIn_cons_held (e := ⟨.filling, _⟩) rfl).symm
  · rcases (mem_insertNat _ _ _).mp hp with rfl | hp
    · exact ⟨low, free⟩
    · exact h.range p hp
  · rcases List.mem_append.mp hf with old | last
    · obtain ⟨page, id, entry⟩ := h.filling f old
      exact ⟨page, Nat.lt_succ_of_lt id, (Table.get?_put_other _ _ (others f old)).trans entry⟩
    · rw [List.mem_singleton.mp last]
      exact ⟨page, Nat.lt_succ_self _, Table.get?_put_same ..⟩
  · by_cases same : x.1 = pageKey g q
    · exact ⟨_, List.mem_append_right _ (.head _), same.symm⟩
    · obtain ⟨f, hf, key⟩ := h.recorded x (Table.mem_of_mem_put hx same) state
      exact ⟨f, List.mem_append_left _ hf, key⟩
  · rw [List.map_append]
    refine List.nodup_append.mpr ⟨h.keys, List.nodup_singleton _, fun a ha b hb => ?_⟩
    obtain ⟨f, hf, rfl⟩ := List.mem_map.mp ha
    rw [List.mem_singleton.mp hb]
    exact others f hf
  · rw [List.map_append]
    refine List.nodup_append.mpr ⟨h.ids, List.nodup_singleton _, fun a ha b hb => ?_⟩
    obtain ⟨f, hf, rfl⟩ := List.mem_map.mp ha
    obtain ⟨-, id, -⟩ := h.filling f hf
    rw [List.mem_singleton.mp hb]
    exact Nat.ne_of_lt id

/-- A record closed, its page with an entry that is not FILLING. -/
theorem closed {f : FillPlace} (record : f ∈ l.fills) {v : Pte} (other : v.state ≠ .filling) {taken : List Nat}
    (fewer : taken.Sublist l.taken) (held : taken.Perm (heldIn ((f.key, v) :: Table.drop l.pages f.key))) :
    Ledger.Conserved { l with
      pages := Table.put l.pages f.key v, taken := taken, fills := l.fills.filter fun x => x.id != f.id } := by
  refine h.ofSublist fewer (held.trans (heldIn_perm (Table.put_perm h.rises _ _)).symm)
    (Table.risesFrom_put_none h.rises _ _) h.lengths List.filter_sublist (fun x hx => ?_) fun e he state => ?_
  · obtain ⟨mem, ne⟩ := List.mem_filter.mp hx
    obtain ⟨-, -, entry⟩ := h.filling x mem
    have apart : x.key ≠ f.key := fun e => by simp [h.same_of_key mem record e] at ne
    exact (Table.get?_put_other _ _ apart).trans entry
  · have ne : e.1 ≠ f.key := fun same => by
      rcases Table.mem_put he with rfl | mem
      · exact other state
      · have put := (Table.get?_eq_some_iff (Table.risesFrom_put_none h.rises f.key v) e.1 e.2).mpr he
        rw [same, Table.get?_put_same] at put
        exact other (Option.some.inj put ▸ state)
    obtain ⟨x, hx, key⟩ := h.recorded e (Table.mem_of_mem_put he ne) state
    refine ⟨x, List.mem_filter.mpr ⟨hx, ?_⟩, key⟩
    simp only [bne_iff_ne]
    exact fun same => ne (key ▸ congrArg FillPlace.key (h.same_of_id hx record same))

/-- The page of a record and those that the other entries hold. -/
theorem held_of_record {f : FillPlace} (record : f ∈ l.fills) :
    l.taken.Perm (f.phys :: heldIn (Table.drop l.pages f.key)) := by
  obtain ⟨-, -, entry⟩ := h.filling f record
  exact h.held.trans ((heldIn_perm (Table.perm_drop entry)).trans (.of_eq (heldIn_cons_held rfl)))

theorem completed {f : FillPlace} (record : f ∈ l.fills) :
    Ledger.Conserved { l with
      pages := Table.put l.pages f.key { state := .present, phys := f.phys }
      fills := l.fills.filter fun x => x.id != f.id } :=
  h.closed record (v := ⟨.present, f.phys⟩) nofun (.refl _)
    ((h.held_of_record record).trans (.of_eq (heldIn_cons_held (e := ⟨.present, f.phys⟩) rfl).symm))

theorem abandoned {f : FillPlace} (record : f ∈ l.fills) :
    Ledger.Conserved { l with
      pages := Table.put l.pages f.key { state := .unavailable, phys := 0 }
      taken := l.taken.erase f.phys
      fills := l.fills.filter fun x => x.id != f.id } := by
  refine h.closed record (v := ⟨.unavailable, 0⟩) nofun List.erase_sublist (((h.held_of_record record).erase f.phys).trans (.of_eq ?_))
  rw [List.erase_cons_head, heldIn_cons_empty rfl]

theorem released (g : Nat) :
    Ledger.Conserved { l with
      dir := Table.drop l.dir g
      pages := l.pages.filter fun e => e.1 / 64 != g
      taken := l.taken.diff (heldIn (l.pages.filter fun e => e.1 / 64 == g))
      fills := l.fillsWithout g } := by
  have rises := Table.risesFrom_filter (fun e => e.1 / 64 != g) h.rises
  refine h.ofSublist (List.diff_sublist ..) (diff_perm_heldIn h.held _) rises
    (fun e he => h.lengths e (Table.mem_drop he)) List.filter_sublist (fun f hf => ?_) fun e he state => ?_
  · obtain ⟨mem, kept⟩ := List.mem_filter.mp hf
    obtain ⟨-, -, entry⟩ := h.filling f mem
    have other : f.segment ≠ g := fun same => by
      have := List.all_eq_true.mp kept f (List.mem_filter.mpr ⟨mem, by simp [same]⟩)
      simp at this
    refine (Table.get?_eq_some_iff rises _ _).mpr (List.mem_filter.mpr ⟨Table.mem_of_get? entry, ?_⟩)
    simpa [h.segment_of_key mem] using other
  · obtain ⟨mem, other⟩ := List.mem_filter.mp he
    obtain ⟨f, hf, key⟩ := h.recorded e mem state
    refine ⟨f, List.mem_filter.mpr ⟨hf, List.all_eq_true.mpr fun x hx => ?_⟩, key⟩
    obtain ⟨memx, seg⟩ := List.mem_filter.mp hx
    simp only [bne_iff_ne, beq_iff_eq] at other seg ⊢
    intro same
    rw [← key, h.segment_of_key hf, h.same_of_id hf memx same] at other
    exact other seg

theorem warmed :
    Ledger.Conserved { l with
      pages := ((l.pages.filter fun e => e.2.state == .filling).map fun e => e.1).foldl Table.drop l.pages
      taken := (l.pages.filter fun e => e.2.state == .filling).foldl (fun t e => t.erase e.2.phys) l.taken
      fills := [] } := by
  have held : heldIn (l.pages.filter fun e => e.2.state == .filling) =
      (l.pages.filter fun e => e.2.state == .filling).map fun e => e.2.phys := by
    refine congrArg (List.map _) (List.filter_eq_self.mpr fun e he => ?_)
    obtain ⟨-, filling⟩ := List.mem_filter.mp he
    simp [Pte.holdsPage, filling]
  rw [foldl_erase_eq_diff, Table.dropAll_eq_filter h.rises, ← held]
  refine h.ofSublist (List.diff_sublist ..) (diff_perm_heldIn h.held _) (Table.risesFrom_filter _ h.rises) h.lengths
    (List.nil_sublist _) nofun fun e he state => ?_
  obtain ⟨-, other⟩ := List.mem_filter.mp he
  simp [state] at other
end Ledger.Conserved

theorem Ledger.Conserved.empty (n : Nat) :
    Ledger.Conserved { dir := [], pages := [], taken := [], fills := [], nextId := n } :=
  ⟨.refl _, .nil, nofun, rfl, nofun, nofun, nofun, .nil, .nil⟩

/-- Every way in which the ledger changes keeps each physical page counted once. -/
theorem Ledger.Change.conserved {l l' : Ledger} (change : l.Change l') (h : l.Conserved) : l'.Conserved := by
  cases change with
  | numbered later =>
    refine { h with filling := fun f hf => ?_ }
    obtain ⟨page, id, entry⟩ := h.filling f hf
    exact ⟨page, Nat.lt_of_lt_of_le id later, entry⟩
  | opened entry used empty free => exact h.opened entry used empty free
  | completed record => exact h.completed record
  | abandoned record => exact h.abandoned record
  | released g => exact h.released g
  | defined g length =>
    refine { h with lengths := fun e he => ?_ }
    rcases Table.mem_put he with rfl | mem
    · exact length
    · exact h.lengths e mem
  | warmed => exact h.warmed
  | emptied n => exact .empty n

/-! ## The count of pages -/

/-- The set holds what is not taken of 4..8191, and with the map region's four pages there are 8192 (R119). -/
theorem Ledger.Conserved.count {l : Ledger} (h : l.Conserved) : 4 + (8188 - l.taken.length) + (heldIn l.pages).length = 8192 := by
  have among : l.taken ⊆ List.range' 4 8188 := fun p hp => by
    obtain ⟨low, high⟩ := h.range p hp
    exact List.mem_range'_1.mpr ⟨low, by omega⟩
  have fits : l.taken.length ≤ 8188 := by
    have distinct : l.taken.Nodup := h.sorted.imp fun lt => Nat.ne_of_lt lt
    simpa using (distinct.subperm among).length_le
  have held := h.held.length_eq
  omega

end Sys2Proof.Machine
end

