-- ==== Sys2Proof/Proofs/Releases.lean ====
section
/-!
The release of segments (spec/06, R122) in its parts: what it leaves of the content map, and what of everything else.
-/
namespace Sys2Proof.Machine

/-! ## Pages given back (R119) -/

/-- A page that an entry holds is given back; an entry without one gives nothing. -/
def Cm.giveBackEntry (c : Cm) (e : Nat × Pte) : Cm :=
  match e.2.state with
  | .filling | .present => c.giveBack e.2.phys
  | _ => c

theorem Cm.giveBackEntry_taken (c : Cm) (e : Nat × Pte) :
    (c.giveBackEntry e).taken = c.taken.diff (heldIn [e]) := by
  obtain ⟨k, st, p⟩ := e
  cases st <;> simp [Cm.giveBackEntry, Cm.giveBack, heldIn, Pte.holdsPage, List.diff_cons]

/-- The free page set after the entries of a list have given back what they hold. -/
theorem Cm.giveBackEntries_taken (l : List (Nat × Pte)) (c : Cm) :
    (l.foldl Cm.giveBackEntry c).taken = c.taken.diff (heldIn l) := by
  induction l generalizing c with
  | nil => rfl
  | cons e l ih =>
    have parts : heldIn (e :: l) = heldIn [e] ++ heldIn l := by
      simp [heldIn, ← List.map_append, ← List.filter_append]
    rw [List.foldl_cons, ih, Cm.giveBackEntry_taken, parts, List.diff_append]

/-! ## Fill records freed -/

/-- Fill records freed one after another: none of their numbers is left. -/
theorem State.freeFills_cm (l : List Fill) (s : State) : (l.foldl (fun s f => s.freeFill f.id) s).cm =
    { s.cm with fills := s.cm.fills.filter fun f => l.all fun x => f.id != x.id } := by
  induction l generalizing s with
  | nil => simp
  | cons x l ih =>
    rw [List.foldl_cons, ih]
    simp only [State.freeFill, State.onLiu_cm, State.onCm_cm, List.filter_filter, List.all_cons, Bool.and_comm]

theorem State.dropServes_cm (l : List Serve) (s : State) : (l.foldl (fun s r => s.dropServe r.id) s).cm =
    { s.cm with serves := s.cm.serves.filter fun x => l.all fun r => x.id != r.id } :=
  congrArg State.cm (State.dropServes_eq l s)

/-! ## One segment -/

/-- The content map after the release of segment `g`, but for its walks (R122). -/
structure Cm.Released (c : Cm) (g : Nat) (c' : Cm) : Prop where
  dir : c'.dir = Table.drop c.dir g
  pages : c'.pages = c.pages.filter fun e => e.1 / 64 != g
  taken : c'.taken = c.taken.diff (heldIn (c.pages.filter fun e => e.1 / 64 == g))
  fills : c'.fills = c.fills.filter fun f => (c.fills.filter fun x => x.segment == g).all fun x => f.id != x.id
  serves : c'.serves = c.serves.filter fun r => (c.serves.filter fun x => x.segment == g).all fun x => r.id != x.id
  intake : c'.intake = c.intake
  showId : c'.showId = c.showId
  nextId : c'.nextId = c.nextId

theorem State.releaseOne_released (s : State) (g : Nat) : s.cm.Released g (s.releaseOne g).cm := by
  obtain ⟨taken, full, e⟩ := Cm.giveBacks_eq (s.cm.pages.filter fun e => e.1 / 64 == g) s.cm
  have given : taken = s.cm.taken.diff (heldIn (s.cm.pages.filter fun e => e.1 / 64 == g)) :=
    (congrArg Cm.taken e).symm.trans (Cm.giveBackEntries_taken _ s.cm)
  have dropped : (s.pagesDropped g).cm =
      { s.cm with taken := taken, storeFull := full, pages := s.cm.pages.filter fun e => e.1 / 64 != g } :=
    congrArg (fun c : Cm => ({ c with pages := c.pages.filter fun e => e.1 / 64 != g } : Cm)) e
  have records : ((s.pagesDropped g).recordsDropped g).cm = { (s.pagesDropped g).cm with
      fills := (s.pagesDropped g).cm.fills.filter fun f =>
        ((s.pagesDropped g).cm.fills.filter fun x => x.segment == g).all fun x => f.id != x.id
      serves := (s.pagesDropped g).cm.serves.filter fun r =>
        ((s.pagesDropped g).cm.serves.filter fun x => x.segment == g).all fun x => r.id != x.id } := by
    unfold State.recordsDropped
    dsimp only
    rw [State.dropServes_cm, State.freeFills_cm]
  have cm : (s.releaseOne g).cm = ({ ((s.pagesDropped g).recordsDropped g).cm with
      cache := ((s.pagesDropped g).recordsDropped g).cm.cache.filter fun e => e.segment != g
      dir := Table.drop ((s.pagesDropped g).recordsDropped g).cm.dir g } : Cm).touch g := rfl
  rw [cm, records, dropped, given]
  exact ⟨rfl, rfl, rfl, rfl, rfl, rfl, rfl, rfl⟩

theorem Cm.places_filter (c : Cm) (p : FillPlace → Bool) :
    (c.fills.filter fun f => p f.place).map Fill.place = c.ledger.fills.filter p := by
  rw [Cm.ledger, List.filter_map]
  rfl

/-- The ledger of a content map whose segment `g` is released. -/
theorem Cm.Released.change {c c' : Cm} {g : Nat} (h : c.Released g c') : c.ledger.Change c'.ledger := by
  have among : ∀ f : Fill, ((c.fills.filter fun x => x.segment == g).all fun x => f.id != x.id) =
      ((c.ledger.fills.filter fun x => x.segment == g).all fun x => f.place.id != x.id) := by
    intro f
    rw [← Cm.places_filter, List.all_map]
    rfl
  have fills : c'.fills.map Fill.place = c.ledger.fillsWithout g := by
    rw [h.fills, Ledger.fillsWithout, ← Cm.places_filter]
    simp only [among]
  have ledger : c'.ledger = { c.ledger with
      dir := Table.drop c.dir g
      pages := c.pages.filter fun e => e.1 / 64 != g
      taken := c.taken.diff (heldIn (c.pages.filter fun e => e.1 / 64 == g))
      fills := c.ledger.fillsWithout g } := by
    rw [Cm.ledger, fills, h.dir, h.pages, h.taken, h.nextId]
    rfl
  exact ledger ▸ .released c.ledger g

end Sys2Proof.Machine
end

