-- ==== Sys2Proof/Proofs/LedgerMap.lean ====
section
/-!
The content map's operations change the ledger in the ways of spec/06 (R113 to R135), and leave show memory (R141).
-/
namespace Sys2Proof.Machine

/-! ## From one ledger to another -/

/-- The rules of spec/06 lead from ledger `l` to `l'`, and show memory is as it was. -/
structure MapLeads (l : Ledger) (m : List Host.Cell) (l' : Ledger) (m' : List Host.Cell) : Prop where
  changes : Relation.ReflTransGen Ledger.Change l l'
  memory : m' = m

/-- The rules of spec/06 lead from ledger `l` to the station's, and its show memory is `m`. -/
abbrev State.LedFrom (s : State) (l : Ledger) (m : List Host.Cell) : Prop := MapLeads l m s.cm.ledger s.smc.mem

theorem State.ledFrom_self (s : State) : s.LedFrom s.cm.ledger s.smc.mem := ⟨.refl, rfl⟩

theorem Smc.mem_of_outer {m m' : Smc} (h : m'.outer = m.outer) : m'.mem = m.mem := congrArg (fun x => x.mem) h

/-- Fill records changed one by one, each in its place. -/
theorem Cm.ledger_fills_map (c : Cm) {f : Fill → Fill} (place : ∀ x, (f x).place = x.place) :
    ({ c with fills := c.fills.map f } : Cm).ledger = c.ledger := by
  have same : (c.fills.map f).map Fill.place = c.fills.map Fill.place := by
    rw [List.map_map]
    exact List.map_congr_left fun x _ => place x
  unfold Cm.ledger
  rw [same]

theorem Cm.ledger_onFill (c : Cm) (id : Nat) {f : Fill → Fill} (place : ∀ x, (f x).place = x.place) :
    (c.onFill id f).ledger = c.ledger :=
  c.ledger_fills_map (f := fun x => if x.id = id then f x else x) fun x => by
    split
    · exact place x
    · rfl

theorem Fill.startTimer_place (now t : Nat) (f : Fill) : (f.startTimer now t).place = f.place := by
  unfold Fill.startTimer
  split <;> rfl

theorem Cm.install_ledger (c : Cm) (e : CacheEntry) : (c.install e).ledger = c.ledger := by
  unfold Cm.install
  split <;> rfl

theorem Cm.addWalk_ledger (c : Cm) (a : Asker) (g q : Nat) : (c.addWalk a g q).ledger = c.ledger := by
  unfold Cm.addWalk
  dsimp only
  split <;> rfl

theorem Cm.mem_of_fillById {c : Cm} {id : Nat} {f : Fill} (h : c.fillById id = some f) : f ∈ c.fills ∧ f.id = id :=
  ⟨List.mem_of_find?_eq_some h, by simpa using List.find?_some h⟩

theorem Cm.lowestFree_eq_some {c : Cm} {p : Nat} (h : c.lowestFree = some p) :
    p = lowestNotIn 4 c.taken ∧ lowestNotIn 4 c.taken ≤ 8191 := by
  unfold Cm.lowestFree at h
  dsimp only at h
  split at h
  · exact ⟨(Option.some.inj h).symm, ‹_›⟩
  · cases h

/-- An ABSENT or UNAVAILABLE page has no entry or an UNAVAILABLE one. -/
theorem Cm.entry_of_pageState {c : Cm} {g q : Nat} (h : c.pageState g q = .absent ∨ c.pageState g q = .unavailable)
    {x : Pte} (found : Table.get? c.pages (pageKey g q) = some x) :
    x.state = .absent ∨ x.state = .unavailable := by
  simpa [Cm.pageState, found] using h

/-! ## A fill opened (R125, R127) -/

/-- The record of a fill opened for page `q` of segment `g` on physical page `p`. -/
def State.newFill (s : State) (g q p : Nat) (fetch : Bool) : Fill :=
  { id := s.cm.nextId, segment := g, page := q, phys := p, received := 0, fetch := fetch, attempts := 0, owed := fetch
    queued := false, last := s.tbu.basinTime, timer := if fetch then none else some s.fetchTicks
    owedAt := s.st.oscTicks }

/-- The content map with the fill of record `f` opened, its table write queued. -/
def Cm.withFill (c : Cm) (f : Fill) : Cm :=
  { ((c.take f.phys).setPage f.segment f.page .filling f.phys).queueWrites [] [pageKey f.segment f.page] with
    fills := c.fills ++ [f], nextId := c.nextId + 1 }

theorem State.openFill_eq (s : State) (g q p : Nat) (fetch : Bool) :
    s.openFill g q p fetch = (s.onCm fun c => c.withFill (s.newFill g q p fetch)).issueMap := rfl

theorem Cm.withFill_ledger (c : Cm) (f : Fill) : (c.withFill f).ledger = { c.ledger with
    pages := Table.put c.pages (pageKey f.segment f.page) { state := .filling, phys := f.phys }
    taken := insertNat f.phys c.taken
    fills := c.ledger.fills ++ [f.place]
    nextId := c.nextId + 1 } :=
  congrArg (fun fills : List FillPlace => ({ c.ledger with
    pages := Table.put c.pages (pageKey f.segment f.page) { state := .filling, phys := f.phys }
    taken := insertNat f.phys c.taken, fills := fills, nextId := c.nextId + 1 } : Ledger)) List.map_append

/-! ## Operations of the map on the station -/

namespace MapLeads
variable {l : Ledger} {m : List Host.Cell} {s : State} (h : s.LedFrom l m)
include h

theorem change {t : State} (change : s.cm.ledger.Change t.cm.ledger) (mem : t.smc.mem = s.smc.mem) : t.LedFrom l m :=
  ⟨h.changes.tail change, mem.trans h.memory⟩

theorem onCm {g : Cm → Cm} (same : (g s.cm).ledger = s.cm.ledger) : (s.onCm g).LedFrom l m :=
  ⟨by rw [State.onCm_cm, same]; exact h.changes, h.memory⟩

theorem onFill (id : Nat) {f : Fill → Fill} (place : ∀ x, (f x).place = x.place) :
    (s.onCm fun c => c.onFill id f).LedFrom l m := h.onCm (s.cm.ledger_onFill id place)

theorem onSmc {g : Smc → Smc} (mem : (g s.smc).mem = s.smc.mem) : (s.onSmc g).LedFrom l m :=
  ⟨h.changes, mem.trans h.memory⟩

theorem ite {p : Prop} [Decidable p] {t : State} (led : p → t.LedFrom l m) : (if p then t else s).LedFrom l m := by
  split
  · exact led ‹_›
  · exact h

theorem foldl {α : Type} {f : State → α → State} (keep : ∀ (x : State) (a : α), x.LedFrom l m → (f x a).LedFrom l m)
    (as : List α) : (as.foldl f s).LedFrom l m :=
  List.foldlRecOn (motive := fun x : State => x.LedFrom l m) as f h fun x hx a _ => keep x a hx

theorem arrive (c : ReqClass) (r : Request) : (s.onSmc fun x => x.arrive c r).LedFrom l m :=
  h.onSmc (Smc.mem_of_outer (s.smc.arrive_outer c r))

theorem issueMap : s.issueMap.LedFrom l m := by
  unfold State.issueMap
  split
  · exact h.ite fun _ => h.arrive _ _
  · exact h

theorem popMap : s.popMap.LedFrom l m := MapLeads.issueMap (s := s.onCm _) h

/-! ### Lookups and fetches (R115, R127, R128) -/

/-- A fill opened on the lowest free page, for a page of a DEFINED segment that holds none. -/
theorem openFill {g q p : Nat} (fetch : Bool) {e : DirEntry} (entry : s.cm.entry g = some e)
    (used : 16384 * q < e.length) (empty : s.cm.pageState g q = .absent ∨ s.cm.pageState g q = .unavailable)
    (free : s.cm.lowestFree = some p) : (s.openFill g q p fetch).LedFrom l m := by
  obtain ⟨rfl, low⟩ := Cm.lowestFree_eq_some free
  rw [State.openFill_eq]
  refine MapLeads.issueMap (h.change ?_ rfl)
  rw [State.onCm_cm, Cm.withFill_ledger]
  exact .opened s.cm.ledger entry used (fun _ => Cm.entry_of_pageState empty) low

theorem startFetch {g q : Nat} {e : DirEntry} (entry : s.cm.entry g = some e) (used : 16384 * q < e.length)
    (absent : s.cm.pageState g q = .absent) : (s.startFetch g q).LedFrom l m := by
  unfold State.startFetch
  split
  · exact h
  · split
    · exact h
    · exact h.openFill true entry used (.inl absent) ‹_›

/-- A lookup fetches a page that its segment uses, and leaves the ledger otherwise. -/
theorem lookup (who : Asker) (g off : Nat) (k : SegType) : (s.lookup who g off k).1.LedFrom l m := by
  unfold State.lookup
  split
  · exact h
  · rename_i e entry
    split
    · exact h
    · split
      · exact h
      · have used : 16384 * (off / 16384) < e.length := by omega
        dsimp only
        split
        · split
          · exact h
          · exact MapLeads.issueMap (h.onCm (s.cm.addWalk_ledger who g _))
        · exact h.startFetch entry used ‹_›
        · exact h
        · exact h

theorem queueRequest : s.queueRequest.LedFrom l m := by
  unfold State.queueRequest
  refine h.ite fun _ => ?_
  split
  · exact h.onFill _ (f := fun x => { x with queued := true }) fun _ => rfl
  · exact h

theorem queueRequests : s.queueRequests.LedFrom l m := h.queueRequest.queueRequest

/-! ### Changes (R114, R126, R129) -/

theorem applyChange (x : Change) : (s.applyChange x).LedFrom l m := by
  have places := fun id => s.cm.places_filter fun y => y.id != id
  unfold State.applyChange
  split
  · split
    · rename_i id f found
      obtain ⟨record, rfl⟩ := Cm.mem_of_fillById found
      have change := Ledger.Change.completed s.cm.ledger (List.mem_map_of_mem (f := Fill.place) record)
      refine MapLeads.issueMap (h.change ?_ rfl)
      rw [← places] at change
      exact change
    · exact h
  · split
    · rename_i id f found
      obtain ⟨record, rfl⟩ := Cm.mem_of_fillById found
      have change := Ledger.Change.abandoned s.cm.ledger (List.mem_map_of_mem (f := Fill.place) record)
      refine MapLeads.issueMap (h.change ?_ rfl)
      rw [← places] at change
      exact change
    · exact h

theorem makeChange (x : Change) : (s.makeChange x).LedFrom l m := by
  unfold State.makeChange
  split
  · exact h.applyChange x
  · exact h

theorem chunkDone : s.chunkDone.LedFrom l m := by
  unfold State.chunkDone
  dsimp only
  split
  · exact MapLeads.makeChange (s := s.onCm _) h _
  · exact h

theorem fetchExpired (f : Fill) : (s.fetchExpired f).LedFrom l m := by
  unfold State.fetchExpired
  split
  · refine MapLeads.queueRequest (h.onFill _ (f := fun x => { x with
      fetch := true, owed := true, timer := none, owedAt := s.st.oscTicks }) fun _ => rfl)
  · exact MapLeads.makeChange (h.onFill _ (f := fun x => { x with timer := none }) fun _ => rfl) _

/-! ### The intake (R121 to R126) -/

theorem releaseOne (g : Nat) : (s.releaseOne g).LedFrom l m :=
  h.change (s.releaseOne_released g).change (State.mem_of_outer (State.outer_of_aside (s.releaseOne_aside g)))

theorem release (gs : List Nat) : (s.release gs).LedFrom l m :=
  MapLeads.issueMap (s := (gs.foldl State.releaseOne s).onCm _) (h.foldl (fun _ g hx => hx.releaseOne g) gs)

theorem takeSelect (n : Nat) : (s.takeSelect n).LedFrom l m := by
  unfold State.takeSelect
  split
  · exact h
  · split
    · exact h
    · split
      · exact h
      · exact h.release s.cm.showSegments

theorem releaseIfDefined (g : Nat) : (s.releaseIfDefined g).LedFrom l m := h.ite fun _ => h.release [g]

theorem define (g : Nat) {e : DirEntry} (length : e.length ≤ 1048576) : (s.define g e).LedFrom l m :=
  MapLeads.issueMap (h.change (.defined s.cm.ledger g length) rfl)

theorem takeDefine (f : SegmentDefineFields) : (s.takeDefine f).LedFrom l m := by
  have released := h.releaseIfDefined (segmentOf f)
  unfold State.takeDefine
  dsimp only
  split
  · exact h
  · split
    · exact h
    · rename_i k screened
      have length : f.length.toNat ≤ 1048576 := by
        unfold Cm.screenDefine at screened
        split at screened
        · cases screened
        · rename_i passes
          simp at passes
          omega
      split
      · exact released
      · split
        · exact h
        · exact released.define _ (e := dirEntryOf f k) length

theorem feed (x : Fill) (chunk : Nat) (data : List Byte) : (s.feed x chunk data).LedFrom l m := by
  have timed := h.onFill x.id fun y => y.startTimer_place s.tbu.basinTime s.fetchTicks
  unfold State.feed
  dsimp only
  split
  · exact timed
  · have joined := timed.onFill x.id (f := fun y => { y with received := y.received ||| (1 <<< chunk) }) fun _ => rfl
    exact MapLeads.arrive (s := (State.onCm _ _).onCm _) joined _ _

theorem feedPage (g q : Nat) (f : PageDataFields) : (s.feedPage g q f).LedFrom l m := by
  unfold State.feedPage
  split
  · exact h.feed _ _ _
  · exact h

theorem takePageData (f : PageDataFields) : (s.takePageData f).LedFrom l m := by
  unfold State.takePageData
  dsimp only
  split
  · exact h
  · split
    · exact h
    · split
      · exact h
      · rename_i e entry
        split
        · exact h
        · rename_i unused
          have used : 16384 * f.page.toNat < e.length := by
            unfold pagesOf ceilDiv at unused
            omega
          have opened : (s.cm.pageState f.segment.toNat f.page.toNat = .absent ∨
              s.cm.pageState f.segment.toNat f.page.toNat = .unavailable) →
              (if 8 ≤ s.cm.fills.length then s else match s.cm.lowestFree with
                | none => s.raiseStoreFull f.segment.toNat f.page.toNat
                | some p => (s.openFill f.segment.toNat f.page.toNat p false).feedPage f.segment.toNat f.page.toNat
                    f).LedFrom l m := by
            intro empty
            split
            · exact h
            · split
              · exact h
              · exact (h.openFill false entry used empty ‹_›).feedPage _ _ _
          split
          · exact h
          · exact h.feedPage _ _ _
          · exact opened (.inl ‹_›)
          · exact opened (.inr ‹_›)

/-! ### Serves (R130 to R133) -/

theorem serveAnswer (id : Nat) (a : Answer) : (s.serveAnswer id a).LedFrom l m := by
  unfold State.serveAnswer
  split <;> exact h

theorem startSending (r : Serve) : (s.startSending r).LedFrom l m :=
  MapLeads.serveAnswer (MapLeads.lookup (s := s.onCm _) h _ _ _ _) _ _

theorem issueServeRead (r : Serve) : (s.issueServeRead r).LedFrom l m := by
  unfold State.issueServeRead
  split
  · exact MapLeads.arrive (s := s.onCm _) h _ _
  · exact h

theorem serveReadDone (id : Nat) (bytes : List Byte) : (s.serveReadDone id bytes).LedFrom l m := by
  unfold State.serveReadDone
  split
  · split <;> exact h
  · exact h

theorem hearPageRequest (p : Position) (n g q : Nat) : (s.hearPageRequest p n g q).LedFrom l m := by
  unfold State.hearPageRequest
  split
  · exact h.change (.numbered s.cm.ledger (Nat.le_succ _)) rfl
  · exact h

theorem intoIntake (f : ContentFrame) : (s.intoIntake f).LedFrom l m := by
  unfold State.intoIntake
  split <;> exact h

theorem hearPageData (p : Position) (f : PageDataFields) : (s.hearPageData p f).LedFrom l m := by
  unfold State.hearPageData
  exact (h.foldl (f := fun (s : State) (r : Serve) => s.dropServe r.id) (fun _ _ hx => hx) _).intoIntake _

/-! ### What goes out (R128, R132) -/

theorem requestOut : s.requestOut.LedFrom l m := by
  unfold State.requestOut
  split
  · exact MapLeads.onCm (s := s.onLiu _) h (s.cm.ledger_onFill _ fun x => Fill.startTimer_place _ _ _)
  · exact h

theorem dataOut : s.dataOut.LedFrom l m := by
  unfold State.dataOut
  split
  · dsimp only
    split <;> exact h
  · exact h

/-! ### The map-region queue (R114, R135) -/

theorem mapAccessDone : s.mapAccessDone.LedFrom l m := by
  unfold State.mapAccessDone
  split
  · refine MapLeads.popMap (h.onCm ?_)
    split <;> rfl
  · split
    · exact h.popMap
    · exact MapLeads.issueMap (s := s.onCm _) h
  · exact h

theorem initMap : s.initMap.LedFrom l m := by
  unfold State.initMap
  split
  · exact MapLeads.issueMap (s := s.onCm _) h
  · exact h

theorem memoryReady : s.memoryReady.LedFrom l m := by
  have phased : (if s.st.phase = .memory then s.onSt fun t => { t with phase := .listening } else s).LedFrom l m := by
    split <;> exact h
  exact phased.ite fun _ => phased.initMap

end MapLeads

/-! ## Resets (R135) -/

theorem Cm.afterWarm_nextId (c : Cm) : c.afterWarm.nextId = c.nextId :=
  foldl_keeps Cm.nextId Cm.dropFilling (fun _ _ => rfl) c.fillingPages c

theorem Cm.afterWarm_ledger (c : Cm) : c.ledger.Change c.afterWarm.ledger := by
  obtain ⟨dir, -, -, taken, pages⟩ := c.afterWarm_kept
  have ledger : c.afterWarm.ledger = { c.ledger with
      pages := (c.fillingPages.map fun e => e.1).foldl Table.drop c.pages
      taken := c.fillingPages.foldl (fun t e => t.erase e.2.phys) c.taken
      fills := [] } := by
    rw [Cm.ledger, dir, taken, pages, c.afterWarm_nextId]
    rfl
  exact ledger ▸ .warmed c.ledger

theorem Cm.afterReset_ledger (c : Cm) (cold : Bool) : c.ledger.Change (c.afterReset cold).ledger := by
  unfold Cm.afterReset
  split
  · exact .emptied _ _
  · exact c.afterWarm_ledger

end Sys2Proof.Machine
end

