-- ==== Sys2Proof/Proofs/LedgerEngine.lean ====
section
/-!
The cue engine, the audio unit's fills and the walks that answer them reach the ledger by lookups alone (spec/02, R28;
spec/05, R109; spec/06, R117).
-/
namespace Sys2Proof.Machine

namespace MapLeads
variable {l : Ledger} {m : List Host.Cell} {s : State} (h : s.LedFrom l m)
include h

/-! ## What leaves content map and show memory -/

theorem onTbu (g : Tbu → Tbu) : (s.onTbu g).LedFrom l m := h
theorem onCe (g : Ce → Ce) : (s.onCe g).LedFrom l m := h
theorem onHu (g : Hu → Hu) : (s.onHu g).LedFrom l m := h
theorem onLu (g : Lu → Lu) : (s.onLu g).LedFrom l m := h
theorem onAu (g : Au → Au) : (s.onAu g).LedFrom l m := h
theorem onLiu (g : Liu → Liu) : (s.onLiu g).LedFrom l m := h
theorem onPt (g : Pt → Pt) : (s.onPt g).LedFrom l m := h
theorem onBiu (g : Biu → Biu) : (s.onBiu g).LedFrom l m := h
theorem onSt (g : StartUp → StartUp) : (s.onSt g).LedFrom l m := h

theorem of_unread {t : State} (same : t.unread = s.unread) : t.LedFrom l m := by
  rw [State.LedFrom, State.cm_of_unread same, State.smc_of_unread same]
  exact h

theorem of_unpumped {t : State} (same : t.unpumped = s.unpumped) : t.LedFrom l m :=
  h.of_unread (State.unread_of_unpumped same)

theorem huHalt : s.huHalt.LedFrom l m := h.of_unpumped s.huHalt_unpumped

theorem enterHalted : s.enterHalted.LedFrom l m := ((((h.onTbu _).onCe _).huHalt).onLu _).onAu _

theorem enterStandby : s.enterStandby.LedFrom l m := (((h.onTbu _).huHalt).onLu _).onAu _

theorem stage {k : Nat} {a : Action} {t : State} (staged : s.stage k a = some t) : t.LedFrom l m := by
  unfold State.stage at staged
  split at staged
  · cases staged
  · cases staged
    split <;> exact h

theorem stagePass (k : Nat) : (s.stagePass k).LedFrom l m := by
  refine h.foldl (fun x a hx => ?_) _
  split
  · split
    · rename_i staged
      have led := hx.stage staged
      exact led
    · exact hx
  · exact hx

theorem produce (d : Deed) (n : Nat) : (s.produce d n).LedFrom l m := by
  rcases s.produce_cases d n with ⟨t, staged, e⟩ | e <;> rw [e]
  · exact MapLeads.stage (s := s.ordered) h staged
  · exact h

/-! ## Reading (R26 to R34) -/

theorem cueEndShow : s.cueEndShow.LedFrom l m := by
  unfold State.cueEndShow
  split <;> exact h

theorem openTimed : s.openTimed.LedFrom l m := by
  unfold State.openTimed
  split <;> exact h

theorem cueEnd : s.cueEnd.state.LedFrom l m := by
  unfold State.cueEnd State.endOfList
  split
  · exact h
  · exact MapLeads.ite (s := State.onCe _ _) (h.openTimed.produce _ _) fun _ => h.openTimed

theorem cueLookup (p : ReadPos) : (s.cueLookup p).1.LedFrom l m := by
  unfold State.cueLookup
  split
  · exact h
  · exact h.lookup _ _ _ _

theorem cueAnswer (p : ReadPos) (a : Answer) : (s.cueAnswer p a).state.LedFrom l m := by
  unfold State.cueAnswer
  dsimp only
  split
  case h_1 =>
    split
    · exact h.cueEnd
    · split
      · exact h.arrive _ _
      · exact h
  case h_5 => exact h.cueEnd
  case h_6 | h_7 => exact MapLeads.cueEndShow (s := s.raise _ _) h
  all_goals exact h

theorem takeCue (p : ReadPos) (r : List Byte) (c : Cue) (t : Nat) : (s.takeCue p r c t).state.LedFrom l m := by
  have counted : (if cueTime r < s.ce.lastCue then s.countMalformed p else s).LedFrom l m := by split <;> exact h
  have made := counted.foldl (f := fun (s : State) (a : Deed × Nat) => s.produce a.1 a.2)
    (fun _ _ hx => hx.produce _ _) (s.actionsOf c (s.base + t))
  unfold State.takeCue
  dsimp only
  split
  · exact h
  · cases c with
    | waitTrigger => exact h
    | _ => exact made

theorem readRecord (p : ReadPos) (r : List Byte) : (s.readRecord p r).state.LedFrom l m := by
  rcases s.readRecord_cases p r with e | e <;> rw [e]
  · exact h.openTimed
  · unfold State.readRecord.go
    dsimp only
    split
    · exact h
    · split
      · exact h
      · exact h.takeCue _ _ _ _

theorem scanRecord (x : ScanRecord) (r : List Byte) : (s.scanRecord x r).state.LedFrom l m := by
  unfold State.scanRecord
  dsimp only
  split
  · split <;> exact h
  all_goals exact h

theorem cueStep : s.cueStep.state.LedFrom l m := by
  unfold State.cueStep
  dsimp only
  split
  · exact h
  · split
    · exact h
    · split
      · split
        · exact h.cueEnd
        · split
          · exact h.scanRecord _ _
          · exact h.readRecord _ _
      · split
        · exact h
        · exact (h.cueLookup _).cueAnswer _ _

theorem cueLoop (n : Nat) : (s.cueLoop n).LedFrom l m := by
  induction n generalizing s with
  | zero => exact h
  | succ n ih =>
    have step := h.cueStep
    unfold State.cueLoop
    split
    · rename_i e
      rw [e] at step
      exact step
    · rename_i e
      rw [e] at step
      exact ih step

theorem cueRun : s.cueRun.LedFrom l m := (h.cueLoop 256).queueRequests

/-! ## Events of the engine -/

theorem cueGo (n : Nat) : (s.cueGo n).LedFrom l m := by
  unfold State.cueGo
  dsimp only
  split
  · exact MapLeads.cueEndShow (s := State.raise _ _ _) h
  · exact MapLeads.cueRun (s := State.onCe _ _) h

theorem cueBoundary (k : Nat) (handed : ShowState) : (s.cueBoundary k handed).LedFrom l m := by
  have read : (((s.stagePass k).onCe fun c => { c with pageWait := false }).cueRead).LedFrom l m :=
    MapLeads.cueLoop (s := State.onCe _ _) (h.stagePass k) 256
  unfold State.cueBoundary
  split
  · exact read
  · exact read
  · exact h

theorem cueReadDone (bytes : List Byte) : (s.cueReadDone bytes).LedFrom l m := by
  unfold State.cueReadDone
  split
  · exact h
  · exact MapLeads.cueRun (s := State.onCe _ _) h

omit h in
theorem run {x : Progress} (h : x.state.LedFrom l m) : x.run.LedFrom l m := by
  cases x with
  | more s => exact MapLeads.cueRun (s := s) h
  | stop s => exact h

theorem cueWalkAnswer (a : Answer) : (s.cueWalkAnswer a).LedFrom l m := by
  have free : (s.onCe fun c => { c with fetch := none }).LedFrom l m := h
  unfold State.cueWalkAnswer
  split
  · exact h
  · split
    · exact h
    · dsimp only
      split
      · split
        · exact run (free.cueAnswer _ a)
        · exact free.cueRun
      · exact h

theorem cueTrigger (n p : Nat) : (s.cueTrigger n p).LedFrom l m := by
  have run : ∀ x : State, x.LedFrom l m → x.cueRun.LedFrom l m := fun _ hx => hx.cueRun
  unfold State.cueTrigger
  split
  · exact h
  · split
    · exact h
    · dsimp only
      split
      · split
        · exact h.ite fun _ => run _ h
        · exact h
      · split
        · exact h.ite fun _ => run _ h
        · exact h
      · split
        · exact h.ite fun _ => run _ h
        · exact h
      all_goals exact h

/-! ## The audio unit's fills (R109, R110) -/

theorem fillAnswer (f : AudioFill) (a : Answer) : (s.fillAnswer f a).LedFrom l m := by
  unfold State.fillAnswer
  split
  case h_2 =>
    split
    · exact MapLeads.arrive (s := s.onAu _) h _ _
    · exact h
  all_goals exact h

theorem fillLoop (n : Nat) : (s.fillLoop n).LedFrom l m := by
  induction n generalizing s with
  | zero => exact h
  | succ n ih =>
    unfold State.fillLoop
    split
    · exact h
    · split
      · exact h
      · exact ih (MapLeads.fillAnswer (MapLeads.lookup (s := State.onAu _ _) h _ _ _ _) _ _)

theorem fillSlots : s.fillSlots.LedFrom l m := h.fillLoop 128

theorem considerFill : s.considerFill.LedFrom l m := h.fillSlots.queueRequests

theorem fillWalkAnswer (a : Answer) : (s.fillWalkAnswer a).LedFrom l m := by
  unfold State.fillWalkAnswer
  split
  · exact (h.fillAnswer _ _).considerFill
  · exact h

theorem rowReadDone (bytes : List Byte) : (s.rowReadDone bytes).LedFrom l m := by
  unfold State.rowReadDone
  split
  · split
    · exact MapLeads.considerFill (s := s.onAu _) h
    · exact h
  · exact h.considerFill

theorem answerDefinition : s.answerDefinition.LedFrom l m := by
  unfold State.answerDefinition
  split
  · exact h
  · dsimp only
    split <;> exact h

theorem takeVoiceAction (x : Action) : (s.takeVoiceAction x).LedFrom l m :=
  MapLeads.ite (s := s.onAu _) h fun _ => MapLeads.fillSlots (s := s.onAu _) h

theorem auPass (now k : Nat) (c : Int) (handed : ShowState) (entered resumed : Bool) (acts : List Action) :
    (s.auPass now k c handed entered resumed acts).LedFrom l m :=
  MapLeads.fillSlots (s := (State.onAu _ _).onAu _)
    (MapLeads.foldl (s := s.onAu _) h (fun _ x hx => hx.takeVoiceAction x) acts)

/-! ## The answers of walks (R117) -/

theorem answerAsker (ans : Answer) (a : Asker) : (s.answerAsker ans a).LedFrom l m := by
  cases a with
  | cue => exact h.cueWalkAnswer ans
  | audio => exact h.fillWalkAnswer ans
  | serve id => exact h.serveAnswer id ans

theorem answerAfresh (a : Asker) : (s.answerAfresh a).LedFrom l m := by
  unfold State.answerAfresh
  split
  · split
    · exact (h.cueLookup _).cueWalkAnswer _
    · exact h
  · split
    · exact (h.lookup _ _ _ _).fillWalkAnswer _
    · exact h
  · split
    · exact (h.lookup _ _ _ _).serveAnswer _ _
    · exact h

theorem walkDone (w : Walk) (bytes : List Byte) : (s.walkDone w bytes).LedFrom l m := by
  unfold State.walkDone
  dsimp only
  split
  · exact (h.popMap.foldl (fun _ a hx => hx.answerAfresh a) _).queueRequests
  · exact (h.popMap.onCm (Cm.install_ledger _ _)).foldl (fun _ a hx => hx.answerAsker _ a) _
end MapLeads

end Sys2Proof.Machine
end

