-- ==== Sys2Proof/Proofs/LedgerSteps.lean ====
section
/-!
Every command changes the ledger in the ways of spec/06, and every step keeps the tables canonical and each physical page
counted once (R113, R119, R125, R137).
-/
namespace Sys2Proof.Machine

/-- The readings reach neither content map nor show memory. -/
theorem ledFrom_keptByReadings (l : Ledger) (m : List Host.Cell) : KeptByReadings fun s => s.LedFrom l m where
  onPt _ g h := MapLeads.onPt h g
  onBiu _ g h := MapLeads.onBiu h g
  dry s h := MapLeads.of_unpumped h s.huDry_unpumped
  normal _ h := MapLeads.onHu h _
  interlock _ _ _ h := MapLeads.onLu h _

namespace MapLeads
variable {l : Ledger} {m : List Host.Cell} {s : State} (h : s.LedFrom l m)
include h

/-! ## The show's transitions (spec/01) -/

theorem haltRequest : s.haltRequest.LedFrom l m := by
  unfold State.haltRequest
  split
  · exact h
  · exact h
  · exact h.enterHalted

theorem positionConflict : s.positionConflict.LedFrom l m := by
  have conflicted : s.conflicted.LedFrom l m := h
  rw [State.positionConflict_eq]
  exact conflicted.enterStandby.onCe _

theorem takeEnd (now : Nat) : (s.takeEnd now).LedFrom l m := by
  unfold State.takeEnd
  split <;> exact h

theorem takeT0 (now : Nat) : (s.takeT0 now).LedFrom l m := by
  unfold State.takeT0
  exact h.ite fun _ => (h.onTbu _).takeEnd now

theorem takeHold (bt : Nat) : (s.takeHold bt).LedFrom l m := by
  unfold State.takeHold
  split <;> exact h

theorem takeResume (bt : Nat) : (s.takeResume bt).LedFrom l m := by
  unfold State.takeResume
  exact h.ite fun _ => ((h.onTbu _).onCe _).takeEnd bt

theorem endListen (k : Nat) : (s.endListen k).LedFrom l m := by
  have stepped : (s.listenStep k).LedFrom l m := by
    unfold State.listenStep
    split
    · exact h
    · split <;> exact h
  have read := (ledFrom_keptByReadings l m).endOfListenReadings (stepped.onTbu fun t => { t with basinTime := k * 960 })
  have up : (((s.listenStep k).atReading (k * 960) State.endOfListenReadings).onSt fun t =>
      { t with phase := .up }).LedFrom l m := (read.onTbu _).onSt _
  unfold State.endListen
  exact up.ite fun _ => up.onTbu _

theorem countListen (k : Nat) : (s.countListen k).LedFrom l m := by
  have counted : (s.onSt fun t => { t with listen := t.listen + 1 }).LedFrom l m := h
  unfold State.countListen
  exact h.ite fun _ => counted.ite fun _ => counted.endListen k

theorem countWarmup : s.countWarmup.LedFrom l m := by
  unfold State.countWarmup
  split
  · split <;> exact h
  · exact h

theorem stopRepeat : s.stopRepeat.LedFrom l m := by
  unfold State.stopRepeat
  exact h.ite fun _ => h.haltRequest.onLiu _

theorem checkEnding : s.checkEnding.LedFrom l m := by
  unfold State.checkEnding
  split <;> exact h

theorem transitions (k bt : Nat) (st : ShowState) : (s.transitions k bt st).LedFrom l m := by
  have listened : ((if st = .warmup then s.stopRepeat.countWarmup else s.stopRepeat).countListen k).LedFrom l m :=
    (h.stopRepeat.ite fun _ => h.stopRepeat.countWarmup).countListen k
  unfold State.transitions
  dsimp only
  generalize (if st = .warmup then s.stopRepeat.countWarmup else s.stopRepeat).countListen k = x at listened
  have begun := (listened.takeT0 (max bt x.tbu.basinTime)).takeEnd (max bt x.tbu.basinTime)
  have held := (begun.takeHold bt).ite (p := st = .held) fun _ => begun.takeResume bt
  exact held.ite fun _ => held.checkEnding

/-! ## The passes of a boundary -/

theorem passes (k bt : Nat) (c : Int) (handed : ShowState) (entered resumed : Bool) :
    (s.passes k bt c handed entered resumed).LedFrom l m := by
  have taken := ((h.onLiu Liu.boundary).cueBoundary k handed).onCe fun c => c.setSlate k {}
  unfold State.passes
  dsimp only
  generalize ((s.onLiu Liu.boundary).cueBoundary k handed) = x at taken
  have pumped : ((x.takeSlate k).huPass bt handed (x.ce.slate k).jets).LedFrom l m :=
    taken.of_unpumped (State.huPass_unpumped ..)
  exact ((pumped.onLu _).auPass ..).queueRequests

theorem markBoundary (i : BoundaryInput) : (s.markBoundary i).LedFrom l m := by
  by_cases due : s.boundaryDue = true
  · by_cases live : s.live = true
    · obtain ⟨c, e⟩ := State.markBoundary_eq live due i
      have read := (ledFrom_keptByReadings l m).inputsBoundary (s := s.beginBoundary s.nextFrame) h i
      have beacon : (s.atTransitions i).LedFrom l m := by
        have aged := (ledFrom_keptByReadings l m).agePeers read
        unfold State.atTransitions State.beaconBoundary
        split
        · exact read
        · dsimp only
          split <;> exact aged
      have placed : ((s.afterTransitions i).placeBeacon s.nextFrame (s.st.phase == .up)).LedFrom l m := by
        have changed : (s.afterTransitions i).LedFrom l m := beacon.transitions ..
        unfold State.placeBeacon
        split <;> exact changed
      rw [e]
      exact ((placed.onTbu _).passes ..).onTbu _
    · rw [State.markBoundary, if_neg (by simp [due]), if_neg live]
      exact h
  · rw [State.markBoundary_not_due (by simpa using due)]
    exact h

theorem markWhen (due : Bool) (i : BoundaryInput) : (s.markWhen due i).LedFrom l m := by
  rcases s.markWhen_cases due i with e | e <;> rw [e]
  · exact h.markBoundary i
  · exact h

theorem markAsPumpGoes (p : Channel) (before : List PumpState) (after : Pump → Bool) (i : BoundaryInput) :
    (s.markAsPumpGoes p before after i).LedFrom l m := by
  rcases s.markAsPumpGoes_cases p before after i with e | e <;> rw [e]
  · exact h.markBoundary i
  · exact h

/-! ## Frames heard (spec/08) -/

theorem received (p : Position) {deliver : State → State} (keep : ∀ x : State, x.LedFrom l m → (deliver x).LedFrom l m) :
    (s.received p deliver).LedFrom l m := by
  have heard : s.afterFrame.LedFrom l m := h
  rcases s.received_cases p deliver with e | e | e <;> rw [e]
  · exact h
  · exact heard.positionConflict
  · exact keep _ heard

theorem targeted (target : Byte) {deliver : State → State} (keep : (deliver s).LedFrom l m) :
    (s.targeted target deliver).LedFrom l m := by
  unfold State.targeted
  exact h.ite fun _ => keep

theorem hearStop (fade : Nat) : (s.hearStop fade).LedFrom l m := by
  unfold State.hearStop
  split <;> exact h

theorem hearShowSelect (n : Byte) : (s.hearShowSelect n).LedFrom l m := by
  unfold State.hearShowSelect
  split
  · exact h.intoIntake _
  · exact h.intoIntake _
  · exact h

theorem hearGo (n t0 : Nat) : (s.hearGo n t0).LedFrom l m := by
  unfold State.hearGo
  exact h.ite fun _ => (h.onTbu _).cueGo n

theorem answerQuery (target tag : Byte) (sel : Nat) (snapshot : State → List Byte) :
    (s.answerQuery target tag sel snapshot).LedFrom l m := by
  unfold State.answerQuery
  split <;> exact h

/-! ## Claims, transmissions, resets and the tick -/

theorem claimOut (n : Channel) : (s.huClaimOut n).LedFrom l m := by
  unfold State.huClaimOut
  dsimp only
  split
  · split <;> exact h
  · exact h

theorem huPeerClaim : s.huPeerClaim.LedFrom l m := by
  unfold State.huPeerClaim
  dsimp only
  split
  · exact (h.onHu _).of_unpumped (State.giveUpClaim_unpumped _)
  · exact h.onHu _

theorem abortTransmission : s.abortTransmission.LedFrom l m := by
  unfold State.abortTransmission
  dsimp only
  split <;> exact h

theorem queueClaim : s.queueClaim.LedFrom l m := h.of_unpumped s.queueClaim_unpumped

theorem resetPoint (cause : ResetCause) (next : Phase) : (s.resetPoint cause next).LedFrom l m := h

/-- The configuration read gives the content map its reset values (R135). -/
theorem takeConfig (r : List Byte) : (s.takeConfig r).LedFrom l m := by
  have taken : (s.takeResetValues (paramsTaken r s.own) (recordValid r) (recWord r 254)).LedFrom l m :=
    h.change (s.cm.afterReset_ledger s.st.cold) rfl
  have read := MapLeads.issueMap (taken.of_unread (State.evalLevel_unread _ 0))
  unfold State.takeConfig
  dsimp only
  generalize ((s.takeResetValues (paramsTaken r s.own) (recordValid r) (recWord r 254)).evalLevel 0).issueMap = x at read
  have listened := read.ite (p := x.st.phase = .listening) fun _ => read.initMap
  split <;> exact listened

theorem oscTick : s.oscTick.LedFrom l m := by
  have counted : ∀ tau, (s.countUnderruns tau).LedFrom l m := by
    intro tau
    unfold State.countUnderruns
    dsimp only
    split <;> split <;> exact h
  unfold State.oscTick
  split
  · exact h
  · have timed := (((counted (s.au.tau s.tbu.basinTime)).onAu fun a => a.tick (s.au.tau s.tbu.basinTime) s.pairNow).onTbu
      fun t => { t with basinTime := (t.basinTime + 1) % basinRange, shift := 0 }).onHu fun h =>
        { h with spacing := h.spacing - 1 }
    have ticked := timed.onCm (g := fun c => { c with fills := c.fills.map Fill.tick, serves := c.serves.map Serve.tick })
      (Cm.ledger_fills_map _ (f := Fill.tick) fun _ => rfl)
    exact (ticked.onSmc rfl).onSt _

/-! ## Completions -/

theorem completion (c : ReqClass) {act : State → Report → State}
    (keep : ∀ (x : State) (r : Report), x.LedFrom l m → (act x r).LedFrom l m) : (s.completion c act).LedFrom l m := by
  unfold State.completion
  split
  · exact keep (s.onSmc _) _ h
  · exact h
end MapLeads

end Sys2Proof.Machine
end

