-- ==== Sys2Proof/Proofs/ShowMemory.lean ====
section
/-!
What the memory controller's own events make of the bytes of show memory (spec/07, R138 to R148): a burst of a write changes
those it transfers, and nothing else changes any.
-/
namespace Sys2Proof.Machine

section
variable (m : Smc)

@[simp] theorem Smc.startBurst_mem (c : ReqClass) (r : Request) : (m.startBurst c r).mem = m.mem :=
  Smc.mem_of_outer (m.startBurst_outer c r)

@[simp] theorem Smc.startRefresh_mem (f : Bool) : (m.startRefresh f).mem = m.mem :=
  Smc.mem_of_outer (m.startRefresh_outer f)

@[simp] theorem Smc.grant_mem : m.grant.mem = m.mem := Smc.mem_of_outer m.grant_outer

@[simp] theorem Smc.grantIfIdle_mem : m.grantIfIdle.mem = m.mem := Smc.mem_of_outer m.grantIfIdle_outer

@[simp] theorem Smc.arrive_mem (c : ReqClass) (r : Request) : (m.arrive c r).mem = m.mem :=
  Smc.mem_of_outer (m.arrive_outer c r)

@[simp] theorem Smc.setSlot_mem (c : ReqClass) (r : Option Request) : (m.setSlot c r).mem = m.mem := by
  cases c <;> rfl

/-! ## Banks, debt and start-up (R139, R145, R148) -/

@[simp] theorem Smc.activateDone_mem (b : Fin 4) : (m.activateDone b).mem = m.mem := by
  unfold Smc.activateDone
  dsimp only
  split
  · split
    · split
      · split
        · exact Smc.startBurst_mem _ _ _
        · rfl
      · rfl
    · rfl
  · rfl

@[simp] theorem Smc.prechargeDone_mem (b : Fin 4) : (m.prechargeDone b).mem = m.mem := by
  unfold Smc.prechargeDone
  dsimp only
  split
  · split
    · split
      · split
        · exact Smc.startBurst_mem _ _ _
        · rfl
      · rfl
    · split
      · rfl
      · split
        · exact Smc.startRefresh_mem _ _
        · split <;> rfl
    · rfl
  · rfl

@[simp] theorem Smc.debtRise_mem : m.debtRise.mem = m.mem := by
  unfold Smc.debtRise
  split
  · exact Smc.grantIfIdle_mem _
  · rfl

@[simp] theorem Smc.initWaitEnd_mem : m.initWaitEnd.mem = m.mem := by
  unfold Smc.initWaitEnd
  split <;> rfl

@[simp] theorem Smc.initPrechargeEnd_mem : m.initPrechargeEnd.mem = m.mem := by
  unfold Smc.initPrechargeEnd
  split <;> rfl

@[simp] theorem Smc.initRefreshEnd_mem : m.initRefreshEnd.mem = m.mem := by
  unfold Smc.initRefreshEnd
  split <;> rfl

@[simp] theorem Smc.initModeEnd_mem : m.initModeEnd.mem = m.mem := by
  unfold Smc.initModeEnd
  split
  · exact Smc.grant_mem _
  · rfl

/-! ## Bursts (R141) -/

/-- A burst transferred writes a range under a mask, or leaves show memory. -/
theorem Smc.transfer_mem (r : Request) : ∃ a bs, (m.transfer r).1.mem = Memory.writeRange m.mem a bs := by
  unfold Smc.transfer
  dsimp only
  split
  · exact ⟨_, _, rfl⟩
  · exact ⟨0, [], rfl⟩

theorem Smc.endBurst_mem (c : ReqClass) : ∃ a bs, (m.endBurst c).mem = Memory.writeRange m.mem a bs := by
  unfold Smc.endBurst
  split
  · exact ⟨0, [], rfl⟩
  · rename_i r _
    obtain ⟨a, bs, moved⟩ := m.transfer_mem r
    refine ⟨a, bs, ?_⟩
    dsimp only
    split
    · exact (Smc.setSlot_mem _ _ _).trans moved
    · split <;> exact (Smc.setSlot_mem _ _ _).trans moved

theorem Smc.endOperation_mem : ∃ a bs, m.endOperation.mem = Memory.writeRange m.mem a bs := by
  unfold Smc.endOperation
  split
  · exact ⟨0, [], Smc.grantIfIdle_mem m⟩
  · split
    · dsimp only
      split
      · obtain ⟨a, bs, moved⟩ := Smc.endBurst_mem { m with clock := max m.clock ‹Port›.due, port := none } ‹ReqClass›
        exact ⟨a, bs, (Smc.grant_mem _).trans moved⟩
      · refine ⟨0, [], (Smc.grant_mem _).trans ?_⟩
        unfold Smc.endRefresh
        split <;> rfl
    · exact ⟨0, [], rfl⟩
end

/-- A grant point keeps the canonical form of show memory (R137). -/
theorem Smc.endOperation_wf {m : Smc} (h : Memory.wf m.mem = true) : Memory.wf m.endOperation.mem = true := by
  obtain ⟨a, bs, moved⟩ := m.endOperation_mem
  exact moved ▸ Memory.wf_writeRange h a bs

end Sys2Proof.Machine
end

