-- ==== Sys2Proof/Proofs/Conservation.lean ====
section
/-!
Every step keeps the tables canonical and each physical page counted once (R113, R119, R125, R137), command by command.
-/
namespace Sys2Proof.Machine

namespace MapLeads
variable {l : Ledger} {m : List Host.Cell} {s : State} (h : s.LedFrom l m)
include h

/-- Every command changes the ledger in the ways of spec/06. None but a grant point and power-on writes show memory. -/
theorem exec {c : Instr} {t : State} (e : exec c s = .next t) (grant : c ≠ .grantPoint)
    (power : ∀ a b d, c ≠ .powerOn a b d) : t.LedFrom l m := by
  cases c
  case grantPoint => exact absurd rfl grant
  case powerOn => exact absurd rfl (power _ _ _)
  all_goals cases e
  case configReadComplete => exact h.ite fun _ => h.takeConfig _
  case resetPinAssert => exact h.ite fun _ => h.resetPoint _ _
  case resetPinRelease => exact h.ite fun _ => h.onSt _
  case resetStation => exact h.received _ fun _ hx => hx.targeted _ ((hx.resetPoint _ _).onSt _)
  case frameBoundary => exact h.markBoundary _
  case listenEnd | warmupEnd | enterHeld | resumeBoundary | endingComplete | softStartEnd | minimumRunEnd
      | feedbackAbsenceLock | muteEnd | levelReadingValid | windReadingValid | cutoutEnd => exact h.markWhen _ _
  case restExpiry | stoppingDriveZero => exact h.markAsPumpGoes _ _ _ _
  case wake => exact h.received _ fun _ hx => hx.ite fun _ => hx.onTbu _
  case standby => exact h.received _ fun _ hx => hx.ite fun _ => hx.enterStandby
  case showSelect => exact h.received _ fun _ hx => hx.hearShowSelect _
  case go => exact h.received _ fun _ hx => hx.hearGo _ _
  case hold | resume => exact h.received _ fun _ hx => hx.ite fun _ => hx.onTbu _
  case stop => exact h.received _ fun _ hx => hx.hearStop _
  case stopAssert => exact h.received _ fun _ hx => (hx.onTbu _).haltRequest
  case clearHalt => exact h.received _ fun _ hx => hx.ite fun _ => ((hx.onTbu _).onLu _).onAu _
  case trigger => exact h.received _ fun _ hx => hx.ite fun _ => hx.cueTrigger _ _
  case clearFaults => exact h.received _ fun _ hx => hx.targeted _ ((hx.onHu _).onBiu _)
  case startClaim => exact h.received _ fun _ hx => hx.huPeerClaim
  case beacon => exact h.received _ fun _ hx => (ledFrom_keptByReadings l m).recordBeacon hx _ _ _
  case segmentDefine => exact h.received _ fun _ hx => hx.intoIntake _
  case pageData => exact h.received _ fun _ hx => hx.hearPageData _ _
  case pageRequest => exact h.received _ fun _ hx => hx.hearPageRequest _ _ _ _
  case statusReply => exact h.received _ fun _ hx => hx
  case statusQueryGeneral | statusQueryPumps | statusQueryFixtures | statusQueryPeers | statusQueryMemory
      | statusQueryFaults => exact h.received _ fun _ hx => hx.answerQuery _ _ _ _
  case statusQueryUnknownSelector => exact h.received _ fun _ hx => hx.targeted _ (hx.ite fun _ => hx.onLiu _)
  case t0Reached => exact h.ite fun _ => h.takeT0 _
  case endActionDue => exact h.ite fun _ => h.takeEnd _
  case spacingTimerExpiry => exact h.ite fun _ => h.queueClaim
  case definitionAnswer => exact h.ite fun _ => h.answerDefinition
  case contentEnd => exact h.onAu _
  case outputPair => exact h.oscTick
  case cueReadComplete => exact h.completion _ fun _ _ hx => hx.cueReadDone _
  case rowReadComplete => exact h.completion _ fun _ _ hx => hx.rowReadDone _
  case walkComplete =>
    split
    · exact h.completion _ fun _ _ hx => hx.walkDone _ _
    · exact h
  case mapRegionAccessComplete => exact h.ite fun _ => h.completion _ fun _ _ hx => hx.mapAccessDone
  case chunkWriteComplete => exact h.completion _ fun _ _ hx => hx.chunkDone
  case serveReadComplete => exact h.completion _ fun _ _ hx => hx.serveReadDone _ _
  case queuedChangeApply =>
    split
    · exact h.ite fun _ => MapLeads.applyChange (s := s.onCm _) h _
    · exact h
  case showSelectTaken =>
    split
    · exact h.ite fun _ => MapLeads.takeSelect (s := s.popIntake) h _
    · exact h
  case segmentDefineTaken =>
    split
    · exact h.ite fun _ => MapLeads.takeDefine (s := s.popIntake) h _
    · exact h
  case pageDataTaken =>
    split
    · exact h.ite fun _ => MapLeads.takePageData (s := s.popIntake) h _
    · exact h
  case fetchTimerExpiry =>
    split
    · exact h.ite fun _ => h.fetchExpired _
    · exact h
  case pageRequestQueue => exact h.ite fun _ => h.queueRequest
  case serveDelayEnd =>
    split
    · exact h.ite fun _ => h.startSending _
    · exact h
  case serveReadIssue =>
    split
    · exact h.ite fun _ => h.issueServeRead _
    · exact h
  case initModeEnd =>
    exact h.ite fun _ => MapLeads.memoryReady (h.onSmc s.smc.initModeEnd_mem)
  case claimGoneOut =>
    split
    · exact MapLeads.claimOut (h.onLiu _) _
    · exact h
  case pageRequestGoneOut =>
    split
    · exact h.requestOut
    · exact h
  case pageDataGoneOut =>
    split
    · exact h.dataOut
    · exact h
  case stopInputActive =>
    have active := h.onBiu fun b => { b with stopActive := true }
    exact h.ite fun _ => active.ite fun _ => active.haltRequest.onLiu _
  case transmitError => exact h.ite fun _ => h.abortTransmission
  case frameDiscarded =>
    split
    · exact h.ite fun _ => h.onLiu _
    all_goals exact h
  case initWaitEnd => exact h.ite fun _ => h.onSmc s.smc.initWaitEnd_mem
  case initPrechargeEnd => exact h.onSmc s.smc.initPrechargeEnd_mem
  case initRefreshEnd => exact h.onSmc s.smc.initRefreshEnd_mem
  case debtRise => exact h.onSmc s.smc.debtRise_mem
  case bankActivateDone => exact h.onSmc (s.smc.activateDone_mem _)
  case bankPrechargeDone => exact h.onSmc (s.smc.prechargeDone_mem _)
  case beaconGoneOut | stopAssertGoneOut | statusReplyGoneOut => split <;> exact h
  case transmitStart => exact h.ite fun _ => h.onLiu _
  case yieldIdleExpiry => exact h.ite fun _ => h.onLiu _
  case stopInputInactive | feedbackChange => exact h.ite fun _ => h.onBiu _
end MapLeads

/-! ## Every command -/

/-- The chain of ledger changes keeps what each of them keeps. -/
theorem Ledger.keeps_of_changes {I : Ledger → Prop} (keep : ∀ {l l' : Ledger}, l.Change l' → I l → I l') {l l' : Ledger}
    (changes : Relation.ReflTransGen Ledger.Change l l') (h : I l) : I l' :=
  Relation.ReflTransGen.trans_induction_on (motive := fun {a b} _ => I a → I b) changes (fun _ => id) keep
    (fun _ _ first second => second ∘ first) h

/-- A command's ledger and show memory, the grant point's and power-on's with the rest. -/
theorem exec_map_cases {c : Instr} {s t : State} (e : exec c s = .next t) :
    Relation.ReflTransGen Ledger.Change s.cm.ledger t.cm.ledger ∧
      (Memory.wf s.smc.mem = true → Memory.wf t.smc.mem = true) := by
  by_cases grant : c = .grantPoint
  · subst grant
    obtain ⟨g, words⟩ := s.handWords_onAu
    simp only [exec, execGrantPoint] at e
    split at e
    · cases e
    · cases e
      rw [words]
      exact ⟨.refl, Smc.endOperation_wf⟩
  · by_cases power : ∃ a b d, c = .powerOn a b d
    · obtain ⟨a, b, d, rfl⟩ := power
      cases e
      exact ⟨.single (.emptied _ _), fun _ => rfl⟩
    · obtain ⟨changes, memory⟩ := s.ledFrom_self.exec e grant fun a b d same => power ⟨a, b, d, same⟩
      exact ⟨changes, fun wf => memory ▸ wf⟩

/-- Settles O53: each change of the ledger keeps the tables canonical, and each burst show memory. -/
theorem tablesStayCanonical : Obligations.TablesStayCanonical := by
  intro s t tables e
  unfold step at e
  split at e
  · cases e
    exact tables
  · obtain ⟨changes, memory⟩ := exec_map_cases e
    obtain ⟨wf, canonical⟩ := tables
    exact ⟨memory wf, Ledger.keeps_of_changes Ledger.Change.canonical changes canonical⟩

/-- Settles O54: each change of the ledger keeps every physical page counted once, and a step is a chain of changes. -/
theorem pagesStayConserved : Obligations.PagesStayConserved := by
  refine ⟨fun s t pages e => ?_, fun s pages => (s.pagesConserved_iff.mp pages).count⟩
  unfold step at e
  split at e
  · cases e
    exact pages
  · obtain ⟨changes, -⟩ := exec_map_cases e
    exact t.pagesConserved_iff.mpr (Ledger.keeps_of_changes Ledger.Change.conserved changes (s.pagesConserved_iff.mp pages))

end Sys2Proof.Machine
end

