-- ==== Sys2Proof/Proofs/MapQueue.lean ====
section
/-!
What the issue of the map-region queue's head, the start of a walk and the opening of a fill make of the station (spec/06,
R114, R117, R125, R127).
-/
namespace Sys2Proof.Machine

/-! ## The issue of the head (R114) -/

section
variable (s : State)

/-- The issue of a head reaches the mark of it and the controller alone. -/
theorem State.issueMap_eq :
    s.issueMap = { s with cm := { s.cm with mapIssued := s.issueMap.cm.mapIssued }, smc := s.issueMap.smc } := by
  unfold State.issueMap
  split
  · split <;> rfl
  · rfl

theorem State.issueMap_within : s.issueMap = { s with cm := s.issueMap.cm, smc := s.issueMap.smc } := by
  unfold State.issueMap
  split
  · split <;> rfl
  · rfl

theorem State.issueMap_cm : s.issueMap.cm = { s.cm with mapIssued := s.issueMap.cm.mapIssued } :=
  congrArg (fun x => x.cm) s.issueMap_eq

@[simp] theorem State.issueMap_mapQ : s.issueMap.cm.mapQ = s.cm.mapQ := congrArg (fun x => x.mapQ) s.issueMap_cm
@[simp] theorem State.issueMap_pages : s.issueMap.cm.pages = s.cm.pages := congrArg (fun x => x.pages) s.issueMap_cm
@[simp] theorem State.issueMap_dir : s.issueMap.cm.dir = s.cm.dir := congrArg (fun x => x.dir) s.issueMap_cm
@[simp] theorem State.issueMap_cache : s.issueMap.cm.cache = s.cm.cache := congrArg (fun x => x.cache) s.issueMap_cm
@[simp] theorem State.issueMap_fills : s.issueMap.cm.fills = s.cm.fills := congrArg (fun x => x.fills) s.issueMap_cm
@[simp] theorem State.issueMap_serves : s.issueMap.cm.serves = s.cm.serves := congrArg (fun x => x.serves) s.issueMap_cm
@[simp] theorem State.issueMap_taken : s.issueMap.cm.taken = s.cm.taken := congrArg (fun x => x.taken) s.issueMap_cm
@[simp] theorem State.issueMap_waiting : s.issueMap.cm.waiting = s.cm.waiting := congrArg (fun x => x.waiting) s.issueMap_cm
@[simp] theorem State.issueMap_intake : s.issueMap.cm.intake = s.cm.intake := congrArg (fun x => x.intake) s.issueMap_cm
@[simp] theorem State.issueMap_chunk : s.issueMap.cm.chunk = s.cm.chunk := congrArg (fun x => x.chunk) s.issueMap_cm
@[simp] theorem State.issueMap_tableWrites : s.issueMap.cm.tableWrites = s.cm.tableWrites :=
  Cm.tableWrites_of_writesQueued s.issueMap_writesQueued
@[simp] theorem State.issueMap_tbu : s.issueMap.tbu = s.tbu := congrArg (fun x => x.tbu) s.issueMap_eq
@[simp] theorem State.issueMap_ce : s.issueMap.ce = s.ce := congrArg (fun x => x.ce) s.issueMap_eq
@[simp] theorem State.issueMap_au : s.issueMap.au = s.au := congrArg (fun x => x.au) s.issueMap_eq

@[simp] theorem State.issueMap_mem : s.issueMap.smc.mem = s.smc.mem :=
  State.mem_of_outer (State.outer_of_aside s.issueMap_aside)
end

/-! ## Page table entries (R113) -/

theorem Cm.pageState_of_get? {c : Cm} {g q : Nat} {e : Pte} (h : Table.get? c.pages (pageKey g q) = some e) :
    c.pageState g q = e.state := by
  simp [Cm.pageState, h]

theorem Cm.get?_setPage {st : PageState} (held : st ≠ .absent) (c : Cm) (g q p : Nat) :
    Table.get? (c.setPage g q st p).pages (pageKey g q) = some { state := st, phys := p } := by
  unfold Cm.setPage Cm.touch
  rw [if_neg held]
  exact Table.get?_put_same ..

/-! ## Walks (R117) -/

/-- An entry of the queue that is the walk for page `q` of segment `g`. -/
def MapEntry.walks (g q : Nat) : MapEntry → Bool
  | .walk w => w.segment == g && w.page == q
  | .write _ => false

/-- The entry with the asker joined, where it is the walk for the page. -/
def MapEntry.join (a : Asker) (g q : Nat) : MapEntry → MapEntry
  | .walk w => if (MapEntry.walk w).walks g q then .walk { w with askers := w.askers ++ [a] } else .walk w
  | .write w => .write w

theorem Cm.addWalk_eq (c : Cm) (a : Asker) (g q : Nat) : c.addWalk a g q =
    if c.mapQ.any (MapEntry.walks g q) then { c with mapQ := c.mapQ.map (MapEntry.join a g q) }
    else { c with mapQ := c.mapQ ++ [.walk { segment := g, page := q, askers := [a], stale := false, second := false }] } :=
  rfl

theorem MapEntry.write?_join (a : Asker) (g q : Nat) (e : MapEntry) : (e.join a g q).write? = e.write? := by
  cases e with
  | write w => rfl
  | walk w =>
    simp only [MapEntry.join]
    split <;> rfl

/-- A walk joined or queued reaches the queue alone, and none of its table writes. -/
theorem Cm.addWalk_keeps (c : Cm) (a : Asker) (g q : Nat) :
    c.addWalk a g q = { c with mapQ := (c.addWalk a g q).mapQ } ∧ (c.addWalk a g q).writesQueued = c.writesQueued := by
  rw [Cm.addWalk_eq]
  split
  · refine ⟨rfl, ?_⟩
    rw [Cm.writesQueued_eq, Cm.writesQueued_eq, List.filterMap_map]
    exact congrArg (fun f => c.mapQ.filterMap f) (funext fun e => e.write?_join a g q)
  · refine ⟨rfl, ?_⟩
    rw [Cm.writesQueued_eq, Cm.writesQueued_eq, List.filterMap_append]
    simp [MapEntry.write?]

/-- The lookup that missed stands among the askers of the page's walk. -/
theorem Cm.addWalk_carries (c : Cm) (a : Asker) (g q : Nat) :
    ∃ w : Walk, .walk w ∈ (c.addWalk a g q).mapQ ∧ w.segment = g ∧ w.page = q ∧ a ∈ w.askers := by
  rw [Cm.addWalk_eq]
  split
  · rename_i stands
    obtain ⟨e, queued, ours⟩ := List.any_eq_true.mp stands
    cases e with
    | write w => simp [MapEntry.walks] at ours
    | walk w =>
      obtain ⟨segment, page⟩ : w.segment = g ∧ w.page = q := by simpa [MapEntry.walks] using ours
      refine ⟨{ w with askers := w.askers ++ [a] }, ?_, segment, page, by simp⟩
      exact List.mem_map.mpr ⟨.walk w, queued, by simp [MapEntry.join, ours]⟩
  · exact ⟨_, List.mem_append_right _ (List.mem_singleton.mpr rfl), rfl, rfl, List.mem_singleton.mpr rfl⟩

/-! ## A fill opened (R125, R127) -/

section
variable (s : State) (g q p : Nat) (fetch : Bool)

/-- A fill reaches the content map, and the controller by the issue of its table write. -/
theorem State.openFill_keeps : s.openFill g q p fetch =
    { s with cm := (s.openFill g q p fetch).cm, smc := (s.openFill g q p fetch).smc } := by
  rw [State.openFill_eq]
  exact State.issueMap_within (s.onCm fun c => c.withFill (s.newFill g q p fetch))

@[simp] theorem State.openFill_fills : (s.openFill g q p fetch).cm.fills = s.cm.fills ++ [s.newFill g q p fetch] := by
  rw [State.openFill_eq, State.issueMap_fills]
  rfl

theorem State.openFill_entry : Table.get? (s.openFill g q p fetch).cm.pages (pageKey g q) =
    some { state := .filling, phys := p } := by
  rw [State.openFill_eq, State.issueMap_pages]
  exact Cm.get?_setPage (st := .filling) (by decide) (s.cm.take p) g q p

theorem State.openFill_tableWrites : (s.openFill g q p fetch).cm.tableWrites = s.cm.tableWrites + 1 := by
  have queued : (s.cm.withFill (s.newFill g q p fetch)).tableWrites = s.cm.tableWrites + 1 :=
    (Cm.queueWrites_tableWrites ((s.cm.take p).setPage g q .filling p) [] [pageKey g q]).trans (by
      rw [Cm.setPage_tableWrites]
      rfl)
  rw [State.openFill_eq, State.issueMap_tableWrites]
  exact queued

@[simp] theorem State.openFill_dir : (s.openFill g q p fetch).cm.dir = s.cm.dir := by
  rw [State.openFill_eq, State.issueMap_dir]
  rfl

theorem State.openFill_intake : (s.openFill g q p fetch).cm.intake = s.cm.intake := by
  rw [State.openFill_eq, State.issueMap_intake]
  rfl

@[simp] theorem State.openFill_mem : (s.openFill g q p fetch).smc.mem = s.smc.mem := by
  rw [State.openFill_eq, State.issueMap_mem]
  rfl
end

end Sys2Proof.Machine
end

