-- ==== Sys2Proof/Proofs/Lookups.lean ====
section
/-!
O29: the answers of a lookup, the start of a fetch, and the order in which owed page requests take their places (spec/06,
R115 to R117, R127, R128).
-/
namespace Sys2Proof.Machine

/-! ## The first of a list's candidates -/

/-- `o` is a candidate of `l` that none goes before by `key`, or no candidate is there. -/
def IsFirst {α β : Type} [LE β] (p : α → Prop) (key : α → β) (l : List α) : Option α → Prop
  | none => ∀ x ∈ l, ¬ p x
  | some f => f ∈ l ∧ p f ∧ ∀ x ∈ l, p x → key f ≤ key x

/-- A fold that keeps the candidate in hand unless one goes before it ends with the first. -/
theorem isFirst_foldl {α β : Type} [LinearOrder β] {p : α → Prop} {key : α → β} {step : Option α → α → Option α}
    (skip : ∀ o f, ¬ p f → step o f = o) (take : ∀ f, p f → step none f = some f)
    (before : ∀ b f, p f → key f < key b → step (some b) f = some f)
    (keep : ∀ b f, p f → ¬ key f < key b → step (some b) f = some b) (l : List α) :
    IsFirst p key l (l.foldl step none) := by
  induction l using List.reverseRecOn with
  | nil => exact fun x hx => absurd hx List.not_mem_nil
  | append_singleton l f ih =>
    rw [List.foldl_append, List.foldl_cons, List.foldl_nil]
    generalize l.foldl step none = o at ih
    by_cases hf : p f
    · cases o with
      | none =>
        rw [take f hf]
        refine ⟨by simp, hf, fun x hx px => ?_⟩
        rcases List.mem_append.mp hx with old | new
        · exact absurd px (ih x old)
        · exact (List.mem_singleton.mp new) ▸ le_rfl
      | some b =>
        obtain ⟨hb, pb, least⟩ := ih
        by_cases lt : key f < key b
        · rw [before b f hf lt]
          refine ⟨by simp, hf, fun x hx px => ?_⟩
          rcases List.mem_append.mp hx with old | new
          · exact lt.le.trans (least x old px)
          · exact (List.mem_singleton.mp new) ▸ le_rfl
        · rw [keep b f hf lt]
          refine ⟨List.mem_append_left _ hb, pb, fun x hx px => ?_⟩
          rcases List.mem_append.mp hx with old | new
          · exact least x old px
          · exact (List.mem_singleton.mp new) ▸ not_lt.mp lt
    · rw [skip o f hf]
      cases o with
      | none =>
        intro x hx
        rcases List.mem_append.mp hx with old | new
        · exact ih x old
        · exact (List.mem_singleton.mp new) ▸ hf
      | some b =>
        obtain ⟨hb, pb, least⟩ := ih
        refine ⟨List.mem_append_left _ hb, pb, fun x hx px => ?_⟩
        rcases List.mem_append.mp hx with old | new
        · exact least x old px
        · exact absurd ((List.mem_singleton.mp new) ▸ px) hf

/-! ## Owed requests (R128) -/

/-- The request of a record is owed and has no place in the FETCH queue. -/
def Fill.unplaced (f : Fill) : Prop := f.owed = true ∧ f.queued = false

/-- The order in which owed requests take their places: the moment, then the segment and page. -/
def Fill.order (f : Fill) : Nat ×ₗ Nat := toLex (f.owedAt, pageKey f.segment f.page)

theorem Fill.owedBefore_iff (f b : Fill) : f.owedBefore b = true ↔ f.order < b.order := by
  simp [Fill.owedBefore, Fill.order, Prod.Lex.lt_iff]

theorem Cm.nextOwed_isFirst (c : Cm) : IsFirst Fill.unplaced Fill.order c.fills c.nextOwed := by
  refine isFirst_foldl (fun o f out => ?_) (fun f owed => ?_) (fun b f owed lt => ?_) (fun b f owed ge => ?_) c.fills
  · exact if_neg (by simpa [Fill.unplaced] using out)
  · exact if_pos (by simpa [Fill.unplaced] using owed)
  · exact (if_pos (by simpa [Fill.unplaced] using owed)).trans (if_pos ((f.owedBefore_iff b).mpr lt))
  · exact (if_pos (by simpa [Fill.unplaced] using owed)).trans (if_neg fun earlier => ge ((f.owedBefore_iff b).mp earlier))

theorem Cm.nextOwed_some {c : Cm} {f : Fill} (h : c.nextOwed = some f) : f ∈ c.fills ∧ f.unplaced ∧
    ∀ x ∈ c.fills, x.unplaced → f.order ≤ x.order := by
  simpa [h, IsFirst] using c.nextOwed_isFirst

theorem Cm.nextOwed_none {c : Cm} (h : c.nextOwed = none) : ∀ x ∈ c.fills, x.owed = true → x.queued = true := by
  have empty : ∀ x ∈ c.fills, ¬ x.unplaced := by simpa [h, IsFirst] using c.nextOwed_isFirst
  intro x hx owed
  simpa [Fill.unplaced, owed] using empty x hx

theorem Fill.order_le_iff (f x : Fill) : f.order ≤ x.order ↔
    f.owedAt < x.owedAt ∨ (f.owedAt = x.owedAt ∧ 64 * f.segment + f.page ≤ 64 * x.segment + x.page) := by
  simp [Fill.order, Prod.Lex.le_iff, pageKey]

/-! ## Places in the FETCH queue (R128) -/

section
variable (s : State)

/-- What the placing of owed requests reaches. -/
def State.Placed (s t : State) : Prop :=
  t = { s with cm := { s.cm with fills := t.cm.fills }, liu := { s.liu with fetchQ := t.liu.fetchQ } }

/-- Nothing is placed where the queue is full or no request waits, and one request otherwise. -/
theorem State.queueRequest_cases :
    (s.queueRequest = s ∧ (2 ≤ s.liu.fetchQ.length ∨ s.cm.nextOwed = none)) ∨
      (s.liu.fetchQ.length < 2 ∧ s.cm.nextOwed ≠ none ∧ s.Placed s.queueRequest ∧
        ∃ r, s.queueRequest.liu.fetchQ = s.liu.fetchQ ++ [r]) := by
  unfold State.queueRequest
  split
  · split
    · rename_i room _ f owed
      exact .inr ⟨room, by simp [owed], rfl, _, rfl⟩
    · exact .inl ⟨rfl, .inr ‹_›⟩
  · exact .inl ⟨rfl, .inl (by omega)⟩

theorem State.queueRequest_placed : s.Placed s.queueRequest ∧ ∃ q, s.queueRequest.liu.fetchQ = s.liu.fetchQ ++ q ∧
    (s.liu.fetchQ.length ≤ 2 → s.queueRequest.liu.fetchQ.length ≤ 2) := by
  rcases s.queueRequest_cases with ⟨same, -⟩ | ⟨room, -, placed, r, queue⟩
  · rw [same]
    exact ⟨rfl, [], by simp, id⟩
  · exact ⟨placed, [r], queue, fun _ => by rw [queue, List.length_append, List.length_singleton]; omega⟩

theorem State.Placed.trans {s t u : State} (first : s.Placed t) (second : t.Placed u) : s.Placed u := by
  unfold State.Placed at first second ⊢
  rw [second, first]

theorem State.queueRequests_placed : s.Placed s.queueRequests ∧ ∃ q, s.queueRequests.liu.fetchQ = s.liu.fetchQ ++ q ∧
    (s.liu.fetchQ.length ≤ 2 → s.queueRequests.liu.fetchQ.length ≤ 2) := by
  obtain ⟨placed, q, queue, room⟩ := s.queueRequest_placed
  obtain ⟨placed', q', queue', room'⟩ := s.queueRequest.queueRequest_placed
  exact ⟨placed.trans placed', q ++ q', by rw [← List.append_assoc, ← queue]; exact queue', fun h => room' (room h)⟩

/-- Where a place stays free, no owed request is left without one. -/
theorem State.queueRequests_serves (free : s.queueRequests.liu.fetchQ.length < 2) :
    s.queueRequests.cm.nextOwed = none := by
  have two : s.queueRequests = s.queueRequest.queueRequest := rfl
  rcases s.queueRequest.queueRequest_cases with ⟨same, full | empty⟩ | ⟨room, waits, -, r, queue⟩
  · rw [two, same] at free
    omega
  · rw [two, same]
    exact empty
  · rw [two, queue, List.length_append, List.length_singleton] at free
    rcases s.queueRequest_cases with ⟨same, full | empty⟩ | ⟨_, _, _, r', queue'⟩
    · rw [same] at free
      omega
    · rw [same] at waits
      exact absurd empty waits
    · rw [queue', List.length_append, List.length_singleton] at free
      omega
end

/-! ## The checks of a lookup (R115) -/

section
variable {s : State} {g : Nat} {e : DirEntry} (entry : s.cm.entry g = some e)
include entry

theorem State.lookup_mismatch (who : Asker) (off : Nat) {k : SegType} (other : e.kind ≠ k) :
    s.lookup who g off k = (s, .typeMismatch) := by
  simp [State.lookup, entry, other]

theorem State.lookup_past (who : Asker) {off : Nat} (past : e.length ≤ off) :
    s.lookup who g off e.kind = (s, .endOf) := by
  simp [State.lookup, entry, past]

variable (who : Asker) {off : Nat} (within : off < e.length)
include within

theorem State.lookup_filling (state : s.cm.pageState g (off / 16384) = .filling) :
    s.lookup who g off e.kind = (s, .wait) := by
  simp [State.lookup, entry, Nat.not_le.mpr within, state]

theorem State.lookup_unavailable (state : s.cm.pageState g (off / 16384) = .unavailable) :
    s.lookup who g off e.kind = (s, .unavailable) := by
  simp [State.lookup, entry, Nat.not_le.mpr within, state]

theorem State.lookup_cached {c : CacheEntry} (state : s.cm.pageState g (off / 16384) = .present)
    (cached : s.cm.cached g (off / 16384) = some c) :
    s.lookup who g off e.kind = (s.onCm fun m => m.useEntry c, .address c.phys) := by
  simp [State.lookup, entry, Nat.not_le.mpr within, state, cached]

theorem State.lookup_missed (state : s.cm.pageState g (off / 16384) = .present)
    (missed : s.cm.cached g (off / 16384) = none) :
    s.lookup who g off e.kind = ((s.onCm fun m => m.addWalk who g (off / 16384)).issueMap, .walking) := by
  simp [State.lookup, entry, Nat.not_le.mpr within, state, missed]

theorem State.lookup_absent (state : s.cm.pageState g (off / 16384) = .absent) :
    s.lookup who g off e.kind = (s.startFetch g (off / 16384), .wait) := by
  simp [State.lookup, entry, Nat.not_le.mpr within, state]
end

/-! ## The effects of a lookup -/

theorem Cm.mem_useEntry {c : Cm} {e x : CacheEntry} (held : e ∈ c.cache) (hx : x ∈ (c.useEntry e).cache) : x ∈ c.cache := by
  rcases List.mem_cons.mp hx with rfl | rest
  · exact held
  · exact List.mem_of_mem_filter rest

/-- A miss queues or joins a walk, and the issue of the queue's head may follow (R117). -/
theorem State.addWalk_issued (s : State) (who : Asker) (g q : Nat) :
    let t := (s.onCm fun c => c.addWalk who g q).issueMap
    (∃ w : Walk, .walk w ∈ t.cm.mapQ ∧ w.segment = g ∧ w.page = q ∧ who ∈ w.askers) ∧
      t.cm.writesQueued = s.cm.writesQueued ∧ t.cm.cache = s.cm.cache ∧
      t = { s with cm := { s.cm with mapQ := t.cm.mapQ, mapIssued := t.cm.mapIssued }, smc := t.smc } := by
  obtain ⟨queueOnly, writes⟩ := s.cm.addWalk_keeps who g q
  dsimp only
  refine ⟨?_, ?_, ?_, ?_⟩
  · rw [State.issueMap_mapQ]
    exact s.cm.addWalk_carries who g q
  · rw [State.issueMap_writesQueued]
    exact writes
  · rw [State.issueMap_cache]
    exact congrArg (fun x => x.cache) queueOnly
  · rw [State.issueMap_mapQ]
    have queued : (s.onCm fun c => c.addWalk who g q) = { s with cm := { s.cm with mapQ := (s.cm.addWalk who g q).mapQ } } :=
      congrArg (fun c => ({ s with cm := c } : State)) queueOnly
    rw [queued]
    exact State.issueMap_eq _

theorem State.startFetch_refused {s : State} (g q : Nat) (h : 8 ≤ s.cm.fills.length ∨ 64 ≤ s.cm.tableWrites) :
    s.startFetch g q = s := if_pos h

section
variable {s : State} (g q : Nat) (records : s.cm.fills.length < 8) (places : s.cm.tableWrites < 64)
include records places

theorem State.startFetch_opens {p : Nat} (free : s.cm.lowestFree = some p) : s.startFetch g q = s.openFill g q p true := by
  unfold State.startFetch
  rw [if_neg (by omega), free]

theorem State.startFetch_full (full : s.cm.lowestFree = none) : s.startFetch g q = s.raiseStoreFull g q := by
  unfold State.startFetch
  rw [if_neg (by omega), full]
end

/-- Settles O29, check by check of a lookup, and then by the first of the owed requests. -/
theorem lookupsAnswered : Obligations.LookupsAnswered := by
  refine ⟨fun s who g off k => ⟨fun undefined => by simp [State.lookup, undefined], fun e entry => ?_⟩,
    fun c f h => ?_, fun c h => Cm.nextOwed_none h, fun s _ => ?_⟩
  · refine ⟨fun other => State.lookup_mismatch entry who off other, ?_, ?_⟩
    · rintro rfl past
      exact State.lookup_past entry who past
    · rintro rfl within
      refine ⟨fun state => State.lookup_filling entry who within state,
        fun state => State.lookup_unavailable entry who within state, fun c state cached => ?_, fun state missed => ?_,
        fun p state records places free => ?_, fun state lacking => ?_, fun state records places full => ?_⟩
      · exact ⟨_, State.lookup_cached entry who within state cached, rfl,
          fun x => Cm.mem_useEntry (Cm.mem_of_cached cached), rfl⟩
      · exact ⟨_, State.lookup_missed entry who within state missed, s.addWalk_issued who g _⟩
      · have answer := State.lookup_absent entry who within state
        rw [State.startFetch_opens g _ records places free] at answer
        exact ⟨_, s.newFill g (off / 16384) p true, answer, s.openFill_fills .., rfl, rfl, rfl, rfl, rfl, rfl, rfl, rfl, rfl,
          rfl, rfl, s.openFill_entry .., s.openFill_tableWrites .., s.openFill_dir .., s.openFill_mem ..,
          s.openFill_keeps ..⟩
      · rw [State.lookup_absent entry who within state, State.startFetch_refused g _ lacking]
      · have answer := State.lookup_absent entry who within state
        rw [State.startFetch_full g _ records places full] at answer
        exact ⟨_, answer, State.faultCount_raise_same .storeFull s _, rfl⟩
  · obtain ⟨record, ⟨owed, unqueued⟩, first⟩ := Cm.nextOwed_some h
    exact ⟨record, owed, unqueued, fun x hx owed unqueued => (f.order_le_iff x).mp (first x hx ⟨owed, unqueued⟩)⟩
  · obtain ⟨placed, q, queue, room⟩ := s.queueRequests_placed
    refine ⟨q, queue, room, fun free => Cm.nextOwed_none (s.queueRequests_serves free), ?_⟩
    have e := placed
    unfold State.Placed at e
    rw [e]

end Sys2Proof.Machine
end

