-- ==== Sys2Proof/Proofs/MapAccess.lean ====
section
/-!
O30: the completions of the map-region queue's accesses (spec/06, R114, R116, R117).
-/
namespace Sys2Proof.Machine

/-! ## The head done (R114) -/

section
variable (s : State)

@[simp] theorem State.popMap_mapQ : s.popMap.cm.mapQ = s.cm.mapQ.drop 1 := State.issueMap_mapQ _
@[simp] theorem State.popMap_cache : s.popMap.cm.cache = s.cm.cache := State.issueMap_cache _
@[simp] theorem State.popMap_pages : s.popMap.cm.pages = s.cm.pages := State.issueMap_pages _
@[simp] theorem State.popMap_dir : s.popMap.cm.dir = s.cm.dir := State.issueMap_dir _
@[simp] theorem State.popMap_init : s.popMap.cm.init = s.cm.init := State.issueMap_init _
@[simp] theorem State.popMap_mem : s.popMap.smc.mem = s.smc.mem := State.issueMap_mem _
@[simp] theorem State.popMap_tbu : s.popMap.tbu = s.tbu := State.issueMap_tbu _
@[simp] theorem State.popMap_ce : s.popMap.ce = s.ce := State.issueMap_ce _
@[simp] theorem State.popMap_au : s.popMap.au = s.au := State.issueMap_au _

theorem State.popMap_within : s.popMap = { s with cm := s.popMap.cm, smc := s.popMap.smc } :=
  State.issueMap_within (s.onCm fun c => { c with mapQ := c.mapQ.drop 1, mapIssued := false })
end

/-! ## The map cache (R116) -/

section
variable (c : Cm) (e : CacheEntry)

theorem Cm.install_new (new : c.cached e.segment e.page = none) :
    c.install e = { c with cache := e :: c.cache.take 15 } := by
  unfold Cm.install
  rw [new]

/-- The page's entry is the most recently used after a walk, the walk's own or the one gained meanwhile. -/
theorem Cm.install_head : ((c.install e).cache.head?.map fun x => (x.segment, x.page)) = some (e.segment, e.page) := by
  unfold Cm.install
  split
  · rename_i x found
    obtain ⟨segment, page⟩ : x.segment = e.segment ∧ x.page = e.page := by simpa using List.find?_some found
    simp [Cm.useEntry, segment, page]
  · rfl

theorem Cm.install_length (room : c.cache.length ≤ 16) : (c.install e).cache.length ≤ 16 := by
  unfold Cm.install
  split
  · exact (Cm.useEntry_cache_length (Cm.mem_of_cached ‹_›)).trans room
  · exact Nat.succ_le_succ (List.length_take_le 15 _)

theorem Cm.install_keeps : c.install e = { c with cache := (c.install e).cache } := by
  unfold Cm.install
  split <;> rfl

theorem Cm.install_mapQ : (c.install e).mapQ = c.mapQ := congrArg (fun x => x.mapQ) (c.install_keeps e)
theorem Cm.install_pages : (c.install e).pages = c.pages := congrArg (fun x => x.pages) (c.install_keeps e)
theorem Cm.install_dir : (c.install e).dir = c.dir := congrArg (fun x => x.dir) (c.install_keeps e)
end

/-- The physical page stands in bytes 2 and 3 of the page's entry in the piece read (R114). -/
theorem Cm.walked_phys (c : Cm) (w : Walk) (bytes : List Byte) :
    (c.walked w bytes).phys = beNat ((bytes.drop (4 * ((64 * w.segment + w.page) % 4) + 2)).take 2) := by
  simp [Cm.walked, ptePhys, pageKey, List.drop_take, List.take_take]

/-! ## Completions at the head of the queue -/

section
variable {s : State} {w : Walk} {rest : List MapEntry} {r : Report} (report : s.smc.reportOf .walk = some r)
include report

theorem exec_walkComplete (head : s.cm.mapQ = .walk w :: rest) (second : w.second = true) :
    exec .walkComplete s = .next ((s.onSmc fun m => m.dropReport .walk).walkDone w r.bytes) := by
  have reads : s.cm.secondRead = some w := by simp [Cm.secondRead, head, second]
  show execWalkComplete s = _
  unfold execWalkComplete
  rw [reads]
  exact congrArg Host.Outcome.next (State.completion_of_report report _)

theorem exec_mapRegionAccessComplete (first : s.cm.secondRead = none) :
    exec .mapRegionAccessComplete s = .next (s.onSmc fun m => m.dropReport .walk).mapAccessDone := by
  show execMapRegionAccessComplete s = _
  unfold execMapRegionAccessComplete
  rw [first]
  exact congrArg Host.Outcome.next (State.completion_of_report report fun s _ => s.mapAccessDone)
end

/-- A table write done counts for the initialisation when it is one of it (R135). -/
def Cm.written (w : TableWrite) (c : Cm) : Cm :=
  if w.init then
    { c with init := match c.init with
      | .left n => .left (n - 1)
      | .waiting => .waiting }
  else c

section
variable (w : TableWrite) (c : Cm)

theorem Cm.written_keeps : c.written w = { c with init := (c.written w).init } := by
  unfold Cm.written
  split <;> rfl

theorem Cm.written_mapQ : (c.written w).mapQ = c.mapQ := congrArg (fun x => x.mapQ) (c.written_keeps w)
theorem Cm.written_pages : (c.written w).pages = c.pages := congrArg (fun x => x.pages) (c.written_keeps w)
theorem Cm.written_dir : (c.written w).dir = c.dir := congrArg (fun x => x.dir) (c.written_keeps w)
theorem Cm.written_cache : (c.written w).cache = c.cache := congrArg (fun x => x.cache) (c.written_keeps w)

theorem Cm.written_init {n : Nat} (left : c.init = .left n) :
    (c.written w).init = .left (if w.init then n - 1 else n) := by
  unfold Cm.written
  split <;> simp [left]
end

/-- A table write done leaves the queue (R114). -/
theorem State.mapAccessDone_write {s : State} {w : TableWrite} {rest : List MapEntry}
    (head : s.cm.mapQ = .write w :: rest) : s.mapAccessDone = (s.onCm (Cm.written w)).popMap := by
  unfold State.mapAccessDone
  rw [head]
  rfl

/-- A walk's first read done leads to its second (R117). -/
theorem State.mapAccessDone_walk {s : State} {w : Walk} {rest : List MapEntry} (head : s.cm.mapQ = .walk w :: rest)
    (asked : w.askers ≠ []) : s.mapAccessDone =
      (s.onCm fun c => { c with mapQ := .walk { w with second := true } :: rest, mapIssued := false }).issueMap := by
  unfold State.mapAccessDone
  rw [head]
  exact if_neg (by simpa using asked)

/-- Settles O30: a walk's second read, stale or not, a table write, and a walk's first read. -/
theorem mapRegionAccessesComplete : Obligations.MapRegionAccessesComplete := by
  refine ⟨fun s w rest r head second report fresh room => ?_, fun s w rest r head second report stale => ?_,
    fun s w rest r head report => ?_, fun s w rest r head first asked report => ?_⟩
  · have done := exec_walkComplete report head second
    simp only [State.walkDone, fresh, Bool.false_eq_true, if_false] at done
    refine ⟨_, _, done, Cm.walked_phys .., Cm.install_head .., Cm.install_length _ _ (by simpa using room),
      fun new => ?_, (Cm.install_mapQ _ _).trans (by simp [head]), (Cm.install_pages _ _).trans (by simp),
      (Cm.install_dir _ _).trans (by simp), ?_, ?_, ?_, ?_⟩
    · rw [State.onCm_cm, Cm.install_new _ _ (by simpa [Cm.cached, Cm.walked] using new)]
      rfl
    · exact State.popMap_mem _
    all_goals simp
  · have done := exec_walkComplete report head second
    simp only [State.walkDone, stale, if_true] at done
    exact ⟨_, done, by simp, by simp [head], by simp, by simp; rfl⟩
  · have done := exec_mapRegionAccessComplete report (by simp [Cm.secondRead, head])
    rw [State.mapAccessDone_write (s := s.onSmc _) head] at done
    refine ⟨_, done, ?_, fun n left => ?_, ?_, ?_, ?_, State.popMap_mem _, State.popMap_within _⟩
    · simp [Cm.written_mapQ, head]
    · simpa using Cm.written_init w s.cm left
    · simp [Cm.written_pages]
    · simp [Cm.written_dir]
    · simp [Cm.written_cache]
  · have done := exec_mapRegionAccessComplete report (by simp [Cm.secondRead, head, first])
    rw [State.mapAccessDone_walk (s := s.onSmc _) head asked] at done
    exact ⟨_, done, State.issueMap_mapQ _, State.issueMap_cache _, State.issueMap_mem _, State.issueMap_within _⟩

end Sys2Proof.Machine
end

