-- ==== Sys2Proof/Proofs/PageChanges.lean ====
section
/-!
O31: a page becomes PRESENT (spec/06, R114, R126).
-/
namespace Sys2Proof.Machine

section
variable {s : State} {f : Fill} (found : s.cm.fillById f.id = some f)
include found

/-- The change to PRESENT: the entry with its table write, the record freed (R126). -/
theorem State.applyChange_present : s.applyChange (.present f.id) =
    ((s.onCm fun c => (c.setPage f.segment f.page .present f.phys).queueWrites [] [pageKey f.segment f.page]).freeFill
      f.id).issueMap := by
  simp only [State.applyChange, found]

theorem State.applyChange_present_entry :
    Table.get? (s.applyChange (.present f.id)).cm.pages (pageKey f.segment f.page) =
      some { state := .present, phys := f.phys } := by
  rw [State.applyChange_present found, State.issueMap_pages]
  exact Cm.get?_setPage (st := .present) (by decide) s.cm f.segment f.page f.phys

theorem State.applyChange_present_freed : ∀ x ∈ (s.applyChange (.present f.id)).cm.fills, x.id ≠ f.id := by
  rw [State.applyChange_present found, State.issueMap_fills]
  intro x hx
  simpa using (List.mem_filter.mp hx).2

theorem State.applyChange_present_taken : (s.applyChange (.present f.id)).cm.taken = s.cm.taken := by
  rw [State.applyChange_present found, State.issueMap_taken]
  rfl

theorem State.applyChange_present_dir : (s.applyChange (.present f.id)).cm.dir = s.cm.dir := by
  rw [State.applyChange_present found, State.issueMap_dir]
  rfl

theorem State.applyChange_present_chunk : (s.applyChange (.present f.id)).cm.chunk = s.cm.chunk := by
  rw [State.applyChange_present found, State.issueMap_chunk]
  rfl

theorem State.applyChange_present_waiting : (s.applyChange (.present f.id)).cm.waiting = s.cm.waiting := by
  rw [State.applyChange_present found, State.issueMap_waiting]
  rfl

theorem State.applyChange_present_mem : (s.applyChange (.present f.id)).smc.mem = s.smc.mem := by
  rw [State.applyChange_present found, State.issueMap_mem]
  rfl

theorem State.applyChange_present_others : (s.applyChange (.present f.id)).tbu = s.tbu ∧
    (s.applyChange (.present f.id)).au = s.au ∧ (s.applyChange (.present f.id)).ce = s.ce := by
  rw [State.applyChange_present found]
  exact ⟨State.issueMap_tbu _, State.issueMap_au _, State.issueMap_ce _⟩
end

theorem State.makeChange_at_once {s : State} (free : s.cm.waiting = []) (place : s.cm.tableWrites < 64) (x : Change) :
    s.makeChange x = s.applyChange x :=
  if_pos ⟨by simp [free], place⟩

/-! ## The write of a chunk completes (R126) -/

/-- The state with the write of a chunk acted on. -/
def State.chunkWritten (s : State) : State :=
  (s.onSmc fun m => m.dropReport .content).onCm fun c => { c with chunk := none }

section
variable {s : State} {r : Report} {f : Fill} (report : s.smc.reportOf .content = some r)
  (chunk : s.cm.chunk = some f.id) (found : s.cm.fillById f.id = some f)
include report chunk found

theorem exec_chunkWriteComplete_last (full : f.received = BitVec.allOnes 256) :
    exec .chunkWriteComplete s = .next (s.chunkWritten.makeChange (.present f.id)) := by
  refine congrArg Host.Outcome.next ((State.completion_of_report report fun s _ => s.chunkDone).trans ?_)
  unfold State.chunkDone
  simp only [State.onSmc_cm, chunk, Option.bind_some, found, Option.filter_some, full, beq_self_eq_true, if_true]
  rfl

theorem exec_chunkWriteComplete_earlier (more : f.received ≠ BitVec.allOnes 256) :
    exec .chunkWriteComplete s = .next s.chunkWritten := by
  refine congrArg Host.Outcome.next ((State.completion_of_report report fun s _ => s.chunkDone).trans ?_)
  unfold State.chunkDone
  simp only [State.onSmc_cm, chunk, Option.bind_some, found, Option.filter_some, beq_eq_false_iff_ne.mpr more,
    Bool.false_eq_true, if_false]
  rfl
end

/-! ## A change that waited (R114) -/

theorem exec_queuedChangeApply_made {s : State} {x : Change} {rest : List Change} (live : s.live = true)
    (waits : s.cm.waiting = x :: rest) (place : s.cm.tableWrites < 64) :
    exec .queuedChangeApply s = .next ((s.onCm fun c => { c with waiting := rest }).applyChange x) := by
  show execQueuedChangeApply s = _
  unfold execQueuedChangeApply
  rw [waits]
  simp [live, place]

theorem exec_queuedChangeApply_full {s : State} (full : 64 ≤ s.cm.tableWrites) : exec .queuedChangeApply s = .next s := by
  show execQueuedChangeApply s = _
  unfold execQueuedChangeApply
  split
  · rw [decide_eq_false (by omega), Bool.and_false]
    rfl
  · rfl

/-- Settles O31: the last chunk's write, an earlier one, and the first of the changes that wait. -/
theorem pageBecomesPresent : Obligations.PageBecomesPresent := by
  refine ⟨fun s r f report chunk found full free place => ?_, fun s r f report chunk found more => ?_,
    fun s f rest live waits found place => ?_, fun s full => exec_queuedChangeApply_full full⟩
  · have done := exec_chunkWriteComplete_last report chunk found full
    rw [State.makeChange_at_once (s := s.chunkWritten) free place] at done
    have found : s.chunkWritten.cm.fillById f.id = some f := found
    obtain ⟨tbu, au, ce⟩ := State.applyChange_present_others found
    exact ⟨_, done, State.applyChange_present_chunk found, State.applyChange_present_entry found,
      State.applyChange_present_freed found, State.applyChange_present_taken found, State.applyChange_present_dir found,
      State.applyChange_present_mem found, tbu, au, ce⟩
  · exact ⟨_, exec_chunkWriteComplete_earlier report chunk found more, rfl, rfl, rfl⟩
  · have found : (s.onCm fun c => { c with waiting := rest }).cm.fillById f.id = some f := found
    exact ⟨_, exec_queuedChangeApply_made live waits place, State.applyChange_present_waiting found,
      State.applyChange_present_entry found, State.applyChange_present_freed found,
      State.applyChange_present_taken found, State.applyChange_present_mem found⟩

end Sys2Proof.Machine
end

