-- ==== Sys2Proof/Proofs/Selections.lean ====
section
/-!
O32 and O33: a SHOW_SELECT and a SEGMENT_DEFINE taken from the intake, and the segments they release (spec/06, R121 to R124).
-/
namespace Sys2Proof.Machine

/-! ## Tables -/

/-- The entries of some keys alone are found under those keys alone. -/
theorem Table.get?_filter {α : Type} {t : List (Nat × α)} (h : Table.risesFrom none t = true) (p : Nat → Bool) (k : Nat) :
    Table.get? (t.filter fun e => p e.1) k = if p k then Table.get? t k else none := by
  refine Option.ext fun v => ?_
  rw [Table.get?_eq_some_iff (Table.risesFrom_filter _ h), List.mem_filter, ← Table.get?_eq_some_iff h]
  by_cases hk : p k = true <;> simp [hk]

theorem pageKey_div {q : Nat} (g : Nat) (small : q < 64) : pageKey g q / 64 = g := by
  unfold pageKey
  omega

/-! ## The release of segments (R122) -/

/-- The content map with the segments `gs` released, but for its free page set, map cache and walks. -/
structure Cm.Without (c : Cm) (gs : List Nat) (c' : Cm) : Prop where
  dir : c'.dir = gs.foldl Table.drop c.dir
  pages : c'.pages = c.pages.filter fun e => decide (e.1 / 64 ∉ gs)
  fills : ∀ f ∈ c'.fills, f ∈ c.fills ∧ f.segment ∉ gs
  serves : ∀ r ∈ c'.serves, r ∈ c.serves ∧ r.segment ∉ gs
  intake : c'.intake = c.intake

theorem Cm.Released.without {c c' : Cm} {g : Nat} (h : c.Released g c') : c.Without [g] c' where
  dir := h.dir
  pages := h.pages.trans (congrArg (fun p => c.pages.filter p) (funext fun e => by simp [bne]; rfl))
  fills := fun f hf => by
    obtain ⟨old, kept⟩ := List.mem_filter.mp (h.fills ▸ hf)
    refine ⟨old, fun mine => ?_⟩
    simpa using List.all_eq_true.mp kept f (List.mem_filter.mpr ⟨old, by simpa using mine⟩)
  serves := fun r hr => by
    obtain ⟨old, kept⟩ := List.mem_filter.mp (h.serves ▸ hr)
    refine ⟨old, fun mine => ?_⟩
    simpa using List.all_eq_true.mp kept r (List.mem_filter.mpr ⟨old, by simpa using mine⟩)
  intake := h.intake

theorem Cm.Without.refl (c : Cm) : c.Without [] c where
  dir := rfl
  pages := (List.filter_eq_self.mpr fun e _ => by simp).symm
  fills := fun f hf => ⟨hf, by simp⟩
  serves := fun r hr => ⟨hr, by simp⟩
  intake := rfl

theorem Cm.Without.append {c c' c'' : Cm} {gs gs' : List Nat} (h : c.Without gs c') (h' : c'.Without gs' c'') :
    c.Without (gs ++ gs') c'' where
  dir := by rw [h'.dir, h.dir, List.foldl_append]
  pages := by
    rw [h'.pages, h.pages, List.filter_filter]
    exact congrArg (fun p => c.pages.filter p) (funext fun e => by simp [Bool.and_comm])
  fills := fun f hf => by
    obtain ⟨old, kept⟩ := h'.fills f hf
    obtain ⟨older, kept'⟩ := h.fills f old
    exact ⟨older, by simp [kept, kept']⟩
  serves := fun r hr => by
    obtain ⟨old, kept⟩ := h'.serves r hr
    obtain ⟨older, kept'⟩ := h.serves r old
    exact ⟨older, by simp [kept, kept']⟩
  intake := h'.intake.trans h.intake

theorem State.releaseEach_without (gs : List Nat) (s : State) : s.cm.Without gs (gs.foldl State.releaseOne s).cm := by
  induction gs generalizing s with
  | nil => exact Cm.Without.refl s.cm
  | cons g gs ih => exact (s.releaseOne_released g).without.append (ih (s.releaseOne g))

section
variable (s : State) (gs : List Nat)

theorem State.release_records : (s.release gs).cm.fills = (gs.foldl State.releaseOne s).cm.fills ∧
    (s.release gs).cm.serves = (gs.foldl State.releaseOne s).cm.serves :=
  ⟨State.issueMap_fills _, State.issueMap_serves _⟩

theorem State.release_without : s.cm.Without gs (s.release gs).cm where
  dir := (State.issueMap_dir _).trans (s.releaseEach_without gs).dir
  pages := (State.issueMap_pages _).trans (s.releaseEach_without gs).pages
  fills := fun f hf => (s.releaseEach_without gs).fills f ((s.release_records gs).1 ▸ hf)
  serves := fun r hr => (s.releaseEach_without gs).serves r ((s.release_records gs).2 ▸ hr)
  intake := (State.issueMap_intake _).trans (s.releaseEach_without gs).intake

/-- A release reaches the blocks that hold content alone. -/
theorem State.release_others : (s.release gs).smc.mem = s.smc.mem ∧ (s.release gs).tbu = s.tbu ∧
    (s.release gs).ce = s.ce ∧ (s.release gs).hu = s.hu ∧ (s.release gs).lu = s.lu ∧
    (s.release gs).pending = s.pending := by
  have same := s.release_unsounded gs
  exact ⟨State.mem_of_outer (State.outer_of_aside (s.release_aside gs)), State.tbu_of_unsounded same,
    State.ce_of_unsounded same, State.hu_of_unsounded same, State.lu_of_unsounded same,
    congrArg (fun x => x.pending) same⟩
end

section
variable {c c' : Cm} {gs : List Nat} (h : c.Without gs c')
include h

theorem Cm.Without.entry (rises : Table.risesFrom none c.dir = true) (g : Nat) :
    c'.entry g = if g ∈ gs then none else c.entry g := by
  rw [Cm.entry, h.dir, Table.get?_foldl_drop gs rises]
  rfl

theorem Cm.Without.pageState (rises : Table.risesFrom none c.pages = true) (g : Nat) {q : Nat} (small : q < 64) :
    c'.pageState g q = if g ∈ gs then .absent else c.pageState g q := by
  rw [Cm.pageState, h.pages, Table.get?_filter rises (fun k => decide (k / 64 ∉ gs)), pageKey_div g small]
  by_cases out : g ∈ gs
  · simp [out]
  · simp [out, Cm.pageState]
end

/-! ## The intake (R120) -/

section
variable {s : State} {rest : List ContentFrame} (live : s.live = true) (take : s.cm.mayTake = true)
include live take

theorem exec_showSelectTaken {n : Nat} (head : s.cm.intake = .select n :: rest) :
    exec .showSelectTaken s = .next (s.popIntake.takeSelect n) := by
  show execShowSelectTaken s = _
  unfold execShowSelectTaken
  rw [head]
  simp [live, take]

theorem exec_segmentDefineTaken {f : SegmentDefineFields} (head : s.cm.intake = .define f :: rest) :
    exec .segmentDefineTaken s = .next (s.popIntake.takeDefine f) := by
  show execSegmentDefineTaken s = _
  unfold execSegmentDefineTaken
  rw [head]
  simp [live, take]
end

theorem State.popIntake_eq {s : State} {x : ContentFrame} {rest : List ContentFrame} (head : s.cm.intake = x :: rest) :
    s.popIntake = { s with cm := { s.cm with intake := rest } } := by
  simp only [State.popIntake, State.onCm, head]
  rfl

/-- A frame refused is counted as MAP_FAULT. -/
theorem State.mapFault_counts (s : State) (d : FaultDetail) : (s.mapFault d).cm = s.cm ∧
    (s.mapFault d).faulted .mapFault = true ∧ s.mapFault d = { s with cm := (s.mapFault d).cm, biu := (s.mapFault d).biu } :=
  ⟨rfl, State.faulted_raise .., rfl⟩

/-! ## Shows (R121) -/

theorem Cm.mem_showSegments (c : Cm) (g : Nat) : g ∈ c.showSegments ↔ g < 120 ∧ ∃ e, (g, e) ∈ c.dir := by
  simp [Cm.showSegments, isHouse, and_comm]

section
variable {s : State} {n : Nat}

theorem State.takeSelect_selects (quiet : s.tbu.state = .idle ∨ s.tbu.state = .standby) (shown : n ≤ 119)
    (other : n ≠ s.cm.showId) :
    s.takeSelect n = (s.release s.cm.showSegments).onCm fun c => { c with showId := n } := by
  unfold State.takeSelect
  rw [if_neg (by tauto), if_neg (by omega), if_neg other]

theorem State.takeSelect_ignored
    (h : (s.tbu.state ≠ .idle ∧ s.tbu.state ≠ .standby) ∨ (n ≤ 119 ∧ n = s.cm.showId)) : s.takeSelect n = s := by
  unfold State.takeSelect
  rcases h with running | ⟨shown, same⟩
  · exact if_pos running
  · split
    · rfl
    · exact if_neg (Nat.not_lt.mpr shown)

theorem State.takeSelect_refused (quiet : s.tbu.state = .idle ∨ s.tbu.state = .standby) (above : 119 < n) :
    s.takeSelect n = s.mapFault (.showNo n) := by
  unfold State.takeSelect
  rw [if_neg (by tauto), if_pos above]
end

/-- Settles O32: the show segments released, the frame ignored, the number refused. -/
theorem showSelectionReleases : Obligations.ShowSelectionReleases := by
  refine ⟨fun s n rest live head take quiet shown other canonical => ?_, fun s n rest live head take h => ?_,
    fun s n rest live head take quiet above => ?_⟩
  · obtain ⟨-, dir, pages⟩ := canonical
    have popped := State.popIntake_eq head
    have taken := exec_showSelectTaken live take head
    rw [State.takeSelect_selects (s := s.popIntake) quiet shown other] at taken
    have without : s.popIntake.cm.Without s.cm.showSegments _ := s.popIntake.release_without s.cm.showSegments
    obtain ⟨mem, tbu, ce, hu, lu, pending⟩ := s.popIntake.release_others s.cm.showSegments
    have house : ∀ {g : Nat}, 120 ≤ g → g ∉ s.cm.showSegments := fun h mine =>
      absurd ((s.cm.mem_showSegments _).mp mine).1 (by omega)
    have mine : ∀ {g : Nat}, (s.cm.entry g).isSome = true → g < 120 → g ∈ s.cm.showSegments := by
      intro g defined low
      obtain ⟨e, found⟩ := Option.isSome_iff_exists.mp defined
      exact (s.cm.mem_showSegments g).mpr ⟨low, e, Table.mem_of_get? found⟩
    have gone : ∀ {g : Nat}, g ∉ s.cm.showSegments → (s.cm.entry g).isSome = true → 120 ≤ g := fun out defined =>
      Nat.not_lt.mp fun low => out (mine defined low)
    refine ⟨_, taken, rfl, without.intake.trans (by rw [popped]), fun g low => ?_, fun g high => ?_, fun g q high small => ?_,
      fun g q defined low small => ?_, fun f hf => ?_, fun r hr => ?_, mem, tbu, ce, hu, lu, pending⟩
    · refine (without.entry dir g).trans ?_
      split
      · rfl
      · exact Option.not_isSome_iff_eq_none.mp fun defined => ‹g ∉ _› (mine defined low)
    · exact (without.entry dir g).trans (if_neg (house high))
    · exact (without.pageState pages g small).trans (if_neg (house high))
    · exact (without.pageState pages g small).trans (if_pos (mine defined low))
    · obtain ⟨old, kept⟩ := without.fills f hf
      exact ⟨old, gone kept⟩
    · obtain ⟨old, kept⟩ := without.serves r hr
      exact ⟨old, gone kept⟩
  · rw [exec_showSelectTaken live take head, State.takeSelect_ignored (s := s.popIntake) h, State.popIntake_eq head]
  · have taken := exec_showSelectTaken live take head
    rw [State.takeSelect_refused (s := s.popIntake) quiet above] at taken
    obtain ⟨cm, counted, within⟩ := s.popIntake.mapFault_counts (.showNo n)
    exact ⟨_, taken, cm.trans (by rw [State.popIntake_eq head]), counted, within⟩

/-! ## Definitions (R123, R124) -/

section
variable {s : State} {f : SegmentDefineFields}

theorem State.takeDefine_bearing (bearing : s.tbu.state.bearing = true) : s.takeDefine f = s := by
  unfold State.takeDefine
  exact if_pos bearing

theorem Cm.screenDefine_none {c : Cm} (h : f.reservedSet = true ∨ f.length.toNat = 0 ∨ 1048576 < f.length.toNat ∨
    f.kind.toNat = 3 ∨ c.showMatches f.showId.toNat (segmentOf f) = false) : c.screenDefine f = none := by
  unfold Cm.screenDefine
  split
  · rfl
  · rename_i passes
    simp only [Bool.or_eq_true, beq_iff_eq, decide_eq_true_eq, Bool.not_eq_true', not_or] at passes
    obtain ⟨⟨⟨reserved, empty⟩, long⟩, matched⟩ := passes
    have kind : f.kind.toNat = 3 := by tauto
    rw [kind]
    rfl

variable (quiet : s.tbu.state.bearing = false)
include quiet

theorem State.takeDefine_refused (refused : s.cm.screenDefine f = none) :
    s.takeDefine f = s.mapFault (.segment (segmentOf f)) := by
  unfold State.takeDefine
  simp [quiet, refused]

variable {k : SegType} (screened : s.cm.screenDefine f = some k)
include screened

theorem State.takeDefine_elsewhere (elsewhere : concerns f k s.own = false) :
    s.takeDefine f = s.releaseIfDefined (segmentOf f) := by
  unfold State.takeDefine
  simp [quiet, screened, elsewhere]

variable (here : concerns f k s.own = true)
include here

theorem State.takeDefine_repeats (same : s.cm.entry (segmentOf f) = some (dirEntryOf f k)) : s.takeDefine f = s := by
  unfold State.takeDefine
  simp [quiet, screened, here, same]

theorem State.takeDefine_defines (new : s.cm.entry (segmentOf f) ≠ some (dirEntryOf f k)) :
    s.takeDefine f = (s.releaseIfDefined (segmentOf f)).define (segmentOf f) (dirEntryOf f k) := by
  unfold State.takeDefine
  simp [quiet, screened, here, new]
end

/-- A release for a definition leaves its segment UNDEFINED and its pages ABSENT, and every other segment as it was (R122). -/
theorem State.releaseIfDefined_leaves {s : State} (canonical : s.tablesCanonical) (g : Nat) :
    (s.releaseIfDefined g).cm.entry g = none ∧ (∀ a, a ≠ g → (s.releaseIfDefined g).cm.entry a = s.cm.entry a) ∧
      ((s.cm.entry g).isSome = true → ∀ q, q < 64 → (s.releaseIfDefined g).cm.pageState g q = .absent) ∧
      (s.releaseIfDefined g).cm.intake = s.cm.intake := by
  obtain ⟨-, dir, pages⟩ := canonical
  have without := s.release_without [g]
  unfold State.releaseIfDefined
  split
  · refine ⟨(without.entry dir g).trans (if_pos (by simp)), fun a ne => (without.entry dir a).trans (if_neg (by simpa using ne)),
      fun _ q small => (without.pageState pages g small).trans (if_pos (by simp)), without.intake⟩
  · rename_i undefined
    exact ⟨Option.not_isSome_iff_eq_none.mp undefined, fun _ _ => rfl, fun defined => absurd defined undefined, rfl⟩

theorem State.releaseIfDefined_others (s : State) (g : Nat) : (s.releaseIfDefined g).smc.mem = s.smc.mem ∧
    (s.releaseIfDefined g).tbu = s.tbu ∧ (s.releaseIfDefined g).ce = s.ce ∧ (s.releaseIfDefined g).hu = s.hu ∧
    (s.releaseIfDefined g).lu = s.lu ∧ (s.releaseIfDefined g).pending = s.pending := by
  unfold State.releaseIfDefined
  split
  · exact s.release_others [g]
  · exact ⟨rfl, rfl, rfl, rfl, rfl, rfl⟩

section
variable (s : State) (g : Nat) (e : DirEntry)

theorem State.define_entry_same : (s.define g e).cm.entry g = some e :=
  (congrArg (fun d => Table.get? d g) (State.issueMap_dir _)).trans (Table.get?_put_same s.cm.dir g e)

theorem State.define_entry_other {a : Nat} (ne : a ≠ g) : (s.define g e).cm.entry a = s.cm.entry a :=
  (congrArg (fun d => Table.get? d a) (State.issueMap_dir _)).trans (Table.get?_put_other s.cm.dir e ne)

theorem State.define_pageState (a q : Nat) : (s.define g e).cm.pageState a q = s.cm.pageState a q :=
  congrArg (fun p : List (Nat × Pte) => ((Table.get? p (pageKey a q)).map Pte.state).getD .absent)
    (State.issueMap_pages _)

theorem State.define_intake : (s.define g e).cm.intake = s.cm.intake := State.issueMap_intake _

theorem State.define_others : (s.define g e).smc.mem = s.smc.mem ∧ (s.define g e).tbu = s.tbu ∧
    (s.define g e).ce = s.ce ∧ (s.define g e).hu = s.hu ∧ (s.define g e).lu = s.lu ∧
    (s.define g e).pending = s.pending :=
  ⟨State.issueMap_mem _, State.issueMap_tbu _, State.issueMap_ce _, State.issueMap_hu _,
    congrArg (fun x => x.lu) (State.issueMap_eq _), congrArg (fun x => x.pending) (State.issueMap_eq _)⟩
end

/-- Settles O33: the five outcomes of R123 and R124. -/
theorem definitionTaken : Obligations.DefinitionTaken := by
  refine ⟨fun s f rest live head take bearing => ?_, fun s f rest live head take quiet h => ?_,
    fun s f rest k live head take quiet screened here same => ?_,
    fun s f rest k live head take quiet screened here new canonical => ?_,
    fun s f rest k live head take quiet screened elsewhere canonical => ?_⟩
  · rw [exec_segmentDefineTaken live take head, State.takeDefine_bearing (s := s.popIntake) bearing,
      State.popIntake_eq head]
  · have taken := exec_segmentDefineTaken live take head
    rw [State.takeDefine_refused (s := s.popIntake) quiet (Cm.screenDefine_none (c := s.popIntake.cm) h)] at taken
    obtain ⟨cm, counted, within⟩ := s.popIntake.mapFault_counts (.segment (segmentOf f))
    exact ⟨_, taken, cm.trans (by rw [State.popIntake_eq head]), counted, within⟩
  · rw [exec_segmentDefineTaken live take head,
      State.takeDefine_repeats (s := s.popIntake) quiet screened here same, State.popIntake_eq head]
  · have taken := exec_segmentDefineTaken live take head
    rw [State.takeDefine_defines (s := s.popIntake) quiet screened here new] at taken
    obtain ⟨-, kept, absent, intake⟩ := State.releaseIfDefined_leaves (s := s.popIntake) canonical (segmentOf f)
    obtain ⟨mem, tbu, ce, hu, lu, pending⟩ := s.popIntake.releaseIfDefined_others (segmentOf f)
    obtain ⟨mem', tbu', ce', hu', lu', pending'⟩ :=
      (s.popIntake.releaseIfDefined (segmentOf f)).define_others (segmentOf f) (dirEntryOf f k)
    refine ⟨_, taken, (State.define_intake ..).trans (intake.trans (by rw [State.popIntake_eq head])),
      State.define_entry_same .., fun g ne => (State.define_entry_other _ _ _ ne).trans (kept g ne),
      fun defined q small => (State.define_pageState ..).trans (absent defined q small), mem'.trans mem, tbu'.trans tbu,
      ce'.trans ce, hu'.trans hu, lu'.trans lu, pending'.trans pending⟩
  · have taken := exec_segmentDefineTaken live take head
    rw [State.takeDefine_elsewhere (s := s.popIntake) quiet screened elsewhere] at taken
    obtain ⟨undefined, kept, -, intake⟩ := State.releaseIfDefined_leaves (s := s.popIntake) canonical (segmentOf f)
    obtain ⟨mem, tbu, -, -, -, pending⟩ := s.popIntake.releaseIfDefined_others (segmentOf f)
    exact ⟨_, taken, intake.trans (by rw [State.popIntake_eq head]), undefined, kept, mem, tbu, pending⟩

end Sys2Proof.Machine
end

