-- ==== Sys2Proof/Proofs/Grants.lean ====
section
/-!
What a grant leaves of the memory controller: everything but its banks and its port (spec/07, R138, R140).
-/
namespace Sys2Proof.Machine

/-- The controller without its banks and its port. -/
def Smc.seated (m : Smc) : Smc := { m with banks := Vector.replicate 4 {}, port := none }

section
variable (m : Smc)

@[simp] theorem Smc.startBurst_seated (c : ReqClass) (r : Request) : (m.startBurst c r).seated = m.seated := by
  unfold Smc.startBurst
  dsimp only
  split
  · split <;> rfl
  all_goals rfl

@[simp] theorem Smc.startRefresh_seated (f : Bool) : (m.startRefresh f).seated = m.seated := by
  unfold Smc.startRefresh
  split
  · rfl
  · split <;> rfl

@[simp] theorem Smc.grant_seated : m.grant.seated = m.seated := by
  unfold Smc.grant
  split
  · exact m.startRefresh_seated true
  · split
    · exact m.startBurst_seated _ _
    · split
      · exact m.startRefresh_seated false
      · rfl

@[simp] theorem Smc.grantIfIdle_seated : m.grantIfIdle.seated = m.seated := by
  unfold Smc.grantIfIdle
  split
  · exact m.grant_seated
  · rfl
end

/-- A content write that arrives stands in its slot (R138). -/
theorem Smc.arrive_content (m : Smc) (r : Request) : (m.arrive .content r).content = some r :=
  congrArg (fun x => x.content) (Smc.grantIfIdle_seated { m with content := some r })

/-- A serve read that arrives stands behind the other (R138). -/
theorem Smc.arrive_serve (m : Smc) (r : Request) : (m.arrive .serve r).serve = m.serve ++ [r] :=
  congrArg (fun x => x.serve) (Smc.grantIfIdle_seated { m with serve := m.serve ++ [r] })

end Sys2Proof.Machine
end

