-- ==== Sys2Proof/Proofs/PageData.lean ====
section
/-!
O34: a PAGE_DATA taken from the intake (spec/06, R125, R126, R198).
-/
namespace Sys2Proof.Machine

/-! ## The record of a page -/

/-- The only record of a page is the one found for it. -/
theorem Cm.fillOf_eq_some {c : Cm} {x : Fill} (record : x ∈ c.fills)
    (only : ∀ y ∈ c.fills, y.segment = x.segment → y.page = x.page → y = x) :
    c.fillOf x.segment x.page = some x := by
  cases found : c.fillOf x.segment x.page with
  | none => exact absurd (List.find?_eq_none.mp found x record) (by simp)
  | some y =>
    obtain ⟨segment, page⟩ : y.segment = x.segment ∧ y.page = x.page := by simpa using List.find?_some found
    exact congrArg some (only y (List.mem_of_find?_eq_some found) segment page)

theorem Cm.mem_onFill {c : Cm} {x : Fill} (record : x ∈ c.fills) (g : Fill → Fill) : g x ∈ (c.onFill x.id g).fills :=
  List.mem_map.mpr ⟨x, record, if_pos rfl⟩

/-- Records of other numbers stay as they are. -/
theorem Cm.onFill_append {c : Cm} {l : List Fill} {x : Fill} (fills : c.fills = l ++ [x]) (others : ∀ y ∈ l, y.id ≠ x.id)
    (g : Fill → Fill) : (c.onFill x.id g).fills = l ++ [g x] := by
  have kept : l.map (fun y => if y.id = x.id then g y else y) = l :=
    (List.map_congr_left fun y hy => if_neg (others y hy)).trans (List.map_id l)
  calc (c.onFill x.id g).fills = (l ++ [x]).map fun y => if y.id = x.id then g y else y := by rw [← fills]; rfl
    _ = l ++ [g x] := by rw [List.map_append, kept, List.map_singleton, if_pos rfl]

theorem Cm.onFill_onFill (c : Cm) (id : Nat) {g h : Fill → Fill} (same : ∀ x, (g x).id = x.id) :
    (c.onFill id g).onFill id h = c.onFill id fun x => h (g x) := by
  have each : ∀ x : Fill, (if (if x.id = id then g x else x).id = id then h (if x.id = id then g x else x)
      else (if x.id = id then g x else x)) = if x.id = id then h (g x) else x := by
    intro x
    by_cases mine : x.id = id <;> simp [mine, same]
  unfold Cm.onFill
  simp only [List.map_map, Function.comp_def, each]

theorem Fill.startTimer_id (now t : Nat) (x : Fill) : (x.startTimer now t).id = x.id := by
  unfold Fill.startTimer
  split <;> rfl

theorem Fill.startTimer_eq (now t : Nat) (x : Fill) : x.startTimer now t =
    { x with timer := if x.owed then x.timer else some t, last := if x.owed then x.last else now } := by
  unfold Fill.startTimer
  split <;> rfl

/-! ## A chunk for a record (R126) -/

/-- The record after a chunk that it did not have: its timer restarted, unless its request is owed, and the chunk in its
received set. -/
def Fill.fed (now t chunk : Nat) (x : Fill) : Fill :=
  { x.startTimer now t with received := (x.startTimer now t).received ||| (1 <<< chunk) }

theorem Fill.fed_eq (now t chunk : Nat) (x : Fill) : x.fed now t chunk =
    { x with received := x.received ||| (1 <<< chunk), timer := if x.owed then x.timer else some t
             last := if x.owed then x.last else now } := by
  unfold Fill.fed
  rw [Fill.startTimer_eq]

/-- The content write of a chunk (R126). -/
def chunkRequest (x : Fill) (chunk : Nat) (data : List Byte) : Request :=
  Request.at .write64 (placeOf x.phys (64 * chunk)) x.id (data.map some)

section
variable (s : State) {x : Fill} {chunk : Nat} (data : List Byte)

theorem State.feed_fresh (fresh : x.received.getLsbD chunk = false) : s.feed x chunk data =
    (s.onCm fun c => { c.onFill x.id (Fill.fed s.tbu.basinTime s.fetchTicks chunk) with chunk := some x.id }).onSmc fun m =>
      m.arrive .content (chunkRequest x chunk data) := by
  unfold State.feed
  dsimp only
  rw [if_neg (by simp [fresh])]
  have twice := s.cm.onFill_onFill x.id (g := Fill.startTimer s.tbu.basinTime s.fetchTicks)
    (h := fun y => { y with received := y.received ||| (1 <<< chunk) }) fun y => y.startTimer_id _ _
  simp only [State.onCm, twice]
  rfl

theorem State.feed_again (had : x.received.getLsbD chunk = true) : s.feed x chunk data =
    s.onCm fun c => c.onFill x.id (Fill.startTimer s.tbu.basinTime s.fetchTicks) := by
  unfold State.feed
  exact if_pos had
end

/-- A chunk that the received set has adds nothing to it. -/
theorem or_shift_of_getLsbD {n : Nat} {v : BitVec n} {chunk : Nat} (had : v.getLsbD chunk = true) :
    v ||| (1 <<< chunk) = v := by
  refine BitVec.eq_of_getLsbD_eq fun i hi => ?_
  by_cases same : i = chunk
  · subst same
    simp [had]
  · have apart : ((1 <<< chunk : Nat) : BitVec n).getLsbD i = false := by
      rw [BitVec.natCast_eq_ofNat, BitVec.getLsbD_ofNat, Nat.one_shiftLeft, Nat.testBit_two_pow]
      simp [Ne.symm same]
    rw [BitVec.getLsbD_or, apart, Bool.or_false]

/-! ## The intake (R120) -/

theorem exec_pageDataTaken {s : State} {f : PageDataFields} {rest : List ContentFrame} (live : s.live = true)
    (head : s.cm.intake = .data f :: rest) (take : s.cm.mayTake = true) (free : s.smc.classFree .content = true) :
    exec .pageDataTaken s = .next (s.popIntake.takePageData f) := by
  show execPageDataTaken s = _
  unfold execPageDataTaken
  rw [head]
  simp [live, take, free]

theorem Cm.chunk_of_mayTake {c : Cm} (take : c.mayTake = true) : c.chunk = none := by
  unfold Cm.mayTake at take
  simp only [Bool.and_eq_true, Option.isNone_iff_eq_none] at take
  exact take.1.1

/-! ## The cases of a PAGE_DATA (R125, R198) -/

theorem pagesOf_eq (n : Nat) : pagesOf n = (n + 16383) / 16384 := by
  unfold pagesOf ceilDiv
  omega

section
variable {s : State} {f : PageDataFields}

theorem State.takePageData_unnamed (h : 127 < f.segment.toNat ∨ 63 < f.page.toNat) :
    s.takePageData f = s.mapFault (.page f.segment.toNat f.page.toNat) := by
  unfold State.takePageData
  exact if_pos h

variable (segment : f.segment.toNat ≤ 127) (page : f.page.toNat ≤ 63)
include segment page

theorem State.takePageData_unmatched (other : s.cm.showMatches f.showId.toNat f.segment.toNat = false) :
    s.takePageData f = s := by
  simp [State.takePageData, Nat.not_lt.mpr segment, Nat.not_lt.mpr page, other]

theorem State.takePageData_undefined (undefined : s.cm.entry f.segment.toNat = none) : s.takePageData f = s := by
  simp [State.takePageData, Nat.not_lt.mpr segment, Nat.not_lt.mpr page, undefined]

variable {e : DirEntry} (entry : s.cm.entry f.segment.toNat = some e)
include entry

theorem State.takePageData_present (used : f.page.toNat < (e.length + 16383) / 16384)
    (state : s.cm.pageState f.segment.toNat f.page.toNat = .present) : s.takePageData f = s := by
  simp [State.takePageData, Nat.not_lt.mpr segment, Nat.not_lt.mpr page, entry, pagesOf_eq, Nat.not_le.mpr used, state]

variable (shown : s.cm.showMatches f.showId.toNat f.segment.toNat = true)
include shown

theorem State.takePageData_unused (unused : (e.length + 16383) / 16384 ≤ f.page.toNat) :
    s.takePageData f = s.mapFault (.page f.segment.toNat f.page.toNat) := by
  simp [State.takePageData, Nat.not_lt.mpr segment, Nat.not_lt.mpr page, shown, entry, pagesOf_eq, unused]

variable (used : f.page.toNat < (e.length + 16383) / 16384)
include used

theorem State.takePageData_filling (state : s.cm.pageState f.segment.toNat f.page.toNat = .filling) :
    s.takePageData f = s.feedPage f.segment.toNat f.page.toNat f := by
  simp [State.takePageData, Nat.not_lt.mpr segment, Nat.not_lt.mpr page, shown, entry, pagesOf_eq, Nat.not_le.mpr used,
    state]

variable (empty : s.cm.pageState f.segment.toNat f.page.toNat = .absent ∨
  s.cm.pageState f.segment.toNat f.page.toNat = .unavailable)
include empty

theorem State.takePageData_crowded (crowded : 8 ≤ s.cm.fills.length) : s.takePageData f = s := by
  rcases empty with state | state <;>
  simp [State.takePageData, Nat.not_lt.mpr segment, Nat.not_lt.mpr page, shown, entry, pagesOf_eq, Nat.not_le.mpr used,
    state, crowded]

variable (record : s.cm.fills.length < 8)
include record

theorem State.takePageData_full (full : s.cm.lowestFree = none) :
    s.takePageData f = s.raiseStoreFull f.segment.toNat f.page.toNat := by
  rcases empty with state | state <;>
  simp [State.takePageData, Nat.not_lt.mpr segment, Nat.not_lt.mpr page, shown, entry, pagesOf_eq, Nat.not_le.mpr used,
    state, Nat.not_le.mpr record, full]

theorem State.takePageData_opens {p : Nat} (free : s.cm.lowestFree = some p) : s.takePageData f =
    (s.openFill f.segment.toNat f.page.toNat p false).feedPage f.segment.toNat f.page.toNat f := by
  rcases empty with state | state <;>
  simp [State.takePageData, Nat.not_lt.mpr segment, Nat.not_lt.mpr page, shown, entry, pagesOf_eq, Nat.not_le.mpr used,
    state, Nat.not_le.mpr record, free]
end

theorem State.feedPage_of_record {s : State} {x : Fill} (record : x ∈ s.cm.fills)
    (only : ∀ y ∈ s.cm.fills, y.segment = x.segment → y.page = x.page → y = x) (f : PageDataFields) :
    s.feedPage x.segment x.page f = s.feed x f.chunk.toNat f.data := by
  unfold State.feedPage
  rw [Cm.fillOf_eq_some record only]

/-- The place of byte 64 × chunk of the record's physical page in the request of its write (R137). -/
theorem chunkRequest_fields (x : Fill) (chunk : Nat) (data : List Byte) :
    let r := chunkRequest x chunk data
    (r.kind, r.bank.val, r.row, r.col, r.data, r.done) = (.write64, x.phys % 4, 4 * (x.phys / 4) + 64 * chunk / 4096,
      64 * chunk % 4096, data.map some, 0) := rfl

/-- The page opened and the chunk fed to its record (R125, R126). -/
theorem State.openFill_feeds (s : State) {p : Nat} (f : PageDataFields)
    (apart : ∀ x ∈ s.cm.fills, ¬(x.segment = f.segment.toNat ∧ x.page = f.page.toNat)) :
    let u := s.openFill f.segment.toNat f.page.toNat p false
    let x := s.newFill f.segment.toNat f.page.toNat p false
    u.feedPage f.segment.toNat f.page.toNat f =
      (u.onCm fun c => { c.onFill x.id (Fill.fed s.tbu.basinTime s.fetchTicks f.chunk.toNat) with
        chunk := some x.id }).onSmc fun m => m.arrive .content (chunkRequest x f.chunk.toNat f.data) := by
  intro u x
  have fills : u.cm.fills = s.cm.fills ++ [x] := s.openFill_fills ..
  have within : u = { s with cm := u.cm, smc := u.smc } := s.openFill_keeps ..
  have fed := State.feedPage_of_record (s := u) (x := x) (by simp [fills]) (fun y hy segment page => by
    rcases List.mem_append.mp (fills ▸ hy) with old | new
    · exact absurd ⟨segment, page⟩ (apart y old)
    · exact List.mem_singleton.mp new) f
  refine fed.trans ((u.feed_fresh f.data (by simp [x, State.newFill])).trans ?_)
  have tbu : u.tbu = s.tbu := congrArg (fun x => x.tbu) within
  have ticks : u.fetchTicks = s.fetchTicks := congrArg (fun x => x.fetchTicks) within
  rw [tbu, ticks]

/-- Settles O34: the page opened, and then each other case. -/
theorem pageDataTaken : Obligations.PageDataTaken := by
  refine ⟨?_, ?_, ?_, ?_, ?_, ?_⟩
  · intro s f rest e p live head take write segment page shown entry used empty record free apart
    have taken := exec_pageDataTaken live head take write
    rw [State.takePageData_opens (s := s.popIntake) segment page entry shown used empty record free,
      s.popIntake.openFill_feeds f fun x hx => (apart x hx).2] at taken
    have within := s.popIntake.openFill_keeps f.segment.toNat f.page.toNat p false
    have fills := s.popIntake.openFill_fills f.segment.toNat f.page.toNat p false
    have opened := s.popIntake.openFill_entry f.segment.toNat f.page.toNat p false
    have intake : (s.popIntake.openFill f.segment.toNat f.page.toNat p false).cm.intake = rest :=
      (s.popIntake.openFill_intake ..).trans (by rw [State.popIntake_eq head])
    have dir := s.popIntake.openFill_dir f.segment.toNat f.page.toNat p false
    have mem := s.popIntake.openFill_mem f.segment.toNat f.page.toNat p false
    generalize s.popIntake.openFill f.segment.toNat f.page.toNat p false = u at taken within fills opened intake dir mem
    have fed := Cm.onFill_append fills (fun y hy => (apart y hy).1.ne)
      (Fill.fed s.tbu.basinTime s.fetchTicks f.chunk.toNat)
    refine ⟨_, _, taken, intake, opened, fed, ?_⟩
    rw [Fill.fed_eq]
    refine ⟨rfl, rfl, rfl, BitVec.zero_or, rfl, rfl, rfl, rfl, rfl, rfl, ?_, dir, (Smc.arrive_mem ..).trans mem,
      congrArg (fun x => x.tbu) within, congrArg (fun x => x.au) within, congrArg (fun x => x.ce) within,
      congrArg (fun x => x.pending) within⟩
    exact (congrArg _ (Smc.arrive_content ..)).trans (congrArg some (chunkRequest_fields ..))
  · intro s f rest live head take write segment page h
    rw [exec_pageDataTaken live head take write, ← State.popIntake_eq head]
    rcases h with other | undefined | ⟨e, entry, used, state⟩
    · rw [State.takePageData_unmatched (s := s.popIntake) segment page other]
    · rw [State.takePageData_undefined (s := s.popIntake) segment page undefined]
    · rw [State.takePageData_present (s := s.popIntake) segment page entry used state]
  · intro s f rest e live head take write segment page shown entry unused
    have taken := exec_pageDataTaken live head take write
    rw [State.takePageData_unused (s := s.popIntake) segment page entry shown unused] at taken
    obtain ⟨cm, counted, within⟩ := s.popIntake.mapFault_counts (.page f.segment.toNat f.page.toNat)
    exact ⟨_, taken, cm.trans (by rw [State.popIntake_eq head]), counted, within⟩
  · intro s f rest live head take write unnamed
    have taken := exec_pageDataTaken live head take write
    rw [State.takePageData_unnamed unnamed] at taken
    obtain ⟨cm, counted, within⟩ := s.popIntake.mapFault_counts (.page f.segment.toNat f.page.toNat)
    exact ⟨_, taken, cm.trans (by rw [State.popIntake_eq head]), counted, within⟩
  · intro s f rest e live head take write segment page shown entry used empty
    have taken := exec_pageDataTaken live head take write
    refine ⟨fun crowded => ?_, fun record full => ?_⟩
    · rw [taken, State.takePageData_crowded (s := s.popIntake) segment page entry shown used empty crowded,
        State.popIntake_eq head]
    · rw [State.takePageData_full (s := s.popIntake) segment page entry shown used empty record full] at taken
      exact ⟨_, taken, by rw [State.popIntake_eq head]; rfl, State.faulted_raise .., rfl⟩
  · intro s f rest e x live head take write segment page shown entry used state record mine ours only
    have taken := exec_pageDataTaken live head take write
    rw [State.takePageData_filling (s := s.popIntake) segment page entry shown used state, ← mine, ← ours,
      State.feedPage_of_record (s := s.popIntake) record only] at taken
    have intake : s.popIntake.cm.intake = rest := by rw [State.popIntake_eq head]
    by_cases had : x.received.getLsbD f.chunk.toNat = true
    · rw [State.feed_again _ _ had] at taken
      refine ⟨_, taken, intake, rfl, rfl, ?_, by simp [had], fun _ => ⟨Cm.chunk_of_mayTake take, rfl⟩, rfl, rfl⟩
      have there := Cm.mem_onFill (c := s.popIntake.cm) record (Fill.startTimer s.tbu.basinTime s.fetchTicks)
      rw [or_shift_of_getLsbD had]
      rwa [Fill.startTimer_eq] at there
    · rw [State.feed_fresh _ _ (by simpa using had)] at taken
      refine ⟨_, taken, intake, rfl, rfl, ?_, fun _ => ⟨rfl, ?_⟩, fun h => absurd h had, Smc.arrive_mem .., rfl⟩
      · have there := Cm.mem_onFill (c := s.popIntake.cm) record (Fill.fed s.tbu.basinTime s.fetchTicks f.chunk.toNat)
        rwa [Fill.fed_eq] at there
      · exact (congrArg _ (Smc.arrive_content ..)).trans (congrArg some (chunkRequest_fields ..))

end Sys2Proof.Machine
end

