-- ==== Sys2Proof/Proofs/Fetches.lean ====
section
/-!
O35: fetch timers, the places of owed requests, and requests gone out (spec/06, R128, R129).
-/
namespace Sys2Proof.Machine

/-! ## The timer that expires first (R128) -/

/-- The fetch timer of a record has run out. -/
def Fill.timedOut (f : Fill) : Prop := f.timer = some 0

/-- Of the records whose timer has run out the one of the lowest segment and page. -/
theorem Cm.expired_isFirst (c : Cm) :
    IsFirst Fill.timedOut (fun f => pageKey f.segment f.page) c.fills c.expired := by
  refine isFirst_foldl (fun o f runs => if_neg runs) (fun f out => if_pos out) (fun b f out lt => ?_)
    (fun b f out ge => ?_) c.fills
  · exact (if_pos out).trans (if_pos (by simpa [lowerPage] using lt))
  · exact (if_pos out).trans (if_neg (by simpa [lowerPage] using ge))

theorem Cm.expired_mem {c : Cm} {f : Fill} (h : c.expired = some f) : f ∈ c.fills := by
  have first := c.expired_isFirst
  rw [h] at first
  exact first.1

/-! ## Records found by their number -/

/-- The only record of a number is the one found for it. -/
theorem Cm.fillById_eq_some {c : Cm} {x : Fill} (record : x ∈ c.fills) (only : ∀ y ∈ c.fills, y.id = x.id → y = x) :
    c.fillById x.id = some x := by
  cases found : c.fillById x.id with
  | none => exact absurd (List.find?_eq_none.mp found x record) (by simp)
  | some y =>
    obtain ⟨mem, id⟩ := Cm.mem_of_fillById found
    exact congrArg some (only y mem id)

/-- A change of the only record of a number that keeps the number is the one then found. -/
theorem Cm.fillById_onFill {c : Cm} {x : Fill} (record : x ∈ c.fills) (only : ∀ y ∈ c.fills, y.id = x.id → y = x)
    (g : Fill → Fill) (same : (g x).id = x.id) : (c.onFill x.id g).fillById x.id = some (g x) := by
  rw [← same]
  refine Cm.fillById_eq_some (by rw [same]; exact Cm.mem_onFill record g) fun y hy id => ?_
  obtain ⟨z, hz, rfl⟩ := List.mem_map.mp hy
  split at id
  · rename_i mine
    rw [same] at mine
    rw [only z hz mine, same, if_pos rfl]
  · rename_i other
    exact absurd id other

/-! ## Owed requests -/

/-- A record keeps all but the mark of its place when owed requests take theirs. -/
theorem State.queueRequest_fill {s : State} {x : Fill} (record : x ∈ s.cm.fills) :
    ∃ placed, { x with queued := placed } ∈ s.queueRequest.cm.fills := by
  unfold State.queueRequest
  split
  · split
    · rename_i f _
      by_cases mine : x.id = f.id
      · exact ⟨true, List.mem_map.mpr ⟨x, record, if_pos mine⟩⟩
      · exact ⟨x.queued, List.mem_map.mpr ⟨x, record, if_neg mine⟩⟩
    · exact ⟨x.queued, record⟩
  · exact ⟨x.queued, record⟩

theorem exec_fetchTimerExpiry {s : State} {f : Fill} (live : s.live = true) (expired : s.cm.expired = some f) :
    exec .fetchTimerExpiry s = .next (s.fetchExpired f) := by
  show execFetchTimerExpiry s = _
  unfold execFetchTimerExpiry
  rw [expired]
  simp [live]

/-! ## A page given up (R129) -/

section
variable {s : State} {f : Fill} {id : Nat} (found : s.cm.fillById id = some f)
include found

theorem State.applyChange_unavailable : s.applyChange (.unavailable id) =
    (((s.onCm fun c => ((c.setPage f.segment f.page .unavailable 0).giveBack f.phys).queueWrites []
      [pageKey f.segment f.page]).freeFill id).raise .pageUnavailable (some (.page f.segment f.page))).issueMap := by
  simp only [State.applyChange, found]

/-- The page is UNAVAILABLE, its record freed and its physical page given back. -/
theorem State.applyChange_unavailable_cm : let t := s.applyChange (.unavailable id)
    t.cm.pageState f.segment f.page = .unavailable ∧ (∀ x ∈ t.cm.fills, x.id ≠ id) ∧
      t.cm.taken = s.cm.taken.erase f.phys ∧ t.cm.dir = s.cm.dir := by
  dsimp only
  rw [State.applyChange_unavailable found]
  refine ⟨Cm.pageState_of_get? (e := { state := .unavailable, phys := 0 }) ?_, fun x hx => ?_, State.issueMap_taken _,
    State.issueMap_dir _⟩
  · rw [State.issueMap_pages]
    exact Cm.get?_setPage (st := .unavailable) (by decide) s.cm f.segment f.page 0
  · rw [State.issueMap_fills] at hx
    simpa using (List.mem_filter.mp hx).2

theorem State.applyChange_unavailable_others : let t := s.applyChange (.unavailable id)
    t.faulted .pageUnavailable = true ∧ t.smc.mem = s.smc.mem ∧ t.tbu = s.tbu ∧ t.pending = s.pending := by
  dsimp only
  rw [State.applyChange_unavailable found]
  refine ⟨?_, State.issueMap_mem _, State.issueMap_tbu _, congrArg (fun x => x.pending) (State.issueMap_eq _)⟩
  rw [State.issueMap_eq]
  exact State.faulted_raise ..
end

/-! ## A request gone out (R128) -/

theorem exec_pageRequestGoneOut {s : State} {tx : Tx} {q : PageRequestOut} {rest : List PageRequestOut}
    (sent : s.liu.tx = some tx) (source : tx.source = .fetch) (queue : s.liu.fetchQ = q :: rest) :
    exec .pageRequestGoneOut s = .next ((s.onLiu fun l => { l.wentOut with fetchQ := rest }).onCm fun c =>
      c.onFill q.fill fun x =>
        ({ x with attempts := x.attempts + 1, owed := false, queued := false } : Fill).startTimer s.tbu.basinTime
          s.fetchTicks) := by
  obtain ⟨src, arb, kind, payload⟩ := tx
  cases source
  show Host.Outcome.next _ = _
  rw [sent]
  dsimp only
  unfold State.requestOut
  rw [queue]

/-- Settles O35: a timer below and at three attempts, a free place, and a request gone out. -/
theorem fetchesRequested : Obligations.FetchesRequested := by
  refine ⟨fun s f live expired few => ?_, fun s f live expired three only free place => ?_,
    fun s f live room first => ?_, fun s tx q rest f sent source queue record id => ?_⟩
  · have done := exec_fetchTimerExpiry live expired
    rw [State.fetchExpired, if_pos few] at done
    obtain ⟨placed, there⟩ := State.queueRequest_fill (s := s.onCm fun c => c.owe s.st.oscTicks f.id)
      (Cm.mem_onFill (Cm.expired_mem expired) _)
    obtain ⟨within, -⟩ := (s.onCm fun c => c.owe s.st.oscTicks f.id).queueRequest_placed
    refine ⟨_, done, ⟨_, there, rfl, rfl, rfl, rfl, rfl⟩, ?_⟩
    rw [within]
    exact ⟨rfl, rfl, rfl, rfl, rfl⟩
  · have done := exec_fetchTimerExpiry live expired
    rw [State.fetchExpired, if_neg (by omega), State.makeChange_at_once
      (s := s.onCm fun c => c.onFill f.id fun x => { x with timer := none }) free place] at done
    have found : (s.onCm fun c => c.onFill f.id fun x => { x with timer := none }).cm.fillById f.id =
        some { f with timer := none } := Cm.fillById_onFill (Cm.expired_mem expired) only _ rfl
    obtain ⟨gone, freed, given, dir⟩ := State.applyChange_unavailable_cm found
    obtain ⟨raised, mem, tbu, pending⟩ := State.applyChange_unavailable_others found
    exact ⟨_, done, gone, freed, given, raised, dir, mem, tbu, pending⟩
  · refine ⟨s.queueRequest, congrArg Host.Outcome.next (if_pos live), ?_⟩
    unfold State.queueRequest
    rw [if_pos room, first]
    refine ⟨?_, fun x hx id => ?_, rfl, rfl⟩
    · simp [Cm.showOf, isHouse]
    · obtain ⟨y, -, rfl⟩ := List.mem_map.mp hx
      by_cases mine : y.id = f.id
      · rw [if_pos mine]
      · rw [if_neg mine] at id
        exact absurd id mine
  · refine ⟨_, exec_pageRequestGoneOut sent source queue, rfl, ?_, rfl, rfl⟩
    rw [← id]
    exact Cm.mem_onFill record _

end Sys2Proof.Machine
end

