-- ==== Sys2Proof/Proofs/Serving.lean ====
section
/-!
O36: a PAGE_REQUEST and the serve record it opens, from its delay to its last frame (spec/06, R130 to R133).
-/
namespace Sys2Proof.Machine

theorem Cm.mem_onServe {c : Cm} {r : Serve} (record : r ∈ c.serves) (g : Serve → Serve) :
    g r ∈ (c.onServe r.id g).serves :=
  List.mem_map.mpr ⟨r, record, if_pos rfl⟩

/-! ## A request heard (R130) -/

section
variable {s : State} {showId g q : Nat}

theorem State.serves_iff : s.serves showId g q = true ↔ g ≤ 127 ∧ q ≤ 63 ∧ s.cm.showMatches showId g = true ∧
    (s.cm.entry g).isSome = true ∧ s.cm.pageState g q = .present ∧
    (∀ r ∈ s.cm.serves, ¬(r.segment = g ∧ r.page = q)) ∧ s.cm.serves.length < 2 ∧ s.liu.conflict = false := by
  simp [State.serves, and_assoc]

/-- No request is served that a case of R130 refuses. -/
theorem State.serves_refused (h : 127 < g ∨ 63 < q ∨ s.cm.showMatches showId g = false ∨ s.cm.entry g = none ∨
    s.cm.pageState g q ≠ .present ∨ (∃ r ∈ s.cm.serves, r.segment = g ∧ r.page = q) ∨ 2 ≤ s.cm.serves.length ∨
    s.liu.conflict = true) : s.serves showId g q = false := by
  refine Bool.eq_false_iff.mpr fun served => ?_
  obtain ⟨segment, page, shown, defined, present, apart, few, free⟩ := State.serves_iff.mp served
  rcases h with h | h | h | h | h | ⟨r, hr, same⟩ | h | h
  · omega
  · omega
  · simp [shown] at h
  · simp [h] at defined
  · exact h present
  · exact apart r hr same
  · omega
  · simp [free] at h
end

theorem exec_pageRequest {s : State} {p : Position} (hears : s.hears p) (n g q : Byte) :
    exec (.pageRequest p n g q) s = .next (s.afterFrame.hearPageRequest p n.toNat g.toNat q.toNat) :=
  congrArg Host.Outcome.next (State.received_of_hears hears _)

/-! ## The end of a delay (R131) -/

/-- The station with the record at its first read, its address not known yet. -/
def State.sending (s : State) (r : Serve) : State :=
  s.onCm fun c => c.onServe r.id fun x => { x with stage := .sending none 0 false }

theorem exec_serveDelayEnd {s : State} {r : Serve} (live : s.live = true)
    (ended : s.cm.lowestServe Serve.delayOver = some r) :
    exec .serveDelayEnd s =
      .next (((s.sending r).serveLookup r).1.serveAnswer r.id ((s.sending r).serveLookup r).2) := by
  show execServeDelayEnd s = _
  unfold execServeDelayEnd
  rw [ended]
  exact congrArg Host.Outcome.next (if_pos live)

theorem Serve.page_of_offset (r : Serve) : r.page * 16384 / 16384 = r.page := by omega

section
variable {s : State} {r : Serve} {e : DirEntry} (entry : s.cm.entry r.segment = some e)
  (within : r.page * 16384 < e.length) (present : s.cm.pageState r.segment r.page = .present)
include entry within present

theorem State.serveLookup_cached {c : CacheEntry} (cached : s.cm.cached r.segment r.page = some c) :
    s.serveLookup r = (s.onCm fun m => m.useEntry c, .address c.phys) := by
  unfold State.serveLookup
  rw [entry]
  exact State.lookup_cached entry _ within (by rw [Serve.page_of_offset, present]) (by rw [Serve.page_of_offset, cached])

theorem State.serveLookup_missed (missed : s.cm.cached r.segment r.page = none) :
    s.serveLookup r = ((s.onCm fun m => m.addWalk (.serve r.id) r.segment r.page).issueMap, .walking) := by
  have answer := State.lookup_missed entry (.serve r.id) within (by rw [Serve.page_of_offset, present])
    (by rw [Serve.page_of_offset, missed])
  unfold State.serveLookup
  rw [entry]
  rwa [Serve.page_of_offset] at answer
end

/-- A record that awaits its page's address holds it (R131). -/
theorem State.serveAnswer_held {s : State} {r : Serve} {next : Nat} {reading : Bool} (record : r ∈ s.cm.serves)
    (awaits : r.stage = .sending none next reading) (p : Nat) :
    { r with stage := .sending (some p) next reading } ∈ (s.serveAnswer r.id (.address p)).cm.serves :=
  List.mem_map.mpr ⟨r, record, by simp [awaits]⟩

/-! ## Reads (R132) -/

theorem exec_serveReadIssue {s : State} {r : Serve} {p next : Nat} (live : s.live = true)
    (free : s.smc.classFree .serve = true) (first : s.cm.lowestServe s.mayRead = some r)
    (ready : r.stage = .sending (some p) next false) : exec .serveReadIssue s =
      .next ((s.onCm fun c => c.onServe r.id fun x => { x with stage := .sending (some p) next true }).onSmc fun m =>
        m.arrive .serve (Request.at .read256 (placeOf p (64 * next)) r.id)) := by
  show execServeReadIssue s = _
  unfold execServeReadIssue
  rw [first]
  simp [live, free, State.issueServeRead, ready]

theorem exec_serveReadComplete {s : State} {d : Report} (report : s.smc.reportOf .serve = some d) :
    exec .serveReadComplete s = .next ((s.onSmc fun m => m.dropReport .serve).serveReadDone d.id d.bytes) :=
  congrArg Host.Outcome.next (State.completion_of_report report fun s r => s.serveReadDone r.id r.bytes)

section
variable {s : State} {id : Nat} (bytes : List Byte)

theorem State.serveReadDone_queues {r : Serve} {a : Option Nat} {next : Nat}
    (found : s.cm.serves.find? (fun x => x.id == id) = some r) (reading : r.stage = .sending a next true) :
    s.serveReadDone id bytes =
      (s.onCm fun c => c.onServe id fun x => { x with stage := .sending a (next + 4) false }).onLiu fun l =>
        { l with contentQ := l.contentQ ++ framesOf (s.cm.showOf r.segment) r next bytes } := by
  unfold State.serveReadDone
  rw [found]
  dsimp only
  rw [reading]

/-- A read for a record that has stopped has no effect (R133). -/
theorem State.serveReadDone_stopped (stopped : ∀ x ∈ s.cm.serves, x.id ≠ id) : s.serveReadDone id bytes = s := by
  unfold State.serveReadDone
  rw [List.find?_eq_none.mpr fun x hx => by simpa using stopped x hx]
end

/-- The four frames of a read, in the order of their chunks (R132). -/
theorem framesOf_fields (showId : Nat) (r : Serve) (next : Nat) (bytes : List Byte) :
    (framesOf showId r next bytes).map (fun x => (x.chunk, x.segment, x.page, x.data)) =
      [(next, r.segment, r.page, bytes.take 64), (next + 1, r.segment, r.page, (bytes.drop 64).take 64),
        (next + 2, r.segment, r.page, (bytes.drop 128).take 64), (next + 3, r.segment, r.page, (bytes.drop 192).take 64)] :=
  rfl

/-! ## Frames gone out (R132, R158) -/

/-- The link interface unit with its first PAGE_DATA gone out. -/
def Liu.dataWentOut (rest : List PageDataOut) (l : Liu) : Liu :=
  { l.wentOut with contentQ := rest, yieldCount := min 4 (l.yieldCount + 1) }

theorem exec_pageDataGoneOut {s : State} {tx : Tx} {p : PageDataOut} {rest : List PageDataOut} (sent : s.liu.tx = some tx)
    (source : tx.source = .content) (queue : s.liu.contentQ = p :: rest) : exec .pageDataGoneOut s =
      .next (if p.chunk = 255 then
          (s.onLiu (Liu.dataWentOut rest)).onCm fun c => { c with serves := c.serves.filter fun r => r.id != p.serve }
        else s.onLiu (Liu.dataWentOut rest)) := by
  obtain ⟨src, arb, kind, payload⟩ := tx
  cases source
  show Host.Outcome.next _ = _
  rw [sent]
  dsimp only
  unfold State.dataOut
  rw [queue]
  rfl

/-- Settles O36, event by event of a serve record's life. -/
theorem pageRequestsServed : Obligations.PageRequestsServed := by
  refine ⟨fun p n g q s hears segment page shown defined present apart few free => ?_, fun p n g q s hears refused => ?_,
    fun s r e c live delay entry within present cached => ?_, fun s r e live delay entry within present missed => ?_,
    fun s r p next live free first ready => ?_, fun s d r a next report found reading => ?_,
    fun s d report stopped => ?_, fun s tx p rest sent source queue => ?_⟩
  · rw [exec_pageRequest hears, State.hearPageRequest,
      if_pos (State.serves_iff (s := s.afterFrame).mpr ⟨segment, page, shown, defined, present, apart, few, free⟩)]
    rfl
  · rw [exec_pageRequest hears, State.hearPageRequest, if_neg (by rw [State.serves_refused (s := s.afterFrame) refused]; decide)]
  · have done := exec_serveDelayEnd live delay
    rw [State.serveLookup_cached (s := s.sending r) entry within present cached] at done
    obtain ⟨record, -⟩ := Cm.lowestServe_mem delay
    have waits := Cm.mem_onServe record fun x => { x with stage := .sending none 0 false }
    exact ⟨_, done, State.serveAnswer_held (s := (s.sending r).onCm fun m => m.useEntry c) waits rfl c.phys, rfl⟩
  · have done := exec_serveDelayEnd live delay
    rw [State.serveLookup_missed (s := s.sending r) entry within present missed] at done
    obtain ⟨record, -⟩ := Cm.lowestServe_mem delay
    have waits := Cm.mem_onServe record fun x => { x with stage := .sending none 0 false }
    obtain ⟨walks, -, -, kept⟩ := (s.sending r).addWalk_issued (.serve r.id) r.segment r.page
    refine ⟨_, done, ?_, walks, State.issueMap_mem _, State.issueMap_within _⟩
    exact (congrArg (fun x => { r with stage := .sending none 0 false } ∈ x.cm.serves) kept).mpr waits
  · refine ⟨_, exec_serveReadIssue live free first ready, Cm.mem_onServe (Cm.lowestServe_mem first).1 _, ?_,
      Smc.arrive_mem .., rfl⟩
    have last := Smc.arrive_serve s.smc (Request.at .read256 (placeOf p (64 * next)) r.id)
    exact (congrArg (fun l => (List.getLast? l).map _) last).trans (by rw [List.getLast?_concat]; rfl)
  · have done := exec_serveReadComplete report
    rw [State.serveReadDone_queues (s := s.onSmc _) _ found reading] at done
    have id : r.id = d.id := by simpa using List.find?_some found
    refine ⟨_, done, ?_, ?_, rfl, rfl⟩
    · rw [← id]
      exact Cm.mem_onServe (List.mem_of_find?_eq_some found) _
    · exact List.map_append.trans (congrArg _ (framesOf_fields ..))
  · have done := exec_serveReadComplete report
    rw [State.serveReadDone_stopped (s := s.onSmc _) _ stopped] at done
    exact ⟨_, done, rfl, rfl⟩
  · have done := exec_pageDataGoneOut sent source queue
    by_cases last : p.chunk = 255
    · rw [if_pos last] at done
      exact ⟨_, done, rfl, fun _ r hr => by simpa using (List.mem_filter.mp hr).2, fun h => absurd last h, rfl⟩
    · rw [if_neg last] at done
      exact ⟨_, done, rfl, fun h => absurd h last, fun _ => rfl, rfl⟩

end Sys2Proof.Machine
end

