-- ==== Sys2Proof/Proofs/MemoryStart.lean ====
section
/-!
O37: the start-up sequence of the memory controller to READY, and what the station begins there (spec/07, R148; spec/11,
R192; spec/06, R135).
-/
namespace Sys2Proof.Machine

/-! ## Grants of the first class (R140) -/

section
variable (m : Smc)

/-- A burst begun has the port, issued or held for its bank. -/
theorem Smc.startBurst_op (c : ReqClass) (r : Request) : (m.startBurst c r).port.map (fun p => p.op) = some (.burst c) := by
  unfold Smc.startBurst
  dsimp only
  split
  · split <;> rfl
  all_goals rfl

variable {m}

/-- With no forced refresh due an audio request is granted first. -/
theorem Smc.grant_audio_op (low : m.debt < 8) (waits : m.audio.isSome = true) :
    m.grant.port.map (fun p => p.op) = some (.burst .audio) := by
  obtain ⟨r, audio⟩ := Option.isSome_iff_exists.mp waits
  have first : m.firstWaiting = some (.audio, r) := by simp [Smc.firstWaiting, grantOrder, Smc.slot, audio]
  unfold Smc.grant
  rw [if_neg (by omega), first]
  exact m.startBurst_op .audio r

theorem Smc.grantIfIdle_of_busy (busy : m.port.isSome = true) : m.grantIfIdle = m :=
  if_neg fun h => by simp [Option.isNone_iff_eq_none.mp h.2] at busy

/-- A request that arrives while the port is given waits. -/
theorem Smc.arrive_port_of_busy (busy : m.port.isSome = true) (c : ReqClass) (r : Request) :
    (m.arrive c r).port = m.port := by
  unfold Smc.arrive
  rw [Smc.grantIfIdle_of_busy (by cases c <;> exact busy)]
  cases c <;> rfl
end

theorem State.issueMap_port_of_busy {s : State} (busy : s.smc.port.isSome = true) :
    s.issueMap.smc.port = s.smc.port := by
  unfold State.issueMap
  split
  · split
    · exact Smc.arrive_port_of_busy busy ..
    · rfl
  · rfl

/-! ## READY (R135, R148, R192) -/

/-- The station with its wait for the memory controller over. -/
def State.listens (s : State) : State :=
  if s.st.phase = .memory then s.onSt fun t => { t with phase := .listening } else s

section
variable (s : State)

theorem State.listens_eq : s.listens = { s with st := s.listens.st } := by
  unfold State.listens
  split <;> rfl

theorem State.listens_phase : s.listens.st.phase = if s.st.phase = .memory then .listening else s.st.phase := by
  unfold State.listens
  split <;> rfl

theorem State.listens_live (live : s.live = true) : s.listens.live = true := by
  unfold State.listens
  split
  · rfl
  · exact live

theorem State.listens_smc : s.listens.smc = s.smc := congrArg (fun x => x.smc) s.listens_eq
theorem State.listens_cm : s.listens.cm = s.cm := congrArg (fun x => x.cm) s.listens_eq

theorem State.memoryReady_eq : s.memoryReady = if s.listens.live then s.listens.initMap else s.listens := rfl

theorem State.memoryReady_unissued : s.memoryReady.unissued = s.listens.unissued := by
  rw [State.memoryReady_eq]
  split
  · exact State.initMap_unissued _
  · rfl

/-- The map region's initialisation begins with its 32 table writes owed (R135). -/
theorem State.initMap_begins {s : State} (waits : s.cm.init = .waiting) (ready : s.smc.ctl = .ready) :
    s.initMap.cm.init = .left 32 := by
  unfold State.initMap
  rw [if_pos ⟨waits, ready⟩]
  exact State.issueMap_init _

theorem State.initMap_port_of_busy {s : State} (busy : s.smc.port.isSome = true) :
    s.initMap.smc.port = s.smc.port := by
  unfold State.initMap
  split
  · exact State.issueMap_port_of_busy (s := s.onCm _) busy
  · rfl

theorem State.memoryReady_port_of_busy {s : State} (busy : s.smc.port.isSome = true) :
    s.memoryReady.smc.port = s.smc.port := by
  have listened := s.listens_smc
  rw [State.memoryReady_eq]
  split
  · exact (State.initMap_port_of_busy (by rwa [listened])).trans (congrArg (fun m => m.port) listened)
  · exact congrArg (fun m => m.port) listened
end

section
variable (s : State)

/-- READY reached ends the MEMORY phase, and reaches the content map and the controller's slots besides. -/
theorem State.memoryReady_keeps : s.memoryReady.smc.outer = s.smc.outer ∧
    s.memoryReady.st.phase = (if s.st.phase = .memory then .listening else s.st.phase) ∧ s.memoryReady.tbu = s.tbu ∧
    s.memoryReady.biu = s.biu ∧ s.memoryReady.liu = s.liu ∧ s.memoryReady.pending = s.pending := by
  have rest := s.memoryReady_unissued
  have kept := s.listens_eq
  exact ⟨(State.smc_of_unissued rest).trans (congrArg Smc.outer s.listens_smc),
    (congrArg (fun x => x.phase) (State.st_of_unissued rest)).trans s.listens_phase,
    (State.tbu_of_unissued rest).trans (congrArg (fun x => x.tbu) kept),
    (State.biu_of_unissued rest).trans (congrArg (fun x => x.biu) kept),
    (State.liu_of_unissued rest).trans (congrArg (fun x => x.liu) kept),
    (State.pending_of_unissued rest).trans (congrArg (fun x => x.pending) kept)⟩

theorem State.memoryReady_begins {s : State} (live : s.live = true) (waits : s.cm.init = .waiting)
    (ready : s.smc.ctl = .ready) : s.memoryReady.cm.init = .left 32 := by
  rw [State.memoryReady_eq, if_pos (s.listens_live live)]
  exact State.initMap_begins (by rw [State.listens_cm, waits]) (by rw [State.listens_smc, ready])
end

/-! ## The phases of the sequence (R148) -/

section
variable {m : Smc}

theorem Smc.initWaitEnd_waiting (h : m.ctl = .initWait) :
    m.initWaitEnd = { m with clock := max m.clock 20000, ctl := .initPrecharge } := if_pos h

theorem Smc.initPrechargeEnd_precharging (h : m.ctl = .initPrecharge) : m.initPrechargeEnd =
    { m with clock := m.clock + 2, ctl := .initRefresh, initCount := 0
             banks := Vector.ofFn fun i => { m.banks[i] with state := .idle, row := none } } := if_pos h

theorem Smc.initRefreshEnd_refreshing (h : m.ctl = .initRefresh) : m.initRefreshEnd =
    { m with clock := m.clock + 6, initCount := m.initCount + 1
             ctl := if 8 ≤ m.initCount + 1 then .initMode else .initRefresh } := if_pos h

/-- The controller as it becomes READY, before its first grant point. -/
def Smc.becomesReady (m : Smc) : Smc :=
  { m with clock := m.clock + 2, ctl := .ready, debt := 0, rises := 0, readyAt := m.clock + 2, port := none }

theorem Smc.initModeEnd_loading (h : m.ctl = .initMode) : m.initModeEnd = m.becomesReady.grant := if_pos h

theorem Smc.initEnds_ready (ready : m.ctl = .ready) :
    m.initWaitEnd = m ∧ m.initPrechargeEnd = m ∧ m.initRefreshEnd = m := by
  simp [Smc.initWaitEnd, Smc.initPrechargeEnd, Smc.initRefreshEnd, ready]
end

theorem exec_initModeEnd {s : State} (loading : s.smc.ctl = .initMode) :
    exec .initModeEnd s = .next (s.onSmc fun m => m.becomesReady.grant).memoryReady := by
  refine congrArg Host.Outcome.next ((if_pos loading).trans ?_)
  rw [State.onSmc, Smc.initModeEnd_loading loading]
  rfl

/-- Settles O37, phase by phase of the sequence. -/
theorem memoryStartUp : Obligations.MemoryStartUp := by
  refine ⟨fun s powered waiting => ?_, fun s precharging => ?_, fun s refreshing => ?_, fun s loading => ?_,
    fun s ready => ?_⟩
  · refine congrArg Host.Outcome.next ((if_pos powered).trans ?_)
    rw [State.onSmc, Smc.initWaitEnd_waiting waiting]
  · have e := Smc.initPrechargeEnd_precharging precharging
    refine ⟨_, rfl, ?_⟩
    rw [State.onSmc_smc, e]
    exact ⟨rfl, rfl, fun b => by simp, fun c => by cases c <;> rfl, rfl, by rw [State.onSmc, e]⟩
  · have e := Smc.initRefreshEnd_refreshing refreshing
    refine ⟨_, rfl, ?_⟩
    rw [State.onSmc_smc, e]
    refine ⟨?_, rfl, rfl, fun c => by cases c <;> rfl, rfl, by rw [State.onSmc, e]⟩
    by_cases few : s.smc.initCount < 7
    · rw [if_pos few]
      exact if_neg (by omega)
    · rw [if_neg few]
      exact if_pos (by omega)
  · have done := exec_initModeEnd loading
    have granted := s.smc.becomesReady.grant_outer
    obtain ⟨smc, phase, tbu, biu, liu, pending⟩ := (s.onSmc fun m => m.becomesReady.grant).memoryReady_keeps
    replace smc := smc.trans granted
    refine ⟨_, done, congrArg (fun m => m.ctl) smc, congrArg (fun m => m.debt) smc, congrArg (fun m => m.rises) smc, phase,
      fun live waits => ?_, fun audio => ?_, congrArg (fun m => m.mem) smc, tbu, biu, liu, pending⟩
    · exact State.memoryReady_begins (s := s.onSmc _) live waits (congrArg (fun m => m.ctl) granted)
    · have op := Smc.grant_audio_op (m := s.smc.becomesReady) (Nat.zero_lt_succ 7) audio
      have busy : s.smc.becomesReady.grant.port.isSome = true := by
        rw [← Option.isSome_map (f := fun p : Port => p.op), op]
        rfl
      exact (congrArg _ (State.memoryReady_port_of_busy (s := s.onSmc fun m => m.becomesReady.grant) busy)).trans op
  · obtain ⟨wait, precharge, refresh⟩ := Smc.initEnds_ready ready
    refine ⟨?_, ?_, ?_, ?_⟩
    · refine congrArg Host.Outcome.next ?_
      rw [State.onSmc, wait]
      exact ite_self _
    · exact congrArg (fun m => Host.Outcome.next ({ s with smc := m } : State)) precharge
    · exact congrArg (fun m => Host.Outcome.next ({ s with smc := m } : State)) refresh
    · exact congrArg Host.Outcome.next (if_neg (by rw [ready]; decide))

end Sys2Proof.Machine
end

