-- ==== Sys2Proof/Proofs/Grants.lean ====
section
/-!
To whom a grant point gives the port, and what a grant leaves of the controller (spec/07, R140 to R144).
-/
namespace Sys2Proof.Machine

/-! ## A grant moves banks and port alone (R140) -/

section
variable (m : Smc)

theorem Smc.startBurst_eq (c : ReqClass) (r : Request) : m.startBurst c r =
    { m with banks := (m.startBurst c r).banks, port := (m.startBurst c r).port } := by
  unfold Smc.startBurst
  dsimp only
  split
  · split <;> rfl
  all_goals rfl

theorem Smc.startRefresh_eq (f : Bool) : m.startRefresh f =
    { m with banks := (m.startRefresh f).banks, port := (m.startRefresh f).port } := by
  unfold Smc.startRefresh
  split
  · rfl
  · split <;> rfl

theorem Smc.grant_eq : m.grant = { m with banks := m.grant.banks, port := m.grant.port } := by
  unfold Smc.grant
  split
  · exact m.startRefresh_eq true
  · split
    · exact m.startBurst_eq _ _
    · split
      · exact m.startRefresh_eq false
      · rfl

@[simp] theorem Smc.grant_slot (c : ReqClass) : m.grant.slot c = m.slot c := by
  rw [m.grant_eq]
  cases c <;> rfl

@[simp] theorem Smc.grant_debt : m.grant.debt = m.debt := Smc.debt_of_outer m.grant_outer
@[simp] theorem Smc.grant_rises : m.grant.rises = m.rises := congrArg (fun x => x.rises) m.grant_eq
@[simp] theorem Smc.grant_forced : m.grant.forced = m.forced := congrArg (fun x => x.forced) m.grant_eq
@[simp] theorem Smc.grant_opportunistic : m.grant.opportunistic = m.opportunistic :=
  congrArg (fun x => x.opportunistic) m.grant_eq
@[simp] theorem Smc.grant_reports : m.grant.reports = m.reports := congrArg (fun x => x.reports) m.grant_eq

/-! ## The order of R140 -/

/-- The operation that is first in the order of R140: forced refresh, audio fill, map walk, cue read, content write, serve
read, opportunistic refresh. -/
def Smc.firstOp : Option PortOp :=
  if 8 ≤ m.debt then some (.refresh true)
  else if m.audio.isSome then some (.burst .audio)
  else if m.walk.isSome then some (.burst .walk)
  else if m.cue.isSome then some (.burst .cue)
  else if m.content.isSome then some (.burst .content)
  else if m.serve ≠ [] then some (.burst .serve)
  else if 0 < m.debt then some (.refresh false)
  else none

/-- Between the two refreshes stands the first class with a request in its slot. -/
theorem Smc.firstOp_eq : m.firstOp =
    if 8 ≤ m.debt then some (.refresh true)
    else (m.firstWaiting.map fun x => PortOp.burst x.1).or (if 0 < m.debt then some (.refresh false) else none) := by
  unfold Smc.firstOp
  congr 1
  simp only [Smc.firstWaiting, grantOrder, List.findSome?, Smc.slot]
  cases m.audio with
  | some _ => rfl
  | none => cases m.walk with
    | some _ => rfl
    | none => cases m.cue with
      | some _ => rfl
      | none => cases m.content with
        | some _ => rfl
        | none => cases m.serve <;> rfl

/-- The order looks at the debt and the slots alone. -/
theorem Smc.firstOp_grant : m.grant.firstOp = m.firstOp := by
  rw [m.grant_eq]
  rfl

theorem Smc.startRefresh_op (f : Bool) : (m.startRefresh f).port.map (fun p => p.op) = some (.refresh f) := by
  unfold Smc.startRefresh
  split
  · rfl
  · split <;> rfl

/-- A grant gives the port to the operation first in order (R140). -/
theorem Smc.grant_op : m.grant.port.map (fun p => p.op) = m.firstOp := by
  rw [m.firstOp_eq]
  unfold Smc.grant
  split
  · exact m.startRefresh_op true
  · cases m.firstWaiting with
    | some x => exact m.startBurst_op x.1 x.2
    | none =>
      dsimp only
      split
      · exact m.startRefresh_op false
      · rfl
end

/-! ## Banks under a grant (R139, R144) -/

section
variable (m : Smc)

@[simp] theorem Smc.onBank_same (b : Fin 4) (g : Bank → Bank) : (m.onBank b g).banks[b] = g m.banks[b] := by
  simp [Smc.onBank]

theorem Smc.onBank_other {b e : Fin 4} (g : Bank → Bank) (ne : e ≠ b) : (m.onBank b g).banks[e] = m.banks[e] :=
  Vector.getElem_set_ne b.isLt e.isLt fun same => ne (Fin.ext same.symm)

@[simp] theorem Smc.onBank_slot (b : Fin 4) (g : Bank → Bank) (c : ReqClass) : (m.onBank b g).slot c = m.slot c := by
  cases c <;> rfl

variable {m}

/-- A burst begun moves its request's bank alone. -/
theorem Smc.startBurst_other (c : ReqClass) {r : Request} {e : Fin 4} (ne : e ≠ r.bank) :
    (m.startBurst c r).banks[e] = m.banks[e] := by
  unfold Smc.startBurst
  dsimp only
  split
  · split
    · rfl
    · exact Smc.onBank_other _ _ ne
  · exact Smc.onBank_other _ _ ne
  all_goals rfl

/-- A burst whose bank is PRECHARGING waits for it. -/
theorem Smc.startBurst_precharging (c : ReqClass) {r : Request} (closing : m.banks[r.bank].state = .precharging) :
    m.startBurst c r = { m with port := some { op := .burst c, issued := false, due := m.clock } } := by
  unfold Smc.startBurst
  simp only [closing]

theorem Smc.anyPrecharging_iff : m.anyPrecharging = true ↔ ∃ b : Fin 4, m.banks[b].state = .precharging := by
  simp only [Smc.anyPrecharging, List.any_eq_true, Vector.mem_toList_iff, Vector.mem_iff_getElem, beq_iff_eq]
  constructor
  · rintro ⟨_, ⟨i, h, rfl⟩, state⟩
    exact ⟨⟨i, h⟩, state⟩
  · rintro ⟨b, state⟩
    exact ⟨_, ⟨b, b.isLt, rfl⟩, state⟩

theorem Smc.anyPrecharging_of_idle (idle : ∀ b : Fin 4, m.banks[b].state = .idle) : ¬ m.anyPrecharging = true := by
  rw [Smc.anyPrecharging_iff]
  rintro ⟨b, closing⟩
  cases (idle b).symm.trans closing

theorem Smc.allIdle_iff : m.allIdle = true ↔ ∀ b : Fin 4, m.banks[b].state = .idle := by
  simp only [Smc.allIdle, List.all_eq_true, Vector.mem_toList_iff, Vector.mem_iff_getElem, beq_iff_eq]
  constructor
  · exact fun all b => all _ ⟨b, b.isLt, rfl⟩
  · rintro all _ ⟨i, h, rfl⟩
    exact all ⟨i, h⟩

/-- Whatever a grant begins, a bank that is PRECHARGING goes on with it. -/
theorem Smc.grant_precharging {b : Fin 4} (closing : m.banks[b].state = .precharging) :
    m.grant.banks[b] = m.banks[b] := by
  have refresh : ∀ f, (m.startRefresh f).banks[b] = m.banks[b] := by
    intro f
    unfold Smc.startRefresh
    rw [if_pos (Smc.anyPrecharging_iff.mpr ⟨b, closing⟩)]
  unfold Smc.grant
  split
  · exact refresh true
  · split
    · rename_i c r _
      by_cases same : b = r.bank
      · subst same
        rw [Smc.startBurst_precharging c closing]
      · exact Smc.startBurst_other c same
    · split
      · exact refresh false
      · rfl
end

/-! ## Operations that end (R140) -/

section
variable (m : Smc)

/-- The controller at moment `d`, with the port free. -/
def Smc.freed (d : Nat) : Smc := { m with clock := max m.clock d, port := none }

@[simp] theorem Smc.freed_slot (d : Nat) (c : ReqClass) : (m.freed d).slot c = m.slot c := by
  cases c <;> rfl

variable {m}

theorem Smc.grantIfIdle_of_idle (ready : m.ctl = .ready) (idle : m.port = none) : m.grantIfIdle = m.grant :=
  if_pos ⟨ready, by rw [idle]; rfl⟩

theorem Smc.endOperation_idle (ready : m.ctl = .ready) (idle : m.port = none) : m.endOperation = m.grant := by
  unfold Smc.endOperation
  rw [idle]
  exact Smc.grantIfIdle_of_idle ready idle

theorem Smc.endOperation_unissued {p : Port} (port : m.port = some p) (held : p.issued = false) :
    m.endOperation = m := by
  unfold Smc.endOperation
  simp [port, held]

theorem Smc.endOperation_refresh {f : Bool} {d : Nat}
    (port : m.port = some { op := .refresh f, issued := true, due := d }) :
    m.endOperation = ((m.freed d).endRefresh f).grant := by
  unfold Smc.endOperation
  rw [port]
  rfl

theorem Smc.endOperation_burst {c : ReqClass} {d : Nat}
    (port : m.port = some { op := .burst c, issued := true, due := d }) :
    m.endOperation = ((m.freed d).endBurst c).grant := by
  unfold Smc.endOperation
  rw [port]
  rfl
end

/-! ## The command (R138, R140) -/

section
variable {s : State}

/-- The station with its controller as `m`. -/
theorem State.onSmc_of_eq {g : Smc → Smc} {m : Smc} (e : g s.smc = m) : s.onSmc g = { s with smc := m } := by
  rw [State.onSmc, e]

/-- The words handed on stand in the slots of the audio unit. -/
theorem State.handWords_eq (s : State) :
    s.handWords = { s with au := { s.au with slots := s.handWords.au.slots } } := by
  unfold State.handWords
  split
  · simp only [State.onAu, Au.takeWords]
    split <;> rfl
  · rfl

/-- Without an audio burst on the port no word is handed on. -/
theorem State.handWords_other {p : Option Port} (port : s.smc.port = p)
    (other : ∀ d, p ≠ some { op := .burst .audio, issued := true, due := d }) : s.handWords = s := by
  unfold State.handWords
  split
  · rename_i e _
    exact absurd (port.symm.trans e) (other _)
  · rfl

theorem State.handWords_audio {r : Request} {d : Nat}
    (port : s.smc.port = some { op := .burst .audio, issued := true, due := d }) (slot : s.smc.audio = some r) :
    s.handWords =
      s.onAu fun a => a.takeWords (Memory.readRange s.smc.mem (addressOf r.bank r.row r.burstCol) 32) := by
  unfold State.handWords
  rw [port, slot]

theorem Smc.burstRow_burst {m : Smc} {c : ReqClass} {d : Nat}
    (port : m.port = some { op := .burst c, issued := true, due := d }) : m.burstRow = (m.slot c).map (·.row) := by
  unfold Smc.burstRow
  rw [port]

/-- With no burst on the port a grant point is the controller's alone. -/
theorem exec_grantPoint_without_burst {p : Option Port} (port : s.smc.port = p)
    (other : ∀ c d, p ≠ some { op := .burst c, issued := true, due := d }) :
    exec .grantPoint s = .next (s.onSmc Smc.endOperation) := by
  have row : s.smc.burstRow = none := by
    unfold Smc.burstRow
    split
    · rename_i e
      exact absurd (port.symm.trans e) (other _ _)
    · rfl
  show execGrantPoint s = _
  unfold execGrantPoint
  rw [row, State.handWords_other port (other _)]
  rfl

/-- A burst at a row of the SDRAM ends (R137), its words handed on, and the port is given anew. -/
theorem exec_grantPoint_burst {c : ReqClass} {r : Request} {d : Nat}
    (port : s.smc.port = some { op := .burst c, issued := true, due := d }) (slot : s.smc.slot c = some r)
    (row : r.row < 8192) : exec .grantPoint s = .next { s with
      smc := ((s.smc.freed d).endBurst c).grant, au := { s.au with slots := s.handWords.au.slots } } := by
  show execGrantPoint s = _
  unfold execGrantPoint
  rw [Smc.burstRow_burst port, slot, if_neg (by simpa using row), s.handWords_eq, State.onSmc,
    Smc.endOperation_burst (m := s.smc) port]

/-- A burst at a row that the SDRAM does not have stops the model. -/
theorem exec_grantPoint_outside {c : ReqClass} {r : Request} {d : Nat}
    (port : s.smc.port = some { op := .burst c, issued := true, due := d }) (slot : s.smc.slot c = some r)
    (row : 8192 ≤ r.row) : exec .grantPoint s = .fault .outsideShowMemory := by
  show execGrantPoint s = _
  unfold execGrantPoint
  rw [Smc.burstRow_burst port, slot, if_pos (by simpa using row)]
end

end Sys2Proof.Machine
end

