-- ==== Sys2Proof/Proofs/BurstEnds.lean ====
section
/-!
O39, O47: what the end of a burst makes of show memory, of its request, and of the FILLING slot (spec/07, R137, R138, R141,
R142).
-/
namespace Sys2Proof.Machine

/-! ## Bytes under a mask (R137) -/

/-- What a byte reads as after a masked write of a range. -/
theorem Memory.read_writeRange {m : List Host.Cell} (wf : Memory.wf m = true) (a x : Nat) (bs : List (Option Byte)) :
    Memory.read (Memory.writeRange m a bs) x =
      if a ≤ x then ((bs[x - a]?).join).getD (Memory.read m x) else Memory.read m x := by
  split
  · by_cases inside : x - a < bs.length
    · have moved := Memory.read_writeRange_inside (a := a) wf bs inside
      rw [Nat.add_sub_cancel' ‹a ≤ x›] at moved
      rw [moved, List.getElem?_eq_getElem inside]
      rfl
    · rw [List.getElem?_eq_none (by omega)]
      exact Memory.read_writeRange_outside wf bs (by omega)
  · exact Memory.read_writeRange_outside wf bs (by omega)

/-- The same for burst `n` of a request's data. -/
theorem Memory.read_writeBurst {m : List Host.Cell} (wf : Memory.wf m = true) (a x n : Nat) (bs : List (Option Byte)) :
    Memory.read (Memory.writeRange m a ((bs.drop (32 * n)).take 32)) x =
      if a ≤ x ∧ x < a + 32 then (bs[32 * n + (x - a)]?.join).getD (Memory.read m x) else Memory.read m x := by
  rw [Memory.read_writeRange wf]
  by_cases from_a : a ≤ x
  · by_cases within : x < a + 32
    · rw [if_pos from_a, if_pos ⟨from_a, within⟩, List.getElem?_take_of_lt (by omega), List.getElem?_drop]
    · rw [if_pos from_a, if_neg (fun h => within h.2), List.getElem?_eq_none]
      · rfl
      · rw [List.length_take]
        omega
  · rw [if_neg from_a, if_neg (fun h => from_a h.1)]

/-! ## Slots (R138) -/

section
variable (m : Smc) (c : ReqClass)

theorem Smc.setSlot_some (r : Request) : (m.setSlot c (some r)).slot c = some r := by
  cases c <;> rfl

/-- A slot freed; of two serve reads the second comes to the front (R140). -/
theorem Smc.setSlot_none : (m.setSlot c none).slot c = if c = .serve then m.serve[1]? else none := by
  cases c with
  | serve => simp [Smc.setSlot, Smc.slot]
  | _ => rfl

variable {c} in
theorem Smc.setSlot_other {e : ReqClass} (ne : e ≠ c) (r : Option Request) : (m.setSlot c r).slot e = m.slot e := by
  cases c <;> cases e <;> first | rfl | exact absurd rfl ne

@[simp] theorem Smc.setSlot_outer (r : Option Request) : (m.setSlot c r).outer = m.outer := by
  cases c <;> rfl

@[simp] theorem Smc.setSlot_reports (r : Option Request) : (m.setSlot c r).reports = m.reports :=
  congrArg (fun x => x.reports) (m.setSlot_outer c r)

@[simp] theorem Smc.setSlot_clock (r : Option Request) : (m.setSlot c r).clock = m.clock :=
  congrArg (fun x => x.clock) (m.setSlot_outer c r)

@[simp] theorem Smc.setSlot_banks (r : Option Request) : (m.setSlot c r).banks = m.banks := by
  cases c <;> rfl

theorem Smc.setSlot_serve_length (r : Option Request) : (m.setSlot c r).serve.length =
    if c = .serve then r.toList.length + (m.serve.length - 1) else m.serve.length := by
  cases c with
  | serve => simp [Smc.setSlot]
  | _ => rfl
end

/-! ## A burst transferred (R141) -/

section
variable (m : Smc) (r : Request)

/-- Show memory after the next burst of a request. -/
def Smc.burstMem : List Host.Cell := (m.transfer r).1.mem

/-- The request after its next burst. -/
def Smc.burstRequest : Request := (m.transfer r).2

/-- The 32 bytes that the next burst of a request reads. -/
def Smc.burstBytes : List Byte := Memory.readRange m.mem (addressOf r.bank r.row r.burstCol) 32

theorem Smc.transfer_eq : m.transfer r = ({ m with mem := m.burstMem r }, m.burstRequest r) := by
  unfold Smc.burstMem Smc.burstRequest Smc.transfer
  dsimp only
  split <;> rfl

theorem Smc.burstRequest_eq : m.burstRequest r =
    { r with done := r.done + 1, got := if r.kind = .write64 then r.got else r.got ++ m.burstBytes r } := by
  unfold Smc.burstRequest Smc.transfer
  dsimp only
  split
  · rename_i kind
    rw [if_pos kind]
  · rename_i kind
    rw [if_neg kind]
    rfl

@[simp] theorem Smc.burstRequest_kind : (m.burstRequest r).kind = r.kind := by rw [m.burstRequest_eq]
@[simp] theorem Smc.burstRequest_bank : (m.burstRequest r).bank = r.bank := by rw [m.burstRequest_eq]
@[simp] theorem Smc.burstRequest_id : (m.burstRequest r).id = r.id := by rw [m.burstRequest_eq]
@[simp] theorem Smc.burstRequest_done : (m.burstRequest r).done = r.done + 1 := by rw [m.burstRequest_eq]

variable {r}

theorem Smc.burstMem_of_read (read : r.kind ≠ .write64) : m.burstMem r = m.mem := by
  unfold Smc.burstMem Smc.transfer
  dsimp only
  split
  · rename_i kind
    exact absurd kind read
  · rfl

theorem Smc.burstMem_of_write (write : r.kind = .write64) : m.burstMem r =
    Memory.writeRange m.mem (addressOf r.bank r.row r.burstCol) ((r.data.drop (32 * r.done)).take 32) := by
  unfold Smc.burstMem Smc.transfer
  simp only [write]

theorem Smc.burstMem_wf (wf : Memory.wf m.mem = true) : Memory.wf (m.burstMem r) = true := by
  obtain ⟨a, bs, moved⟩ := m.transfer_mem r
  rw [Smc.burstMem, moved]
  exact Memory.wf_writeRange wf a bs

/-- The bytes that a request delivers when the burst is its last (R137). -/
theorem Smc.burstRequest_delivered : (m.burstRequest r).delivered =
    if r.kind = .write64 then r.got
    else if r.kind = .read16 then ((r.got ++ m.burstBytes r).drop (r.col % 32)).take 16
    else r.got ++ m.burstBytes r := by
  rw [m.burstRequest_eq]
  unfold Request.delivered
  cases kind : r.kind <;> simp
end

/-! ## The end of a burst (R138, R142) -/

section
variable (m : Smc) (c : ReqClass) (r : Request)

/-- The controller after a burst that is not its request's last. -/
def Smc.keepsRequest : Smc := ({ m with mem := m.burstMem r } : Smc).setSlot c (some (m.burstRequest r))

/-- The controller after the last burst of a request, its end reported. -/
def Smc.reportsRequest : Smc :=
  { ({ m with mem := m.burstMem r } : Smc).setSlot c none with
    reports := m.reports ++ [{ cls := c, id := r.id, bytes := (m.burstRequest r).delivered }] }

variable {m c r} (slot : m.slot c = some r)
include slot

theorem Smc.endBurst_of_more (more : r.done + 1 < r.kind.bursts) : m.endBurst c = m.keepsRequest c r := by
  unfold Smc.endBurst
  rw [slot]
  simp only [m.transfer_eq r, Smc.burstRequest_done, Smc.burstRequest_kind, if_pos more]
  rfl

theorem Smc.endBurst_of_last (last : r.kind.bursts ≤ r.done + 1) : m.endBurst c =
    if r.kind = .rowRead then (m.reportsRequest c r).onBank r.bank (Bank.precharge m.clock)
    else m.reportsRequest c r := by
  unfold Smc.endBurst
  rw [slot]
  simp only [m.transfer_eq r, Smc.burstRequest_done, Smc.burstRequest_kind, if_neg (Nat.not_lt.mpr last),
    Smc.burstRequest_bank, Smc.burstRequest_id, Smc.setSlot_reports, Smc.setSlot_clock, Smc.reportsRequest]

/-- The end of a burst reaches show memory, the banks, its own slot and the reports. -/
theorem Smc.endBurst_outer :
    (m.endBurst c).outer = { m.outer with mem := m.burstMem r, reports := (m.endBurst c).reports } := by
  have kept : ∀ x : Option Request, (({ m with mem := m.burstMem r } : Smc).setSlot c x).outer =
      { m.outer with mem := m.burstMem r } := fun x => Smc.setSlot_outer _ c x
  have reported : (m.reportsRequest c r).outer =
      { m.outer with mem := m.burstMem r, reports := (m.reportsRequest c r).reports } :=
    congrArg (fun x : Smc => { x with reports := (m.reportsRequest c r).reports }) (kept none)
  rcases Nat.lt_or_ge (r.done + 1) r.kind.bursts with more | last
  · rw [Smc.endBurst_of_more slot more, Smc.keepsRequest, Smc.setSlot_reports]
    exact kept _
  · rw [Smc.endBurst_of_last slot last]
    split <;> exact reported

theorem Smc.endBurst_mem_eq : (m.endBurst c).mem = m.burstMem r := congrArg (fun x => x.mem) (Smc.endBurst_outer slot)
theorem Smc.endBurst_debt : (m.endBurst c).debt = m.debt := congrArg (fun x => x.debt) (Smc.endBurst_outer slot)
theorem Smc.endBurst_forced : (m.endBurst c).forced = m.forced := congrArg (fun x => x.forced) (Smc.endBurst_outer slot)
theorem Smc.endBurst_opportunistic : (m.endBurst c).opportunistic = m.opportunistic :=
  congrArg (fun x => x.opportunistic) (Smc.endBurst_outer slot)

theorem Smc.endBurst_slot_of_more (more : r.done + 1 < r.kind.bursts) :
    (m.endBurst c).slot c = some (m.burstRequest r) := by
  rw [Smc.endBurst_of_more slot more]
  exact Smc.setSlot_some _ c _

theorem Smc.endBurst_reports_of_more (more : r.done + 1 < r.kind.bursts) : (m.endBurst c).reports = m.reports := by
  rw [Smc.endBurst_of_more slot more]
  exact Smc.setSlot_reports _ c _

theorem Smc.endBurst_reports_of_last (last : r.kind.bursts ≤ r.done + 1) : (m.endBurst c).reports =
    m.reports ++ [{ cls := c, id := r.id, bytes := (m.burstRequest r).delivered }] := by
  rw [Smc.endBurst_of_last slot last]
  split <;> rfl

/-- The slots after the last burst of a request are those with its own freed. -/
theorem Smc.endBurst_slots_of_last (last : r.kind.bursts ≤ r.done + 1) (e : ReqClass) :
    (m.endBurst c).slot e = (m.setSlot c none).slot e := by
  have freed : (m.reportsRequest c r).slot e = (m.setSlot c none).slot e := by
    cases c <;> cases e <;> rfl
  rw [Smc.endBurst_of_last slot last]
  split
  · rw [Smc.onBank_slot, freed]
  · exact freed

theorem Smc.endBurst_slot_of_last (last : r.kind.bursts ≤ r.done + 1) :
    (m.endBurst c).slot c = if c = .serve then m.serve[1]? else none :=
  (Smc.endBurst_slots_of_last slot last c).trans (m.setSlot_none c)

theorem Smc.endBurst_slot_other {e : ReqClass} (ne : e ≠ c) : (m.endBurst c).slot e = m.slot e := by
  rcases Nat.lt_or_ge (r.done + 1) r.kind.bursts with more | last
  · rw [Smc.endBurst_of_more slot more, Smc.keepsRequest, Smc.setSlot_other _ ne]
    cases e <;> rfl
  · rw [Smc.endBurst_slots_of_last slot last, Smc.setSlot_other _ ne]

/-- The last burst of a row read closes its bank (R142). -/
theorem Smc.endBurst_closes (last : r.kind.bursts ≤ r.done + 1) (row : r.kind = .rowRead) :
    (m.endBurst c).banks[r.bank].state = .precharging := by
  rw [Smc.endBurst_of_last slot last, if_pos row, Smc.onBank_same]
  rfl
end

/-! ## The words of a row read (R138) -/

section
variable {a : Au} (w : List Byte)

theorem Au.takeWords_same {k : Fin 32} (fill : (a.fill.bind fun f => f.slot) = some k) :
    (a.takeWords w).slots[k] = { a.slots[k] with data := a.slots[k].data ++ w } := by
  unfold Au.takeWords
  rw [fill]
  exact Vector.getElem_set_self k.isLt

theorem Au.takeWords_other {k j : Fin 32} (fill : (a.fill.bind fun f => f.slot) = some k) (ne : j ≠ k) :
    (a.takeWords w).slots[j] = a.slots[j] := by
  unfold Au.takeWords
  rw [fill]
  exact Vector.getElem_set_ne k.isLt j.isLt fun same => ne (Fin.ext same.symm)

theorem Au.takeWords_none (fill : (a.fill.bind fun f => f.slot) = none) : a.takeWords w = a := by
  unfold Au.takeWords
  rw [fill]
end

section
variable {s : State} {c : ReqClass} {r : Request} {d : Nat}
  (port : s.smc.port = some { op := .burst c, issued := true, due := d }) (slot : s.smc.slot c = some r)
include port slot

/-- The words of an audio burst go to the unit. -/
theorem State.handWords_slots (audio : c = .audio) :
    s.handWords.au.slots = (s.au.takeWords (s.smc.burstBytes r)).slots := by
  subst audio
  rw [State.handWords_audio port slot]
  rfl

/-- No other class's words reach the audio unit, and none a fill without a slot. -/
theorem State.handWords_none (unfed : c ≠ .audio ∨ (s.au.fill.bind fun f => f.slot) = none) :
    s.handWords.au.slots = s.au.slots := by
  by_cases audio : c = .audio
  · rw [State.handWords_slots port slot audio, Au.takeWords_none _ (unfed.resolve_left (absurd audio))]
  · rw [State.handWords_other port fun x same => audio (by cases same; rfl)]
end

/-! ## The statements -/

/-- The bytes of show memory after a burst of a write (R137, R141). -/
theorem Smc.read_burstMem {m : Smc} {r : Request} (wf : Memory.wf m.mem = true) (write : r.kind = .write64) (a : Nat) :
    Memory.read (m.burstMem r) a =
      if addressOf r.bank r.row r.burstCol ≤ a ∧ a < addressOf r.bank r.row r.burstCol + 32 then
        (r.data[32 * r.done + (a - addressOf r.bank r.row r.burstCol)]?.join).getD (Memory.read m.mem a)
      else Memory.read m.mem a := by
  rw [m.burstMem_of_write write]
  exact Memory.read_writeBurst wf _ _ _ _

/-- Settles O39: the end of a burst by its request's kind, and by whether it is the request's last. -/
theorem burstsMoveBytes : Obligations.BurstsMoveBytes := by
  refine ⟨fun s c r d port slot row wf => ?_, fun s c r d port slot row => exec_grantPoint_outside port slot row⟩
  have slotF : (s.smc.freed d).slot c = some r := by rw [Smc.freed_slot, slot]
  have mem : ((s.smc.freed d).endBurst c).grant.mem = (s.smc.freed d).burstMem r := by
    rw [Smc.grant_mem, Smc.endBurst_mem_eq slotF]
  refine ⟨_, exec_grantPoint_burst port slot row, ?_, fun write a => ?_, fun read => ?_, fun more => ⟨?_, ?_⟩,
    fun last => ⟨fun single => ?_, fun closing => ?_, ?_⟩, fun e ne => ?_, fun k audio _ fill => ⟨?_, fun j ne => ?_⟩,
    fun unfed => ?_, rfl⟩
  · rw [mem]
    exact Smc.burstMem_wf _ wf
  · rw [mem]
    exact Smc.read_burstMem (m := s.smc.freed d) wf write a
  · rw [mem]
    exact Smc.burstMem_of_read _ read
  · rw [Smc.grant_reports, Smc.endBurst_reports_of_more slotF more]
    rfl
  · rw [Smc.grant_slot, Smc.endBurst_slot_of_more slotF more, Smc.burstRequest_eq]
    rfl
  · rw [Smc.grant_slot, Smc.endBurst_slot_of_last slotF last, if_neg single]
  · have closed := Smc.endBurst_closes slotF last closing
    rw [Smc.grant_precharging closed]
    exact closed
  · rw [Smc.grant_reports, Smc.endBurst_reports_of_last slotF last, Smc.burstRequest_delivered]
    rfl
  · rw [Smc.grant_slot, Smc.endBurst_slot_other slotF ne, Smc.freed_slot]
  · dsimp only
    rw [State.handWords_slots port slot audio]
    exact Au.takeWords_same _ fill
  · dsimp only
    rw [State.handWords_slots port slot audio]
    exact Au.takeWords_other _ fill ne
  · dsimp only
    rw [State.handWords_none port slot unfed]

/-- Settles O47: of the commands but a grant point and power-on none writes show memory, as each changes the content map in
the ways of spec/06 and reaches the controller by the arrival of requests and by its own events. -/
theorem memoryWrittenOnlyByBursts : Obligations.MemoryWrittenOnlyByBursts :=
  fun _ s _ e grant power => (s.ledFrom_self.exec e grant power).memory

end Sys2Proof.Machine
end

