-- ==== Sys2Proof/Proofs/PortOrder.lean ====
section
/-!
O38: grant points at an idle port and at the end of a burst or a refresh, and the refresh debt (spec/07, R140, R145 to R147,
R150).
-/
namespace Sys2Proof.Machine

/-! ## Refresh debt (R145, R150) -/

section
variable (m : Smc)

/-- The controller with a debt rise counted. -/
def Smc.risen (m : Smc) : Smc :=
  { m with clock := max m.clock (m.riseMoment (m.rises + 1)), rises := m.rises + 1, debt := min 8 (m.debt + 1) }

@[simp] theorem Smc.risen_slot (c : ReqClass) : m.risen.slot c = m.slot c := by
  cases c <;> rfl

theorem Smc.endRefresh_eq (f : Bool) : m.endRefresh f =
    { m with debt := m.debt - 1
             forced := if f then min 65535 (m.forced + 1) else m.forced
             opportunistic := if f then m.opportunistic else min 65535 (m.opportunistic + 1) } := by
  cases f <;> rfl

@[simp] theorem Smc.endRefresh_slot (f : Bool) (c : ReqClass) : (m.endRefresh f).slot c = m.slot c := by
  rw [m.endRefresh_eq]
  cases c <;> rfl

variable {m}

theorem Smc.debtRise_unready (unready : m.ctl ≠ .ready) : m.debtRise = m := if_neg unready

/-- At an idle port a debt rise is a grant point. -/
theorem Smc.debtRise_idle (ready : m.ctl = .ready) (idle : m.port = none) : m.debtRise = m.risen.grant :=
  (if_pos ready).trans (Smc.grantIfIdle_of_idle (m := m.risen) ready idle)

theorem Smc.debtRise_busy (ready : m.ctl = .ready) (busy : m.port ≠ none) : m.debtRise = m.risen :=
  (if_pos ready).trans (Smc.grantIfIdle_of_busy (m := m.risen) (Option.isSome_iff_ne_none.mpr busy))

/-- With a debt of 8 the forced refresh goes before every request. -/
theorem Smc.firstOp_full (full : 8 ≤ m.debt) : m.firstOp = some (.refresh true) := if_pos full

/-- With no request in a slot and some debt the opportunistic refresh is first. -/
theorem Smc.firstOp_quiet (low : m.debt < 8) (owed : 0 < m.debt) (quiet : ∀ c, m.slot c = none) :
    m.firstOp = some (.refresh false) := by
  have waits : m.firstWaiting = none := by simp [Smc.firstWaiting, grantOrder, quiet]
  rw [m.firstOp_eq, if_neg (Nat.not_le.mpr low), waits, if_pos owed]
  rfl
end

/-! ## The places of serve reads (R138, R140) -/

theorem Smc.endBurst_serve_length {m : Smc} {c : ReqClass} {r : Request} (slot : m.slot c = some r) :
    (m.endBurst c).serve.length =
      m.serve.length - if c = .serve ∧ r.kind.bursts ≤ r.done + 1 then 1 else 0 := by
  have places : ∀ x : Option Request, (({ m with mem := m.burstMem r } : Smc).setSlot c x).serve.length =
      if c = .serve then x.toList.length + (m.serve.length - 1) else m.serve.length :=
    fun x => Smc.setSlot_serve_length _ c x
  have waits : c = .serve → 0 < m.serve.length := by
    rintro rfl
    exact List.length_pos_of_mem (List.mem_of_mem_head? slot)
  rcases Nat.lt_or_ge (r.done + 1) r.kind.bursts with more | last
  · rw [Smc.endBurst_of_more slot more, if_neg fun h => Nat.not_le.mpr more h.2]
    refine (places _).trans ?_
    split
    · have := waits ‹_›
      simp only [Option.toList_some, List.length_singleton]
      omega
    · rfl
  · have freed : (m.endBurst c).serve.length = if c = .serve then m.serve.length - 1 else m.serve.length := by
      rw [Smc.endBurst_of_last slot last]
      split <;> exact (places none).trans (by simp)
    rw [freed]
    by_cases serve : c = .serve
    · rw [if_pos serve, if_pos ⟨serve, last⟩]
    · rw [if_neg serve, if_neg fun h => serve h.1]
      rfl

/-! ## The statement -/

/-- Settles O38, by what stands on the port: nothing, an operation held, a refresh or a burst that ends; and for a debt rise
by whether the controller is READY and its port idle. -/
theorem portGivenAndDebtKept : Obligations.PortGivenAndDebtKept := by
  refine ⟨fun s ready idle => ?_, fun s p port held => ?_, fun s ready => ?_, fun s unready => ?_,
    fun s f d port => ?_, fun s c r d port slot row => ?_⟩
  · have grants := Smc.endOperation_idle ready idle
    have done : exec .grantPoint s = .next { s with smc := s.smc.grant } :=
      (exec_grantPoint_without_burst idle (by simp)).trans (congrArg _ (State.onSmc_of_eq grants))
    exact ⟨_, done, s.smc.grant_op, s.smc.grant_debt, s.smc.grant_slot, s.smc.grant_mem, rfl⟩
  · have waits := Smc.endOperation_unissued port held
    exact (exec_grantPoint_without_burst port (by rintro c d ⟨⟩; cases held)).trans
      (congrArg _ (State.onSmc_of_eq waits))
  · by_cases idle : s.smc.port = none
    · have rises := Smc.debtRise_idle ready idle
      have op := s.smc.risen.grant_op
      refine ⟨_, congrArg Host.Outcome.next (State.onSmc_of_eq rises), s.smc.risen.grant_debt, s.smc.risen.grant_rises,
        fun c => (s.smc.risen.grant_slot c).trans (s.smc.risen_slot c), fun busy => absurd idle busy,
        fun _ high => ?_, fun _ low quiet => ?_, s.smc.risen.grant_mem, rfl⟩
      · exact op.trans (Smc.firstOp_full (by simp only [Smc.risen]; omega))
      · exact op.trans (Smc.firstOp_quiet (by simp only [Smc.risen]; omega) (by simp only [Smc.risen]; omega)
          fun c => by rw [Smc.risen_slot, quiet])
    · have rises := Smc.debtRise_busy ready idle
      exact ⟨_, congrArg Host.Outcome.next (State.onSmc_of_eq rises), rfl, rfl, s.smc.risen_slot,
        fun _ => ⟨rfl, rfl⟩, fun h => absurd h idle, fun h => absurd h idle, rfl, rfl⟩
  · exact congrArg Host.Outcome.next (State.onSmc_of_eq <| Smc.debtRise_unready unready)
  · have ends := Smc.endOperation_refresh port
    have refreshed := (s.smc.freed d).endRefresh_eq f
    have done : exec .grantPoint s = .next { s with smc := ((s.smc.freed d).endRefresh f).grant } :=
      (exec_grantPoint_without_burst port (by simp)).trans (congrArg _ (State.onSmc_of_eq ends))
    refine ⟨_, done, ?_, ?_, ?_, ?_, fun c => by simp, ?_, ?_, rfl⟩
    · exact (Smc.grant_op _).trans (Smc.firstOp_grant _).symm
    · rw [Smc.grant_debt, refreshed]
      rfl
    · rw [Smc.grant_forced, refreshed]
      rfl
    · rw [Smc.grant_opportunistic, refreshed]
      rfl
    · rw [Smc.grant_serve, refreshed]
      rfl
    · rw [Smc.grant_mem, refreshed]
      rfl
  · have slotF : (s.smc.freed d).slot c = some r := by rw [Smc.freed_slot, slot]
    refine ⟨_, exec_grantPoint_burst port slot row, ?_, ?_, ?_, ?_,
      fun more => ?_, fun last => ?_, fun e ne => ?_, ?_, rfl⟩
    · exact (Smc.grant_op _).trans (Smc.firstOp_grant _).symm
    · rw [Smc.grant_debt, Smc.endBurst_debt slotF]
      rfl
    · rw [Smc.grant_forced, Smc.endBurst_forced slotF]
      rfl
    · rw [Smc.grant_opportunistic, Smc.endBurst_opportunistic slotF]
      rfl
    · rw [Smc.grant_slot, Smc.endBurst_slot_of_more slotF more, Option.map_some, Smc.burstRequest_done]
    · rw [Smc.grant_slot, Smc.endBurst_slot_of_last slotF last]
      rfl
    · rw [Smc.grant_slot, Smc.endBurst_slot_other slotF ne, Smc.freed_slot]
    · rw [Smc.grant_serve, Smc.endBurst_serve_length slotF]
      rfl

end Sys2Proof.Machine
end

