-- ==== Sys2Proof/Proofs/Banks.lean ====
section
/-!
O40: banks that become OPEN and IDLE, and the operations that waited for them (spec/07, R139, R141, R144).
-/
namespace Sys2Proof.Machine

/-! ## Operations that go on with their bank -/

section
variable {m : Smc}

/-- A burst is issued when its bank is OPEN at its row. -/
theorem Smc.startBurst_open (c : ReqClass) {r : Request} (opened : m.banks[r.bank].state = .open)
    (row : m.banks[r.bank].row = some r.row) : m.startBurst c r =
      { m with port := some { op := .burst c, issued := true, due := m.clock + r.kind.burstClocks } } := by
  unfold Smc.startBurst
  simp only [opened, row, if_true]

/-- An IDLE bank is activated for the burst. -/
theorem Smc.startBurst_idle (c : ReqClass) {r : Request} (idle : m.banks[r.bank].state = .idle) : m.startBurst c r =
    ({ m with port := some { op := .burst c, issued := false, due := m.clock } } : Smc).onBank r.bank
      (Bank.activate m.clock r.row) := by
  unfold Smc.startBurst
  simp only [idle]

theorem ReqKind.burstClocks_eq (k : ReqKind) : k.burstClocks = if k = .write64 then 8 else 11 := by
  cases k <;> rfl

/-- With every bank IDLE a refresh is issued after the precharge of all banks. -/
theorem Smc.startRefresh_allIdle (f : Bool) (idle : ∀ b : Fin 4, m.banks[b].state = .idle) :
    m.startRefresh f = m.issueRefresh f (m.clock + 2) := by
  unfold Smc.startRefresh
  rw [if_neg (Smc.anyPrecharging_of_idle idle), if_pos (Smc.allIdle_iff.mpr idle)]
end

/-! ## The bank done -/

section
variable (m : Smc) (b : Fin 4)

/-- The controller with bank `b` OPEN. -/
def Smc.opened : Smc :=
  ({ m with clock := max m.clock m.banks[b].due } : Smc).onBank b fun k => { k with state := .open }

/-- The controller with bank `b` IDLE. -/
def Smc.closed : Smc :=
  ({ m with clock := max m.clock m.banks[b].due } : Smc).onBank b fun k => { k with state := .idle, row := none }

theorem Smc.opened_same : (m.opened b).banks[b] = { m.banks[b] with state := .open } := Smc.onBank_same _ b _
theorem Smc.closed_same : (m.closed b).banks[b] = { m.banks[b] with state := .idle, row := none } :=
  Smc.onBank_same _ b _

variable {b}
theorem Smc.opened_other {e : Fin 4} (ne : e ≠ b) : (m.opened b).banks[e] = m.banks[e] := Smc.onBank_other _ _ ne
theorem Smc.closed_other {e : Fin 4} (ne : e ≠ b) : (m.closed b).banks[e] = m.banks[e] := Smc.onBank_other _ _ ne

variable {m} {c : ReqClass} {r : Request} {d : Nat}

theorem Smc.activateDone_other (state : m.banks[b].state ≠ .activating) : m.activateDone b = m := if_neg state
theorem Smc.prechargeDone_other (state : m.banks[b].state ≠ .precharging) : m.prechargeDone b = m := if_neg state

theorem Smc.activateDone_burst (state : m.banks[b].state = .activating)
    (port : m.port = some { op := .burst c, issued := false, due := d }) (slot : m.slot c = some r) (bank : r.bank = b) :
    m.activateDone b = (m.opened b).startBurst c r := by
  have slotO : (m.opened b).slot c = some r := by rw [← slot]; cases c <;> rfl
  have portO : (m.opened b).port = _ := port
  unfold Smc.activateDone
  rw [if_pos state]
  simp only [Smc.opened] at slotO portO ⊢
  simp only [portO, slotO, if_pos bank]

theorem Smc.prechargeDone_idle (state : m.banks[b].state = .precharging) (idle : m.port = none) :
    m.prechargeDone b = m.closed b := by
  have portC : (m.closed b).port = none := idle
  unfold Smc.prechargeDone
  rw [if_pos state]
  simp only [Smc.closed] at portC ⊢
  simp only [portC]

theorem Smc.prechargeDone_burst (state : m.banks[b].state = .precharging)
    (port : m.port = some { op := .burst c, issued := false, due := d }) (slot : m.slot c = some r) (bank : r.bank = b) :
    m.prechargeDone b = (m.closed b).startBurst c r := by
  have slotC : (m.closed b).slot c = some r := by rw [← slot]; cases c <;> rfl
  have portC : (m.closed b).port = _ := port
  unfold Smc.prechargeDone
  rw [if_pos state]
  simp only [Smc.closed] at slotC portC ⊢
  simp only [portC, slotC, if_pos bank]

/-- The last bank becomes IDLE for a refresh that waits: its precharge of all banks takes 20 ns more when it has waited for
that bank, and is over otherwise (R144). -/
theorem Smc.prechargeDone_refresh {f : Bool} (state : m.banks[b].state = .precharging)
    (port : m.port = some { op := .refresh f, issued := false, due := d })
    (idle : ∀ e : Fin 4, (m.closed b).banks[e].state = .idle) : m.prechargeDone b =
      (m.closed b).issueRefresh f ((m.closed b).clock + if d = 0 then 2 else 0) := by
  have portC : (m.closed b).port = _ := port
  have none_closing := Smc.anyPrecharging_of_idle idle
  have waited := Smc.startRefresh_allIdle f idle
  have all := Smc.allIdle_iff.mpr idle
  unfold Smc.prechargeDone
  rw [if_pos state]
  simp only [Smc.closed] at portC none_closing waited all ⊢
  simp only [portC, if_neg none_closing, if_pos all, waited]
  by_cases zero : d = 0
  · rw [if_pos zero, if_pos zero]
  · rw [if_neg zero, if_neg zero]
    rfl
end

/-! ## The statement -/

/-- Settles O40, by the state of the bank and by the operation that waits for it. -/
theorem banksOpenAndClose : Obligations.BanksOpenAndClose := by
  refine ⟨fun s b c r d state row port slot bank => ?_, fun s b state => ?_, fun s b state idle => ?_,
    fun s b c r d state port slot bank => ?_, fun s b f d state port idle => ?_, fun s b state => ?_⟩
  · subst bank
    have bank := s.smc.opened_same r.bank
    have issues := Smc.activateDone_burst state port slot rfl
    rw [Smc.startBurst_open c (congrArg Bank.state bank) ((congrArg Bank.row bank).trans row), ReqKind.burstClocks_eq]
      at issues
    exact ⟨_, congrArg Host.Outcome.next (State.onSmc_of_eq issues), bank, rfl,
      fun e ne => s.smc.opened_other ne, rfl, rfl⟩
  · exact congrArg Host.Outcome.next (State.onSmc_of_eq <| Smc.activateDone_other state)
  · have bank := s.smc.closed_same b
    exact ⟨_, congrArg Host.Outcome.next (State.onSmc_of_eq (Smc.prechargeDone_idle state idle)),
      congrArg Bank.state bank, congrArg Bank.row bank, fun e ne => s.smc.closed_other ne, idle, rfl, rfl⟩
  · subst bank
    have activates := Smc.prechargeDone_burst state port slot rfl
    rw [Smc.startBurst_idle c (congrArg Bank.state (s.smc.closed_same r.bank))] at activates
    have bank := Smc.onBank_same ({ s.smc.closed r.bank with
      port := some { op := .burst c, issued := false, due := (s.smc.closed r.bank).clock } } : Smc) r.bank
      (Bank.activate (s.smc.closed r.bank).clock r.row)
    exact ⟨_, congrArg Host.Outcome.next (State.onSmc_of_eq activates), congrArg Bank.state bank,
      congrArg Bank.row bank, congrArg Bank.lastActivate bank,
      fun e ne => (Smc.onBank_other _ _ ne).trans (s.smc.closed_other ne), rfl, rfl⟩
  · have idleC : ∀ e : Fin 4, (s.smc.closed b).banks[e].state = .idle := fun e => by
      by_cases same : e = b
      · exact same ▸ congrArg Bank.state (s.smc.closed_same b)
      · rw [s.smc.closed_other same, idle e same]
    refine ⟨_, congrArg Host.Outcome.next (State.onSmc_of_eq (Smc.prechargeDone_refresh state port idleC)), idleC, ?_,
      rfl, rfl⟩
    by_cases waits : d = 0
    · rw [if_pos waits, if_pos waits]
      rfl
    · rw [if_neg waits, if_neg waits]
      rfl
  · exact congrArg Host.Outcome.next (State.onSmc_of_eq <| Smc.prechargeDone_other state)

end Sys2Proof.Machine
end

