-- ==== Sys2Proof/Proofs/Arbitration.lean ====
section
/-!
O41: the frame chosen at a start delimiter, and its arbitration against the rivals' bytes (spec/08, R152 to R160).
-/
namespace Sys2Proof.Machine

/-- In the arbitration byte the class stands above the position (R152). -/
theorem arbByte_toNat {cls : Nat} (fits : cls < 8) (own : Position) : (arbByte cls own).toNat = 32 * cls + own.val := by
  rw [arbByte, BitVec.toNat_ofNat]
  omega

/-! ## The frame chosen (R153, R154, R157, R158) -/

section
variable {l : Liu} {up : Bool} (own : Position)

theorem Liu.choose_halt (halt : l.halt = true) :
    l.choose true own = some { source := .halt, arb := arbByte 0 own, kind := 0, payload := [] } := by
  simp [Liu.choose, halt]

/-- No frame goes before the listen's end, and only HALT in MUTE or with a conflict recorded. -/
theorem Liu.choose_barred (barred : up = false ∨ l.halt = false ∧ (l.mute ≠ 0 ∨ l.conflict = true)) :
    l.choose up own = none := by
  rcases barred with down | ⟨halt, mute | conflict⟩
  · simp [Liu.choose, down]
  · simp [Liu.choose, halt, mute]
  · simp [Liu.choose, halt, conflict]

/-- With every slot and queue empty, but for page data that yields, no frame goes. -/
theorem Liu.choose_none (halt : l.halt = false) (beacon : l.beacon = none) (claim : l.claim = none)
    (replies : l.replies = []) (fetch : l.fetchQ = []) (content : l.contentQ = [] ∨ 4 ≤ l.yieldCount) :
    l.choose true own = none := by
  simp only [Liu.choose, halt, beacon, claim, replies, fetch, Bool.and_false, Bool.false_eq_true, if_false,
    ite_eq_left_iff]
  intro _
  cases queue : l.contentQ with
  | nil => rfl
  | cons q rest =>
    have yields : ¬l.yieldCount < 4 := not_lt.mpr (content.resolve_left (by simp [queue]))
    simp only [if_neg yields]

section
variable (halt : l.halt = false) (mute : l.mute = 0) (conflict : l.conflict = false)
include halt mute conflict

theorem Liu.choose_beacon {b : BeaconFields} (beacon : l.beacon = some b) :
    l.choose true own = some { source := .time b, arb := arbByte 1 own, kind := 0, payload := b.bytes } := by
  simp [Liu.choose, halt, mute, conflict, beacon]

variable (beacon : l.beacon = none)
include beacon

theorem Liu.choose_claim {c : ClaimFrame} (claim : l.claim = some c) :
    l.choose true own = some { source := .claim, arb := arbByte 2 own, kind := 0, payload := c.bytes } := by
  simp [Liu.choose, halt, mute, conflict, beacon, claim]

variable (claim : l.claim = none)
include claim

theorem Liu.choose_reply {r : Reply} {rest : List Reply} (replies : l.replies = r :: rest) :
    l.choose true own = some { source := .query, arb := arbByte 4 own, kind := 1, payload := r.part } := by
  simp [Liu.choose, halt, mute, conflict, beacon, claim, replies]

variable (replies : l.replies = [])
include replies

theorem Liu.choose_fetch {q : PageRequestOut} {rest : List PageRequestOut} (fetch : l.fetchQ = q :: rest) :
    l.choose true own = some { source := .fetch, arb := arbByte 5 own, kind := 0, payload := q.bytes } := by
  simp [Liu.choose, halt, mute, conflict, beacon, claim, replies, fetch]

theorem Liu.choose_content {q : PageDataOut} {rest : List PageDataOut} (fetch : l.fetchQ = [])
    (content : l.contentQ = q :: rest) (unyielding : l.yieldCount < 4) :
    l.choose true own = some { source := .content, arb := arbByte 6 own, kind := 1, payload := q.bytes } := by
  simp [Liu.choose, halt, mute, conflict, beacon, claim, replies, fetch, content, unyielding]
end
end

/-! ## Arbitration (R153, R160) -/

section
variable {l : Liu} {up : Bool} {own : Position} {now : Nat} {rivals : List Byte} {x : Tx}

/-- With no frame that may go the station receives. -/
theorem Liu.start_receives (chosen : l.choose up own = none) (rival : rivals ≠ []) :
    l.start up own now rivals = { l with rxStamp := some (now : Int) } := by
  simp [Liu.start, chosen, rival]

/-- On an idle line nothing happens then. -/
theorem Liu.start_idle (chosen : l.choose up own = none) : l.start up own now [] = l := by
  simp [Liu.start, chosen]

/-- A lower rival goes through, and the station receives. -/
theorem Liu.start_lost (cls : Fin 7) (chosen : l.choose up own = some x) {r : Byte} (mem : r ∈ rivals)
    (lower : r.toNat < 32 * cls.val + own.val) (arb : x.arb = arbByte cls own := by rfl) :
    l.start up own now rivals = { l with rxStamp := some (now : Int) } := by
  have byte := arbByte_toNat (cls := cls) (by omega) own
  have lost : (rivals.any fun b => decide (b.toNat < x.arb.toNat)) = true :=
    List.any_eq_true.mpr ⟨r, mem, by simpa [arb, byte] using lower⟩
  simp [Liu.start, chosen, lost]

/-- With no lower rival the chosen frame is begun. -/
theorem Liu.start_begins (cls : Fin 7) (chosen : l.choose up own = some x)
    (won : ∀ r ∈ rivals, 32 * cls.val + own.val ≤ r.toNat) (arb : x.arb = arbByte cls own := by rfl) :
    l.start up own now rivals = l.begin x now := by
  have byte := arbByte_toNat (cls := cls) (by omega) own
  have won : (rivals.any fun b => decide (b.toNat < x.arb.toNat)) = false :=
    List.any_eq_false.mpr fun r mem => by simpa [arb, byte] using won r mem
  simp [Liu.start, chosen, won]

/-- A chosen frame that is no beacon keeps its place as it is begun. -/
theorem Liu.start_sends (cls : Fin 7) (chosen : l.choose up own = some x)
    (won : ∀ r ∈ rivals, 32 * cls.val + own.val ≤ r.toNat) (kept : ∀ b, x.source ≠ .time b := by nofun)
    (arb : x.arb = arbByte cls own := by rfl) : l.start up own now rivals = { l with tx := some x } := by
  rw [Liu.start_begins cls chosen won arb]
  unfold Liu.begin
  split
  · exact absurd ‹_› (kept _)
  · rfl

/-- A start delimiter reaches no place but the beacon's slot. -/
theorem Liu.start_keeps (l : Liu) (up : Bool) (own : Position) (now : Nat) (rivals : List Byte) :
    (l.start up own now rivals).claim = l.claim ∧ (l.start up own now rivals).replies = l.replies ∧
      (l.start up own now rivals).fetchQ = l.fetchQ ∧ (l.start up own now rivals).contentQ = l.contentQ := by
  unfold Liu.start Liu.begin
  split
  · split <;> exact ⟨rfl, rfl, rfl, rfl⟩
  · split
    · exact ⟨rfl, rfl, rfl, rfl⟩
    · split <;> exact ⟨rfl, rfl, rfl, rfl⟩

/-- With no frame that may go none is begun. -/
theorem Liu.start_tx_none (chosen : l.choose up own = none) : (l.start up own now rivals).tx = l.tx := by
  cases rivals with
  | nil => rw [Liu.start_idle chosen]
  | cons r rest => rw [Liu.start_receives chosen (List.cons_ne_nil r rest)]
end

section
variable {s : State}

theorem exec_transmitStart_live (rivals : List Byte) (live : s.live = true) (idle : s.liu.tx = none) :
    exec (.transmitStart rivals) s =
      .next { s with liu := s.liu.start (s.st.phase == .up) s.own s.tbu.basinTime rivals } :=
  congrArg Host.Outcome.next (if_pos (by simp [live, idle]))

theorem exec_transmitStart (rivals : List Byte) (up : s.st.phase = .up) (idle : s.liu.tx = none) :
    exec (.transmitStart rivals) s = .next { s with liu := s.liu.start true s.own s.tbu.basinTime rivals } := by
  rw [exec_transmitStart_live rivals (by rw [State.live, up]) idle, up]
  rfl
end

section
variable {s : State} {rivals : List Byte} (up : s.st.phase = .up) (idle : s.liu.tx = none)
include up idle

/-- Against a lower rival the chosen frame keeps its place. -/
theorem exec_transmitStart_loses {x : Tx} (cls : Fin 7) (chosen : s.liu.choose true s.own = some x) {r : Byte}
    (mem : r ∈ rivals) (lower : r.toNat < 32 * cls.val + s.own.val) (arb : x.arb = arbByte cls s.own := by rfl) :
    exec (.transmitStart rivals) s =
      .next { s with liu := { s.liu with rxStamp := some (s.tbu.basinTime : Int) } } := by
  rw [exec_transmitStart rivals up idle, Liu.start_lost cls chosen mem lower arb]

/-- With no frame that may go the station receives a rival's. -/
theorem exec_transmitStart_receives (chosen : s.liu.choose true s.own = none) {r : Byte} (mem : r ∈ rivals) :
    exec (.transmitStart rivals) s =
      .next { s with liu := { s.liu with rxStamp := some (s.tbu.basinTime : Int) } } := by
  rw [exec_transmitStart rivals up idle, Liu.start_receives chosen (List.ne_nil_of_mem mem)]
end

/-- Settles O41, by the frame chosen and by whether a rival's byte is lower. -/
theorem framesContendForLine : Obligations.FramesContendForLine := by
  refine ⟨?sendsHalt, ?sendsBeacon, ?keepsBeacon, ?sends, ?keepsHalt, ?keeps, ?nothing, ?barred⟩
  case sendsHalt =>
    intro rivals s up idle halt won
    rw [exec_transmitStart rivals up idle, Liu.start_sends 0 (Liu.choose_halt s.own halt) (by simpa using won), arbByte,
      Nat.mul_zero, Nat.zero_add]
  case sendsBeacon =>
    intro rivals s b up idle halt mute conflict beacon won
    rw [exec_transmitStart rivals up idle, Liu.start_begins 1 (Liu.choose_beacon s.own halt mute conflict beacon) won]
    rfl
  case keepsBeacon =>
    intro rivals s b r up idle halt beacon mem lower
    by_cases barred : s.liu.mute ≠ 0 ∨ s.liu.conflict = true
    · exact exec_transmitStart_receives up idle (Liu.choose_barred s.own (.inr ⟨halt, barred⟩)) mem
    · simp only [ne_eq, not_or, not_not, Bool.not_eq_true] at barred
      obtain ⟨mute, conflict⟩ := barred
      exact exec_transmitStart_loses up idle 1 (Liu.choose_beacon s.own halt mute conflict beacon) mem lower
  case sends =>
    intro rivals s up idle halt mute conflict beacon
    obtain ⟨claimKept, repliesKept, fetchKept, contentKept⟩ := s.liu.start_keeps true s.own s.tbu.basinTime rivals
    refine ⟨_, exec_transmitStart rivals up idle, fun c claim won => ?_, fun q rest claim replies won => ?_,
      fun q rest claim replies fetch won => ?_, fun q rest claim replies fetch content unyielding won => ?_,
      fun claim replies fetch yields => ?_, claimKept, repliesKept, fetchKept, contentKept, rfl⟩
    · have chosen := Liu.choose_claim s.own halt mute conflict beacon claim
      exact congrArg Liu.tx (Liu.start_sends 2 chosen won)
    · have chosen := Liu.choose_reply s.own halt mute conflict beacon claim replies
      exact congrArg Liu.tx (Liu.start_sends 4 chosen won)
    · have chosen := Liu.choose_fetch s.own halt mute conflict beacon claim replies fetch
      exact congrArg Liu.tx (Liu.start_sends 5 chosen won)
    · have chosen := Liu.choose_content s.own halt mute conflict beacon claim replies fetch content unyielding
      exact congrArg Liu.tx (Liu.start_sends 6 chosen won)
    · have chosen := Liu.choose_none s.own halt beacon claim replies fetch (.inr yields.ge)
      exact (Liu.start_tx_none chosen).trans idle
  case keepsHalt =>
    intro rivals s r up idle halt mem lower
    exact exec_transmitStart_loses up idle 0 (Liu.choose_halt s.own halt) mem (by simpa using lower)
  case keeps =>
    intro rivals s r up idle halt mute conflict beacon mem below
    rcases below with ⟨claim, lower⟩ | ⟨claim, replies, lower⟩ | ⟨claim, replies, fetch, lower⟩ |
      ⟨claim, replies, fetch, content, unyielding, lower⟩ | ⟨claim, replies, fetch, content⟩
    · obtain ⟨c, claim⟩ := Option.ne_none_iff_exists'.mp claim
      have chosen := Liu.choose_claim s.own halt mute conflict beacon claim
      exact exec_transmitStart_loses up idle 2 chosen mem lower
    · obtain ⟨q, rest, replies⟩ := List.exists_cons_of_ne_nil replies
      have chosen := Liu.choose_reply s.own halt mute conflict beacon claim replies
      exact exec_transmitStart_loses up idle 4 chosen mem lower
    · obtain ⟨q, rest, fetch⟩ := List.exists_cons_of_ne_nil fetch
      have chosen := Liu.choose_fetch s.own halt mute conflict beacon claim replies fetch
      exact exec_transmitStart_loses up idle 5 chosen mem lower
    · obtain ⟨q, rest, content⟩ := List.exists_cons_of_ne_nil content
      have chosen := Liu.choose_content s.own halt mute conflict beacon claim replies fetch content unyielding
      exact exec_transmitStart_loses up idle 6 chosen mem lower
    · have chosen := Liu.choose_none s.own halt beacon claim replies fetch content
      exact exec_transmitStart_receives up idle chosen mem
  case nothing =>
    intro s up idle halt beacon claim replies fetch content
    rw [exec_transmitStart [] up idle, Liu.start_idle (Liu.choose_none s.own halt beacon claim replies fetch content)]
  case barred =>
    intro rivals s live idle rival barred
    have barred : (s.st.phase == .up) = false ∨ s.liu.halt = false ∧ (s.liu.mute ≠ 0 ∨ s.liu.conflict = true) :=
      barred.imp_left beq_eq_false_iff_ne.mpr
    rw [exec_transmitStart_live rivals live idle, Liu.start_receives (Liu.choose_barred s.own barred) rival]

end Sys2Proof.Machine
end

