-- ==== Sys2Proof/Proofs/FramesOnLine.lean ====
section
/-!
O60, the line: stuffed levels read back (spec/08, R151), and the receive check of a frame as it is written (R152, R159).
-/
namespace Sys2Proof.Machine

/-! ## Stuff bits (R151) -/

/-- The run of equal levels and its level after one more bit: on a run of five a stuff bit goes before it. -/
def runStep (run : Nat × Bool) (b : Bool) : Nat × Bool :=
  if run.1 = 5 then (if b = run.2 then 1 else 2, b) else (if b = run.2 then run.1 + 1 else 1, b)

/-- The levels of `bits` after the run given, the stuff bit that the run still calls for before them. -/
def stuffFrom (run : Nat × Bool) (bits : List Bool) : List Bool :=
  if run.1 = 5 then (!run.2) :: stuff 1 (!run.2) bits else stuff run.1 run.2 bits

theorem runStep_le {run : Nat × Bool} (le : run.1 ≤ 5) (b : Bool) : (runStep run b).1 ≤ 5 := by
  unfold runStep
  split
  · dsimp only
    split <;> decide
  · dsimp only
    split <;> omega

theorem runStep_five (last b : Bool) : runStep (5, last) b = runStep (1, !last) b := by
  cases last <;> cases b <;> rfl

theorem foldl_runStep_le (bits : List Bool) {run : Nat × Bool} (le : run.1 ≤ 5) : (bits.foldl runStep run).1 ≤ 5 := by
  induction bits generalizing run with
  | nil => exact le
  | cons b bits ih => exact ih (runStep_le le b)

/-- Below five a bit goes out as it is. -/
theorem stuff_cons {run : Nat} (lt : run < 5) (last b : Bool) (bits : List Bool) :
    stuff run last (b :: bits) = b :: stuffFrom (runStep (run, last) b) bits := by
  have notFive : run ≠ 5 := lt.ne
  by_cases same : b = last
  · by_cases five : run + 1 = 5 <;> simp [stuff, stuffFrom, runStep, notFive, same, five]
  · simp [stuff, stuffFrom, runStep, notFive, same]

theorem readBits_zero (run : Nat) (last : Bool) (ls : List Bool) : readBits 0 run last ls = .ok [] run last ls := by
  cases ls <;> simp [readBits]

/-- On a run of five the stuff bit is passed over (R151). -/
theorem readBits_stuffBit (n : Nat) (last : Bool) (ls : List Bool) :
    readBits (n + 1) 5 last ((!last) :: ls) = readBits (n + 1) 1 (!last) ls := by
  simp [readBits]

/-- Below five the next level is the next bit. -/
theorem readBits_level {n : Nat} {run : Nat × Bool} (lt : run.1 < 5) (b : Bool) {ls got rest : List Bool} {r : Nat}
    {l : Bool} (reads : readBits n (runStep run b).1 (runStep run b).2 ls = .ok got r l rest) :
    readBits (n + 1) run.1 run.2 (b :: ls) = .ok (b :: got) r l rest := by
  have notFive : run.1 ≠ 5 := lt.ne
  rw [runStep, if_neg notFive] at reads
  simp [readBits, notFive, reads]

/-- Bits stuffed and read back are the bits; the levels that follow are those of the run as it then stands. -/
theorem readBits_stuffFrom (bits more tail : List Bool) {run : Nat × Bool} (le : run.1 ≤ 5) :
    readBits bits.length run.1 run.2 (stuffFrom run (bits ++ more) ++ tail) =
      .ok bits (bits.foldl runStep run).1 (bits.foldl runStep run).2
        (stuffFrom (bits.foldl runStep run) more ++ tail) := by
  induction bits generalizing run with
  | nil => exact readBits_zero _ _ _
  | cons b bits ih =>
    have below {run : Nat × Bool} (lt : run.1 < 5) :
        readBits (bits.length + 1) run.1 run.2 (stuff run.1 run.2 (b :: bits ++ more) ++ tail) =
          .ok (b :: bits) ((b :: bits).foldl runStep run).1 ((b :: bits).foldl runStep run).2
            (stuffFrom ((b :: bits).foldl runStep run) more ++ tail) := by
      rw [List.cons_append, stuff_cons lt, List.cons_append]
      exact readBits_level lt b (ih (runStep_le lt.le b))
    obtain ⟨run, last⟩ := run
    by_cases five : run = 5
    · subst five
      have read := below (run := (1, !last)) Nat.one_lt_ofNat
      rw [List.foldl_cons, ← runStep_five] at read
      exact (readBits_stuffBit _ _ _).trans read
    · rw [stuffFrom, if_neg five]
      exact below (Nat.lt_of_le_of_ne le five)

/-! ## Bytes and their bits (R196) -/

theorem bitsNat_byteBits (b : Byte) : bitsNat (byteBits b) = b.toNat := by
  revert b
  decide

theorem bitsNat_class (b : Byte) : bitsNat ((byteBits b).take 3) = b.toNat / 32 := by
  revert b
  decide

theorem length_flatMap_byteBits (bytes : List Byte) : (bytes.flatMap byteBits).length = 8 * bytes.length := by
  induction bytes with
  | nil => rfl
  | cons b bytes ih =>
    have eight : (byteBits b).length = 8 := rfl
    rw [List.flatMap_cons, List.length_append, ih, List.length_cons, eight]
    omega

theorem bytesOf_flatMap_byteBits (bytes : List Byte) : bytesOf (bytes.flatMap byteBits) = bytes := by
  induction bytes with
  | nil => rfl
  | cons b bytes ih =>
    have first : BitVec.ofNat 8 (bitsNat (byteBits b)) = b := by
      rw [bitsNat_byteBits, BitVec.ofNat_toNat, BitVec.setWidth_eq]
    rw [List.flatMap_cons]
    exact congrArg₂ List.cons first ih

/-! ## A frame on the line (R152) -/

/-- The run after the start delimiter and the bits `done`. -/
def runAfter (done : List Bool) : Nat × Bool := done.foldl runStep (1, false)

/-- The levels of a frame after the start delimiter and the bits `done`, when the bits `more` are still to come. -/
def levelsAfter (done more : List Bool) : List Bool := stuffFrom (runAfter done) more ++ List.replicate 6 true

theorem runAfter_le (done : List Bool) : (runAfter done).1 ≤ 5 := foldl_runStep_le done (by decide)

theorem readBits_levelsAfter {n : Nat} (done bits more : List Bool) (length : bits.length = n) :
    readBits n (runAfter done).1 (runAfter done).2 (levelsAfter done (bits ++ more)) =
      .ok bits (runAfter (done ++ bits)).1 (runAfter (done ++ bits)).2 (levelsAfter (done ++ bits) more) := by
  have reads := readBits_stuffFrom bits more (List.replicate 6 true) (runAfter_le done)
  have joined : runAfter (done ++ bits) = bits.foldl runStep (runAfter done) := List.foldl_append
  rw [levelsAfter, levelsAfter, joined, ← length, reads]

theorem readBits_byte (done more : List Bool) (b : Byte) :
    readBits 8 (runAfter done).1 (runAfter done).2 (levelsAfter done (byteBits b ++ more)) =
      .ok (byteBits b) (runAfter (done ++ byteBits b)).1 (runAfter (done ++ byteBits b)).2
        (levelsAfter (done ++ byteBits b) more) :=
  readBits_levelsAfter done (byteBits b) more rfl

/-- The bits of a frame before its CRC. -/
def bodyBits (arb kind : Byte) (payload : List Byte) : List Bool :=
  (arb :: kind :: BitVec.ofNat 8 payload.length :: payload).flatMap byteBits

theorem bodyBits_eq (arb kind : Byte) (payload : List Byte) : bodyBits arb kind payload =
    byteBits arb ++ byteBits kind ++ byteBits (BitVec.ofNat 8 payload.length) ++ payload.flatMap byteBits := by
  simp [bodyBits]

/-- The bits of the three bytes before the payload. -/
def headBits (arb kind : Byte) (payload : List Byte) : List Bool :=
  [arb, kind, BitVec.ofNat 8 payload.length].flatMap byteBits

theorem bodyBits_eq_head (arb kind : Byte) (payload : List Byte) :
    bodyBits arb kind payload = headBits arb kind payload ++ payload.flatMap byteBits :=
  List.flatMap_append (xs := [arb, kind, BitVec.ofNat 8 payload.length])

theorem frameLevels_eq (arb kind : Byte) (payload : List Byte) : frameLevels arb kind payload =
    false :: levelsAfter [] (bodyBits arb kind payload ++ crcBits (crc16 (bodyBits arb kind payload))) := by
  rw [frameLevels, List.cons_append, stuff_cons (by decide)]
  rfl

/-! ## The checks of R159 -/

/-- After the last bit of the CRC come the stuff bit of a run of five, and the end delimiter. -/
theorem checkTail_levelsAfter (done : List Bool) :
    checkTail (runAfter done).1 (runAfter done).2 (levelsAfter done []) = .accepted := by
  have recessive : checkEnd [true, true, true, true, true, true] = .accepted := by decide
  by_cases five : (runAfter done).1 = 5 <;> simp [checkTail, levelsAfter, stuffFrom, stuff, five, recessive]

theorem checkCrc_levelsAfter (body : List Bool) :
    checkCrc body (runAfter body).1 (runAfter body).2 (levelsAfter body (crcBits (crc16 body))) = .accepted := by
  have reads := readBits_levelsAfter body (crcBits (crc16 body)) [] (by simp [crcBits] : _ = 16)
  rw [List.append_nil] at reads
  rw [checkCrc, reads]
  exact (if_pos rfl).trans (checkTail_levelsAfter _)

/-- No kind's payload is above 80 bytes, class 7 has no kind, and no class a kind above 10 (R152, R196). -/
theorem kindLength_bounds {cls kind lo hi : Nat} (lengths : kindLength cls kind = some (lo, hi)) :
    hi ≤ 80 ∧ cls ≤ 6 ∧ kind ≤ 10 := by
  unfold kindLength at lengths
  split at lengths <;> cases lengths <;> decide

theorem checkKind_levelsAfter (cls : Nat) (arb more : List Bool) (kind : Byte) :
    checkKind cls arb (runAfter arb).1 (runAfter arb).2 (levelsAfter arb (byteBits kind ++ more)) =
      checkLength cls kind.toNat (arb ++ byteBits kind) (runAfter (arb ++ byteBits kind)).1
        (runAfter (arb ++ byteBits kind)).2 (levelsAfter (arb ++ byteBits kind) more) := by
  rw [checkKind, readBits_byte]
  exact congrArg (fun n => checkLength cls n _ _ _ _) (bitsNat_byteBits kind)

theorem checkFrame_levelsAfter (arb : Byte) (more : List Bool) (classed : arb.toNat / 32 ≤ 6) :
    checkFrame (false :: levelsAfter [] (byteBits arb ++ more)) =
      checkKind (arb.toNat / 32) (byteBits arb) (runAfter (byteBits arb)).1 (runAfter (byteBits arb)).2
        (levelsAfter (byteBits arb) more) := by
  have reads : readBits 8 1 false _ = _ := readBits_byte [] more arb
  rw [checkFrame, reads]
  dsimp only
  rw [bitsNat_class, if_neg (by omega), List.nil_append]

section
variable {arb kind : Byte} {payload : List Byte} {lo hi : Nat}
  (lengths : kindLength (arb.toNat / 32) kind.toNat = some (lo, hi)) (low : lo ≤ payload.length)
  (high : payload.length ≤ hi)
include lengths high

/-- The length byte spells the length. -/
theorem bitsNat_length : bitsNat (byteBits (BitVec.ofNat 8 payload.length)) = payload.length := by
  obtain ⟨short, _, _⟩ := kindLength_bounds lengths
  rw [bitsNat_byteBits, BitVec.toNat_ofNat]
  omega

include low

theorem checkLength_levelsAfter (head more : List Bool) :
    let length := byteBits (BitVec.ofNat 8 payload.length)
    let body := head ++ length ++ payload.flatMap byteBits
    checkLength (arb.toNat / 32) kind.toNat head (runAfter head).1 (runAfter head).2
      (levelsAfter head (length ++ (payload.flatMap byteBits ++ more))) =
      checkCrc body (runAfter body).1 (runAfter body).2 (levelsAfter body more) := by
  intro length body
  rw [checkLength, lengths]
  dsimp only
  rw [readBits_byte]
  dsimp only
  rw [bitsNat_length lengths high, if_neg (by omega), readBits_levelsAfter _ _ _ (length_flatMap_byteBits payload)]

/-- A frame of a kind's length passes every check (R159). -/
theorem checkFrame_frameLevels : checkFrame (frameLevels arb kind payload) = .accepted := by
  obtain ⟨_, classed, _⟩ := kindLength_bounds lengths
  rw [frameLevels_eq, bodyBits_eq, List.append_assoc, List.append_assoc, List.append_assoc,
    checkFrame_levelsAfter _ _ classed, checkKind_levelsAfter, checkLength_levelsAfter lengths low high]
  exact checkCrc_levelsAfter _

/-- And its levels read back give the frame. -/
theorem readFrame_frameLevels :
    readFrame (frameLevels arb kind payload) = some { arb := arb, kind := kind, payload := payload } := by
  have headRead (more : List Bool) : readBits 24 1 false _ = _ :=
    readBits_levelsAfter [] (headBits arb kind payload) more (length_flatMap_byteBits _)
  have payloadRead (done more : List Bool) :=
    readBits_levelsAfter done (payload.flatMap byteBits) more (length_flatMap_byteBits payload)
  have lengthRead : bitsNat ((headBits arb kind payload).drop 16) = payload.length := bitsNat_length lengths high
  have headBytes : bytesOf (headBits arb kind payload) = _ := bytesOf_flatMap_byteBits _
  rw [readFrame, if_pos (checkFrame_frameLevels lengths low high), frameLevels_eq, bodyBits_eq_head, List.append_assoc]
  simp only [List.drop_one, List.tail_cons, takeBits, headRead, Option.bind_eq_bind, Option.bind_some, lengthRead,
    payloadRead, headBytes, bytesOf_flatMap_byteBits]
end

end Sys2Proof.Machine
end

