-- ==== Sys2Proof/Proofs/FrameFields.lean ====
section
/-!
O60, the commands: the fields of a payload read back (spec/11, R196 to R198), and the frame of every command that comes
from the line.
-/
namespace Sys2Proof.Machine

/-! ## Fields of a payload (R196) -/

theorem foldl_beBytes (k n a : Nat) :
    (beBytes k n).foldl (fun n b => n * 256 + b.toNat) a = a * 256 ^ k + n % 256 ^ k := by
  induction k generalizing a with
  | zero => simp [beBytes, Nat.mod_one]
  | succ k ih =>
    have digits : n % (256 ^ k * 256) = n % 256 ^ k + 256 ^ k * (n / 256 ^ k % 256) := Nat.mod_mul
    rw [beBytes, List.foldl_cons, ih, BitVec.toNat_ofNat, pow_succ 256 k, digits]
    ring

theorem beNat_beBytes (k n : Nat) : beNat (beBytes k n) = n % 256 ^ k := by
  rw [beNat, foldl_beBytes, Nat.zero_mul, Nat.zero_add]

/-- A field whose bytes stand in the payload reads back. -/
theorem Frame.fieldAt_of_bytes {f : Frame} {i k : Nat} {x : BitVec (8 * k)}
    (bytes : (f.payload.drop i).take k = beBytes k x.toNat) : f.fieldAt i k = x := by
  have range : x.toNat < 256 ^ k := by
    have := x.isLt
    rwa [Nat.pow_mul] at this
  rw [Frame.fieldAt, bytes, beNat_beBytes, Nat.mod_eq_of_lt range, BitVec.ofNat_toNat, BitVec.setWidth_eq]

/-! ## Codes (R152) -/

section
variable {cls kind lo hi : Nat} (lengths : kindLength cls kind = some (lo, hi)) (p : Position) (payload : List Byte)
include lengths

theorem frameFrom_arb : (frameFrom cls kind p payload).arb.toNat = 32 * cls + p.val := by
  obtain ⟨_, classed, _⟩ := kindLength_bounds lengths
  exact arbByte_toNat (by omega) p

theorem frameFrom_cls : (frameFrom cls kind p payload).cls = cls := by
  rw [Frame.cls, frameFrom_arb lengths]
  omega

theorem frameFrom_sender : (frameFrom cls kind p payload).sender = p := by
  refine Fin.ext ?_
  show (frameFrom cls kind p payload).arb.toNat % 32 = p.val
  rw [frameFrom_arb lengths]
  omega

theorem frameFrom_kind : (frameFrom cls kind p payload).kind.toNat = kind := by
  obtain ⟨_, _, kinds⟩ := kindLength_bounds lengths
  rw [frameFrom, BitVec.toNat_ofNat]
  omega
end

/-- The frame's length is one of its kind's (R159). -/
def Frame.Fits (f : Frame) : Prop :=
  ∃ lo hi, kindLength f.cls f.kind.toNat = some (lo, hi) ∧ lo ≤ f.payload.length ∧ f.payload.length ≤ hi

theorem frameFrom_fits {cls kind lo hi : Nat} (lengths : kindLength cls kind = some (lo, hi)) (p : Position)
    {payload : List Byte} (low : lo ≤ payload.length) (high : payload.length ≤ hi) :
    (frameFrom cls kind p payload).Fits :=
  ⟨lo, hi, by rw [frameFrom_cls lengths, frameFrom_kind lengths]; exact lengths, low, high⟩

/-- A frame that fits, as it is written on the line, is read as its command (R159, R196). -/
theorem Frame.Fits.commandOnLine {f : Frame} (fits : f.Fits) (strap : Position) (elapsed : Nat) :
    commandOnLine strap elapsed (frameLevels f.arb f.kind f.payload) = f.command strap elapsed := by
  obtain ⟨lo, hi, lengths, low, high⟩ := fits
  rw [Machine.commandOnLine, checkFrame_frameLevels lengths low high, readFrame_frameLevels lengths low high]
  rfl

/-! ## The frame of a command (R196 to R198) -/

section
variable {c : Instr} {f : Frame}

/-- The frame of a well-formed command has a length of its kind. -/
theorem frameOf_fits (wf : c.wellFormed = true) (spelt : frameOf c = some f) : f.Fits := by
  cases c <;> simp only [frameOf, reduceCtorEq, Option.some.injEq] at spelt <;> subst spelt
  case statusReply p payload =>
    have fits : decide (5 ≤ payload.length) && decide (payload.length ≤ 80) := wf
    simp only [Bool.and_eq_true, decide_eq_true_eq] at fits
    obtain ⟨low, high⟩ := fits
    exact frameFrom_fits rfl p low high
  case pageData p fields =>
    have chunk : fields.data.length = 64 := beq_iff_eq.mp wf
    have length : fields.bytes.length = 68 := by simp [PageDataFields.bytes, chunk]
    exact frameFrom_fits rfl p length.ge length.le
  all_goals exact frameFrom_fits rfl _ le_rfl le_rfl

theorem frameOf_sender (spelt : frameOf c = some f) : sender? c = some f.sender := by
  cases c <;> simp only [frameOf, reduceCtorEq, Option.some.injEq] at spelt <;> subst spelt
  all_goals exact congrArg some (frameFrom_sender rfl _ _).symm

theorem statusQuery_unknown {selector : Byte} (unknown : 5 < selector.toNat) (p : Position) (target tag : Byte) :
    statusQuery p target selector tag = .statusQueryUnknownSelector p target selector tag := by
  unfold statusQuery
  split
  case h_7 => rfl
  all_goals omega

theorem Frame.beaconFields_bytes {f : Frame} {b : BeaconFields} (payload : f.payload = b.bytes) :
    f.beaconFields = b := by
  obtain ⟨arb, kind, _⟩ := f
  subst payload
  rw [Frame.beaconFields, fieldAt_of_bytes (x := b.stamp) rfl, fieldAt_of_bytes (x := b.index) rfl,
    fieldAt_of_bytes (x := b.demand) rfl, fieldAt_of_bytes (x := b.share) rfl, fieldAt_of_bytes (x := b.wind) rfl,
    fieldAt_of_bytes (x := b.level) rfl]
  rfl

theorem Frame.defineFields_bytes {f : Frame} {d : SegmentDefineFields} (payload : f.payload = d.bytes) :
    f.defineFields = d := by
  obtain ⟨arb, kind, _⟩ := f
  subst payload
  rw [Frame.defineFields, fieldAt_of_bytes (x := d.length) rfl, fieldAt_of_bytes (x := d.tail) rfl]
  rfl

/-- The strap of a RESET_STATION, which no frame carries. -/
def strapOf : Instr → Position
  | .resetStation _ _ strap => strap
  | _ => 0

/-- The elapsed ticks of a BEACON, which no frame carries. -/
def elapsedOf : Instr → Nat
  | .beacon _ _ elapsed => elapsed
  | _ => 0

/-- The frame of a well-formed command gives that command again. -/
theorem frameOf_command (wf : c.wellFormed = true) (spelt : frameOf c = some f) :
    f.command (strapOf c) (elapsedOf c) = some c := by
  cases c <;> simp only [frameOf, reduceCtorEq, Option.some.injEq] at spelt <;> subst spelt
  all_goals rw [Frame.command, frameFrom_cls rfl, frameFrom_kind rfl, frameFrom_sender rfl]
  case beacon p b elapsed =>
    show some (Instr.beacon p _ elapsed) = _
    rw [Frame.beaconFields_bytes rfl]
  case startClaim p n a =>
    show some (Instr.startClaim p n _) = _
    rw [Frame.fieldAt_of_bytes (x := a) rfl]
  case go p n t0 =>
    show some (Instr.go p n _) = _
    rw [Frame.fieldAt_of_bytes (x := t0) rfl]
  case hold p th =>
    show some (Instr.hold p _) = _
    rw [Frame.fieldAt_of_bytes (x := th) rfl]
  case resume p tr =>
    show some (Instr.resume p _) = _
    rw [Frame.fieldAt_of_bytes (x := tr) rfl]
  case stop p fade =>
    show some (Instr.stop p _) = _
    rw [Frame.fieldAt_of_bytes (x := fade) rfl]
  case trigger p n press =>
    show some (Instr.trigger p n _) = _
    rw [Frame.fieldAt_of_bytes (x := press) rfl]
  case segmentDefine p d =>
    show some (Instr.segmentDefine p _) = _
    rw [Frame.defineFields_bytes rfl]
  case statusQueryUnknownSelector p target selector tag =>
    exact congrArg some (statusQuery_unknown (of_decide_eq_true wf) p target tag)
  all_goals rfl
end

/-- Settles O60: the levels are read back bit by bit, and the commands by their frames' codes and fields. -/
theorem framesSpellCommands : Obligations.FramesSpellCommands := by
  refine ⟨fun arb kind payload lo hi lengths low high => ?_, fun c f wf spelt => ?_, fun c => ?_⟩
  · exact ⟨checkFrame_frameLevels lengths low high, readFrame_frameLevels lengths low high⟩
  · have command := frameOf_command wf spelt
    exact ⟨frameOf_sender spelt, strapOf c, elapsedOf c, command,
      ((frameOf_fits wf spelt).commandOnLine _ _).trans command⟩
  · cases c <;> rfl

end Sys2Proof.Machine
end

