-- ==== Sys2Proof/Proofs/SharedReadings.lean ====
section
/-!
The shared readings (spec/09, R171 to R174): a reading as its sources, its value and the value handed on, the value that
the sources give, and what a recomputation makes of it.
-/
namespace Sys2Proof.Machine

/-! ## One reading -/

/-- A shared reading: how one value betters another, the station's own value, those that the peer records carry, the
value taken without a source, the effective value and the one last handed on. -/
structure Reading where
  better : Nat → Nat → Bool
  mine : Option Nat
  carried : Vector (Option Nat) 32
  unsourced : Nat
  value : Nat
  handed : Nat

/-- The first value that no other betters. -/
def bestValue (better : Nat → Nat → Bool) (l : List Nat) : Option Nat :=
  l.foldl (fun best v =>
    match best with
    | none => some v
    | some b => if better v b then some v else some b) none

namespace Reading
variable (r : Reading)

/-- The value that the sources give (R171 to R173). -/
def best : Nat := (bestValue r.better (r.mine.toList ++ r.carried.toList.filterMap id)).getD r.unsourced

/-- The effective value has been handed on (R174). -/
def Told : Prop := r.handed = r.value

/-- The effective value is that of the sources, and has been handed on. -/
def Merged : Prop := r.value = r.best ∧ r.Told

/-- The reading recomputed and handed on. -/
def merge : Reading := { r with value := r.best, handed := r.best }

variable {r}
theorem Merged.told (h : r.Merged) : r.Told := h.2
theorem merge_merged : r.merge.Merged := ⟨rfl, rfl⟩
theorem merge_told : r.merge.Told := rfl
end Reading

/-- What a peer table's records carry of a reading. -/
def Pt.carried (t : Pt) (g : Peer → Option Nat) : Vector (Option Nat) 32 := t.peers.map (·.bind g)

/-- The wind (R171). -/
def State.windReading (s : State) : Reading :=
  { better := fun a b => decide (b < a), mine := s.ownWind, carried := s.pt.carried (·.wind)
    unsourced := s.params.fallbackWind, value := s.pt.wind, handed := s.biu.effWind }

/-- The level (R172). -/
def State.levelReading (s : State) : Reading :=
  { better := fun a b => decide (a < b), mine := s.ownLevel, carried := s.pt.carried (·.level)
    unsourced := 0, value := s.pt.level, handed := s.biu.effLevel }

/-- The two shared readings, wind and level. -/
def State.readings (s : State) : Reading × Reading := (s.windReading, s.levelReading)

/-! ## The value of the sources -/

/-- The value of the best source depends on the sources' values alone, and not on their positions. -/
theorem bestSource_value (better : Nat → Nat → Bool) (l : List (Nat × Nat)) :
    (bestSource better l).map (·.2) = bestValue better (l.map (·.2)) := by
  unfold bestSource bestValue
  rw [List.foldl_map]
  symm
  refine List.foldl_hom (Option.map fun x : Nat × Nat => x.2) (init := none) fun best x => ?_
  cases best with
  | none => rfl
  | some b =>
    dsimp only [Option.map_some]
    split <;> rfl

theorem Pt.sources_values (t : Pt) (own : Position) (mine : Option Nat) (g : Peer → Option Nat) :
    (t.sources own mine g).map (·.2) = mine.toList ++ (t.carried g).toList.filterMap id := by
  unfold Pt.sources Pt.carried
  rw [List.map_append, List.map_filterMap, Vector.toList_map, List.filterMap_map]
  congr 1
  · cases mine <;> rfl
  · conv_rhs => rw [← List.zipIdx_map_fst 0 t.peers.toList, List.filterMap_map]
    refine List.filterMap_congr fun x _ => ?_
    cases h : x.1.bind g <;> simp [h]

theorem State.windBest_value (s : State) :
    (s.windBest.map (·.2)).getD s.params.fallbackWind = s.windReading.best := by
  rw [State.windBest, bestSource_value, Pt.sources_values]
  rfl

theorem State.levelBest_value (s : State) : (s.levelBest.map (·.2)).getD 0 = s.levelReading.best := by
  rw [State.levelBest, bestSource_value, Pt.sources_values]
  rfl

theorem State.readingsMerged_iff {s : State} :
    s.readingsMerged ↔ s.windReading.Merged ∧ s.levelReading.Merged := by
  unfold State.readingsMerged
  rw [State.windBest_value, State.levelBest_value]
  exact ⟨fun ⟨wind, level, windTold, levelTold⟩ => ⟨⟨wind, windTold⟩, level, levelTold⟩,
    fun ⟨⟨wind, windTold⟩, level, levelTold⟩ => ⟨wind, level, windTold, levelTold⟩⟩

theorem State.readingsMerged_of_readings {s t : State} (same : t.readings = s.readings) (h : s.readingsMerged) :
    t.readingsMerged := by
  obtain ⟨wind, level⟩ := Prod.mk.inj same
  rw [State.readingsMerged_iff, wind, level]
  exact State.readingsMerged_iff.mp h

/-! ## Operations that no reading sees -/

/-- The part of the basin input unit that the readings are made of: own readings and the values handed on. -/
def Biu.gauges (b : Biu) : Biu :=
  { levelValid := b.levelValid, level := b.level, windValid := b.windValid, wind := b.wind
    effWind := b.effWind, effLevel := b.effLevel }

section
variable (s : State)

@[simp] theorem State.onTbu_readings (g : Tbu → Tbu) : (s.onTbu g).readings = s.readings := rfl
@[simp] theorem State.onCe_readings (g : Ce → Ce) : (s.onCe g).readings = s.readings := rfl
@[simp] theorem State.onHu_readings (g : Hu → Hu) : (s.onHu g).readings = s.readings := rfl
@[simp] theorem State.onLu_readings (g : Lu → Lu) : (s.onLu g).readings = s.readings := rfl
@[simp] theorem State.onAu_readings (g : Au → Au) : (s.onAu g).readings = s.readings := rfl
@[simp] theorem State.onCm_readings (g : Cm → Cm) : (s.onCm g).readings = s.readings := rfl
@[simp] theorem State.onLiu_readings (g : Liu → Liu) : (s.onLiu g).readings = s.readings := rfl
@[simp] theorem State.onSmc_readings (g : Smc → Smc) : (s.onSmc g).readings = s.readings := rfl
@[simp] theorem State.raise_readings (k : FaultKind) (d : Option FaultDetail) :
    (s.raise k d).readings = s.readings := rfl

variable {s} in
theorem State.onBiu_readings {g : Biu → Biu} (h : (g s.biu).gauges = s.biu.gauges) :
    (s.onBiu g).readings = s.readings := by
  have e : ∀ x : State, x.readings = { x with biu := x.biu.gauges }.readings := fun _ => rfl
  rw [e, e s, State.onBiu_biu, h]
  rfl

variable {s} in
theorem State.onSt_readings {g : StartUp → StartUp} (h : (g s.st).params = s.st.params) :
    (s.onSt g).readings = s.readings := by
  have e : ∀ x : State, x.readings = { x with st := { params := x.st.params } }.readings := fun _ => rfl
  rw [e, e s, State.onSt_st, h]
  rfl

variable {s} in
theorem State.readings_of_outer {t : State} (h : t.outer = s.outer) : t.readings = s.readings := by
  have e : ∀ x : State, x.readings = x.outer.readings := fun _ => rfl
  rw [e t, e s, h]

variable {s} in
theorem State.readings_of_aside {t : State} (h : t.aside = s.aside) : t.readings = s.readings :=
  State.readings_of_outer (State.outer_of_aside h)

theorem State.raiseIf_readings (p : Prop) [Decidable p] (k : FaultKind) :
    (if p then s.raise k else s).readings = s.readings := by
  split <;> rfl
end

section
variable (P : Params) (b : Biu)

theorem Biu.evalWind_gauges (w : Nat) : (b.evalWind P w).gauges = b.gauges := by
  unfold Biu.evalWind
  repeat' split
  all_goals rfl

theorem Biu.stepQuiet_gauges : (b.stepQuiet P).gauges = b.gauges := by
  unfold Biu.stepQuiet
  repeat' split
  all_goals rfl
end

theorem State.evalLevel_readings (s : State) (l : Nat) : (s.evalLevel l).readings = s.readings := by
  have dried : ((s.onBiu fun b => { b with levelState := .dry }).huDry).readings = s.readings :=
    (State.readings_of_aside (State.huDry_aside _)).trans rfl
  unfold State.evalLevel
  split
  · split
    · dsimp only
      split
      · exact dried
      · exact dried
    · rfl
  · split <;> rfl

/-! ## Recomputation (R171 to R174) -/

section
variable {s : State}

theorem State.handWind_readings (w : Nat) :
    (s.handWind w).readings = ({ s.windReading with handed := w }, s.levelReading) :=
  State.onBiu_readings (s := s.onBiu fun b => { b with effWind := w }) (Biu.evalWind_gauges _ _ _)

theorem State.handLevel_readings (l : Nat) :
    (s.handLevel l).readings = (s.windReading, { s.levelReading with handed := l }) := by
  rw [State.handLevel, State.onLu_readings, State.evalLevel_readings]
  rfl

/-- A value taken is handed on where it has changed (R174). -/
theorem State.tellWind_readings {r q : Reading} {w : Nat} (told : r.Told)
    (taken : s.readings = ({ r with value := w }, q)) :
    (if w = r.value then s else s.handWind w).readings = ({ r with value := w, handed := w }, q) := by
  split
  · rename_i unchanged
    have known : w = r.handed := unchanged.trans told.symm
    rw [taken, known]
  · obtain ⟨wind, level⟩ := Prod.mk.inj taken
    rw [State.handWind_readings, wind, level]

theorem State.tellLevel_readings {r q : Reading} {l : Nat} (told : r.Told)
    (taken : s.readings = (q, { r with value := l })) :
    (if l = r.value then s else s.handLevel l).readings = (q, { r with value := l, handed := l }) := by
  split
  · rename_i unchanged
    have known : l = r.handed := unchanged.trans told.symm
    rw [taken, known]
  · obtain ⟨wind, level⟩ := Prod.mk.inj taken
    rw [State.handLevel_readings, wind, level]

/-- A recomputation takes the value of the sources and hands it on, and leaves the other reading. -/
theorem State.recomputeWind_readings (told : s.windReading.Told) :
    s.recomputeWind.readings = (s.windReading.merge, s.levelReading) := by
  unfold State.recomputeWind
  dsimp only
  rw [State.windBest_value]
  exact State.tellWind_readings told (State.raiseIf_readings _ _ _)

theorem State.recomputeLevel_readings (told : s.levelReading.Told) :
    s.recomputeLevel.readings = (s.windReading, s.levelReading.merge) := by
  unfold State.recomputeLevel
  dsimp only
  rw [State.levelBest_value]
  exact State.tellLevel_readings told (State.raiseIf_readings _ _ _)
end
end Sys2Proof.Machine
end

