-- ==== Sys2Proof/Proofs/ReadingSources.lean ====
section
/-!
The sources of the shared readings as they change (spec/09, R167, R168; spec/10, R177, R178): own samples, beacons, the
ageing of records and corrections each leave both readings those of their sources.
-/
namespace Sys2Proof.Machine

/-! ## Recomputed where a source has changed (R171 to R173) -/

section
variable {s : State}

theorem State.recomputeWindIf_merged {p : Prop} [Decidable p] (told : s.windReading.Told)
    (same : ¬p → s.windReading.Merged) :
    (if p then s.recomputeWind else s).windReading.Merged ∧
      (if p then s.recomputeWind else s).levelReading = s.levelReading := by
  split
  · obtain ⟨wind, level⟩ := Prod.mk.inj (State.recomputeWind_readings told)
    exact ⟨wind ▸ Reading.merge_merged, level⟩
  · exact ⟨same ‹_›, rfl⟩

theorem State.recomputeLevelIf_merged {p : Prop} [Decidable p] (told : s.levelReading.Told)
    (same : ¬p → s.levelReading.Merged) :
    (if p then s.recomputeLevel else s).levelReading.Merged ∧
      (if p then s.recomputeLevel else s).windReading = s.windReading := by
  split
  · obtain ⟨wind, level⟩ := Prod.mk.inj (State.recomputeLevel_readings told)
    exact ⟨level ▸ Reading.merge_merged, wind⟩
  · exact ⟨same ‹_›, rfl⟩

/-- The wind and then the level recomputed, each where its sources may have changed. -/
theorem State.recomputeIf_merged {p q : Prop} [Decidable p] [Decidable q] (windTold : s.windReading.Told)
    (levelTold : s.levelReading.Told) (wind : ¬p → s.windReading.Merged) (level : ¬q → s.levelReading.Merged) :
    (if q then (if p then s.recomputeWind else s).recomputeLevel
      else if p then s.recomputeWind else s).readingsMerged := by
  obtain ⟨windMerged, levelSame⟩ := State.recomputeWindIf_merged windTold wind
  obtain ⟨levelMerged, windSame⟩ := State.recomputeLevelIf_merged (s := if p then s.recomputeWind else s) (p := q)
    (levelSame ▸ levelTold) (levelSame ▸ level)
  exact State.readingsMerged_iff.mpr ⟨windSame ▸ windMerged, levelMerged⟩

/-- Both recomputed, as at the end of the listen (R193). -/
theorem State.endOfListenReadings_merged (h : s.readingsMerged) : s.endOfListenReadings.readingsMerged := by
  obtain ⟨wind, level⟩ := State.readingsMerged_iff.mp h
  have merged : s.recomputeWind.recomputeLevel.readingsMerged :=
    State.recomputeIf_merged (p := True) (q := True) wind.told level.told (fun no => absurd trivial no)
      fun no => absurd trivial no
  unfold State.endOfListenReadings
  refine State.readingsMerged_of_readings ?_ merged
  dsimp only
  rw [State.raiseIf_readings, State.raiseIf_readings, State.raiseIf_readings]
end

/-! ## Own samples (R177, R178) -/

section
variable (P : Params) (b : Biu)

theorem Biu.sampleLevel_eq (i : Nat) : ∃ mean count valid level, b.sampleLevel P i =
    { b with loopMean := mean, levelCount := count, levelValid := valid, level := level } := by
  unfold Biu.sampleLevel
  split
  · exact ⟨_, _, _, _, rfl⟩
  · split
    · exact ⟨_, _, _, _, rfl⟩
    · exact ⟨_, _, _, _, rfl⟩

theorem Biu.sampleWind_eq (n : Nat) : ∃ window valid wind, b.sampleWind P n =
    { b with windWindow := window, windValid := valid, wind := wind } := by
  unfold Biu.sampleWind
  split
  · exact ⟨_, _, _, rfl⟩
  · dsimp only
    split
    · exact ⟨_, _, _, rfl⟩
    · exact ⟨_, _, _, rfl⟩
end

section
variable {s : State}

theorem State.sampleLevel_readings (P : Params) (i : Nat) :
    (s.onBiu (Biu.sampleLevel P i)).readings =
      (s.windReading, { s.levelReading with mine := (s.onBiu (Biu.sampleLevel P i)).ownLevel }) := by
  obtain ⟨mean, count, valid, level, e⟩ := s.biu.sampleLevel_eq P i
  rw [State.onBiu, e]
  rfl

theorem State.sampleWind_readings (P : Params) (n : Nat) :
    (s.onBiu (Biu.sampleWind P n)).readings =
      ({ s.windReading with mine := (s.onBiu (Biu.sampleWind P n)).ownWind }, s.levelReading) := by
  obtain ⟨window, valid, wind, e⟩ := s.biu.sampleWind_eq P n
  rw [State.onBiu, e]
  rfl

/-- An own level taken, and reported to the peer table where it has changed. -/
theorem State.levelTaken_merged {x : State} (h : s.readingsMerged)
    (taken : x.readings = (s.windReading, { s.levelReading with mine := x.ownLevel })) :
    (if x.ownLevel = s.ownLevel then x else x.recomputeLevel).readingsMerged := by
  obtain ⟨wind, level⟩ := State.readingsMerged_iff.mp h
  obtain ⟨windStays, levelTaken⟩ := Prod.mk.inj taken
  have told : x.levelReading.Told := levelTaken ▸ level.told
  have same : ¬¬x.ownLevel = s.ownLevel → x.levelReading.Merged := by
    intro same
    rw [levelTaken, not_not.mp same]
    exact level
  obtain ⟨merged, windKept⟩ := State.recomputeLevelIf_merged told same
  rw [← ite_not]
  exact State.readingsMerged_iff.mpr ⟨windKept ▸ windStays ▸ wind, merged⟩

/-- An own wind taken, and reported to the peer table where it has changed. -/
theorem State.windTaken_merged {x : State} (h : s.readingsMerged)
    (taken : x.readings = ({ s.windReading with mine := x.ownWind }, s.levelReading)) :
    (if x.ownWind = s.ownWind then x else x.recomputeWind).readingsMerged := by
  obtain ⟨wind, level⟩ := State.readingsMerged_iff.mp h
  obtain ⟨windTaken, levelStays⟩ := Prod.mk.inj taken
  have told : x.windReading.Told := windTaken ▸ wind.told
  have same : ¬¬x.ownWind = s.ownWind → x.windReading.Merged := by
    intro same
    rw [windTaken, not_not.mp same]
    exact wind
  obtain ⟨merged, levelKept⟩ := State.recomputeWindIf_merged told same
  rw [← ite_not]
  exact State.readingsMerged_iff.mpr ⟨merged, levelKept ▸ levelStays ▸ level⟩

theorem State.inputsBoundary_merged (h : s.readingsMerged) (i : BoundaryInput) :
    (s.inputsBoundary i).readingsMerged :=
  State.readingsMerged_of_readings (State.onBiu_readings (Biu.stepQuiet_gauges _ _)) <|
    State.windTaken_merged (State.levelTaken_merged h (s.sampleLevel_readings s.params i.loop))
      (State.sampleWind_readings s.params i.pulses)
end

/-! ## Peer records (R167, R168) -/

theorem Peer.older_carries {p q : Peer} (h : p.older = some q) : q.wind = p.wind ∧ q.level = p.level := by
  unfold Peer.older at h
  split at h
  · cases h
  · split at h
    · cases h
      exact ⟨rfl, rfl⟩
    · cases h
      exact ⟨rfl, rfl⟩

section
variable (t : Pt) {g : Peer → Option Nat}

/-- A record that takes the place of one with the same reading. -/
theorem Pt.carried_set {q : Position} {p : Peer} (same : t.peers[q].bind g = g p) :
    { t with peers := t.peers.set q (some p) }.carried g = t.carried g := by
  refine Vector.ext fun i hi => ?_
  simp only [Pt.carried, Vector.getElem_map, Vector.getElem_set]
  split
  · rename_i here
    subst here
    exact same.symm
  · rfl

/-- Ageing that clears no record with a reading. -/
theorem Pt.carried_aged (older : ∀ p q : Peer, p.older = some q → g q = g p) (kept : ∀ p ∈ t.leaving, g p = none) :
    { t with peers := t.aged }.carried g = t.carried g := by
  refine Vector.ext fun i hi => ?_
  simp only [Pt.carried, Pt.aged, Vector.getElem_map, Vector.getElem_ofFn]
  show (t.peers[i].bind Peer.older).bind g = _
  cases held : t.peers[i] with
  | none => rfl
  | some p =>
    rw [Option.bind_some, Option.bind_some]
    cases left : p.older with
    | none =>
      have leaves : p ∈ t.leaving := by
        refine List.mem_filterMap.mpr ⟨some p, held ▸ Vector.mem_toList_iff.mpr (Vector.getElem_mem hi), ?_⟩
        simp [left]
      exact (kept p leaves).symm
    | some q => exact older p q left

theorem Pt.reduceSamples_wind (c : Int) : (t.reduceSamples c).wind = t.wind := by rw [Pt.reduceSamples]
theorem Pt.reduceSamples_level (c : Int) : (t.reduceSamples c).level = t.level := by rw [Pt.reduceSamples]

theorem Pt.carried_reduceSamples (c : Int) (blind : ∀ (p : Peer) (x : Option Int), g { p with sample := x } = g p) :
    (t.reduceSamples c).carried g = t.carried g := by
  refine Vector.ext fun i hi => ?_
  simp only [Pt.carried, Pt.reduceSamples, Vector.getElem_map, Vector.getElem_ofFn]
  show (t.peers[i].map _).bind g = _
  cases t.peers[i] with
  | none => rfl
  | some p => exact blind p _
end

section
variable {s : State}

theorem State.onPt_windReading {g : Pt → Pt} (value : (g s.pt).wind = s.pt.wind) :
    (s.onPt g).windReading = { s.windReading with carried := (g s.pt).carried (·.wind) } := by
  unfold State.windReading
  rw [State.onPt_pt, value]
  rfl

theorem State.onPt_levelReading {g : Pt → Pt} (value : (g s.pt).level = s.pt.level) :
    (s.onPt g).levelReading = { s.levelReading with carried := (g s.pt).carried (·.level) } := by
  unfold State.levelReading
  rw [State.onPt_pt, value]
  rfl

/-- The records changed, and each reading recomputed where what they carry of it may have changed. -/
theorem State.recordsChanged_merged (h : s.readingsMerged) {g : Pt → Pt} (windValue : (g s.pt).wind = s.pt.wind)
    (levelValue : (g s.pt).level = s.pt.level) {p q : Prop} [Decidable p] [Decidable q]
    (windSame : ¬p → (g s.pt).carried (·.wind) = s.pt.carried (·.wind))
    (levelSame : ¬q → (g s.pt).carried (·.level) = s.pt.carried (·.level)) :
    (if q then (if p then (s.onPt g).recomputeWind else s.onPt g).recomputeLevel
      else if p then (s.onPt g).recomputeWind else s.onPt g).readingsMerged := by
  obtain ⟨wind, level⟩ := State.readingsMerged_iff.mp h
  refine State.recomputeIf_merged ?_ ?_ (fun same => ?_) fun same => ?_
  · rw [State.onPt_windReading windValue]
    exact wind.told
  · rw [State.onPt_levelReading levelValue]
    exact level.told
  · rw [State.onPt_windReading windValue, windSame same]
    exact wind
  · rw [State.onPt_levelReading levelValue, levelSame same]
    exact level

theorem State.recordBeacon_merged (h : s.readingsMerged) (q : Position) (f : BeaconFields) (sof : Int) :
    (s.recordBeacon q f sof).readingsMerged := by
  unfold State.recordBeacon
  dsimp only
  rw [← ite_not, ← ite_not (p := (s.pt.peers[q].bind fun p => p.wind) = _)]
  exact State.recordsChanged_merged h rfl rfl (fun same => Pt.carried_set _ (not_not.mp same)) fun same =>
    Pt.carried_set _ (not_not.mp same)

theorem State.agePeers_merged (h : s.readingsMerged) : s.agePeers.readingsMerged := by
  have unread : ∀ {g : Peer → Option Nat}, ¬(s.pt.leaving.any fun p => (g p).isSome) = true →
      ∀ p ∈ s.pt.leaving, g p = none := by
    intro g none_ p leaves
    simpa using fun carries => none_ (List.any_eq_true.mpr ⟨p, leaves, carries⟩)
  unfold State.agePeers
  exact State.recordsChanged_merged h rfl rfl
    (fun same => s.pt.carried_aged (fun _ _ e => (Peer.older_carries e).1) (unread same))
    fun same => s.pt.carried_aged (fun _ _ e => (Peer.older_carries e).2) (unread same)

/-- A correction moves samples and leaves what the records carry (R6). -/
theorem State.reduceSamples_readings (s : State) (c : Int) : (s.onPt (Pt.reduceSamples c)).readings = s.readings := by
  have wind : (s.onPt (Pt.reduceSamples c)).windReading = s.windReading := by
    rw [State.onPt_windReading (s.pt.reduceSamples_wind c), Pt.carried_reduceSamples _ _ fun _ _ => rfl]
    rfl
  have level : (s.onPt (Pt.reduceSamples c)).levelReading = s.levelReading := by
    rw [State.onPt_levelReading (s.pt.reduceSamples_level c), Pt.carried_reduceSamples _ _ fun _ _ => rfl]
    rfl
  rw [State.readings, wind, level, State.readings]

theorem State.correct_readings (k : Nat) (c : Int) : (s.correct k c).readings = s.readings := by
  rw [State.correct, State.onLiu_readings, State.reduceSamples_readings, State.onTbu_readings]
end

end Sys2Proof.Machine
end

