-- ==== Sys2Proof/Proofs/ReadingsApart.lean ====
section
/-!
What leaves the shared readings (spec/09): link, memory controller, content map, pumps, voices, the show and a reset
point, command by command.
-/
namespace Sys2Proof.Machine

section
variable (s : State)

theorem State.readings_ite {t : State} {p : Prop} [Decidable p] (same : t.readings = s.readings) :
    (if p then t else s).readings = s.readings := by
  split
  · exact same
  · rfl

/-! ## The content map -/

@[simp] theorem State.issueMap_readings : s.issueMap.readings = s.readings := State.readings_of_aside s.issueMap_aside
@[simp] theorem State.initMap_readings : s.initMap.readings = s.readings := State.readings_of_aside s.initMap_aside
@[simp] theorem State.queueRequest_readings : s.queueRequest.readings = s.readings :=
  State.readings_of_aside s.queueRequest_aside
@[simp] theorem State.release_readings (gs : List Nat) : (s.release gs).readings = s.readings :=
  State.readings_of_aside (s.release_aside gs)
@[simp] theorem State.raiseStoreFull_readings (g q : Nat) : (s.raiseStoreFull g q).readings = s.readings := rfl
@[simp] theorem State.openFill_readings (g q p : Nat) (f : Bool) : (s.openFill g q p f).readings = s.readings :=
  State.readings_of_aside (s.openFill_aside g q p f)
@[simp] theorem State.makeChange_readings (x : Change) : (s.makeChange x).readings = s.readings :=
  State.readings_of_aside (s.makeChange_aside x)

@[simp] theorem State.releaseIfDefined_readings (g : Nat) : (s.releaseIfDefined g).readings = s.readings :=
  State.readings_ite s (s.release_readings _)

@[simp] theorem State.feedPage_readings (g q : Nat) (f : PageDataFields) :
    (s.feedPage g q f).readings = s.readings := by
  unfold State.feedPage
  split
  · unfold State.feed
    dsimp only
    split <;> rfl
  · rfl

theorem State.takeSelect_readings (n : Nat) : (s.takeSelect n).readings = s.readings := by
  unfold State.takeSelect
  repeat' split
  · rfl
  · rfl
  · rfl
  · rw [State.onCm_readings, State.release_readings]

theorem State.takeDefine_readings (f : SegmentDefineFields) : (s.takeDefine f).readings = s.readings := by
  unfold State.takeDefine
  dsimp only
  repeat' split
  · rfl
  · rfl
  · exact s.releaseIfDefined_readings _
  · rfl
  · rw [State.define, State.issueMap_readings, State.onCm_readings, State.releaseIfDefined_readings]

theorem State.takePageData_readings (f : PageDataFields) : (s.takePageData f).readings = s.readings := by
  unfold State.takePageData
  dsimp only
  repeat' split
  all_goals simp [State.mapFault]

theorem State.fetchExpired_readings (f : Fill) : (s.fetchExpired f).readings = s.readings := by
  unfold State.fetchExpired
  split <;> simp

theorem State.startSending_readings (r : Serve) : (s.startSending r).readings = s.readings :=
  State.readings_of_aside (((State.serveAnswer_aside _ _ _).trans (State.serveLookup_aside _ _)).trans (s.onCm_aside _))

theorem State.issueServeRead_readings (r : Serve) : (s.issueServeRead r).readings = s.readings := by
  unfold State.issueServeRead
  split <;> rfl

theorem State.chunkDone_readings : s.chunkDone.readings = s.readings := by
  unfold State.chunkDone
  dsimp only
  split <;> simp

theorem State.serveReadDone_readings (id : Nat) (bytes : List Byte) :
    (s.serveReadDone id bytes).readings = s.readings := by
  unfold State.serveReadDone
  split
  · split <;> rfl
  · rfl

theorem State.completion_readings (c : ReqClass) {act : State → Report → State}
    (keep : ∀ x r, (act x r).readings = x.readings) : (s.completion c act).readings = s.readings := by
  unfold State.completion
  split
  · rw [keep, State.onSmc_readings]
  · rfl

/-! ## Link and memory controller -/

theorem State.abortTransmission_readings : s.abortTransmission.readings = s.readings := by
  unfold State.abortTransmission
  dsimp only
  split <;> rfl

theorem State.dataOut_readings : s.dataOut.readings = s.readings := by
  unfold State.dataOut
  split
  · dsimp only
    split <;> rfl
  · rfl

theorem State.requestOut_readings : s.requestOut.readings = s.readings := by
  unfold State.requestOut
  split <;> rfl

theorem State.memoryReady_readings : s.memoryReady.readings = s.readings := by
  unfold State.memoryReady
  dsimp only
  split <;> split
  · exact State.initMap_readings _
  · rfl
  · exact State.initMap_readings _
  · rfl

theorem State.handWords_readings : s.handWords.readings = s.readings := by
  obtain ⟨g, e⟩ := s.handWords_onAu
  rw [e, State.onAu_readings]

theorem State.oscTick_readings : s.oscTick.readings = s.readings := by
  have counted : (s.countUnderruns (s.au.tau s.tbu.basinTime)).readings = s.readings := by
    rw [s.countUnderruns_eq, State.onBiu_readings rfl]
  unfold State.oscTick
  split
  · rfl
  · exact counted

theorem State.huClaimOut_readings (n : Channel) : (s.huClaimOut n).readings = s.readings := by
  unfold State.huClaimOut
  dsimp only
  split
  · split <;> rfl
  · rfl

/-! ## Frames heard -/

theorem State.positionConflict_readings : s.positionConflict.readings = s.readings := by
  rw [State.positionConflict_eq, State.onCe_readings, State.readings_of_outer (State.enterStandby_outer _)]
  rfl

theorem State.received_readings (p : Position) {deliver : State → State}
    (keep : ∀ x : State, (deliver x).readings = x.readings) : (s.received p deliver).readings = s.readings := by
  rcases s.received_cases p deliver with e | e | e <;> rw [e]
  · exact s.afterFrame.positionConflict_readings
  · exact keep s.afterFrame

theorem State.received_readings_of_outer (p : Position) {deliver : State → State}
    (keep : ∀ x : State, (deliver x).outer = x.outer) : (s.received p deliver).readings = s.readings :=
  s.received_readings p fun x => State.readings_of_outer (keep x)

theorem State.hearGo_readings (n t0 : Nat) : (s.hearGo n t0).readings = s.readings :=
  State.readings_ite s ((State.readings_of_outer (State.cueGo_outer _ n)).trans (s.onTbu_readings _))

theorem State.hearStopAssert_readings : s.hearStopAssert.readings = s.readings :=
  (State.readings_of_outer (State.haltRequest_outer _)).trans (s.onTbu_readings _)

theorem State.huPeerClaim_readings : s.huPeerClaim.readings = s.readings := by
  unfold State.huPeerClaim
  dsimp only
  split <;> rfl

theorem State.intoIntake_readings (f : ContentFrame) : (s.intoIntake f).readings = s.readings := by
  unfold State.intoIntake
  split <;> rfl

theorem State.hearShowSelect_readings (n : Byte) : (s.hearShowSelect n).readings = s.readings := by
  unfold State.hearShowSelect
  split
  · exact s.intoIntake_readings _
  · exact s.intoIntake_readings _
  · rfl

theorem State.hearPageData_readings (p : Position) (f : PageDataFields) :
    (s.hearPageData p f).readings = s.readings := by
  rw [State.hearPageData, State.intoIntake_readings, State.readings_of_aside (s.dropServes_aside _)]

theorem State.answerQuery_readings (target tag : Byte) (sel : Nat) (snap : State → List Byte) :
    (s.answerQuery target tag sel snap).readings = s.readings := by
  unfold State.answerQuery
  split <;> rfl

/-- A reset point leaves every reading until the configuration has been read (R194). -/
theorem State.resetPoint_readings (cause : ResetCause) (next : Phase) :
    (s.resetPoint cause next).readings = s.readings := by
  have quiet : s.quiesce.readings = s.readings := by
    simp only [State.quiesce, State.onCe_readings, State.onCm_readings, State.onLiu_readings, State.onAu_readings,
      State.onLu_readings, State.onHu_readings]
  exact (State.onSt_readings rfl).trans quiet
end

/-! ## Commands -/

/-- The commands of link, memory controller and content map. -/
theorem exec_readings_of_standing {c : Instr} (h : standing? c = true) {s t : State} (e : exec c s = .next t) :
    t.readings = s.readings := by
  cases c <;> simp only [standing?, reduceCtorEq] at h
  case grantPoint =>
    simp only [exec, execGrantPoint] at e
    split at e
    · cases e
    · cases e
      rw [State.onSmc_readings, State.handWords_readings]
  all_goals cases e
  case spacingTimerExpiry => exact s.readings_ite (State.readings_of_aside s.queueClaim_aside)
  case definitionAnswer => exact s.readings_ite (State.readings_of_aside s.answerDefinition_aside)
  case rowReadComplete => exact s.completion_readings _ fun x _ => State.readings_of_aside (x.rowReadDone_aside _)
  case mapRegionAccessComplete =>
    exact s.readings_ite (s.completion_readings _ fun x _ => State.readings_of_aside x.mapAccessDone_aside)
  case queuedChangeApply =>
    split
    · exact s.readings_ite (State.readings_of_aside (State.applyChange_aside _ _))
    · rfl
  case showSelectTaken =>
    split
    · exact s.readings_ite (State.takeSelect_readings _ _)
    · rfl
  case segmentDefineTaken =>
    split
    · exact s.readings_ite (State.takeDefine_readings _ _)
    · rfl
  case pageDataTaken =>
    split
    · exact s.readings_ite (State.takePageData_readings _ _)
    · rfl
  case chunkWriteComplete => exact s.completion_readings _ fun x _ => x.chunkDone_readings
  case fetchTimerExpiry =>
    split
    · exact s.readings_ite (State.fetchExpired_readings _ _)
    · rfl
  case pageRequestQueue => exact s.readings_ite s.queueRequest_readings
  case pageRequestGoneOut =>
    split
    · exact s.requestOut_readings
    · rfl
  case serveDelayEnd =>
    split
    · exact s.readings_ite (State.startSending_readings _ _)
    · rfl
  case serveReadIssue =>
    split
    · exact s.readings_ite (State.issueServeRead_readings _ _)
    · rfl
  case serveReadComplete => exact s.completion_readings _ fun x _ => x.serveReadDone_readings _ _
  case pageDataGoneOut =>
    split
    · exact s.dataOut_readings
    · rfl
  case initModeEnd => exact s.readings_ite (State.memoryReady_readings _)
  case transmitError => exact s.readings_ite s.abortTransmission_readings
  case frameDiscarded =>
    split
    · exact s.readings_ite rfl
    all_goals rfl
  case initWaitEnd | transmitStart | yieldIdleExpiry | stopInputInactive | feedbackChange => exact s.readings_ite rfl
  case contentEnd | initPrechargeEnd | initRefreshEnd | debtRise | bankActivateDone | bankPrechargeDone => rfl
  case beaconGoneOut | stopAssertGoneOut | statusReplyGoneOut => split <;> rfl

/-- The commands that neither mark a boundary nor bring a beacon, power or a configuration. -/
theorem exec_readings {c : Instr} {s t : State} (e : exec c s = .next t) (boundary : boundary? c = false)
    (beacon : ∀ p f x, c ≠ .beacon p f x) (power : ∀ a b d, c ≠ .powerOn a b d)
    (config : ∀ r, c ≠ .configReadComplete r) : t.readings = s.readings := by
  refine (Bool.eq_false_or_eq_true (standing? c)).elim
    (fun stands => exec_readings_of_standing stands e) fun stands => ?_
  cases c <;> simp only [standing?, boundary?, reduceCtorEq] at stands boundary
  all_goals cases e
  case powerOn => exact absurd rfl (power _ _ _)
  case configReadComplete => exact absurd rfl (config _)
  case beacon => exact absurd rfl (beacon _ _ _)
  case resetPinAssert => exact s.readings_ite (s.resetPoint_readings _ _)
  case resetPinRelease => exact s.readings_ite rfl
  case resetStation =>
    exact s.received_readings _ fun x => x.readings_ite (x.resetPoint_readings .resetStation .reading)
  case outputPair => exact s.oscTick_readings
  case t0Reached => exact s.readings_ite (State.readings_of_outer (s.takeT0_outer _))
  case endActionDue => exact s.readings_ite (State.readings_of_outer (s.takeEnd_outer _))
  case wake => exact s.received_readings_of_outer _ State.hearWake_outer
  case standby => exact s.received_readings_of_outer _ State.hearStandby_outer
  case go => exact s.received_readings _ fun x => x.hearGo_readings _ _
  case hold | resume => exact s.received_readings _ fun x => x.readings_ite rfl
  case stop => exact s.received_readings_of_outer _ fun x => x.hearStop_outer _
  case stopAssert => exact s.received_readings _ State.hearStopAssert_readings
  case clearHalt => exact s.received_readings_of_outer _ State.hearClearHalt_outer
  case trigger => exact s.received_readings_of_outer _ fun x => x.hearTrigger_outer _ _
  case clearFaults => exact s.received_readings _ fun x => x.readings_ite rfl
  case showSelect => exact s.received_readings _ fun x => x.hearShowSelect_readings _
  case startClaim => exact s.received_readings _ State.huPeerClaim_readings
  case segmentDefine => exact s.received_readings _ fun x => x.intoIntake_readings _
  case pageData => exact s.received_readings _ fun x => x.hearPageData_readings _ _
  case pageRequest => exact s.received_readings _ fun x => x.readings_ite rfl
  case statusReply => exact s.received_readings _ fun _ => rfl
  case statusQueryGeneral | statusQueryPumps | statusQueryFixtures | statusQueryPeers | statusQueryMemory
      | statusQueryFaults =>
    exact s.received_readings _ fun x => x.answerQuery_readings _ _ _ _
  case statusQueryUnknownSelector => exact s.received_readings _ fun x => x.readings_ite (x.readings_ite rfl)
  case cueReadComplete => exact s.completion_readings _ fun x _ => State.readings_of_outer (x.cueReadDone_outer _)
  case walkComplete =>
    split
    · exact s.completion_readings _ fun x _ => State.readings_of_outer (x.walkDone_outer _ _)
    · rfl
  case claimGoneOut =>
    split
    · exact State.huClaimOut_readings (s.onLiu _) _
    · rfl
  case stopInputActive =>
    split
    · dsimp only
      split
      · rw [State.onLiu_readings, State.readings_of_outer (State.haltRequest_outer _)]
        rfl
      · rfl
    · rfl

end Sys2Proof.Machine
end

