-- ==== Sys2Proof/Proofs/ReadingsMerged.lean ====
section
/-!
The shared readings through a step (spec/09, R171 to R174): boundaries, resets and every command.
-/
namespace Sys2Proof.Machine

/-! ## Boundaries -/

section
variable {s : State} (h : s.readingsMerged)
include h

theorem State.readingsMerged_of_outer {t : State} (same : t.outer = s.outer) : t.readingsMerged :=
  State.readingsMerged_of_readings (State.readings_of_outer same) h

theorem State.beaconBoundary_merged (k : Nat) : (s.beaconBoundary k).readingsMerged := by
  have aged := State.agePeers_merged h
  unfold State.beaconBoundary
  split
  · exact h
  · dsimp only
    split
    · exact State.readingsMerged_of_readings ((State.correct_readings _ _).trans (State.onTbu_readings _ _)) aged
    · exact State.readingsMerged_of_readings (State.onTbu_readings _ _) aged

omit h in
theorem State.listenStep_readings (k : Nat) : (s.listenStep k).readings = s.readings := by
  unfold State.listenStep
  split
  · exact State.correct_readings _ _
  · split <;> rfl

/-- The readings are recomputed at the end of a listen (R193). -/
theorem State.endListen_merged (k : Nat) : (s.endListen k).readingsMerged := by
  have stepped := State.readingsMerged_of_readings (s.listenStep_readings k) h
  have recomputed := State.endOfListenReadings_merged (State.readingsMerged_of_readings
    ((s.listenStep k).onTbu_readings fun t => { t with basinTime := k * 960 }) stepped)
  refine State.readingsMerged_of_readings ?_ recomputed
  unfold State.endListen State.atReading
  dsimp only
  split
  · rw [State.enterWarmup, State.onTbu_readings, State.onSt_readings rfl, State.onTbu_readings]
  · rw [State.onSt_readings rfl, State.onTbu_readings]

theorem State.countListen_merged (k : Nat) : (s.countListen k).readingsMerged := by
  have counted : (s.onSt fun t => { t with listen := t.listen + 1 }).readingsMerged := h
  unfold State.countListen
  split
  · dsimp only
    split
    · exact State.endListen_merged counted k
    · exact counted
  · exact h

theorem State.transitions_merged (k bt : Nat) (st : ShowState) : (s.transitions k bt st).readingsMerged := by
  have repeated : s.stopRepeat.readingsMerged := by
    unfold State.stopRepeat
    split
    · exact State.readingsMerged_of_outer (t := s.haltRequest) h s.haltRequest_outer
    · exact h
  have counted : (if st = .warmup then s.stopRepeat.countWarmup else s.stopRepeat).readingsMerged := by
    split
    · exact State.readingsMerged_of_outer repeated (State.countWarmup_outer _)
    · exact repeated
  refine State.readingsMerged_of_outer (State.countListen_merged counted k) ?_
  unfold State.transitions
  dsimp only
  split <;> split <;>
    simp only [State.checkEnding_outer, State.takeResume_outer, State.takeHold_outer, State.takeEnd_outer,
      State.takeT0_outer]

theorem State.markBoundary_merged (i : BoundaryInput) : (s.markBoundary i).readingsMerged := by
  by_cases due : s.boundaryDue = true
  · by_cases live : s.live = true
    · obtain ⟨c, e⟩ := State.markBoundary_eq live due i
      have begun : (s.beginBoundary s.nextFrame).readingsMerged := h
      have ready := State.beaconBoundary_merged (State.inputsBoundary_merged begun i) s.nextFrame
      have moved : (s.afterTransitions i).readingsMerged :=
        State.transitions_merged ready s.nextFrame s.nextBoundary s.tbu.state
      have placed : ((s.afterTransitions i).placeBeacon s.nextFrame (s.st.phase == .up)).readings =
          (s.afterTransitions i).readings := State.readings_ite _ rfl
      rw [e]
      exact State.readingsMerged_of_readings ((State.readings_of_outer
        (State.atReading_passes_outer _ _ _ _ _ _ _)).trans placed) moved
    · rw [State.markBoundary, if_neg (by simp [due]), if_neg live]
      exact State.readingsMerged_of_readings (s.onTbu_readings _) h
  · rw [State.markBoundary_not_due (by simpa using due)]
    exact h

theorem exec_boundary_merged {c : Instr} (boundary : boundary? c = true) {t : State} (e : exec c s = .next t) :
    t.readingsMerged := by
  have marks : ∀ i (x : State), x = s.markBoundary i ∨ x = s → x.readingsMerged := by
    rintro i x (rfl | rfl)
    · exact State.markBoundary_merged h i
    · exact h
  cases c <;> simp only [boundary?, reduceCtorEq] at boundary
  all_goals cases e
  case frameBoundary => exact State.markBoundary_merged h _
  case restExpiry | stoppingDriveZero => exact marks _ _ (s.markAsPumpGoes_cases _ _ _ _)
  all_goals exact marks _ _ (s.markWhen_cases _ _)
end

/-! ## Resets (R175, R188) -/

/-- A reading without a source takes the value of none. -/
theorem Reading.merged_of_unsourced {t : Pt} (empty : t.peers = Vector.replicate 32 none) (better : Nat → Nat → Bool)
    (g : Peer → Option Nat) (n : Nat) : Reading.Merged
      { better := better, mine := none, carried := t.carried g, unsourced := n, value := n, handed := n } := by
  refine ⟨?_, rfl⟩
  simp [Reading.best, Pt.carried, empty, bestValue]

theorem State.readings_of_unissued {s t : State} (same : t.unissued = s.unissued) : t.readings = s.readings := by
  have e : ∀ x : State, x.readings = x.unissued.readings := fun _ => rfl
  rw [e t, e s, same]

theorem State.takeConfig_merged (s : State) (r : List Byte) : (s.takeConfig r).readingsMerged := by
  have configured : (s.configured r).readingsMerged := State.readingsMerged_iff.mpr
    ⟨Reading.merged_of_unsourced rfl _ _ _, Reading.merged_of_unsourced rfl _ _ _⟩
  exact State.readingsMerged_of_readings (State.readings_of_unissued (s.takeConfig_unissued r)) configured

theorem State.powerUp_merged (s : State) (strap : Position) (stopOpen : Bool) (contacts : BitVec 8) :
    (s.powerUp strap stopOpen contacts).readingsMerged := by
  obtain ⟨-, -, -, -, reset, -⟩ := resetMeetsInvariants
  exact State.readingsMerged_of_readings rfl reset

/-! ## Commands -/

theorem exec_beacon_merged {p : Position} {f : BeaconFields} {x : Nat} {s t : State} (h : s.readingsMerged)
    (e : exec (.beacon p f x) s = .next t) : t.readingsMerged := by
  cases e
  rcases s.received_cases p fun y => y.recordBeacon p f (s.frameStamp x) with heard | heard | heard <;> rw [heard]
  · exact h
  · exact State.readingsMerged_of_readings s.afterFrame.positionConflict_readings h
  · exact State.recordBeacon_merged (s := s.afterFrame) h _ _ _

theorem exec_merged {c : Instr} {s t : State} (h : s.readingsMerged) (e : exec c s = .next t) : t.readingsMerged := by
  refine (Bool.eq_false_or_eq_true (boundary? c)).elim (fun b => exec_boundary_merged h b e) fun boundary => ?_
  by_cases beacon : ∃ p f x, c = .beacon p f x
  · obtain ⟨p, f, x, rfl⟩ := beacon
    exact exec_beacon_merged h e
  by_cases power : ∃ a b d, c = .powerOn a b d
  · obtain ⟨a, b, d, rfl⟩ := power
    cases e
    exact s.powerUp_merged a b d
  by_cases config : ∃ r, c = .configReadComplete r
  · obtain ⟨r, rfl⟩ := config
    cases e
    split
    · exact s.takeConfig_merged r
    · exact h
  exact State.readingsMerged_of_readings (exec_readings e boundary (fun p f x no => beacon ⟨p, f, x, no⟩)
    (fun a b d no => power ⟨a, b, d, no⟩) fun r no => config ⟨r, no⟩) h

/-- Settles O57: each command keeps the condition, and a step runs one. -/
theorem readingsStayMerged : Obligations.ReadingsStayMerged := by
  intro s t h e
  unfold step at e
  split at e
  · cases e
    exact h
  · rename_i rest _
    exact exec_merged (s := { s with pending := rest }) h e

end Sys2Proof.Machine
end
